-- ==== Sys2Proof/Word.lean ====
section
/-! DEFINITION. The word types of the Lomzer LZ9 model: plain widths only, no arithmetic of their own. -/

namespace Sys2Proof

/-- A byte of memory. -/
abbrev Byte := BitVec 8

/-- A lane's 32-bit value (R57). -/
abbrev Word := BitVec 32

/-- A 64-bit value: a uniform register, a special register, an address computation (R58, R65). -/
abbrev DWord := BitVec 64

/-- An instruction index (R75). -/
abbrev II := BitVec 48

/-- A mask of lanes of one group: bit l is lane l. -/
abbrev Mask := BitVec 64

/-- One 96-bit instruction (R81): bit 0 is the least significant bit of its first byte. -/
abbrev IWord := BitVec 96

end Sys2Proof
end

