-- ==== Sys2Proof/Syntax.lean ====
section
/-! DEFINITION. The syntax of the Lomzer LZ9: one constructor for each row of the opcode table. The rows NOP to
DBGMB are Zynvar instructions with typed operand fields (R81 to R96); the rows INSTRUCTION_LINE_FETCH to
CLOCK_NOT_LIMITED are the device's own steps and the steps of its surroundings, whose arguments name the agent
that moves and the choice it makes. -/

namespace Sys2Proof

/-- A program-counter slot of a group (R32). -/
inductive Slot where
  | a | b
deriving DecidableEq, Repr, Inhabited

/-- The guard of an instruction: `none` when G = 0, else the guard slot GS (R81). -/
abbrev Guard := Option (BitVec 3)

/-- A source operand (R83): a queue age (field value, age - 1) with its final-use mark, a named register, a
uniform register or a special selector (R84). -/
inductive Src where
  | q (age : BitVec 4) (last : Bool)
  | n (i : BitVec 6)
  | k (i : BitVec 7)
  | sel (s : BitVec 8)
deriving DecidableEq, Repr

/-- A destination (R86): queue push, named register recorded or dead-hinted, uniform register, discard, or
the push register of engine queue `e` (special 0x10 + e). -/
inductive Dst where
  | push
  | recd (i : BitVec 6)
  | dead (i : BitVec 6)
  | uni (i : BitVec 7)
  | discard
  | eng (e : BitVec 3)
deriving DecidableEq, Repr

/-- The integer types of MD[2:0] (R92, R144). -/
inductive IType where
  | s8 | b8 | s16 | b16 | s32 | b32
deriving DecidableEq, Repr

/-- The element formats of R92. -/
inductive Fmt where
  | s8 | b8 | s16 | b16 | s32 | b32 | f16 | bf16 | f32 | e4m3 | e5m2 | a80
deriving DecidableEq, Repr

/-- Rounding modes (R96). -/
inductive Rm where
  | rne | rtz | rdn | rup
deriving DecidableEq, Repr

/-- The comparison codes of CMP (R350). -/
inductive Cc where
  | eq | ne | lt | le | gt | ge
deriving DecidableEq, Repr

/-- The comparison codes of FCMP (R381). -/
inductive FCc where
  | eq | ne | lt | le | gt | ge | unord
deriving DecidableEq, Repr

/-- The condition of a BRA with the operands it reads (R89, R359). -/
inductive BraCond where
  | al
  | nz (a : Src)
  | z (a : Src)
  | lt (a b : Src)
  | ge (a b : Src)
  | ltu (a b : Src)
  | geu (a b : Src)
  | eq (a b : Src)
  | ne (a b : Src)
deriving DecidableEq, Repr

/-- The target of JMP and CALL (R360, R390). -/
inductive Target where
  | rel (off : BitVec 32)
  | abs (k : BitVec 7) (off : BitVec 32)
deriving DecidableEq, Repr

/-- The value of a MOV (R404). -/
inductive MovSrc where
  | src (a : Src)
  | imm (v : BitVec 32)
deriving DecidableEq, Repr

/-- The modes of SHFL (R427). -/
inductive ShflMode where
  | idx | up | down | xor
deriving DecidableEq, Repr

/-- The modes of VOTE (R429). -/
inductive VoteMode where
  | any | all | ballot
deriving DecidableEq, Repr

/-- The operations of REDU and SCAN (R408). -/
inductive RedOp where
  | add | minS | maxS | minB | maxB | and | or | xor | fadd | fmin | fmax
deriving DecidableEq, Repr

/-- The operations of ATOM (R356). -/
inductive AtomOp where
  | add | minS | maxS | minB | maxB | and | or | xor | exch | cas | fadd
deriving DecidableEq, Repr

/-- The operations of TCOLOP (R440). -/
inductive ColOp where
  | add | sub | mul | fma | min | max | and | or | xor | cvt
deriving DecidableEq, Repr

/-- The kinds of FENCE (R384). -/
inductive FenceKind where
  | acq | rel | ar
deriving DecidableEq, Repr

/-- The kinds of tile (R169, R437). -/
inductive TileKind where
  | plain | ring | frame
deriving DecidableEq, Repr

/-- The operations of TRING (R174). -/
inductive RingOp where
  | init | reg | reserve | commit | acquire | release | eos | state
deriving DecidableEq, Repr

/-- The modes of REV (R420). -/
inductive RevMode where
  | h | c | x
deriving DecidableEq, Repr

/-- The target of REV (R420). -/
inductive RevTarget where
  | imm (v : BitVec 32)
  | k (i : BitVec 7)
deriving DecidableEq, Repr

/-- The actions of GSET with the operand that .set reads (R385). -/
inductive GAct where
  | pend
  | set (a : Src)
  | clear
deriving DecidableEq, Repr

/-- The address spaces of format M (R88). -/
inductive Space where
  | dev | priv | host
deriving DecidableEq, Repr

/-- The address fields of format M (R88). `size` is log2 of the bytes. -/
structure MemOp where
  off   : BitVec 16
  ord   : Bool
  size  : BitVec 3
  space : Space
  scale : BitVec 2
  kb    : BitVec 7
  sa    : Src
deriving DecidableEq, Repr

/-- The slice fields of format T (R90). -/
structure Slice where
  th  : BitVec 6
  ax  : Bool
  kie : Bool
  ki  : BitVec 7
  idx : BitVec 10
deriving DecidableEq, Repr

/-- The barrier and pair fields that every matrix command carries (R91). -/
structure MxCommon where
  pair : Bool
  be   : Bool
  bar  : BitVec 8
deriving DecidableEq, Repr

/-- What goes wrong with the bits of a sector, by its number, when its dome reads it: an input from outside the machine
(R298, R309, R311). -/
inductive BitErr where
  | none
  | corrected (sector : Nat)
  | uncorrectable (sector : Nat)
  | remap (sector : Nat)
deriving DecidableEq, Repr

/-- A translation that walks the page tables: the core that missed, or that made the access, and the context (R294, R295). -/
structure Walker where
  core : Nat
  ctx  : Nat
deriving DecidableEq, Repr

/-- A queue that the distributor takes packets from (R28, R391): host queue `n`, to which the driver may submit a packet, by
its context and address, just before; or a device launch queue. -/
inductive QueueId where
  | host (n : Nat) (submit : Option (Nat × Nat))
  | dev (ctx q : Nat)
deriving DecidableEq, Repr

/-- What an access from outside asks: a read, a write of these bytes, or, of a peer, an ATOM with its operand (R314, R316). -/
inductive OutOp where
  | read
  | write (bytes : List Byte)
  | atom (op : AtomOp) (operand : List Byte)
deriving DecidableEq, Repr

/-- An access of the host or of a peer to device memory (R314, R316). -/
structure OutAccess where
  ctx  : Nat
  va   : Nat
  len  : Nat
  op   : OutOp
deriving DecidableEq, Repr

/-- A link of the part (R17, R316). -/
inductive LinkId where
  | host
  | port (p : Nat)
deriving DecidableEq, Repr

/-- One constructor per row of the opcode table. -/
inductive Instr where
  -- transfers (0x00 to 0x09)
  | nop (g : Guard)
  | bra (g : Guard) (c : BraCond) (joff : BitVec 16) (off : BitVec 32)
  | jmp (g : Guard) (t : Target)
  | call (g : Guard) (link : Dst) (t : Target)
  | ret (g : Guard) (k : BitVec 7)
  | loop (g : Guard) (c : BitVec 6) (off : BitVec 32)
  | exit (g : Guard)
  | brk (g : Guard) (imm : BitVec 32)
  | trap (g : Guard) (imm : BitVec 32)
  | uiret
  -- in-place updates (0x10 to 0x18)
  | addin (g : Guard) (d : BitVec 6) (a : Src)
  | subin (g : Guard) (d : BitVec 6) (a : Src)
  | xorin (g : Guard) (d : BitVec 6) (a : Src)
  | rolin (g : Guard) (d : BitVec 6) (a : Src)
  | negin (g : Guard) (d : BitVec 6)
  | notin (g : Guard) (d : BitVec 6)
  | mulin (g : Guard) (d : BitVec 6) (a : Src)
  | swap (g : Guard) (d a : BitVec 6)
  | cswap (g : Guard) (d a : BitVec 6) (b : Src)
  -- integer arithmetic (0x20 to 0x2D)
  | mov (g : Guard) (t : IType) (d : Dst) (v : MovSrc)
  | add (g : Guard) (t : IType) (sat : Bool) (d : Dst) (a b : Src)
  | sub (g : Guard) (t : IType) (sat : Bool) (d : Dst) (a b : Src)
  | mul (g : Guard) (t : IType) (sat : Bool) (d : Dst) (a b : Src)
  | mulhi (g : Guard) (t : IType) (d : Dst) (a b : Src)
  | mad (g : Guard) (t : IType) (sat : Bool) (d : Dst) (a b c : Src)
  | div (g : Guard) (t : IType) (d : Dst) (a b : Src)
  | rem (g : Guard) (t : IType) (d : Dst) (a b : Src)
  | min (g : Guard) (t : IType) (d : Dst) (a b : Src)
  | max (g : Guard) (t : IType) (d : Dst) (a b : Src)
  | abs (g : Guard) (t : IType) (sat : Bool) (d : Dst) (a : Src)
  | cmp (g : Guard) (t : IType) (cc : Cc) (d : Dst) (a b : Src)
  | sel (g : Guard) (t : IType) (d : Dst) (a b c : Src)
  | addi (g : Guard) (t : IType) (sat : Bool) (d : Dst) (a : Src) (imm : BitVec 32)
  -- bit operations (0x30 to 0x3C)
  | and (g : Guard) (d : Dst) (a b : Src)
  | or (g : Guard) (d : Dst) (a b : Src)
  | xor (g : Guard) (d : Dst) (a b : Src)
  | andn (g : Guard) (d : Dst) (a b : Src)
  | shl (g : Guard) (d : Dst) (a b : Src)
  | shr (g : Guard) (d : Dst) (a b : Src)
  | sar (g : Guard) (d : Dst) (a b : Src)
  | rol (g : Guard) (d : Dst) (a b : Src)
  | clz (g : Guard) (d : Dst) (a : Src)
  | popc (g : Guard) (d : Dst) (a : Src)
  | brev (g : Guard) (d : Dst) (a : Src)
  | bfe (g : Guard) (sx : Bool) (d : Dst) (a b : Src)
  | bfi (g : Guard) (d : Dst) (a b c : Src)
  -- lane operations (0x40 to 0x43)
  | shfl (g : Guard) (m : ShflMode) (d : Dst) (a b : Src)
  | vote (g : Guard) (m : VoteMode) (d : Dst) (a : Src)
  | redu (g : Guard) (op : RedOp) (d : Dst) (a : Src)
  | scan (g : Guard) (op : RedOp) (excl : Bool) (d : Dst) (a : Src)
  -- floating point (0x50 to 0x61)
  | fadd (g : Guard) (rm : Rm) (ftz : Bool) (d : Dst) (a b : Src)
  | fsub (g : Guard) (rm : Rm) (ftz : Bool) (d : Dst) (a b : Src)
  | fmul (g : Guard) (rm : Rm) (ftz : Bool) (d : Dst) (a b : Src)
  | fma (g : Guard) (rm : Rm) (ftz : Bool) (d : Dst) (a b c : Src)
  | fmin (g : Guard) (ftz : Bool) (d : Dst) (a b : Src)
  | fmax (g : Guard) (ftz : Bool) (d : Dst) (a b : Src)
  | fcmp (g : Guard) (ftz : Bool) (cc : FCc) (d : Dst) (a b : Src)
  | fdiv (g : Guard) (rm : Rm) (ftz : Bool) (d : Dst) (a b : Src)
  | faddin (g : Guard) (rm : Rm) (ftz : Bool) (d : BitVec 6) (a : Src)
  | fmulin (g : Guard) (rm : Rm) (ftz : Bool) (d : BitVec 6) (a : Src)
  | fsqrt (g : Guard) (rm : Rm) (ftz : Bool) (d : Dst) (a : Src)
  | fexp2 (g : Guard) (rm : Rm) (ftz : Bool) (d : Dst) (a : Src)
  | flog2 (g : Guard) (rm : Rm) (ftz : Bool) (d : Dst) (a : Src)
  | fma2 (g : Guard) (rm : Rm) (ftz f16 : Bool) (d : Dst) (a b c : Src)
  | cvt (g : Guard) (rm : Rm) (sat ftz : Bool) (tgt src : Fmt) (d : Dst) (a : Src)
  -- memory (0x70 to 0x86)
  | ld (g : Guard) (sx : Bool) (m : MemOp) (d : Dst)
  | st (g : Guard) (m : MemOp) (b : Src)
  | xst (g : Guard) (m : MemOp) (d : Dst) (b : Src)
  | ldpoll (g : Guard) (m : MemOp) (d : Dst)
  | pref (g : Guard) (dome : Bool) (m : MemOp)
  | fence (g : Guard) (k : FenceKind)
  | atom (g : Guard) (op : AtomOp) (m : MemOp) (d : Dst) (b : Src)
  | ldlo (g : Guard) (m : MemOp) (d : Dst)
  | stlo (g : Guard) (md : Bool) (m : MemOp) (b : Src)
  | pub (g : Guard) (w : BitVec 4)
  | pin (g : Guard) (d : Dst) (k : BitVec 7) (imm : BitVec 32)
  | unpin (g : Guard) (d : Dst) (imm : BitVec 32)
  | discard (g : Guard) (d : Dst) (k : BitVec 7) (imm : BitVec 32)
  -- tiles (0x90 to 0x98)
  | talloc (g : Guard) (kind : TileKind) (d : Dst) (a : Src) (shape : BitVec 32)
  | tfree (g : Guard) (h : BitVec 6)
  | tring (g : Guard) (op : RingOp) (d : Dst) (a : Src) (th : BitVec 6) (logs p : BitVec 3)
  | trd (g : Guard) (sl : Slice) (d : Dst)
  | twr (g : Guard) (sl : Slice) (a : Src)
  | txch (g : Guard) (sl : Slice) (d : Dst) (a : Src)
  | tcolop (g : Guard) (op : ColOp) (sl : Slice) (n : BitVec 10) (fmt : BitVec 4) (a : Src)
  | tld (g : Guard) (sl : Slice) (acq host : Bool) (kb : BitVec 7) (a : Src)
  | tst (g : Guard) (sl : Slice) (rel host : Bool) (kb : BitVec 7) (a : Src)
  -- barriers (0xA0 to 0xA4)
  | binit (g : Guard) (bar : BitVec 8) (ka : BitVec 7)
  | barv (g : Guard) (bar : BitVec 8) (ka : BitVec 7)
  | bwait (g : Guard) (d : Dst) (bar : BitVec 8) (ka : BitVec 7)
  | btest (g : Guard) (d : Dst) (bar : BitVec 8)
  | barm (g : Guard) (bar : BitVec 8) (ka : BitVec 7)
  -- matrix commands (0xB0 to 0xB4)
  | mxlds (g : Guard) (sp : Bool) (src : BitVec 7) (rbase : BitVec 10) (fmt : Fmt) (x : MxCommon)
  | mxswap (g : Guard) (x : MxCommon)
  | mxstr (g : Guard) (z : Bool) (src dsel : BitVec 7) (rbase : BitVec 10) (rows : BitVec 6) (kve : Bool) (kv : BitVec 7) (fmt : Fmt) (ka : BitVec 7) (x : MxCommon)
  | mxdrain (g : Guard) (sat : Bool) (src dsel : BitVec 7) (rbase : BitVec 10) (rows : BitVec 6) (kve : Bool) (kv : BitVec 7) (fmt : Fmt) (ka : BitVec 7) (x : MxCommon)
  | mxzero (g : Guard) (dsel : BitVec 7) (x : MxCommon)
  -- engine queues (0xC0 to 0xC6)
  | enq (g : Guard) (e : BitVec 3) (a b : Src)
  | deq (g : Guard) (d : Dst) (e : BitVec 3)
  | cpstart (g : Guard) (kve : Bool) (kv ka : BitVec 7)
  | cpstat (g : Guard) (d : Dst)
  | vdsub (g : Guard) (ka : BitVec 7)
  | vdstat (g : Guard) (d : Dst)
  | qtick (g : Guard) (e : BitVec 2) (t : BitVec 12)
  -- binned coroutines (0xD0 to 0xD3)
  | susp (g : Guard) (w : Bool) (ka : BitVec 7)
  | wake (g : Guard) (all : Bool) (d : Dst) (th ka : BitVec 7)
  | binflush (g : Guard) (d : Dst) (th : BitVec 7)
  | binstat (g : Guard) (silo : Bool) (d : Dst) (th : BitVec 7)
  -- history and guards (0xE0 to 0xE6)
  | mark (g : Guard)
  | commit (g : Guard) (off : Bool)
  | rev (m : RevMode) (t : RevTarget)
  | spec (slot : BitVec 3) (off : BitVec 32)
  | gset (g : Guard) (act : GAct) (slot : BitVec 3)
  | gtest (g : Guard) (d : Dst) (slot : BitVec 3)
  | hstat (g : Guard) (d : Dst)
  -- system (0xF0 to 0xF5)
  | srd (g : Guard) (d : Dst) (num : BitVec 8)
  | swr (g : Guard) (num : BitVec 8) (a : Src)
  | launch (g : Guard) (d : Dst) (k : BitVec 7) (q : BitVec 4)
  | cancel (g : Guard) (d : Dst) (a : Src) (imm : BitVec 8)
  | ccnt (g : Guard) (d : Dst) (a : Src) (imm : BitVec 8)
  | dbgmb (g : Guard) (a : Src)
  -- steps of a group's own machinery
  | instructionLineFetch (core gslot : Nat) (sl : Slot)
  | joinMerge (core gslot : Nat)
  | pathReload (core gslot : Nat)
  | reverseStep (core gslot : Nat)
  | breakpointHalt (core gslot : Nat) (sl : Slot)
  | contextTrapDelivery (core gslot : Nat) (sl : Slot)
  | uiDelivery (core gslot : Nat) (sl : Slot)
  | deferredArrive (core idx : Nat)
  -- steps of the ordering machine
  | loadBind (core gslot entry piece : Nat)
  | sqDrain (core gslot : Nat)
  | pubPublish (core gslot : Nat)
  | homeDeliver (core home : Nat) (err : BitErr)
  | demotionApply (core idx : Nat)
  | ackApply (core idx : Nat)
  | publicationEvict (w n : Nat)
  | hostAccess (x : OutAccess)
  | peerAccess (peer : Nat) (x : OutAccess)
  | linkDown (l : LinkId)
  | pageWalk (w : Walker) (va : Nat)
  -- steps of the distributor
  | launchPacketTake (q : QueueId)
  | unitPlace (cores : List Nat)
  | preempt (core : Nat)
  | groupStart (core gslot : Nat)
  | unitEnd (core unit : Nat)
  -- steps of the engines
  | matrixTake (core : Nat)
  | matrixRetire (core : Nat)
  | chainTake (core chan : Nat)
  | copyRecordRead (core chan : Nat)
  | copySectorWrite (core chan n : Nat)
  | copyRecordFinish (core chan : Nat)
  | ringSlotReserve (core chan : Nat)
  | decodeTake (dec : Nat)
  | decodeErrorStop (dec : Nat)
  | decodeFrameFinish (dec : Nat)
  -- steps of the bins
  | binResume (core unit th : Nat)
  | siloMove (core unit th : Nat)
  | unitFrameFlush (core unit : Nat)
  | framesDiscarded (core unit : Nat)
  -- steps of the domes
  | pinFill (w : Nat)
  | referenceTick
  | pinFadeOut (w : Nat)
  | domeRetirement (d : Nat)
  -- steps of service
  | saveComplete (core : Nat)
  | killDone
  | tlbInvalidationDone
  | firmwareLoadDone (quadrant : Nat)
  | retrainDone (stack : Nat)
  | corePowerGate (core : Nat) (wake : Bool)
  | powerLimitExceeded
  | thermalThrottle
  | thermalShutdown
  | functionReset
  -- control-window writes
  | faccStageWrite (i : Nat) (v : DWord)
  | faccCommit (v : DWord)
  | formatRangeCommit (i : Nat) (v : DWord)
  | tlbinvWrite (v : DWord)
  | interleaveRegionWrite (i w : Nat) (v : DWord)
  | launchQueueConfigWrite (ctx q w : Nat) (v : DWord)
  | contextCreate (ctx : Nat) (v : DWord)
  | savecmdSave (v : DWord)
  | savecmdRestore (v : DWord)
  | replay (v : DWord)
  | killcmd (v : DWord)
  | retqWrite (d : Nat)
  | qfwWrite (quadrant : Nat) (v : DWord)
  | stkctlRetrain (stack : Nat) (v : DWord)
  | coreIsolate (core : Nat)
  | coreUnisolate (core : Nat)
  -- debug-mailbox commands: each executes the oldest command of the ring when it is of this kind
  | haltGroup
  | haltUnit
  | resumeGroup
  | resumeUnit
  | step
  | backStep
  | mailboxRead
  | mailboxWrite
  | mailboxRefused
  | controlRegisterWrite (off : Nat) (v : DWord)
  | clockNotLimited
deriving DecidableEq, Repr

/-- Whether a row is a device step, not an instruction word. -/
def Instr.isEvent : Instr → Bool
  | .instructionLineFetch .. | .joinMerge .. | .pathReload .. | .reverseStep .. | .breakpointHalt ..
  | .contextTrapDelivery .. | .uiDelivery .. | .deferredArrive .. | .loadBind .. | .sqDrain .. | .pubPublish ..
  | .homeDeliver .. | .demotionApply .. | .ackApply .. | .publicationEvict .. | .hostAccess .. | .peerAccess ..
  | .linkDown .. | .pageWalk .. | .launchPacketTake .. | .unitPlace .. | .preempt .. | .groupStart .. | .unitEnd ..
  | .matrixTake .. | .matrixRetire .. | .chainTake .. | .copyRecordRead .. | .copySectorWrite ..
  | .copyRecordFinish .. | .ringSlotReserve .. | .decodeTake .. | .decodeErrorStop .. | .decodeFrameFinish ..
  | .binResume .. | .siloMove .. | .unitFrameFlush .. | .framesDiscarded .. | .pinFill .. | .referenceTick
  | .pinFadeOut .. | .domeRetirement .. | .saveComplete .. | .killDone | .tlbInvalidationDone
  | .firmwareLoadDone .. | .retrainDone .. | .corePowerGate .. | .powerLimitExceeded | .thermalThrottle
  | .thermalShutdown | .functionReset | .faccStageWrite .. | .faccCommit .. | .formatRangeCommit ..
  | .tlbinvWrite .. | .interleaveRegionWrite .. | .launchQueueConfigWrite .. | .contextCreate .. | .savecmdSave ..
  | .savecmdRestore .. | .replay .. | .killcmd .. | .retqWrite .. | .qfwWrite .. | .stkctlRetrain ..
  | .coreIsolate .. | .coreUnisolate .. | .haltGroup | .haltUnit | .resumeGroup | .resumeUnit | .step | .backStep
  | .mailboxRead | .mailboxWrite | .mailboxRefused | .controlRegisterWrite .. | .clockNotLimited => true
  | _ => false

/-- One move of the machine: a path issues, or a device step happens. -/
inductive Move where
  | issue (core gslot : Nat) (sl : Slot)
  | event (i : Instr)
deriving DecidableEq, Repr, Inhabited

end Sys2Proof
end

