-- ==== Sys2Proof/WellFormed.lean ====
section
/-! DEFINITION. Well-formed instructions: the static encoding rules of Zynvar (R57, R58, R60, R83 to R97 and the
instruction reference). An encoding that breaks one is ILLEGAL at issue (R97). Device steps carry no encoding and
are well formed. -/

namespace Sys2Proof

/-- A selector that a source field may name: R84 with the pops that R60 allows. -/
def selOk (s : BitVec 8) : Bool :=
  s.ule 0x05 || s == 0x11 || s == 0x13 || s == 0x15 || ((0x40 : BitVec 8).ule s && s.ule 0x7F)

/-- A small immediate selector (R84). -/
def selImm (s : BitVec 8) : Bool := (0x40 : BitVec 8).ule s && s.ule 0x7F

def Src.ok : Src → Bool
  | .sel s => selOk s
  | _ => true

/-- Uniform registers, special selectors and immediates: the sources a uniform destination admits (R58). -/
def Src.uniform : Src → Bool
  | .k _ => true
  | .sel _ => true
  | _ => false

/-- A uniform register, a small immediate or selector 0x00 to 0x05 (R374, R385). -/
def Src.plainUniform : Src → Bool
  | .k _ => true
  | .sel s => s.ule 0x05 || selImm s
  | _ => false

/-- A uniform register, a small immediate or the zero selector (R371, R394, R432, R440). -/
def Src.uniImmZero : Src → Bool
  | .k _ => true
  | .sel s => s == 0 || selImm s
  | _ => false

/-- A uniform register or the zero selector (R248, R369). -/
def Src.uniZero : Src → Bool
  | .k _ => true
  | .sel s => s == 0
  | _ => false

/-- The field value 0x0000, which an unused source field holds (R87). -/
def Src.isZeroField (a : Src) : Bool := a == .q 0 false

def Dst.isEng : Dst → Bool
  | .eng _ => true
  | _ => false

def Dst.isUni : Dst → Bool
  | .uni _ => true
  | _ => false

/-- The destinations of a lane operation: any class of R86, with e2 the only engine push (R60, R61) and a
uniform register only beside uniform sources (R58). -/
def Dst.okWith (d : Dst) (srcs : List Src) : Bool :=
  match d with
  | .uni _ => srcs.all Src.uniform
  | .eng e => e == 2
  | _ => true

/-- A destination with no engine push, uniform only beside uniform sources (R378). -/
def Dst.okNoEng (d : Dst) (srcs : List Src) : Bool := d.okWith srcs && !d.isEng

/-- A destination that holds 64 bits: uniform, an even named pair, a queue push of two entries or discard
(R370, R371). -/
def Dst.ok64 : Dst → Bool
  | .recd i | .dead i => !i.getLsbD 0
  | .eng _ => false
  | _ => true

def srcsOk (srcs : List Src) : Bool := srcs.all Src.ok

/-- Registers that a `size` access moves: one up to 4 bytes, then 2^(size-2) (R88). -/
def regCount (size : BitVec 3) : Nat := if size.toNat ≤ 2 then 1 else 2 ^ (size.toNat - 2)

/-- An even register whose run of registers stays within n63 (R57, R88). -/
def runOk (i : BitVec 6) (size : BitVec 3) : Bool :=
  size.toNat ≤ 2 || (!i.getLsbD 0 && i.toNat + regCount size ≤ 64)

/-- The destination of a load (R88, R394). -/
def loadDstOk (d : Dst) (size : BitVec 3) (sa : Src) : Bool :=
  match d with
  | .recd i | .dead i => runOk i size
  | .push => size.toNat ≤ 3
  | .discard => size.toNat ≤ 3
  | .uni _ => size.toNat ≤ 3 && sa.uniImmZero
  | .eng _ => false

/-- The data operand of a store (R88, R433). -/
def storeSrcOk (b : Src) (size : BitVec 3) : Bool :=
  b.ok && (size.toNat ≤ 2 ||
    match b with
    | .n i => runOk i size
    | .q age _ => size == 3 && age != 15
    | .k _ => size == 3
    | .sel _ => false)

/-- A 64-bit operand of any class: an even named register, a queue age below 16 (R55, R57). -/
def Src.ok64 : Src → Bool
  | .n i => !i.getLsbD 0
  | .q age _ => age != 15
  | s => s.ok

def MemOp.ok (m : MemOp) : Bool := m.size != 7 && m.sa.ok

/-- The register numbers of R65 that SRD reads. -/
def srdOk (n : BitVec 8) : Bool :=
  n.ule 0x06 || ((0x08 : BitVec 8).ule n && n.ule 0x0C) || ((0x10 : BitVec 8).ule n && n.ule 0x14)
  || ((0x18 : BitVec 8).ule n && n.ule 0x1C) || ((0x20 : BitVec 8).ule n && n.ule 0x23)

/-- The register numbers of R65 that SWR writes. -/
def swrOk (n : BitVec 8) : Bool :=
  n == 0x04 || n == 0x05 || n == 0x08 || n == 0x09 || n == 0x0A || n == 0x0C || n == 0x14 || n == 0x21 || n == 0x22

/-- Shape words that are legal whatever the group (R167): RSVD, FMT, total bytes, .a80 rows. -/
def shapeOk (s : BitVec 32) : Bool :=
  let rows := (s.extractLsb' 0 10).toNat + 1
  let rb := ((s.extractLsb' 10 10).toNat + 1) * 4
  let fmt := (s.extractLsb' 20 4).toNat
  s.extractLsb' 30 2 == 0 && fmt ≤ 11 && rows * rb ≤ 524288 && (fmt != 11 || rb % 20 == 0)

/-- Matrix selectors: an operand buffer or a tile (R91, R191). -/
def selStore (s : BitVec 7) : Bool := s.ule 71

/-- KA, the tile column of MXSTR and MXDRAIN, is unused with an operand buffer and then 0 (R87, R191). -/
def kaOk (s ka : BitVec 7) : Bool := s.ule 63 || ka == 0

/-- Matrix selectors: an accumulator tile (R91, R191). -/
def selAcc (s : BitVec 7) : Bool := (72 : BitVec 7).ule s && s.ule 75

/-- Plane formats (R187). -/
def Fmt.planeOk : Fmt → Bool
  | .f16 | .bf16 | .s8 | .b8 | .e4m3 | .e5m2 => true
  | _ => false

/-- The formats of CVT (R355). -/
def Fmt.cvtOk : Fmt → Bool
  | .a80 => false
  | _ => true

def BraCond.ok : BraCond → Bool
  | .al => true
  | .nz a | .z a => a.ok
  | .lt a b | .ge a b | .ltu a b | .geu a b | .eq a b | .ne a b => a.ok && b.ok

/-- The static legality of an instruction. -/
def Instr.wf : Instr → Bool
  | .bra _ c _ _ => c.ok
  | .call _ link _ => !link.isEng
  | .addin _ _ a | .subin _ _ a | .xorin _ _ a | .rolin _ _ a | .mulin _ _ a => a.ok
  | .cswap _ _ _ b => b.ok
  | .mov _ _ d (.src a) => a.ok && d.okWith [a]
  | .mov _ _ d (.imm _) => d.okWith []
  | .add _ _ _ d a b | .sub _ _ _ d a b | .mul _ _ _ d a b => srcsOk [a, b] && d.okWith [a, b]
  | .mulhi _ _ d a b | .div _ _ d a b | .rem _ _ d a b | .min _ _ d a b | .max _ _ d a b
  | .cmp _ _ _ d a b => srcsOk [a, b] && d.okWith [a, b]
  | .mad _ _ _ d a b c => srcsOk [a, b, c] && d.okWith [a, b, c]
  | .sel _ _ d a b c => srcsOk [a, b, c] && d.okWith [a, b, c]
  | .abs _ _ _ d a => a.ok && d.okWith [a]
  | .addi _ _ _ d a _ => a.ok && d.okWith [a]
  | .and _ d a b | .or _ d a b | .xor _ d a b | .andn _ d a b | .shl _ d a b | .shr _ d a b | .sar _ d a b
  | .rol _ d a b | .bfe _ _ d a b => srcsOk [a, b] && d.okWith [a, b]
  | .clz _ d a | .popc _ d a | .brev _ d a => a.ok && d.okWith [a]
  | .bfi _ d a b c => srcsOk [a, b, c] && d.okWith [a, b, c]
  | .shfl _ _ d a b => srcsOk [a, b] && d.okWith [a, b] && !d.isUni
  | .vote _ .ballot d a => a.ok && d.ok64 && !d.isUni
  | .vote _ _ d a => a.ok && d.okWith [a] && !d.isUni
  | .redu _ _ d a => a.ok && d.okWith [a]
  | .scan _ _ _ d a => a.ok && d.okWith [a] && !d.isUni
  | .fadd _ _ _ d a b | .fsub _ _ _ d a b | .fmul _ _ _ d a b | .fdiv _ _ _ d a b =>
      srcsOk [a, b] && d.okNoEng [a, b]
  | .fma _ _ _ d a b c => srcsOk [a, b, c] && d.okNoEng [a, b, c]
  | .fmin _ _ d a b | .fmax _ _ d a b => srcsOk [a, b] && d.okNoEng [a, b]
  | .fcmp _ _ _ d a b => srcsOk [a, b] && d.okWith [a, b]
  | .faddin _ _ _ _ a | .fmulin _ _ _ _ a => a.ok
  | .fsqrt _ _ _ d a | .fexp2 _ _ _ d a | .flog2 _ _ _ d a => a.ok && d.okNoEng [a]
  | .fma2 _ _ _ _ d a b c => srcsOk [a, b, c] && d.okWith [a, b, c]
  | .cvt _ _ _ _ t s d a => t.cvtOk && s.cvtOk && a.ok && d.okWith [a]
  | .ld _ sx m d => m.ok && loadDstOk d m.size m.sa && (!sx || m.size.ule 1)
  | .st _ m b => m.ok && storeSrcOk b m.size
  | .xst _ m d b =>
      m.ok && storeSrcOk b m.size && loadDstOk d m.size m.sa && !d.isUni &&
      (m.size.ule 2 ||
        match d, b with
        | .recd i, .n j | .dead i, .n j =>
            i == j || i.toNat + regCount m.size ≤ j.toNat || j.toNat + regCount m.size ≤ i.toNat
        | _, _ => true)
  | .ldpoll _ m d => m.ok && !m.ord && m.size.ule 3 && m.space != .priv && loadDstOk d m.size m.sa
  | .pref _ _ m => m.ok && !m.ord
  | .atom _ op m d b =>
      m.ok && (m.size == 2 || m.size == 3) && m.space != .priv && !d.isUni && !d.isEng &&
      (m.size == 2 || d.ok64) &&
      (match op with
       | .cas => (match b with | .n i => !i.getLsbD 0 && (m.size == 2 || i.ule 60) | _ => false)
       | .fadd => m.size == 2 && b.ok
       | _ => b.ok && (m.size == 2 || b.ok64))
  | .ldlo _ m d =>
      m.ok && m.size == 4 && !m.ord && (match d with | .recd i | .dead i => !i.getLsbD 0 && i.ule 60 | _ => false)
  | .stlo _ _ m b => m.ok && m.size == 4 && (match b with | .n i => !i.getLsbD 0 && i.ule 60 | _ => false)
  | .pin _ d _ _ | .unpin _ d _ | .discard _ d _ _ => d.okWith []
  | .talloc _ kind d a s =>
      shapeOk s && d.okNoEng [] && (if kind = .frame then a.uniZero else a == .sel 0)
  | .tring _ op d a _ _ _ =>
      (match d with | .uni _ | .discard => true | _ => false) &&
      (if op = .commit ∨ op = .release then (match a with | .k _ => true | .sel s => selImm s | _ => false)
       else a.isZeroField)
  | .trd _ _ d => (match d with | .push | .recd _ | .dead _ => true | _ => false)
  | .twr _ _ a => a.ok
  | .txch _ _ d a => a.ok && (match d with | .push | .recd _ | .dead _ => true | _ => false)
  | .tcolop _ op sl _ fmt a =>
      sl.ax && (op == .cvt || fmt == 0) && fmt.ule 11 &&
      (match op with
       | .fma => (match a with | .k _ => true | _ => false)
       | .cvt => a == .sel 0
       | _ => a.uniImmZero)
  | .tld _ _ _ _ _ a | .tst _ _ _ _ _ a => a.ok
  | .bwait _ d _ _ | .btest _ d _ => d.okNoEng []
  | .mxlds _ _ src _ fmt _ => selStore src && fmt.planeOk
  | .mxstr _ _ src dsel _ _ _ _ _ ka _ => selStore src && selAcc dsel && kaOk src ka
  | .mxdrain _ _ src dsel _ _ _ _ _ ka _ => selAcc src && selStore dsel && kaOk dsel ka
  | .mxzero _ dsel _ => selAcc dsel
  | .enq g e a b =>
      a.uniZero && b.uniZero &&
      ((e == 0 && g.isNone) || e == 2 || (e == 4 && b == .sel 0))
  | .deq _ d e => d.ok64 && (e == 1 || e == 3 || e == 5)
  | .cpstat _ d | .vdstat _ d => d.okWith []
  | .qtick _ _ t => t != 0
  | .wake _ _ d th _ => d.okWith [] && th.ule 63
  | .binflush _ d th | .binstat _ _ d th => d.okWith [] && th.ule 63
  | .gset _ (.set a) _ => a.plainUniform
  | .gtest _ d _ => d.okWith []
  | .hstat _ d => d.okNoEng []
  | .srd _ d n => d.okNoEng [] && srdOk n
  | .swr _ n a => swrOk n && a.uniImmZero
  | .launch _ d _ _ => d.okNoEng []
  | .cancel _ d a _ | .ccnt _ d a _ => d.ok64 && a.uniImmZero
  | .dbgmb _ a => a.plainUniform
  | _ => true

end Sys2Proof
end

