-- ==== Sys2Proof/Decode.lean ====
section
/-! DEFINITION. The decoder and the encoder of Zynvar instruction words (R81 to R97). `parse` reads the fields that
the opcode's format places; `encode` writes them again with zero in every field that the opcode leaves unused, so a
word decodes only when its reserved and unused bits are zero (R87, R97). -/

namespace Sys2Proof

/-- Why a word is not an instruction (R97). Each is reported as ILLEGAL at issue. -/
inductive DecodeError where
  /-- The opcode is unassigned or reserved (R95). -/
  | unassignedOpcode (op : BitVec 8)
  /-- A modifier, selector, format or class value that the opcode does not assign (R96). -/
  | badField (op : BitVec 8)
  /-- A reserved or unused field is not zero (R87, R97), or G = 0 with GS not zero (R82). -/
  | reservedField (op : BitVec 8)
  /-- The operands break a static rule of the instruction reference. -/
  | illFormed (op : BitVec 8)
deriving DecidableEq, Repr

/-! ### Field codes -/

def decSrc (f : BitVec 16) : Src :=
  match (f.extractLsb' 14 2).toNat with
  | 0 => .q (f.extractLsb' 0 4) (f.getLsbD 13)
  | 1 => .n (f.extractLsb' 0 6)
  | 2 => .k (f.extractLsb' 0 7)
  | _ => .sel (f.extractLsb' 0 8)

/-- A source field (R83). -/
def encSrc : Src → BitVec 16
  | .q age last => (0 : BitVec 2) ++ BitVec.ofBool last ++ (0 : BitVec 9) ++ age
  | .n i => (1 : BitVec 2) ++ (0 : BitVec 8) ++ i
  | .k i => (2 : BitVec 2) ++ (0 : BitVec 7) ++ i
  | .sel s => (3 : BitVec 2) ++ (0 : BitVec 6) ++ s

def decDst (f : BitVec 16) : Option Dst :=
  match (f.extractLsb' 14 2).toNat with
  | 0 => some .push
  | 1 => some (.recd (f.extractLsb' 0 6))
  | 2 => some (.dead (f.extractLsb' 0 6))
  | _ =>
    if f.getLsbD 7 then some (.uni (f.extractLsb' 0 7))
    else if f.extractLsb' 0 7 = 0 then some .discard
    else if f.extractLsb' 3 4 = 2 then some (.eng (f.extractLsb' 0 3))
    else none

/-- A destination field (R86). -/
def encDst : Dst → BitVec 16
  | .push => 0
  | .recd i => (1 : BitVec 2) ++ (0 : BitVec 8) ++ i
  | .dead i => (2 : BitVec 2) ++ (0 : BitVec 8) ++ i
  | .uni i => (3 : BitVec 2) ++ (0 : BitVec 6) ++ (1 : BitVec 1) ++ i
  | .discard => 0xC000
  | .eng e => (3 : BitVec 2) ++ (0 : BitVec 7) ++ (2 : BitVec 4) ++ e

def IType.code : IType → BitVec 3
  | .s8 => 0 | .b8 => 1 | .s16 => 2 | .b16 => 3 | .s32 => 4 | .b32 => 5

def decIType (c : BitVec 3) : Option IType :=
  match c.toNat with
  | 0 => some .s8 | 1 => some .b8 | 2 => some .s16 | 3 => some .b16 | 4 => some .s32 | 5 => some .b32
  | _ => none

def Fmt.code : Fmt → BitVec 4
  | .s8 => 0 | .b8 => 1 | .s16 => 2 | .b16 => 3 | .s32 => 4 | .b32 => 5 | .f16 => 6 | .bf16 => 7 | .f32 => 8
  | .e4m3 => 9 | .e5m2 => 10 | .a80 => 11

def decFmt (c : BitVec 4) : Option Fmt :=
  match c.toNat with
  | 0 => some .s8 | 1 => some .b8 | 2 => some .s16 | 3 => some .b16 | 4 => some .s32 | 5 => some .b32
  | 6 => some .f16 | 7 => some .bf16 | 8 => some .f32 | 9 => some .e4m3 | 10 => some .e5m2 | 11 => some .a80
  | _ => none

def Rm.code : Rm → BitVec 2
  | .rne => 0 | .rtz => 1 | .rdn => 2 | .rup => 3

def decRm (c : BitVec 2) : Rm :=
  match c.toNat with
  | 0 => .rne | 1 => .rtz | 2 => .rdn | _ => .rup

def Cc.code : Cc → BitVec 3
  | .eq => 0 | .ne => 1 | .lt => 2 | .le => 3 | .gt => 4 | .ge => 5

def decCc (c : BitVec 3) : Option Cc :=
  match c.toNat with
  | 0 => some .eq | 1 => some .ne | 2 => some .lt | 3 => some .le | 4 => some .gt | 5 => some .ge
  | _ => none

def FCc.code : FCc → BitVec 3
  | .eq => 0 | .ne => 1 | .lt => 2 | .le => 3 | .gt => 4 | .ge => 5 | .unord => 6

def decFCc (c : BitVec 3) : Option FCc :=
  match c.toNat with
  | 0 => some .eq | 1 => some .ne | 2 => some .lt | 3 => some .le | 4 => some .gt | 5 => some .ge
  | 6 => some .unord
  | _ => none

def ShflMode.code : ShflMode → BitVec 4
  | .idx => 0 | .up => 1 | .down => 2 | .xor => 3

def decShfl (c : BitVec 4) : Option ShflMode :=
  match c.toNat with
  | 0 => some .idx | 1 => some .up | 2 => some .down | 3 => some .xor
  | _ => none

def VoteMode.code : VoteMode → BitVec 4
  | .any => 0 | .all => 1 | .ballot => 2

def decVote (c : BitVec 4) : Option VoteMode :=
  match c.toNat with
  | 0 => some .any | 1 => some .all | 2 => some .ballot
  | _ => none

def RedOp.code : RedOp → BitVec 4
  | .add => 0 | .minS => 1 | .maxS => 2 | .minB => 3 | .maxB => 4 | .and => 5 | .or => 6 | .xor => 7
  | .fadd => 8 | .fmin => 9 | .fmax => 10

def decRed (c : BitVec 4) : Option RedOp :=
  match c.toNat with
  | 0 => some .add | 1 => some .minS | 2 => some .maxS | 3 => some .minB | 4 => some .maxB | 5 => some .and
  | 6 => some .or | 7 => some .xor | 8 => some .fadd | 9 => some .fmin | 10 => some .fmax
  | _ => none

def AtomOp.code : AtomOp → BitVec 4
  | .add => 0 | .minS => 1 | .maxS => 2 | .minB => 3 | .maxB => 4 | .and => 5 | .or => 6 | .xor => 7
  | .exch => 8 | .cas => 9 | .fadd => 10

def decAtom (c : BitVec 4) : Option AtomOp :=
  match c.toNat with
  | 0 => some .add | 1 => some .minS | 2 => some .maxS | 3 => some .minB | 4 => some .maxB | 5 => some .and
  | 6 => some .or | 7 => some .xor | 8 => some .exch | 9 => some .cas | 10 => some .fadd
  | _ => none

def ColOp.code : ColOp → BitVec 4
  | .add => 0 | .sub => 1 | .mul => 2 | .fma => 3 | .min => 4 | .max => 5 | .and => 6 | .or => 7 | .xor => 8
  | .cvt => 9

def decCol (c : BitVec 4) : Option ColOp :=
  match c.toNat with
  | 0 => some .add | 1 => some .sub | 2 => some .mul | 3 => some .fma | 4 => some .min | 5 => some .max
  | 6 => some .and | 7 => some .or | 8 => some .xor | 9 => some .cvt
  | _ => none

def FenceKind.code : FenceKind → BitVec 4
  | .acq => 1 | .rel => 2 | .ar => 3

def decFence (c : BitVec 4) : Option FenceKind :=
  match c.toNat with
  | 1 => some .acq | 2 => some .rel | 3 => some .ar
  | _ => none

def TileKind.code : TileKind → BitVec 4
  | .plain => 0 | .ring => 1 | .frame => 2

def decTileKind (c : BitVec 4) : Option TileKind :=
  match c.toNat with
  | 0 => some .plain | 1 => some .ring | 2 => some .frame
  | _ => none

def RingOp.code : RingOp → BitVec 4
  | .init => 0 | .reg => 1 | .reserve => 2 | .commit => 3 | .acquire => 4 | .release => 5 | .eos => 6 | .state => 7

def decRing (c : BitVec 4) : Option RingOp :=
  match c.toNat with
  | 0 => some .init | 1 => some .reg | 2 => some .reserve | 3 => some .commit | 4 => some .acquire
  | 5 => some .release | 6 => some .eos | 7 => some .state
  | _ => none

def RevMode.code : RevMode → BitVec 2
  | .h => 0 | .c => 1 | .x => 2

def decRev (c : BitVec 2) : Option RevMode :=
  match c.toNat with
  | 0 => some .h | 1 => some .c | 2 => some .x
  | _ => none

def Space.code : Space → BitVec 2
  | .dev => 0 | .priv => 1 | .host => 2

def decSpace (c : BitVec 2) : Option Space :=
  match c.toNat with
  | 0 => some .dev | 1 => some .priv | 2 => some .host
  | _ => none

/-! ### The common layout of a word -/

/-- A word by its parts: bits [95:64], [63:32], the destination field, MD, the guard and OP (R81, R87). -/
def packWord (hi mid : BitVec 32) (dst : BitVec 16) (md : BitVec 4) (g : Guard) (op : BitVec 8) : IWord :=
  hi ++ mid ++ dst ++ md ++ BitVec.ofBool g.isSome ++ g.getD 0 ++ op

def wOp (w : IWord) : BitVec 8 := w.extractLsb' 0 8
def wMd (w : IWord) : BitVec 4 := w.extractLsb' 12 4
def wG (w : IWord) : Guard := if w.getLsbD 11 then some (w.extractLsb' 8 3) else none
def wDst (w : IWord) : BitVec 16 := w.extractLsb' 16 16
def wMid (w : IWord) : BitVec 32 := w.extractLsb' 32 32
def wHi (w : IWord) : BitVec 32 := w.extractLsb' 64 32
def wSa (w : IWord) : Src := decSrc (w.extractLsb' 32 16)
def wSb (w : IWord) : Src := decSrc (w.extractLsb' 48 16)
def wSc (w : IWord) : Src := decSrc (w.extractLsb' 64 16)
def wX (w : IWord) : BitVec 16 := w.extractLsb' 80 16
def wXI (w : IWord) : BitVec 16 := w.extractLsb' 48 16

/-- Format A (R87). -/
def encA (op : BitVec 8) (md : BitVec 4) (g : Guard) (dst sa sb sc x : BitVec 16) : IWord :=
  packWord (x ++ sc) (sb ++ sa) dst md g op

/-- Format I, with X at [63:48], and format B, with SB there and OFF32 as the immediate (R87). -/
def encI (op : BitVec 8) (md : BitVec 4) (g : Guard) (dst sa x : BitVec 16) (imm : BitVec 32) : IWord :=
  packWord imm (x ++ sa) dst md g op

/-- Format M (R88). -/
def encM (op : BitVec 8) (md : BitVec 4) (g : Guard) (dst sb : BitVec 16) (m : MemOp) : IWord :=
  packWord (m.off ++ BitVec.ofBool m.ord ++ m.size ++ m.space.code ++ m.scale ++ (0 : BitVec 1) ++ m.kb)
    (sb ++ encSrc m.sa) dst md g op

def wMem (w : IWord) : Option MemOp :=
  match decSpace (w.extractLsb' 74 2) with
  | some sp => some { off := w.extractLsb' 80 16, ord := w.getLsbD 79, size := w.extractLsb' 76 3, space := sp,
                      scale := w.extractLsb' 72 2, kb := w.extractLsb' 64 7, sa := wSa w }
  | none => none

/-- Format T (R90). -/
def encT (op : BitVec 8) (md : BitVec 4) (g : Guard) (dst sa x : BitVec 16) (s : Slice) : IWord :=
  packWord (x ++ (0 : BitVec 6) ++ s.idx)
    ((0 : BitVec 1) ++ s.ki ++ BitVec.ofBool s.kie ++ BitVec.ofBool s.ax ++ s.th ++ sa) dst md g op

def wSlice (w : IWord) : Slice :=
  { th := w.extractLsb' 48 6, ax := w.getLsbD 54, kie := w.getLsbD 55, ki := w.extractLsb' 56 7,
    idx := w.extractLsb' 64 10 }

/-- The fields of format E (R91). -/
structure EFields where
  fl    : BitVec 4 := 0
  fmt   : BitVec 4 := 0
  rbase : BitVec 10 := 0
  rows  : BitVec 6 := 0
  kve   : Bool := false
  kv    : BitVec 7 := 0
  pair  : Bool := false
  dsel  : BitVec 7 := 0
  src   : BitVec 7 := 0
  be    : Bool := false
  bar   : BitVec 8 := 0
  ka    : BitVec 7 := 0
deriving DecidableEq, Repr

/-- Format E (R91). -/
def encE (op : BitVec 8) (md : BitVec 4) (g : Guard) (dst : BitVec 16) (e : EFields) : IWord :=
  packWord (e.fl ++ e.fmt ++ e.rbase ++ e.rows ++ BitVec.ofBool e.kve ++ e.kv)
    ((0 : BitVec 1) ++ BitVec.ofBool e.pair ++ e.dsel ++ e.src ++ BitVec.ofBool e.be ++ e.bar ++ e.ka) dst md g op

def wE (w : IWord) : EFields :=
  { fl := w.extractLsb' 92 4, fmt := w.extractLsb' 88 4, rbase := w.extractLsb' 78 10, rows := w.extractLsb' 72 6,
    kve := w.getLsbD 71, kv := w.extractLsb' 64 7, pair := w.getLsbD 62, dsel := w.extractLsb' 55 7,
    src := w.extractLsb' 48 7, be := w.getLsbD 47, bar := w.extractLsb' 39 8, ka := w.extractLsb' 32 7 }

def EFields.common (e : EFields) : MxCommon := { pair := e.pair, be := e.be, bar := e.bar }

/-! ### The encoder -/

def BraCond.md : BraCond → BitVec 4
  | .al => 0 | .nz _ => 1 | .z _ => 2 | .lt .. => 3 | .ge .. => 4 | .ltu .. => 5 | .geu .. => 6 | .eq .. => 7
  | .ne .. => 8

def BraCond.fa : BraCond → BitVec 16
  | .al => 0
  | .nz a | .z a | .lt a _ | .ge a _ | .ltu a _ | .geu a _ | .eq a _ | .ne a _ => encSrc a

def BraCond.fb : BraCond → BitVec 16
  | .al | .nz _ | .z _ => 0
  | .lt _ b | .ge _ b | .ltu _ b | .geu _ b | .eq _ b | .ne _ b => encSrc b

/-- Format B of a JMP or CALL (R96). -/
def encTarget (op : BitVec 8) (g : Guard) (link : BitVec 16) : Target → IWord
  | .rel off => encI op 0 g link 0 0 off
  | .abs k off => encI op 1 g link (encSrc (.k k)) 0 off

def itMd (t : IType) (sat : Bool) : BitVec 4 := BitVec.ofBool sat ++ t.code
def rmMd (rm : Rm) (ftz b3 : Bool) : BitVec 4 := BitVec.ofBool b3 ++ BitVec.ofBool ftz ++ rm.code
def bit0Md (b : Bool) : BitVec 4 := (0 : BitVec 3) ++ BitVec.ofBool b
def x1 (b : Bool) : BitVec 16 := (0 : BitVec 15) ++ BitVec.ofBool b
def x3 (v : BitVec 3) : BitVec 16 := (0 : BitVec 13) ++ v
def ku (k : BitVec 7) : BitVec 16 := encSrc (.k k)
def nu (n : BitVec 6) : BitVec 16 := encSrc (.n n)
def nd (d : BitVec 6) : BitVec 16 := encDst (.recd d)

/-- Format A of one, two or three sources (R96). -/
def encA1 (op : BitVec 8) (md : BitVec 4) (g : Guard) (d : Dst) (a : Src) : IWord :=
  encA op md g (encDst d) (encSrc a) 0 0 0
def encA2 (op : BitVec 8) (md : BitVec 4) (g : Guard) (d : Dst) (a b : Src) : IWord :=
  encA op md g (encDst d) (encSrc a) (encSrc b) 0 0
def encA3 (op : BitVec 8) (md : BitVec 4) (g : Guard) (d : Dst) (a b c : Src) : IWord :=
  encA op md g (encDst d) (encSrc a) (encSrc b) (encSrc c) 0
/-- An in-place update: DST is the recorded named register (R353). -/
def encIn (op : BitVec 8) (md : BitVec 4) (g : Guard) (d : BitVec 6) (a b : BitVec 16) : IWord :=
  encA op md g (nd d) a b 0 0

/-- The immediate of TRING (R174). -/
def ringImm (op : RingOp) (th : BitVec 6) (logs p : BitVec 3) : BitVec 32 :=
  (0 : BitVec 13) ++ p ++ (0 : BitVec 1) ++ logs ++ op.code ++ (0 : BitVec 2) ++ th

/-- The X field of TLD and TST (R441). -/
def tldX (ord host : Bool) (kb : BitVec 7) : BitVec 16 :=
  (0 : BitVec 6) ++ BitVec.ofBool ord ++ BitVec.ofBool host ++ (0 : BitVec 1) ++ kb

/-- The words of an instruction; a device step has none. -/
def encode : Instr → Option IWord
  | .nop g => some (encA 0x00 0 g 0 0 0 0 0)
  | .bra g c joff off => some (packWord off (c.fb ++ c.fa) joff c.md g 0x01)
  | .jmp g t => some (encTarget 0x02 g 0 t)
  | .call g link t => some (encTarget 0x03 g (encDst link) t)
  | .ret g k => some (encA 0x04 0 g 0 (ku k) 0 0 0)
  | .loop g c off => some (encI 0x05 0 g 0 (nu c) 0 off)
  | .exit g => some (encA 0x06 0 g 0 0 0 0 0)
  | .brk g imm => some (encI 0x07 0 g 0 0 0 imm)
  | .trap g imm => some (encI 0x08 0 g 0 0 0 imm)
  | .uiret => some (encA 0x09 0 none 0 0 0 0 0)
  | .addin g d a => some (encIn 0x10 0 g d (encSrc a) 0)
  | .subin g d a => some (encIn 0x11 0 g d (encSrc a) 0)
  | .xorin g d a => some (encIn 0x12 0 g d (encSrc a) 0)
  | .rolin g d a => some (encIn 0x13 0 g d (encSrc a) 0)
  | .negin g d => some (encIn 0x14 0 g d 0 0)
  | .notin g d => some (encIn 0x15 0 g d 0 0)
  | .mulin g d a => some (encIn 0x16 0 g d (encSrc a) 0)
  | .swap g d a => some (encIn 0x17 0 g d (nu a) 0)
  | .cswap g d a b => some (encIn 0x18 0 g d (nu a) (encSrc b))
  | .mov g t d (.src a) => some (encI 0x20 (itMd t false) g (encDst d) (encSrc a) 0 0)
  | .mov g t d (.imm v) => some (encI 0x20 (itMd t false) g (encDst d) 0 1 v)
  | .add g t sat d a b => some (encA2 0x21 (itMd t sat) g d a b)
  | .sub g t sat d a b => some (encA2 0x22 (itMd t sat) g d a b)
  | .mul g t sat d a b => some (encA2 0x23 (itMd t sat) g d a b)
  | .mulhi g t d a b => some (encA2 0x24 (itMd t false) g d a b)
  | .mad g t sat d a b c => some (encA3 0x25 (itMd t sat) g d a b c)
  | .div g t d a b => some (encA2 0x26 (itMd t false) g d a b)
  | .rem g t d a b => some (encA2 0x27 (itMd t false) g d a b)
  | .min g t d a b => some (encA2 0x28 (itMd t false) g d a b)
  | .max g t d a b => some (encA2 0x29 (itMd t false) g d a b)
  | .abs g t sat d a => some (encA1 0x2A (itMd t sat) g d a)
  | .cmp g t cc d a b => some (encA 0x2B (itMd t false) g (encDst d) (encSrc a) (encSrc b) 0 (x3 cc.code))
  | .sel g t d a b c => some (encA3 0x2C (itMd t false) g d a b c)
  | .addi g t sat d a imm => some (encI 0x2D (itMd t sat) g (encDst d) (encSrc a) 0 imm)
  | .and g d a b => some (encA2 0x30 0 g d a b)
  | .or g d a b => some (encA2 0x31 0 g d a b)
  | .xor g d a b => some (encA2 0x32 0 g d a b)
  | .andn g d a b => some (encA2 0x33 0 g d a b)
  | .shl g d a b => some (encA2 0x34 0 g d a b)
  | .shr g d a b => some (encA2 0x35 0 g d a b)
  | .sar g d a b => some (encA2 0x36 0 g d a b)
  | .rol g d a b => some (encA2 0x37 0 g d a b)
  | .clz g d a => some (encA1 0x38 0 g d a)
  | .popc g d a => some (encA1 0x39 0 g d a)
  | .brev g d a => some (encA1 0x3A 0 g d a)
  | .bfe g sx d a b => some (encA2 0x3B (bit0Md sx) g d a b)
  | .bfi g d a b c => some (encA3 0x3C 0 g d a b c)
  | .shfl g m d a b => some (encA2 0x40 m.code g d a b)
  | .vote g m d a => some (encA1 0x41 m.code g d a)
  | .redu g op d a => some (encA1 0x42 op.code g d a)
  | .scan g op excl d a => some (encA 0x43 op.code g (encDst d) (encSrc a) 0 0 (x1 excl))
  | .fadd g rm ftz d a b => some (encA2 0x50 (rmMd rm ftz false) g d a b)
  | .fsub g rm ftz d a b => some (encA2 0x51 (rmMd rm ftz false) g d a b)
  | .fmul g rm ftz d a b => some (encA2 0x52 (rmMd rm ftz false) g d a b)
  | .fma g rm ftz d a b c => some (encA3 0x53 (rmMd rm ftz false) g d a b c)
  | .fmin g ftz d a b => some (encA2 0x54 (rmMd .rne ftz false) g d a b)
  | .fmax g ftz d a b => some (encA2 0x55 (rmMd .rne ftz false) g d a b)
  | .fcmp g ftz cc d a b =>
      some (encA 0x56 (rmMd .rne ftz false) g (encDst d) (encSrc a) (encSrc b) 0 (x3 cc.code))
  | .fdiv g rm ftz d a b => some (encA2 0x57 (rmMd rm ftz false) g d a b)
  | .faddin g rm ftz d a => some (encIn 0x58 (rmMd rm ftz false) g d (encSrc a) 0)
  | .fmulin g rm ftz d a => some (encIn 0x59 (rmMd rm ftz false) g d (encSrc a) 0)
  | .fsqrt g rm ftz d a => some (encA1 0x5A (rmMd rm ftz false) g d a)
  | .fexp2 g rm ftz d a => some (encA1 0x5B (rmMd rm ftz false) g d a)
  | .flog2 g rm ftz d a => some (encA1 0x5C (rmMd rm ftz false) g d a)
  | .fma2 g rm ftz f16 d a b c => some (encA3 0x60 (rmMd rm ftz f16) g d a b c)
  | .cvt g rm sat ftz t s d a =>
      some (encA 0x61 (rmMd rm sat ftz) g (encDst d) (encSrc a) 0 0 ((0 : BitVec 8) ++ s.code ++ t.code))
  | .ld g sx m d => some (encM 0x70 (bit0Md sx) g (encDst d) 0 m)
  | .st g m b => some (encM 0x71 0 g 0 (encSrc b) m)
  | .xst g m d b => some (encM 0x72 0 g (encDst d) (encSrc b) m)
  | .ldpoll g m d => some (encM 0x73 0 g (encDst d) 0 m)
  | .pref g dome m => some (encM 0x74 (bit0Md dome) g 0 0 m)
  | .fence g k => some (encA 0x76 k.code g 0 0 0 0 0)
  | .atom g op m d b => some (encM 0x80 op.code g (encDst d) (encSrc b) m)
  | .ldlo g m d => some (encM 0x81 0 g (encDst d) 0 m)
  | .stlo g md m b => some (encM 0x82 (bit0Md md) g 0 (encSrc b) m)
  | .pub g w => some (encI 0x83 0 g 0 0 0 ((0 : BitVec 28) ++ w))
  | .pin g d k imm => some (encI 0x84 0 g (encDst d) (ku k) 0 imm)
  | .unpin g d imm => some (encI 0x85 0 g (encDst d) 0 0 imm)
  | .discard g d k imm => some (encI 0x86 0 g (encDst d) (ku k) 0 imm)
  | .talloc g kind d a shape => some (encI 0x90 kind.code g (encDst d) (encSrc a) 0 shape)
  | .tfree g h => some (encI 0x91 0 g 0 0 0 ((0 : BitVec 26) ++ h))
  | .tring g op d a th logs p => some (encI 0x92 0 g (encDst d) (encSrc a) 0 (ringImm op th logs p))
  | .trd g sl d => some (encT 0x93 0 g (encDst d) 0 0 sl)
  | .twr g sl a => some (encT 0x94 0 g 0 (encSrc a) 0 sl)
  | .txch g sl d a => some (encT 0x95 0 g (encDst d) (encSrc a) 0 sl)
  | .tcolop g op sl n fmt a =>
      some (encT 0x96 op.code g 0 (encSrc a) ((0 : BitVec 2) ++ fmt ++ n) sl)
  | .tld g sl acq host kb a => some (encT 0x97 0 g 0 (encSrc a) (tldX acq host kb) sl)
  | .tst g sl rel host kb a => some (encT 0x98 0 g 0 (encSrc a) (tldX rel host kb) sl)
  | .binit g bar ka => some (encE 0xA0 0 g 0 { be := true, bar := bar, ka := ka })
  | .barv g bar ka => some (encE 0xA1 0 g 0 { be := true, bar := bar, ka := ka })
  | .bwait g d bar ka => some (encE 0xA2 0 g (encDst d) { be := true, bar := bar, ka := ka })
  | .btest g d bar => some (encE 0xA3 0 g (encDst d) { be := true, bar := bar })
  | .barm g bar ka => some (encE 0xA4 0 g 0 { be := true, bar := bar, ka := ka })
  | .mxlds g sp src rbase fmt x =>
      some (encE 0xB0 (bit0Md sp) g (encDst (.eng 0))
        { fmt := fmt.code, rbase := rbase, pair := x.pair, src := src, be := x.be, bar := x.bar })
  | .mxswap g x => some (encE 0xB1 0 g (encDst (.eng 0)) { pair := x.pair, be := x.be, bar := x.bar })
  | .mxstr g z src dsel rbase rows kve kv fmt ka x =>
      some (encE 0xB2 (bit0Md z) g (encDst (.eng 0))
        { fmt := fmt.code, rbase := rbase, rows := rows, kve := kve, kv := kv, pair := x.pair, dsel := dsel,
          src := src, be := x.be, bar := x.bar, ka := ka })
  | .mxdrain g sat src dsel rbase rows kve kv fmt ka x =>
      some (encE 0xB3 (bit0Md sat) g (encDst (.eng 0))
        { fmt := fmt.code, rbase := rbase, rows := rows, kve := kve, kv := kv, pair := x.pair, dsel := dsel,
          src := src, be := x.be, bar := x.bar, ka := ka })
  | .mxzero g dsel x =>
      some (encE 0xB4 0 g (encDst (.eng 0)) { pair := x.pair, dsel := dsel, be := x.be, bar := x.bar })
  | .enq g e a b => some (encA2 0xC0 0 g (.eng e) a b)
  | .deq g d e => some (encA 0xC1 0 g (encDst d) (encSrc (.sel ((2 : BitVec 5) ++ e))) 0 0 0)
  | .cpstart g kve kv ka => some (encE 0xC2 0 g (encDst (.eng 2)) { kve := kve, kv := kv, ka := ka })
  | .cpstat g d => some (encE 0xC3 0 g (encDst d) {})
  | .vdsub g ka => some (encE 0xC4 0 g (encDst (.eng 4)) { ka := ka })
  | .vdstat g d => some (encE 0xC5 0 g (encDst d) {})
  | .qtick g e t => some (encI 0xC6 0 g 0 0 0 ((0 : BitVec 18) ++ e ++ t))
  | .susp g w ka => some (encE 0xD0 (bit0Md w) g 0 { ka := ka })
  | .wake g all d th ka => some (encE 0xD1 0 g (encDst d) { fl := bit0Md all, src := th, ka := ka })
  | .binflush g d th => some (encE 0xD2 0 g (encDst d) { src := th })
  | .binstat g silo d th => some (encE 0xD3 0 g (encDst d) { fl := bit0Md silo, src := th })
  | .mark g => some (encA 0xE0 0 g 0 0 0 0 0)
  | .commit g off => some (encA 0xE1 (bit0Md off) g 0 0 0 0 0)
  | .rev m (.imm v) => some (encI 0xE2 ((0 : BitVec 2) ++ m.code) none 0 0 0 v)
  | .rev m (.k k) => some (encI 0xE2 ((1 : BitVec 2) ++ m.code) none 0 (ku k) 0 0)
  | .spec slot off => some (encI 0xE3 ((0 : BitVec 1) ++ slot) none 0 0 0 off)
  | .gset g .pend slot => some (encA 0xE4 0 g 0 0 0 0 (x3 slot))
  | .gset g (.set a) slot => some (encA 0xE4 1 g 0 (encSrc a) 0 0 (x3 slot))
  | .gset g .clear slot => some (encA 0xE4 2 g 0 0 0 0 (x3 slot))
  | .gtest g d slot => some (encA 0xE5 0 g (encDst d) 0 0 0 (x3 slot))
  | .hstat g d => some (encA 0xE6 0 g (encDst d) 0 0 0 0)
  | .srd g d num => some (encI 0xF0 0 g (encDst d) 0 0 ((0 : BitVec 24) ++ num))
  | .swr g num a => some (encI 0xF1 0 g 0 (encSrc a) 0 ((0 : BitVec 24) ++ num))
  | .launch g d k q => some (encI 0xF2 0 g (encDst d) (ku k) 0 ((0 : BitVec 28) ++ q))
  | .cancel g d a imm => some (encI 0xF3 0 g (encDst d) (encSrc a) 0 ((0 : BitVec 24) ++ imm))
  | .ccnt g d a imm => some (encI 0xF4 0 g (encDst d) (encSrc a) 0 ((0 : BitVec 24) ++ imm))
  | .dbgmb g a => some (encA 0xF5 0 g 0 (encSrc a) 0 0 0)
  | _ => none

/-! ### The field reader -/

/-- A source field that must name a uniform register. -/
def wKa (w : IWord) : Option (BitVec 7) :=
  match wSa w with
  | .k k => some k
  | _ => none

/-- A source field that must name a named register. -/
def wNa (w : IWord) : Option (BitVec 6) :=
  match wSa w with
  | .n n => some n
  | _ => none

/-- The recorded named register of an in-place update (R353). -/
def wNd (w : IWord) : Option (BitVec 6) :=
  match decDst (wDst w) with
  | some (.recd d) => some d
  | _ => none

def parseTarget (w : IWord) : Option Target :=
  match (wMd w).toNat with
  | 0 => some (.rel (wHi w))
  | 1 => (wKa w).map (fun k => .abs k (wHi w))
  | _ => none

def parseCond (w : IWord) : Option BraCond :=
  match (wMd w).toNat with
  | 0 => some .al
  | 1 => some (.nz (wSa w))
  | 2 => some (.z (wSa w))
  | 3 => some (.lt (wSa w) (wSb w))
  | 4 => some (.ge (wSa w) (wSb w))
  | 5 => some (.ltu (wSa w) (wSb w))
  | 6 => some (.geu (wSa w) (wSb w))
  | 7 => some (.eq (wSa w) (wSb w))
  | 8 => some (.ne (wSa w) (wSb w))
  | _ => none

def wType (w : IWord) : Option IType := decIType (w.extractLsb' 12 3)
def wSat (w : IWord) : Bool := w.getLsbD 15
def wRm (w : IWord) : Rm := decRm (w.extractLsb' 12 2)
def wFtz (w : IWord) : Bool := w.getLsbD 14
def wB0 (w : IWord) : Bool := w.getLsbD 12

/-- Opcodes 0x00 to 0x09. -/
def parseTransfer (w : IWord) : Option Instr :=
  let g := wG w
  match (wOp w).toNat with
  | 0x00 => some (.nop g)
  | 0x01 => (parseCond w).map (fun c => .bra g c (wDst w) (wHi w))
  | 0x02 => (parseTarget w).map (fun t => .jmp g t)
  | 0x03 => (decDst (wDst w)).bind fun d => (parseTarget w).map (fun t => .call g d t)
  | 0x04 => (wKa w).map (fun k => .ret g k)
  | 0x05 => (wNa w).map (fun n => .loop g n (wHi w))
  | 0x06 => some (.exit g)
  | 0x07 => some (.brk g (wHi w))
  | 0x08 => some (.trap g (wHi w))
  | 0x09 => some .uiret
  | _ => none

/-- Opcodes 0x10 to 0x18. -/
def parseInPlace (w : IWord) : Option Instr :=
  let g := wG w
  (wNd w).bind fun d =>
  match (wOp w).toNat with
  | 0x10 => some (.addin g d (wSa w))
  | 0x11 => some (.subin g d (wSa w))
  | 0x12 => some (.xorin g d (wSa w))
  | 0x13 => some (.rolin g d (wSa w))
  | 0x14 => some (.negin g d)
  | 0x15 => some (.notin g d)
  | 0x16 => some (.mulin g d (wSa w))
  | 0x17 => (wNa w).map (fun a => .swap g d a)
  | 0x18 => (wNa w).map (fun a => .cswap g d a (wSb w))
  | _ => none

/-- Opcodes 0x20 to 0x2D. -/
def parseInt (w : IWord) : Option Instr :=
  let g := wG w
  (decDst (wDst w)).bind fun d =>
  (wType w).bind fun t =>
  match (wOp w).toNat with
  | 0x20 => some (.mov g t d (if w.getLsbD 48 then .imm (wHi w) else .src (wSa w)))
  | 0x21 => some (.add g t (wSat w) d (wSa w) (wSb w))
  | 0x22 => some (.sub g t (wSat w) d (wSa w) (wSb w))
  | 0x23 => some (.mul g t (wSat w) d (wSa w) (wSb w))
  | 0x24 => some (.mulhi g t d (wSa w) (wSb w))
  | 0x25 => some (.mad g t (wSat w) d (wSa w) (wSb w) (wSc w))
  | 0x26 => some (.div g t d (wSa w) (wSb w))
  | 0x27 => some (.rem g t d (wSa w) (wSb w))
  | 0x28 => some (.min g t d (wSa w) (wSb w))
  | 0x29 => some (.max g t d (wSa w) (wSb w))
  | 0x2A => some (.abs g t (wSat w) d (wSa w))
  | 0x2B => (decCc (w.extractLsb' 80 3)).map (fun cc => .cmp g t cc d (wSa w) (wSb w))
  | 0x2C => some (.sel g t d (wSa w) (wSb w) (wSc w))
  | 0x2D => some (.addi g t (wSat w) d (wSa w) (wHi w))
  | _ => none

/-- Opcodes 0x30 to 0x3C. -/
def parseBit (w : IWord) : Option Instr :=
  let g := wG w
  (decDst (wDst w)).bind fun d =>
  match (wOp w).toNat with
  | 0x30 => some (.and g d (wSa w) (wSb w))
  | 0x31 => some (.or g d (wSa w) (wSb w))
  | 0x32 => some (.xor g d (wSa w) (wSb w))
  | 0x33 => some (.andn g d (wSa w) (wSb w))
  | 0x34 => some (.shl g d (wSa w) (wSb w))
  | 0x35 => some (.shr g d (wSa w) (wSb w))
  | 0x36 => some (.sar g d (wSa w) (wSb w))
  | 0x37 => some (.rol g d (wSa w) (wSb w))
  | 0x38 => some (.clz g d (wSa w))
  | 0x39 => some (.popc g d (wSa w))
  | 0x3A => some (.brev g d (wSa w))
  | 0x3B => some (.bfe g (wB0 w) d (wSa w) (wSb w))
  | 0x3C => some (.bfi g d (wSa w) (wSb w) (wSc w))
  | _ => none

/-- Opcodes 0x40 to 0x43. -/
def parseLane (w : IWord) : Option Instr :=
  let g := wG w
  (decDst (wDst w)).bind fun d =>
  match (wOp w).toNat with
  | 0x40 => (decShfl (wMd w)).map (fun m => .shfl g m d (wSa w) (wSb w))
  | 0x41 => (decVote (wMd w)).map (fun m => .vote g m d (wSa w))
  | 0x42 => (decRed (wMd w)).map (fun o => .redu g o d (wSa w))
  | 0x43 => (decRed (wMd w)).map (fun o => .scan g o (w.getLsbD 80) d (wSa w))
  | _ => none

/-- Opcodes 0x50 to 0x61. -/
def parseFloat (w : IWord) : Option Instr :=
  let g := wG w
  (decDst (wDst w)).bind fun d =>
  match (wOp w).toNat with
  | 0x50 => some (.fadd g (wRm w) (wFtz w) d (wSa w) (wSb w))
  | 0x51 => some (.fsub g (wRm w) (wFtz w) d (wSa w) (wSb w))
  | 0x52 => some (.fmul g (wRm w) (wFtz w) d (wSa w) (wSb w))
  | 0x53 => some (.fma g (wRm w) (wFtz w) d (wSa w) (wSb w) (wSc w))
  | 0x54 => some (.fmin g (wFtz w) d (wSa w) (wSb w))
  | 0x55 => some (.fmax g (wFtz w) d (wSa w) (wSb w))
  | 0x56 => (decFCc (w.extractLsb' 80 3)).map (fun cc => .fcmp g (wFtz w) cc d (wSa w) (wSb w))
  | 0x57 => some (.fdiv g (wRm w) (wFtz w) d (wSa w) (wSb w))
  | 0x58 => (wNd w).map (fun n => .faddin g (wRm w) (wFtz w) n (wSa w))
  | 0x59 => (wNd w).map (fun n => .fmulin g (wRm w) (wFtz w) n (wSa w))
  | 0x5A => some (.fsqrt g (wRm w) (wFtz w) d (wSa w))
  | 0x5B => some (.fexp2 g (wRm w) (wFtz w) d (wSa w))
  | 0x5C => some (.flog2 g (wRm w) (wFtz w) d (wSa w))
  | 0x60 => some (.fma2 g (wRm w) (wFtz w) (wSat w) d (wSa w) (wSb w) (wSc w))
  | 0x61 => (decFmt (w.extractLsb' 80 4)).bind fun t => (decFmt (w.extractLsb' 84 4)).map fun s =>
              .cvt g (wRm w) (wFtz w) (wSat w) t s d (wSa w)
  | _ => none

/-- Opcodes 0x70 to 0x82: format M and FENCE. -/
def parseMem (w : IWord) : Option Instr :=
  let g := wG w
  if wOp w = 0x76 then (decFence (wMd w)).map (fun k => .fence g k) else
  (decDst (wDst w)).bind fun d =>
  (wMem w).bind fun m =>
  match (wOp w).toNat with
  | 0x70 => some (.ld g (wB0 w) m d)
  | 0x71 => some (.st g m (wSb w))
  | 0x72 => some (.xst g m d (wSb w))
  | 0x73 => some (.ldpoll g m d)
  | 0x74 => some (.pref g (wB0 w) m)
  | 0x80 => (decAtom (wMd w)).map (fun o => .atom g o m d (wSb w))
  | 0x81 => some (.ldlo g m d)
  | 0x82 => some (.stlo g (wB0 w) m (wSb w))
  | _ => none

/-- Opcodes 0x83 to 0x92: format I of memory and tiles. -/
def parseSys1 (w : IWord) : Option Instr :=
  let g := wG w
  (decDst (wDst w)).bind fun d =>
  match (wOp w).toNat with
  | 0x83 => some (.pub g (w.extractLsb' 64 4))
  | 0x84 => (wKa w).map (fun k => .pin g d k (wHi w))
  | 0x85 => some (.unpin g d (wHi w))
  | 0x86 => (wKa w).map (fun k => .discard g d k (wHi w))
  | 0x90 => (decTileKind (wMd w)).map (fun k => .talloc g k d (wSa w) (wHi w))
  | 0x91 => some (.tfree g (w.extractLsb' 64 6))
  | 0x92 => (decRing (w.extractLsb' 72 4)).map fun o =>
              .tring g o d (wSa w) (w.extractLsb' 64 6) (w.extractLsb' 76 3) (w.extractLsb' 80 3)
  | _ => none

/-- Opcodes 0x93 to 0x98. -/
def parseTile (w : IWord) : Option Instr :=
  let g := wG w
  let sl := wSlice w
  (decDst (wDst w)).bind fun d =>
  match (wOp w).toNat with
  | 0x93 => some (.trd g sl d)
  | 0x94 => some (.twr g sl (wSa w))
  | 0x95 => some (.txch g sl d (wSa w))
  | 0x96 => (decCol (wMd w)).map fun o =>
              .tcolop g o sl (w.extractLsb' 80 10) (w.extractLsb' 90 4) (wSa w)
  | 0x97 => some (.tld g sl (w.getLsbD 89) (w.getLsbD 88) (w.extractLsb' 80 7) (wSa w))
  | 0x98 => some (.tst g sl (w.getLsbD 89) (w.getLsbD 88) (w.extractLsb' 80 7) (wSa w))
  | _ => none

/-- Opcodes 0xA0 to 0xD3: format E, with ENQ, DEQ and QTICK. -/
def parseEngine (w : IWord) : Option Instr :=
  let g := wG w
  let e := wE w
  (decDst (wDst w)).bind fun d =>
  match (wOp w).toNat with
  | 0xA0 => some (.binit g e.bar e.ka)
  | 0xA1 => some (.barv g e.bar e.ka)
  | 0xA2 => some (.bwait g d e.bar e.ka)
  | 0xA3 => some (.btest g d e.bar)
  | 0xA4 => some (.barm g e.bar e.ka)
  | 0xB0 => (decFmt e.fmt).map fun f => .mxlds g (wB0 w) e.src e.rbase f e.common
  | 0xB1 => some (.mxswap g e.common)
  | 0xB2 => (decFmt e.fmt).map fun f =>
              .mxstr g (wB0 w) e.src e.dsel e.rbase e.rows e.kve e.kv f e.ka e.common
  | 0xB3 => (decFmt e.fmt).map fun f =>
              .mxdrain g (wB0 w) e.src e.dsel e.rbase e.rows e.kve e.kv f e.ka e.common
  | 0xB4 => some (.mxzero g e.dsel e.common)
  | 0xC0 => (match d with
             | .eng n => some (.enq g n (wSa w) (wSb w))
             | _ => none)
  | 0xC1 => some (.deq g d (w.extractLsb' 32 3))
  | 0xC2 => some (.cpstart g e.kve e.kv e.ka)
  | 0xC3 => some (.cpstat g d)
  | 0xC4 => some (.vdsub g e.ka)
  | 0xC5 => some (.vdstat g d)
  | 0xC6 => some (.qtick g (w.extractLsb' 76 2) (w.extractLsb' 64 12))
  | 0xD0 => some (.susp g (wB0 w) e.ka)
  | 0xD1 => some (.wake g (w.getLsbD 92) d e.src e.ka)
  | 0xD2 => some (.binflush g d e.src)
  | 0xD3 => some (.binstat g (w.getLsbD 92) d e.src)
  | _ => none

/-- Opcodes 0xE0 to 0xF5. -/
def parseHist (w : IWord) : Option Instr :=
  let g := wG w
  (decDst (wDst w)).bind fun d =>
  match (wOp w).toNat with
  | 0xE0 => some (.mark g)
  | 0xE1 => some (.commit g (wB0 w))
  | 0xE2 => (decRev (w.extractLsb' 12 2)).bind fun m =>
              if w.getLsbD 14 then (wKa w).map (fun k => .rev m (.k k)) else some (.rev m (.imm (wHi w)))
  | 0xE3 => some (.spec (w.extractLsb' 12 3) (wHi w))
  | 0xE4 =>
    (match (wMd w).toNat with
     | 0 => some (.gset g .pend (w.extractLsb' 80 3))
     | 1 => some (.gset g (.set (wSa w)) (w.extractLsb' 80 3))
     | 2 => some (.gset g .clear (w.extractLsb' 80 3))
     | _ => none)
  | 0xE5 => some (.gtest g d (w.extractLsb' 80 3))
  | 0xE6 => some (.hstat g d)
  | 0xF0 => some (.srd g d (w.extractLsb' 64 8))
  | 0xF1 => some (.swr g (w.extractLsb' 64 8) (wSa w))
  | 0xF2 => (wKa w).map (fun k => .launch g d k (w.extractLsb' 64 4))
  | 0xF3 => some (.cancel g d (wSa w) (w.extractLsb' 64 8))
  | 0xF4 => some (.ccnt g d (wSa w) (w.extractLsb' 64 8))
  | 0xF5 => some (.dbgmb g (wSa w))
  | _ => none

/-- Whether an opcode is assigned (R95). -/
def opAssigned (op : BitVec 8) : Bool :=
  let n := op.toNat
  let lo := n % 16
  match n / 16 with
  | 0x0 => lo ≤ 9 | 0x1 => lo ≤ 8 | 0x2 => lo ≤ 13 | 0x3 => lo ≤ 12 | 0x4 => lo ≤ 3 | 0x5 => lo ≤ 12 | 0x6 => lo ≤ 1
  | 0x7 => lo ≤ 6 && lo != 5 | 0x8 => lo ≤ 6 | 0x9 => lo ≤ 8 | 0xA => lo ≤ 4 | 0xB => lo ≤ 4 | 0xC => lo ≤ 6
  | 0xD => lo ≤ 3 | 0xE => lo ≤ 6 | 0xF => lo ≤ 5 | _ => false

/-- The fields of a word, by its opcode's format (R96). -/
def parse (w : IWord) : Option Instr :=
  let op := (wOp w).toNat
  match op / 16 with
  | 0x0 => parseTransfer w
  | 0x1 => parseInPlace w
  | 0x2 => parseInt w
  | 0x3 => parseBit w
  | 0x4 => parseLane w
  | 0x5 | 0x6 => parseFloat w
  | 0x7 => parseMem w
  | 0x8 => if op ≤ 0x82 then parseMem w else parseSys1 w
  | 0x9 => if op ≤ 0x92 then parseSys1 w else parseTile w
  | 0xA | 0xB | 0xC | 0xD => parseEngine w
  | _ => parseHist w

/-- The instruction of a word, or why it is ILLEGAL (R97). -/
def decode (w : IWord) : Except DecodeError Instr :=
  if opAssigned (wOp w) then
    match parse w with
    | none => .error (.badField (wOp w))
    | some i =>
      if encode i = some w then
        if i.wf then .ok i else .error (.illFormed (wOp w))
      else .error (.reservedField (wOp w))
  else .error (.unassignedOpcode (wOp w))

/-! ### Bytes -/

/-- The word of a list of bytes, lowest address first (R81). -/
def wordOfBytes (bs : List Byte) : IWord :=
  bs.foldr (fun b acc => (acc <<< 8) ||| b.setWidth 96) 0

/-- The twelve bytes of a word, lowest address first. -/
def bytesOfWord (w : IWord) : List Byte :=
  (List.range 12).map fun i => w.extractLsb' (8 * i) 8

/-- The instruction of twelve bytes as a line holds them (R74). -/
def decodeBytes (bs : List Byte) : Except DecodeError Instr := decode (wordOfBytes bs)

/-- The decoder as the host's table names words: bit 0 is the least significant bit of the first byte. -/
def decodeTableWord (nbits w : Nat) : Option Instr :=
  match decodeBytes (bytesOfWord (BitVec.ofNat 96 (w % 2 ^ nbits))) with
  | .ok i => some i
  | .error _ => none

end Sys2Proof
end

