-- ==== Sys2Proof/Config.lean ====
section
/-! DEFINITION. The device's fixed sizes and the values that the specification leaves free. A free value is an
opaque constant: nothing in Lean can evaluate it, so a theorem about it holds for every value. -/

namespace Sys2Proof.Config

/-- The move that the machine makes when `State.agenda` is empty. The specification gives the order of the
machine's steps no rule (R259, R262), so which agent moves next is free. DESIGN CHOICE (assumption 2). -/
opaque schedule : Nat → Move

/-- A free choice among finitely many outcomes the specification allows, applied to `State.free`: a tree order of
REDU and SCAN (R166), the rows an engine completed when a save strikes (R211), which requests share the record of a PAGE (R295), a
FIRSTNAN that a save area does not tell (R331). DESIGN CHOICE (assumptions 9, 11, 31, 71). -/
opaque choice : Nat → Nat

/-- Which of several cached translations an access uses, and whether a dome still holds a decoded line, at each step. DESIGN
CHOICE (assumptions 33, 53). -/
opaque cached : Nat → Nat

/-- What the standard that R227 cites makes of a frame's headers and tiles: the standard is not part of the specification, so every
field is free. `code` is 0 when the frame decodes, 1 at an error, 3 at an unsupported feature (R233), found in OBU `obu` of the
record; `parsed` tells whether the frame header was parsed before it, `dims` are the frame's dimensions, and `good` counts the output
rows written before an error. DESIGN CHOICE (assumption 10). -/
structure Av1Out where
  code : Nat
  obu : Nat
  parsed : Bool
  dims : Nat × Nat
  ftype : BitVec 2
  show_ : Bool
  grain : Bool
  refresh : BitVec 8
  badSb : BitVec 32
  good : Nat
  grainParams : List Byte
deriving DecidableEq, Repr, Inhabited

/-- What a decoder's control block holds (R230). -/
structure Av1Ctl where
  seq   : List Byte
  slots : List (Option Nat)
  taint : BitVec 8
deriving DecidableEq, Repr, Inhabited

/-- The reference slots that a frame reads, each with the bytes of its buffer, from the bitstream and the control block. DESIGN
CHOICE (assumption 10). -/
opaque av1Refs : List Byte → Av1Ctl → List (Nat × Nat)

/-- A frame's outcome, from its bitstream, the control block and the reference bytes. DESIGN CHOICE (assumption 10). -/
opaque av1Frame : List Byte → Av1Ctl → List Byte → Av1Out

/-- The sample of plane `p` at row `y` and column `x`, with or without film grain. DESIGN CHOICE (assumption 10). -/
opaque av1Sample : List Byte → Av1Ctl → List Byte → Bool → Nat → Nat → Nat → Nat

/-- The bytes that the decoder leaves in its frame buffer (R230). DESIGN CHOICE (assumption 10). -/
opaque av1Recon : List Byte → Av1Ctl → List Byte → List Byte

/-- The check word of a control block's contents (R230). DESIGN CHOICE (assumption 10). -/
opaque av1Check : List Byte → BitVec 64

/-- How the decoder disguises byte `i` of a control block: the block's layout is its own (R230). DESIGN CHOICE (assumption 10). -/
opaque av1Pad : Nat → Byte

/-- Cores of the part (R12). -/
def cores : Nat := 192
/-- Domes of the part (R298). -/
def domes : Nat := 80
/-- Group slots of a core (R27). -/
def groupSlots : Nat := 128
/-- Lane-slots of a core (R27). -/
def laneSlots : Nat := 2048
/-- Device memory, in bytes: 640 GiB (R298). -/
def devBytes : Nat := 640 * 2 ^ 30

end Sys2Proof.Config
end

