-- ==== Sys2Proof/Machine/Maps.lean ====
section
/-! DEFINITION. Sparse maps from Nat keys, as lists of pairs in rising key order. Entries equal to the map's default
are not listed, so equal maps are equal lists. -/

namespace Sys2Proof.Machine

/-- A sparse map. -/
abbrev AMap (α : Type) := List (Nat × α)

variable {α : Type}

/-- The entry of a key. -/
def mfind : AMap α → Nat → Option α
  | [], _ => none
  | (k, v) :: m, i => if k = i then some v else mfind m i

/-- The entry of a key, or the default. -/
def mget (d : α) (m : AMap α) (i : Nat) : α := (mfind m i).getD d

/-- The map without a key. -/
def mdel : AMap α → Nat → AMap α
  | [], _ => []
  | (k, v) :: m, i => if k = i then mdel m i else (k, v) :: mdel m i

/-- The map with an entry set, in key order. -/
def mset : AMap α → Nat → α → AMap α
  | [], i, v => [(i, v)]
  | (k, w) :: m, i, v => if i < k then (i, v) :: (k, w) :: m else if i = k then (i, v) :: m else (k, w) :: mset m i v

/-- The map with an entry set; an entry equal to the default is not listed. -/
def mput [DecidableEq α] (d : α) (m : AMap α) (i : Nat) (v : α) : AMap α :=
  if v = d then mdel m i else mset m i v

/-- The map with an entry changed; a missing entry stays missing. -/
def mmod (m : AMap α) (i : Nat) (f : α → α) : AMap α :=
  m.map fun kv => if kv.1 = i then (kv.1, f kv.2) else kv

/-- Consecutive entries set, from a key on. -/
def mputs [DecidableEq α] (d : α) (m : AMap α) (i : Nat) : List α → AMap α
  | [] => m
  | v :: vs => mputs d (mput d m i v) (i + 1) vs

/-- Consecutive entries. -/
def mgets (d : α) (m : AMap α) (i n : Nat) : List α := (List.range n).map fun j => mget d m (i + j)

/-- The smallest key not in the map, found from 0. -/
def mfree (m : AMap α) : Nat := (List.range (m.length + 1)).findSome? (fun i => if (mfind m i).isNone then some i else none) |>.getD 0

/-- Keys in strictly rising order. -/
def mrising : AMap α → Bool
  | [] => true
  | [_] => true
  | (k, _) :: (k', v) :: m => decide (k < k') && mrising ((k', v) :: m)

end Sys2Proof.Machine
end

