-- ==== Sys2Proof/Machine/State.lean ====
section
/-! DEFINITION. The state of the LZ9 as plain data: every piece of architectural state that the specification
names, the parts of its ordering machine (R259), and fields of the model's own (`cur`, `agenda`, `tick`, `free`, `demId`, `pageRecs`). -/

namespace Sys2Proof.Machine

/-- FALLTHRU (R124). -/
def fallthru : DWord := 0xFFFF_FFFF_FFFF_FFFF

/-! ### Memory access targets -/

/-- Where an access goes after translation (R259, R294). Addresses are physical, save in a decoded range, which is
named by context and virtual address (R164). -/
inductive Tgt where
  | dev
  | dec (ctx : Nat)
  | host
  | win (w : Nat)
  | peer (p : Nat)
deriving DecidableEq, Repr

/-- A piece of a lane's load: at most one granule (R260). -/
structure LPiece where
  lane : Nat
  off  : Nat
  tgt  : Tgt
  addr : Nat
  len  : Nat
  va   : Nat
  tol  : Bool
  sent : Bool := false
  bad  : Bool := false
  val  : Option (List Byte) := none
  /-- The bytes that older stores of the group supplied when the request was sent (R263). -/
  fwd  : List (Option Byte) := []
deriving DecidableEq, Repr

/-- A piece of a lane's store. -/
structure SPiece where
  lane : Nat
  off  : Nat
  tgt  : Tgt
  addr : Nat
  data : List Byte
  va   : Nat
  tol  : Bool := false
  /-- Pieces, as pairs of a group slot and an entry's number, that this piece displaced (R274, R275). -/
  removed : List (Nat × Nat) := []
deriving DecidableEq, Repr

/-- What a load writes when it is bound. -/
inductive LDst where
  | lanes (d : Dst)
  | tile (unit th : Nat) (elems : List (Nat × Nat))
deriving DecidableEq, Repr

/-- The kinds of LQ entry (R262). -/
inductive LKind where
  | ld (sx : Bool)
  | poll
  | lo
  | atom (op : AtomOp)
  | xst
  | tld
deriving DecidableEq, Repr

/-- An entry of LQ (R259). `seq` orders a group's LQ and SQ entries by issue. -/
structure LEntry where
  seq    : Nat
  kind   : LKind
  dst    : LDst
  size   : Nat
  mask   : Mask
  slot   : Slot
  ii     : II
  acq    : Bool
  lanes  : List (Nat × Nat)
  pieces : List LPiece
deriving DecidableEq, Repr

/-- The kinds of SQ entry (R262). -/
inductive SKind where
  | st
  | xst
  | atom (op : AtomOp)
  | stlo (md : Bool)
  | fenceRel
  | fenceAr
  | pub (w : Nat)
  | disc
deriving DecidableEq, Repr

/-- An entry of SQ or of the hold queue (R259, R330). `wait` counts pieces that are not complete. -/
structure SEntry where
  seq    : Nat
  kind   : SKind
  rel    : Bool
  size   : Nat
  mask   : Mask
  pieces : List SPiece
  drained : Bool := false
  wait   : Nat
deriving DecidableEq, Repr

/-- What a request of a path asks its home (R265). -/
inductive ReqKind where
  | store
  /-- A store that the core makes for an engine (its number, from 1) of a context (R270). -/
  | eng (eng ctx : Nat)
  /-- A read that the core makes for an engine of a context (R270). -/
  | eread (eng ctx : Nat)
  | xst
  | atom (op : AtomOp) (size : Nat)
  | stlo (md : Bool)
  | disc (pages : List Nat)
  | read (lo : Bool)
deriving DecidableEq, Repr

/-- A piece that a request carries (R260, R297): `lane` and `off` name the piece of its entry, `bytes` are what a write
carries, and `removed` lists the stores that it displaced (R274, R275). -/
structure RPart where
  lane : Nat
  off  : Nat
  addr : Nat
  len  : Nat
  bytes : List Byte := []
  removed : List (Nat × Nat) := []
deriving DecidableEq, Repr

/-- A request in a path (c, d): the pieces of one entry that lie in one 32-byte sector (R297), at `addr` and virtual address
`va`. -/
structure Req where
  gslot : Nat
  seq   : Nat
  tgt   : Tgt
  addr  : Nat
  va    : Nat
  tol   : Bool
  kind  : ReqKind
  rel   : Bool := false
  parts : List RPart
deriving DecidableEq, Repr

/-- A message on a core's response channel (R265). A part of an acknowledgement or an answer is a lane, an offset and the
bytes read. `wrote` acknowledges a write that the core made for an engine (its number, from 1) or for itself (0). -/
inductive Resp where
  | demote (id granule : Nat)
  | ack (gslot seq : Nat) (parts : List (Nat × Nat × List Byte)) (removed : List (Nat × Nat)) (tgt : Tgt)
      (granule ver : Nat) (value : Option (List Byte)) (bad : Bool) (demotions : List Nat)
  | answer (gslot seq : Nat) (tgt : Tgt) (addr granule ver : Nat) (value : List Byte)
      (parts : List (Nat × Nat × List Byte)) (bad lo : Bool)
  | discDone (gslot seq : Nat) (grans : List (Nat × Nat)) (demotions : List Nat)
  | wrote (eng : Nat) (tgt : Tgt) (granule ver : Nat) (value : Option (List Byte)) (demotions : List Nat)
  /-- The answer of read `idx` of an engine: its bytes, whether they are substituted, and whether they cannot be read (R270, R309). -/
  | got (eng idx : Nat) (value : List Byte) (sub bad : Bool)
deriving DecidableEq, Repr

/-- A granule in L1 (R259). -/
structure L1Gran where
  owned : Bool
  ver   : Nat
  data  : List Byte
deriving DecidableEq, Repr

/-- The record that home keeps of a device granule (R259). -/
structure HomeGran where
  ver   : Nat := 0
  owner : Option Nat := none
deriving DecidableEq, Repr

/-! ### Groups -/

/-- A guard slot's state (R63). -/
inductive GState where
  | free | pending | true | false
deriving DecidableEq, Repr

/-- A path of a group (R32, R33). `since` orders waiting paths by when they began to wait. -/
structure Path where
  ii    : II
  mask  : Mask
  cf    : DWord := fallthru
  frame : Option (BitVec 16) := none
  dem   : Bool := false
  wait  : Bool := false
  since : Nat := 0
  /-- The path has entered here by a launch, a resumption, a vector or a rewritten return point: its first issue checks
  the mark (R79). -/
  fresh : Bool := false
  /-- The barrier that a BWAIT at an II waits on (R178); it counts while the path still stands there. -/
  bwait : Option (Nat × II) := none
  /-- Demoted, and its exchange with a parked path is still to come (R36). -/
  exch  : Bool := false
  /-- Where the path has halted at a breakpoint: it passes it when it issues there (R336). -/
  bp    : List II := []
  /-- The first granule that a LAUNCH at an II has read of its packet, and whether a value was substituted (R309, R392). -/
  half  : Option (II × List Byte × Bool) := none
  /-- The instruction at an II waits for a guard slot, and what a GSET has made of the slot since: a value, or FREE (R386). -/
  gwait : Option (II × Nat × Option GState) := none
  /-- An arrival at an II whose line could not be read: the transferring instruction or FALLTHRU, whether it is recorded, and its ic
  (R125). -/
  arr   : Option (II × DWord × Bool × BitVec 48) := none
deriving DecidableEq, Repr

/-- An entry of the divergence stack (R35). -/
inductive StackEntry where
  | path (p : Path)
  | frame (j : Option II) (mask : Mask) (serial : BitVec 16) (parent : Option (BitVec 16))
deriving DecidableEq, Repr


/-- Where UIRET returns after a context trap (R318). -/
inductive RetKind where
  | reissue | next | load
deriving DecidableEq, Repr

/-- The hidden register CTRET (R322). -/
structure CtRet where
  slot : Slot
  ii   : II
  kind : RetKind
deriving DecidableEq, Repr

/-- A trap that is delivered or has fallen due: its code, return point and the values of TRAPINFO0 to 3 (R318,
R330). -/
structure TrapBlock where
  code : BitVec 8
  slot : Slot
  ret  : RetKind
  rii  : II
  i0   : DWord
  i1   : DWord
  i2   : DWord
  i3   : DWord
deriving DecidableEq, Repr

/-- Why a group issues nothing until something outside it acts. -/
inductive Hold where
  | none
  /-- Held by a D trap for the driver; `page` when REPLAY releases it; a C trap that went to the driver is kept (R319). -/
  | driver (page : Bool) (ctrap : Option TrapBlock)
deriving DecidableEq, Repr

/-- What a command's guard says once the command stands at the head of its subqueue (R210): it runs, it is discarded, or its slot is
FREE. -/
inductive Verdict where
  | run | drop | free
deriving DecidableEq, Repr

/-- An engine subqueue entry: 128 bits (R93, R215), its guard (R82), whether ENQ pushed it (R94), and the group's
memory sequence number at its issue, or at the GSET that let it run, which its thread waits for (R239, R270). -/
structure QEntry where
  bits  : BitVec 128
  guard : Guard
  enq   : Bool
  seq   : Nat
  /-- The verdict of its guard, once there is one: at the head of the subqueue (R210), or by a FALSE speculation (R139). -/
  eval  : Option Verdict := none
deriving DecidableEq, Repr

/-- A status entry of e1, e3 or e5. `ends` marks a thread's final entry (R271). -/
structure StatusEntry where
  bits : DWord
  ends : Bool
deriving DecidableEq, Repr

/-- An open speculation (R136, R330). -/
structure SpecState where
  guard : BitVec 3
  pos   : DWord
  ic    : BitVec 48
  oldRec : Bool
  alt   : II
deriving DecidableEq, Repr

/-- A reversal in progress: its target, its mode and the slot of its REV (R134, R330). -/
structure RevState where
  target : BitVec 48
  mode   : RevMode
  slot   : Slot
deriving DecidableEq, Repr

/-- The group's copy-engine, matrix or decoder subqueue parameters (R207). -/
structure Tickets where
  t    : Nat := 64
  pass : DWord := 0
  backlogged : Bool := false
deriving DecidableEq, Repr

/-- A TCOLOP that executes: its slot, its tile's handle, the next row, and its operands as read at issue (R440). -/
structure ColRun where
  slot : Slot
  th   : Nat
  row  : Nat
  col  : Nat
  b    : DWord
deriving DecidableEq, Repr

/-- A resident group (R26, R51, R330). -/
structure Group where
  ctx    : Nat
  launch : Nat
  unit   : Nat
  gidx   : Nat
  wcode  : BitVec 2
  priv   : Nat
  pathA  : Option Path
  pathB  : Option Path
  stack  : List StackEntry := []
  /-- The entries below the four topmost as private memory holds them (R35). -/
  deep   : List StackEntry := []
  fserial : BitVec 16 := 0
  waitCtr : Nat := 0
  last   : Slot := .b
  ic     : BitVec 48 := 0
  recb   : Bool := false
  dir    : Bool := false
  uih    : Bool := false
  cth    : Bool := false
  recUi  : Bool := false
  recCt  : Bool := false
  ctret  : Option CtRet := none
  cthGset : Bool := false
  /-- The context trap handler that runs was entered by HISTFULL (R120). -/
  cthHist : Bool := false
  /-- The slot of the innermost handler, and that of the user-level interrupt handler under a context trap handler (R184, R322). -/
  hSlot  : Slot := .a
  uiSlot : Slot := .a
  n      : AMap Word := []
  q      : AMap Word := []
  live   : AMap Mask := []
  k      : AMap DWord := []
  guards : AMap GState := []
  hbase  : DWord := 0
  hlim   : DWord := 0
  hsp    : DWord := 0
  hist   : List DWord := []
  ptrace : List Slot := []
  ptraceIc : BitVec 48 := 0
  rtrace : List Slot := []
  rev    : Option RevState := none
  spec   : Option SpecState := none
  hold   : List SEntry := []
  fctl   : BitVec 1 := 0
  fstat  : BitVec 6 := 0
  uvec   : DWord := 0
  uicause : DWord := 0
  uiretpc : DWord := 0
  uirw   : Bool := false
  trapinfo0 : DWord := 0
  trapinfo1 : DWord := 0
  trapinfo2 : DWord := 0
  trapinfo3 : DWord := 0
  replval : DWord := 0
  privbase : DWord := 0
  causes : List DWord := []
  pend   : Option TrapBlock := none
  held   : Hold := .none
  halted : Bool := false
  argWait : Bool := false
  /-- A mailbox step waits to issue: the slot and the command's TOKEN (R335). -/
  step   : Option (Slot × Nat) := none
  seq    : Nat := 0
  lq     : List LEntry := []
  sq     : List SEntry := []
  uncorr : Option (Nat × Mask) := none
  poll   : List (Nat × Nat × List Byte) := []
  e0     : List QEntry := []
  e2     : List QEntry := []
  e4     : List QEntry := []
  e1     : List StatusEntry := []
  e3     : List StatusEntry := []
  e5     : List StatusEntry := []
  tmx    : Tickets := {}
  tcp    : Tickets := {}
  tvd    : Tickets := {}
  mxseq  : BitVec 8 := 0
  mxnan  : Option (DWord × DWord) := none
  engPend : List (DWord × DWord) := []
  wpPend : List (DWord × DWord) := []
  colop  : Option ColRun := none
  ended  : Bool := false
deriving DecidableEq, Repr

/-! ### Units, tiles and barriers -/

/-- A transaction barrier (R177). -/
structure Barrier where
  armgrp  : Nat := 0
  sectors : BitVec 32 := 0
  reload  : Nat := 0
  pending : Nat := 0
  uiv     : Nat := 0
  uie     : Bool := false
  poison  : Bool := false
  phase   : Nat := 0
deriving DecidableEq, Repr

/-- A unit resident on a core (R26, R329). -/
structure Unit where
  ctx    : Nat
  launch : Nat
  x      : Nat
  y      : Nat
  z      : Nat
  ngrp   : Nat
  nbar   : Nat
  mxuse  : Bool
  pair   : Bool
  resOff : Nat
  resBytes : Nat
  tileBytes : Nat
  started : Nat := 0
  argHeld : Bool := false
  bars   : AMap Barrier := []
  phist  : AMap (BitVec 16) := []
deriving DecidableEq, Repr

/-- Ring state of a tile (R169, R173). -/
structure Ring where
  inited : Bool := false
  logs : Nat := 0
  eos  : BitVec 8 := 0
  preg : BitVec 8 := 0
  res  : BitVec 32 := 0
  cmt  : BitVec 32 := 0
  acq  : BitVec 32 := 0
  rls  : BitVec 32 := 0
deriving DecidableEq, Repr

/-- Frame-tile state (R244, R247). -/
structure Bin where
  flsh  : Bool := false
  scap  : Nat := 0
  sbase : Nat := 0
  desc  : Option (List Byte) := none
  descAddr : Nat := 0
  head  : Nat := 0
  tail  : Nat := 0
  /-- A PAGE holds the silo's moves until REPLAY (R255). -/
  paged : Bool := false
deriving DecidableEq, Repr

/-- An entry of a core's tile table (R169). -/
structure Tile where
  kind : TileKind
  unit : Nat
  th   : Nat
  fmt  : Fmt
  rows : Nat
  rowBytes : Nat
  base : Nat
  ring : Ring := {}
  bin  : Bin := {}
deriving DecidableEq, Repr

/-! ### The matrix engine -/

/-- One weight plane (R186 to R189). -/
structure Plane where
  fmt    : Fmt := .bf16
  sparse : Bool := false
  nan    : Bool := false
  poison : Bool := false
  data   : AMap Byte := []
deriving DecidableEq, Repr

/-- A matrix command that the engine has taken (R199, R211): the unit and the group slot that pushed it, its number, the
rows it has completed, and what its status entry will say. -/
structure MxRun where
  gslot : Nat
  unit  : Nat
  ent   : QEntry
  seq   : BitVec 8
  rowsDone : Nat := 0
  sat   : Bool := false
  psn   : Bool := false
  flg   : Bool := false
  nan   : Option (Nat × Nat) := none
  /-- Its FIRSTNAN was noted by a save and has fallen due at the restore (R331). -/
  told  : Bool := false
deriving DecidableEq, Repr

/-- A core's matrix array with its storage (R186, R44): buffer bytes keyed buffer * 32768 + row * 128 + byte, tags keyed
buffer * 256 + row, accumulator elements keyed tile * 4096 + row * 64 + column, and one mask of rows per tile for the NaN
flags and for the poison marks. -/
structure Mx where
  owner  : Option Nat := none
  ob     : AMap Byte := []
  tags   : AMap Bool := []
  active : Plane := {}
  shadow : Plane := {}
  acc    : AMap (BitVec 80) := []
  flags  : AMap (BitVec 64) := []
  marks  : AMap (BitVec 64) := []
  ksteps : AMap (BitVec 32) := []
  run    : List MxRun := []
deriving DecidableEq, Repr

/-! ### Copy channels -/

/-- A transfer record that a channel has read: its address, its 128 bytes, and the reason of the fault found when it was
read (R224). -/
structure CRec where
  addr  : Nat
  bytes : List Byte
  fault : Option Nat := none
deriving DecidableEq, Repr

/-- A running chain of a copy channel (R216 to R226): `recs` are the records read and not finished, oldest first, and
`next` the address of the next to read. -/
structure Chan where
  gslot  : Nat
  unit   : Nat
  entry  : QEntry
  valid  : BitVec 32
  next   : Option Nat
  recs   : List CRec := []
  index  : Nat := 0
  subtracted : Nat := 0
  ringIdx : Option (BitVec 32) := none
  fstep  : Nat := 0
  fault  : Option Nat := none
  lastBar : Option Nat := none
  held   : Bool := false
  /-- The index tuple of a save, until its record is read again (R226). -/
  tuple  : Option (List Nat) := none
  /-- Watchpoint matches of the chain, which halt its group when the chain is complete (R337). -/
  wp     : List (DWord × DWord) := []
deriving DecidableEq, Repr

/-! ### Cores -/

/-- A line of the instruction cache: the launch that fetched it, its line number and its 512 bits (R74, R80). -/
structure ILine where
  launch : Nat
  line   : Nat
  bits   : BitVec 512
deriving DecidableEq, Repr

/-- What a save was started by (R324). -/
inductive SaveCause where
  | cmd | preempt | isolate
deriving DecidableEq, Repr

/-- One core's part of a save: its area and the units taken (R324). -/
structure SavePart where
  core  : Nat
  area  : Nat
  units : List Nat
deriving DecidableEq, Repr

/-- A save in progress, kept at the core that it names (R324, R325). `held` is the context of a PAGE that waits for REPLAY, and
`done` counts the granules that are written. -/
structure Save where
  parts : List SavePart
  cause : SaveCause
  late  : Bool := false
  held  : Option Nat := none
  done  : Nat := 0
deriving DecidableEq, Repr

/-- A core (R14, R27, R259). -/
structure Core where
  groups : AMap Group := []
  units  : AMap Unit := []
  scr    : AMap Byte := []
  tiles  : AMap Tile := []
  icache : List ILine := []
  l1     : AMap L1Gran := []
  resp   : List Resp := []
  mx     : Mx := {}
  chans  : AMap Chan := []
  pairUnit : Option (Nat × Nat) := none
  isolated : Bool := false
  quiesced : Bool := false
  saving : Option Save := none
  gated  : Bool := false
deriving DecidableEq, Repr

/-! ### The device -/

/-- A cached translation: who holds it (a core, or 192 and a quadrant), context, virtual page number in 4 KiB units, number
of 4 KiB pages covered, and the leaf (R293, R295). -/
structure TlbEntry where
  holder : Nat := 0
  ctx  : Nat
  vpn  : Nat
  npg  : Nat
  leaf : DWord
deriving DecidableEq, Repr

/-- A pinned window (R302). -/
structure Pin where
  ctx  : Nat
  base : Nat
  units : Nat
  fade : Nat
  count : Nat
  pages : List (Nat × Nat)
  filled : Bool := false
deriving DecidableEq, Repr

/-- A write that waits in a publication buffer: host address, bytes, and the context that wrote (R277, R332). -/
structure PubWrite where
  addr  : Nat
  bytes : List Byte
  ctx   : Nat
deriving DecidableEq, Repr

/-- A decoded sector that a dome holds: context, virtual address and its 32 bytes (R163, R165). -/
structure DecLine where
  ctx   : Nat
  va    : Nat
  bytes : List Byte
deriving DecidableEq, Repr

/-- A dome's own state (R312). -/
structure Dome where
  ret  : Bool := false
  retq : Bool := false
  cecnt : Nat := 0
deriving DecidableEq, Repr

/-- A context (R321). -/
structure Ctx where
  root   : Nat
  cthii  : II
  jobtab : Nat
  serial : Nat := 0
  pfdrop : DWord := 0
  uecnt  : DWord := 0
  killing : Bool := false
deriving DecidableEq, Repr

/-- A launch that the distributor has taken (R28, R45): `nextUnit` counts the units placed, `ended` those that have ended,
and `privs` the private slots of groups that a save has taken off their core (R30). -/
structure Launch where
  ctx    : Nat
  packet : List DWord
  addr   : Nat
  serial : Nat
  stamp  : Nat
  nextUnit : Nat := 0
  ended  : Nat := 0
  privs  : List Nat := []
  cancelled : Bool := false
  done   : Bool := false
deriving DecidableEq, Repr

/-- A packet in a host queue: the queue's number, the packet's context and address, and when it arrived (R28). -/
structure QPacket where
  q     : Nat
  ctx   : Nat
  addr  : Nat
  stamp : Nat
deriving DecidableEq, Repr

/-- A packet in a device launch queue: its append count, the launch it is held for (R49), and when it was released. -/
structure LPacket where
  idx   : Nat
  held  : Option Nat
  stamp : Nat
deriving DecidableEq, Repr

/-- A device launch queue (R391, R392). -/
structure LQueue where
  base  : Nat := 0
  v     : Bool := false
  logn  : Nat := 0
  append : Nat := 0
  packets : List LPacket := []
deriving DecidableEq, Repr

/-- How a frame ends: its status record, its arrival, its cause, its sectors and rows, and the control block that it writes, none for a
frame that changes nothing there (R230, R231, R233, R234). -/
structure FrameEnd where
  code : Nat := 3
  fid  : Nat := 0
  bad  : Nat := 0xFFFF_FFFF
  used : Nat := 0
  bits : Nat := 0
  be   : Bool := false
  bar  : Nat := 0
  sirq : Bool := false
  sectors : Nat := 0
  rows : Nat := 0
  block : List Byte := []
deriving DecidableEq, Repr

/-- A frame that a decoder decodes (R228 to R237): the entry it took, the record and the control block once they are read,
how it ends once that is known, and the sectors already subtracted. -/
structure Frame where
  core   : Nat
  gslot  : Nat
  unit   : Nat
  entry  : QEntry
  record : List Byte := []
  ctl    : List Byte := []
  fin    : Option FrameEnd := none
  subtracted : Nat := 0
  held   : Bool := false
  /-- The control block is on its way to memory: the status record, the cause and the arrival follow once it is there (R234, R271). -/
  ending : Bool := false
deriving DecidableEq, Repr

/-- A record that waits for the fault ring (R320): words w0 to w3. -/
structure FaultRec where
  w0 : DWord
  w1 : DWord
  w2 : DWord
  w3 : DWord
deriving DecidableEq, Repr

/-- An interleave region or a register whose bits software wrote is kept in `ctl`, keyed by control-window offset
in bytes; unlisted offsets read 0. -/
abbrev CtlMap := AMap DWord

/-- The whole machine. -/
structure State where
  cores  : AMap Core
  mem    : List Host.Cell
  host   : List Host.Cell
  peers  : AMap (List Host.Cell)
  gran   : AMap HomeGran
  paths  : AMap (List Req)
  /-- The bytes of device sectors that cannot be corrected, keyed by sector (R309). -/
  uncorr : AMap (BitVec 32)
  rowsBad : List (Nat × Nat)
  dead   : List Nat
  pubs   : AMap (List PubWrite)
  tlb    : List TlbEntry
  pins   : AMap Pin
  domes  : AMap Dome
  buckets : AMap Nat
  faccStage : AMap DWord
  facc   : AMap DWord
  faccDone : Bool
  faccRewrite : Bool
  ctl    : CtlMap
  ranges : AMap (List DWord)
  declines : List DecLine
  frPending : List FaultRec
  stPending : List (List DWord)
  ctxs   : AMap Ctx
  pageRecs : List (Nat × Nat × Nat)
  launches : AMap Launch
  launchCtr : Nat
  hostq  : List QPacket
  hostqHeld : List Nat
  lqs    : AMap LQueue
  decs   : AMap Frame
  clk    : DWord
  clkLimited : Bool
  thermalStop : Bool
  portsDown : List Nat
  hostDown : Bool
  firmware : AMap Nat
  retrain : AMap Nat
  tlbBusy : Option DWord
  hostReply : List (Option (List Byte))
  demId  : Nat
  cur    : Nat × Nat × Slot
  agenda : List Move
  tick   : Nat
  free   : Nat
deriving DecidableEq, Repr

/-- Why a step stops the machine. -/
inductive Fault where
  /-- Raised by every instruction's meaning when no group's path stands at `State.cur`. Safe: the machine's own step
  never runs an instruction there. -/
  | noIssuingPath
deriving DecidableEq, Repr

/-- Why a step is refused. -/
inductive Refusal where
  /-- Raised by `exec` for an instruction whose meaning the model does not give. Safe. -/
  | notModelled (mnemonic : String)
deriving DecidableEq, Repr

/-- The machine right after function reset: no context, launch, unit or group; every memory unlisted; interleave
region 0 over all 640 GiB (R299); every register the specification gives no value at 0 (assumption 5). -/
def State.reset : State where
  cores := []
  mem := []
  host := []
  peers := []
  gran := []
  paths := []
  uncorr := []
  rowsBad := []
  dead := []
  pubs := []
  tlb := []
  pins := []
  domes := []
  buckets := []
  faccStage := []
  facc := []
  faccDone := false
  faccRewrite := false
  ctl := [(0x0600, 1), (0x0608, 0x0A00_0000)]
  ranges := []
  declines := []
  frPending := []
  stPending := []
  ctxs := []
  pageRecs := []
  launches := []
  launchCtr := 0
  hostq := []
  hostqHeld := []
  lqs := []
  decs := []
  clk := 0
  clkLimited := false
  thermalStop := false
  portsDown := []
  hostDown := false
  firmware := []
  retrain := []
  tlbBusy := none
  hostReply := []
  demId := 0
  cur := (0, 0, .a)
  agenda := []
  tick := 0
  free := 0

end Sys2Proof.Machine
end

