-- ==== Sys2Proof/Machine/Bits.lean ====
section
/-! DEFINITION. Bytes, masks and bit fields: the helpers that every other file of the machine uses. -/

namespace Sys2Proof.Machine

/-- The `n` low bytes of a number, lowest first: every multi-byte value is little-endian (R1). -/
def bytesOf : Nat → Nat → List Byte
  | 0, _ => []
  | n + 1, v => BitVec.ofNat 8 v :: bytesOf n (v / 256)

/-- The number that little-endian bytes hold. -/
def natOf : List Byte → Nat
  | [] => 0
  | b :: bs => b.toNat + 256 * natOf bs

/-- Bits [lo + n - 1 : lo] of a number. -/
def fld (v lo n : Nat) : Nat := v / 2 ^ lo % 2 ^ n

/-- Bit `i` of a number. -/
def bit (v i : Nat) : Bool := v.testBit i

/-- A field of a 64-bit word as a number. -/
def wfld (v : DWord) (lo n : Nat) : Nat := (v.extractLsb' lo n).toNat

/-- 1 or 0. -/
def b2n (b : Bool) : Nat := if b then 1 else 0

/-- Two's complement of a number of `w` bits, as an integer. -/
def sInt (w v : Nat) : Int := if v % 2 ^ w < 2 ^ (w - 1) then (v % 2 ^ w : Nat) else (v % 2 ^ w : Nat) - (2 ^ w : Nat)

/-- An integer reduced to `w` bits. -/
def wrapNat (w : Nat) (x : Int) : Nat := (x % (2 ^ w : Nat)).toNat

/-- The lanes of a mask, lowest first (R402). -/
def lanes (m : Mask) : List Nat := (List.range 64).filter fun l => m.getLsbD l

/-- The lowest-numbered lane of a mask. -/
def lowLane (m : Mask) : Nat := ((List.range 64).find? fun l => m.getLsbD l).getD 0

/-- The number of lanes of a mask. -/
def laneCount (m : Mask) : Nat := (lanes m).length

/-- The mask of the lanes at which a predicate holds. -/
def maskOf (p : Nat → Bool) : Mask :=
  (List.range 64).foldl (fun acc l => if p l then acc ||| (1 : BitVec 64) <<< l else acc) 0

/-- The mask of every lane of a group of width `w`. -/
def fullMask (w : Nat) : Mask := BitVec.ofNat 64 (2 ^ w - 1)

/-- One bits of a number of at most `n` bits. -/
def popc (n v : Nat) : Nat := ((List.range n).filter fun i => v.testBit i).length

/-- A floor of the base-2 logarithm; 0 for 0. -/
def log2 (v : Nat) : Nat := Nat.log2 v

/-- Rounds down, or up, to a multiple. -/
def alignDown (a n : Nat) : Nat := a / n * n
def alignUp (a n : Nat) : Nat := (a + n - 1) / n * n

def iiOf (n : Nat) : II := BitVec.ofNat 48 n
def dw (n : Nat) : DWord := BitVec.ofNat 64 n
def w32 (n : Nat) : Word := BitVec.ofNat 32 n

/-- The other slot. -/
def otherSlot : Slot → Slot
  | .a => .b
  | .b => .a

def slotBit : Slot → Nat
  | .a => 0
  | .b => 1

/-- A fold that stops at the first failure. -/
def foldE {ε σ α : Type} (f : σ → α → Except ε σ) : σ → List α → Except ε σ
  | s, [] => .ok s
  | s, a :: as =>
    match f s a with
    | .ok s' => foldE f s' as
    | .error e => .error e

/-- The first element that a list's function gives. -/
def firstSome {α β : Type} (f : α → Option β) : List α → Option β
  | [] => none
  | a :: as => match f a with
    | some b => some b
    | none => firstSome f as

/-- Replaces the elements of a list by position. -/
def setAt {α : Type} : List α → Nat → α → List α
  | [], _, _ => []
  | _ :: as, 0, v => v :: as
  | a :: as, n + 1, v => a :: setAt as n v

/-- Removes the element of a list at a position. -/
def dropAt {α : Type} : List α → Nat → List α
  | [], _ => []
  | _ :: as, 0 => as
  | a :: as, n + 1 => a :: dropAt as n

/-- Puts an element into a list at a position. -/
def putAt {α : Type} : List α → Nat → α → List α
  | as, 0, v => v :: as
  | [], _, v => [v]
  | a :: as, n + 1, v => a :: putAt as n v

/-- Bytes written over a list of bytes at an offset. -/
def overlay (bs : List Byte) (off : Nat) (new : List Byte) : List Byte :=
  bs.take off ++ new ++ bs.drop (off + new.length)

end Sys2Proof.Machine
end

