-- ==== Sys2Proof/Machine/Num.lean ====
section
/-! DEFINITION. Exact arithmetic and rounding (R103, R104, R146 to R153): a finite value is a sign, a whole mantissa
and an exponent, so sums and products are exact and each instruction rounds once. -/

namespace Sys2Proof.Machine

/-- A finite value (-1)^neg * m * 2^e. With `sticky`, the magnitude lies strictly between m * 2^e and (m + 1) * 2^e. -/
structure Dy where
  neg : Bool
  m   : Nat
  e   : Int
  sticky : Bool := false
deriving DecidableEq, Repr

/-- A value of a floating-point format (R146, R147). -/
inductive FVal where
  | nan (sig : Bool)
  | inf (neg : Bool)
  | fin (d : Dy)
deriving DecidableEq, Repr

/-- FSTAT flags, in the bit places of R69. -/
abbrev Flags := BitVec 6

def fINV : Flags := 0x01
def fDZ : Flags := 0x02
def fOVF : Flags := 0x04
def fUNF : Flags := 0x08
def fINX : Flags := 0x10
def fACCSAT : Flags := 0x20

/-- The parameters of a floating-point format (R146). -/
structure FParams where
  ebits : Nat
  mbits : Nat
  bias  : Nat
  canon : Nat
deriving DecidableEq, Repr

def fp32 : FParams := { ebits := 8, mbits := 23, bias := 127, canon := 0x7FC00000 }
def fp16 : FParams := { ebits := 5, mbits := 10, bias := 15, canon := 0x7E00 }
def fpB16 : FParams := { ebits := 8, mbits := 7, bias := 127, canon := 0x7FC0 }
def fpE4 : FParams := { ebits := 4, mbits := 3, bias := 7, canon := 0x7F }
def fpE5 : FParams := { ebits := 5, mbits := 2, bias := 15, canon := 0x7E }
def fpA80 : FParams := { ebits := 10, mbits := 69, bias := 511, canon := 0 }

/-- Formats without an infinity (R146). -/
def FParams.noInf (f : FParams) : Bool := f == fpE4 || f == fpA80

/-- The largest finite magnitude, as the mantissa and exponent of a `Dy` (R146). -/
def FParams.maxFin (f : FParams) : Nat × Int :=
  if f == fpE4 then (14, 5)
  else if f == fpA80 then (2 ^ 70 - 1, 443)
  else (2 ^ (f.mbits + 1) - 1, (f.bias : Int) - f.mbits)

def FParams.width (f : FParams) : Nat := 1 + f.ebits + f.mbits

/-- The value of a pattern (R146 to R148). -/
def unpack (f : FParams) (v : Nat) : FVal :=
  let s := bit v (f.ebits + f.mbits)
  let ex := fld v f.mbits f.ebits
  let fr := fld v 0 f.mbits
  let fin := FVal.fin (if ex = 0 then { neg := s, m := fr, e := 1 - (f.bias : Int) - f.mbits }
    else { neg := s, m := 2 ^ f.mbits + fr, e := (ex : Int) - f.bias - f.mbits })
  if f == fpA80 then fin
  else if f == fpE4 then (if ex = 15 ∧ fr = 7 then .nan false else fin)
  else if ex = 2 ^ f.ebits - 1 then
    (if fr = 0 then .inf s else .nan (!bit fr (f.mbits - 1)))
  else fin

/-- Rounds a magnitude (m + fraction) * 2^e to a multiple of 2^q: the multiple and whether it is inexact (R103). -/
def roundAt (rm : Rm) (d : Dy) (q : Int) : Nat × Bool :=
  if d.e ≥ q then (d.m * 2 ^ (d.e - q).toNat, d.sticky)
  else
    let k := (q - d.e).toNat
    let n := d.m / 2 ^ k
    let r := d.m % 2 ^ k
    let inexact := r != 0 || d.sticky
    let half := 2 ^ (k - 1)
    let up :=
      match rm with
      | .rne => decide (r > half) || (r == half && (d.sticky || n % 2 == 1))
      | .rtz => false
      | .rdn => d.neg && inexact
      | .rup => !d.neg && inexact
    (if up then n + 1 else n, inexact)

/-- The sign bit of a pattern. -/
def signPat (f : FParams) (neg : Bool) : Nat := if neg then 2 ^ (f.ebits + f.mbits) else 0

/-- The pattern of the largest finite value. -/
def maxPat (f : FParams) (neg : Bool) : Nat :=
  signPat f neg + (if f == fpE4 then 0x7E else if f == fpA80 then 2 ^ 79 - 1 else (2 ^ f.ebits - 1) * 2 ^ f.mbits - 1)

/-- The pattern of an infinity. -/
def infPat (f : FParams) (neg : Bool) : Nat := signPat f neg + (2 ^ f.ebits - 1) * 2 ^ f.mbits

/-- The pattern of a multiple n * 2^q of a format's grid. -/
def packPat (f : FParams) (neg : Bool) (n : Nat) (q : Int) : Nat :=
  if n < 2 ^ f.mbits then signPat f neg + n
  else
    let (n, q) := if n ≥ 2 ^ (f.mbits + 1) then (n / 2, q + 1) else (n, q)
    signPat f neg + (q + f.mbits + f.bias).toNat * 2 ^ f.mbits + (n - 2 ^ f.mbits)

/-- RoundTo of a finite value (R103). -/
def roundFin (f : FParams) (rm : Rm) (sat ftz : Bool) (d : Dy) : Nat × Flags :=
  if d.m = 0 ∧ !d.sticky then (signPat f d.neg, 0)
  else
    let L : Int := (log2 d.m : Int) + d.e
    let emin : Int := 1 - (f.bias : Int)
    let q0 := L - f.mbits
    let n0 := (roundAt rm d q0).1
    let tiny := decide ((if n0 ≥ 2 ^ (f.mbits + 1) then L + 1 else L) < emin)
    let q := max q0 (emin - f.mbits)
    let (n, inexact) := roundAt rm d q
    if tiny ∧ ftz then (signPat f d.neg, fUNF ||| fINX)
    else
      let (mm, mq) := f.maxFin
      let tooBig := if q ≥ mq then decide (n * 2 ^ (q - mq).toNat > mm) else decide (n > mm * 2 ^ (mq - q).toNat)
      if tooBig then
        let fl := (if f == fpA80 then fACCSAT else fOVF) ||| fINX
        let toMax := sat || f.noInf ||
          (match rm with
           | .rne => false
           | .rtz => true
           | .rdn => !d.neg
           | .rup => d.neg)
        (if toMax then maxPat f d.neg else infPat f d.neg, fl)
      else
        (packPat f d.neg n q,
          (if inexact then fINX else 0) ||| (if tiny ∧ inexact then fUNF else 0))

/-- RoundTo for the floating-point formats (R103). -/
def roundTo (f : FParams) (rm : Rm) (sat ftz : Bool) : FVal → Nat × Flags
  | .nan _ => (f.canon, 0)
  | .inf s => if f.noInf || sat then (maxPat f s, fOVF) else (infPat f s, 0)
  | .fin d => roundFin f rm sat ftz d

/-- RoundTo for an integer type of `w` bits (R103): the value and its flags. -/
def roundInt (w : Nat) (sgn : Bool) (rm : Rm) : FVal → Int × Flags
  | .nan _ => (0, fINV)
  | .inf s => (if s then (if sgn then -(2 ^ (w - 1) : Nat) else 0)
               else (if sgn then (2 ^ (w - 1) : Nat) - 1 else (2 ^ w : Nat) - 1), fINV)
  | .fin d =>
    let (n, inexact) := roundAt rm d 0
    let v : Int := if d.neg then -(n : Int) else n
    let lo : Int := if sgn then -(2 ^ (w - 1) : Nat) else 0
    let hi : Int := if sgn then (2 ^ (w - 1) : Nat) - 1 else (2 ^ w : Nat) - 1
    if v < lo then (lo, fINV) else if v > hi then (hi, fINV) else (v, if inexact then fINX else 0)

/-! ### Exact operations on finite values -/

def Dy.isZero (d : Dy) : Bool := d.m == 0 && !d.sticky

def dyInt (x : Int) : Dy := { neg := decide (x < 0), m := x.natAbs, e := 0 }

def dyMul (a b : Dy) : Dy := { neg := a.neg != b.neg, m := a.m * b.m, e := a.e + b.e }

/-- A value's mantissa at a lower exponent, with its sign. -/
def dyScaled (a : Dy) (e : Int) : Int :=
  let v : Int := (a.m * 2 ^ (a.e - e).toNat : Nat)
  if a.neg then -v else v

/-- The exact sum; a zero sum of opposite signs is +0, or -0 under RDN, and equal signs keep theirs (R149). -/
def dyAdd (rm : Rm) (a b : Dy) : Dy :=
  let e := min a.e b.e
  let s := dyScaled a e + dyScaled b e
  if s = 0 then
    { neg := if a.neg == b.neg then a.neg else rm == .rdn, m := 0, e := e }
  else { neg := decide (s < 0), m := s.natAbs, e := e }

/-- A quotient to 256 bits beyond the operands, with the rest in `sticky`. -/
def dyDiv (a b : Dy) : Dy :=
  let num := a.m * 2 ^ 256
  { neg := a.neg != b.neg, m := num / b.m, e := a.e - b.e - 256, sticky := num % b.m != 0 }

/-- The floor of a square root, one bit at a time. -/
def isqrtAux : Nat → Nat → Nat → Nat
  | 0, _, r => r
  | k + 1, v, r =>
    let t := r + 2 ^ k
    isqrtAux k v (if t * t ≤ v then t else r)

def isqrt (v : Nat) : Nat := isqrtAux (log2 v / 2 + 1) v 0

/-- A square root to more than 100 bits, with the rest in `sticky`. -/
def dySqrt (a : Dy) : Dy :=
  let odd := a.e % 2 != 0
  let m := (if odd then a.m * 2 else a.m) * 2 ^ 200
  let e := (if odd then a.e - 1 else a.e) - 200
  let r := isqrt m
  { neg := false, m := r, e := e / 2, sticky := r * r != m }

/-- ln 2 * 2^400 by its series, the sum of 1 / (k * 2^k). -/
def ln2Fix : Nat := ((List.range 420).map fun k => 2 ^ 400 / ((k + 1) * 2 ^ (k + 1))).foldl (· + ·) 0

/-- exp y * 2^400 for y in fixed point of 400 bits: `n` terms of the series, from the term `t` on. -/
def expSeries : Nat → Nat → Nat → Nat → Nat
  | 0, _, _, _ => 0
  | n + 1, k, y, t => t + expSeries n (k + 1) y (t * y / 2 ^ 400 / k)

/-- 2^x for a finite x that is not an integer: an irrational value, to 300 bits (R379). -/
def dyExp2 (a : Dy) : Dy :=
  let fixed : Int := dyScaled a (-400)
  let i := fixed / (2 ^ 400 : Nat)
  let fr := (fixed % (2 ^ 400 : Nat)).toNat
  let y := fr * ln2Fix / 2 ^ 400
  { neg := false, m := expSeries 100 1 y (2 ^ 400) / 2 ^ 100, e := i - 300, sticky := true }

/-- Whether a finite value is an integer, and which. -/
def dyInteger? (a : Dy) : Option Int :=
  if a.e ≥ 0 then some (dyScaled a 0)
  else if a.m % 2 ^ (-a.e).toNat = 0 then
    let v : Int := (a.m / 2 ^ (-a.e).toNat : Nat)
    some (if a.neg then -v else v)
  else none

/-- Bits of log2 of y in [1, 2), given in fixed point of 448 bits, by squaring. -/
def logBits : Nat → Nat → Nat → Nat
  | 0, _, acc => acc
  | n + 1, y, acc =>
    let y2 := y * y / 2 ^ 448
    if y2 ≥ 2 ^ 449 then logBits n (y2 / 2) (2 * acc + 1) else logBits n y2 (2 * acc)

/-- log2 of a positive finite value that is not a power of two, to 160 bits behind the point (R379). -/
def dyLog2 (a : Dy) : Dy :=
  let l := log2 a.m
  let L : Int := (l : Int) + a.e
  let f := logBits 160 (a.m * 2 ^ 448 / 2 ^ l) 0
  if L ≥ 0 then { neg := false, m := L.toNat * 2 ^ 160 + f, e := -160, sticky := true }
  else { neg := true, m := (-L).toNat * 2 ^ 160 - f - 1, e := -160, sticky := true }

/-- Numeric comparison of finite values. -/
def dyLt (a b : Dy) : Bool :=
  let e := min a.e b.e
  decide (dyScaled a e < dyScaled b e)

def dyEq (a b : Dy) : Bool :=
  let e := min a.e b.e
  decide (dyScaled a e = dyScaled b e)

/-! ### Element formats -/

/-- The floating-point parameters of a format code, none for the integer types. -/
def fmtParams : Fmt → Option FParams
  | .f16 => some fp16
  | .bf16 => some fpB16
  | .f32 => some fp32
  | .e4m3 => some fpE4
  | .e5m2 => some fpE5
  | .a80 => some fpA80
  | _ => none

/-- Bytes of an element (R171). -/
def fmtBytes : Fmt → Nat
  | .s8 | .b8 | .e4m3 | .e5m2 => 1
  | .s16 | .b16 | .f16 | .bf16 => 2
  | .s32 | .b32 | .f32 => 4
  | .a80 => 10

/-- Whether a format is a signed integer type. -/
def fmtSigned : Fmt → Bool
  | .s8 | .s16 | .s32 => true
  | _ => false

/-- The value of an element's raw bits. -/
def fmtValue (f : Fmt) (v : Nat) : FVal :=
  match fmtParams f with
  | some p => unpack p (v % 2 ^ p.width)
  | none =>
    let w := 8 * fmtBytes f
    .fin (dyInt (if fmtSigned f then sInt w v else (v % 2 ^ w : Nat)))

/-- A conversion to a format: raw bits and flags (R103, R152). -/
def fmtConvert (f : Fmt) (rm : Rm) (sat ftz : Bool) (x : FVal) : Nat × Flags :=
  match fmtParams f with
  | some p => roundTo p rm sat ftz x
  | none =>
    let w := 8 * fmtBytes f
    let (v, fl) := roundInt w (fmtSigned f) rm x
    (wrapNat w v, fl)

def isNan : FVal → Bool
  | .nan _ => true
  | _ => false

def isSnan : FVal → Bool
  | .nan s => s
  | _ => false

/-- Under .ftz a subnormal operand is read as zero of its sign (R150). -/
def ftzIn (p : FParams) (ftz : Bool) (x : FVal) : FVal :=
  match x with
  | .fin d => if ftz && d.m < 2 ^ p.mbits && d.m != 0 then .fin { d with m := 0 } else x
  | _ => x

/-! ### One matrix summation pass (R104) -/

/-- floor(log2 |t|) of a nonzero finite value. -/
def dyLog (t : Dy) : Int := (log2 t.m : Int) + t.e

/-- t truncated toward zero to a multiple of 2^q, as that multiple. -/
def dyTrunc (t : Dy) (q : Int) : Int :=
  let v : Nat := if t.e ≥ q then t.m * 2 ^ (t.e - q).toNat else t.m / 2 ^ (q - t.e).toNat
  if t.neg then -(v : Int) else v

/-- Pass(acc, T, z): the A80 pattern and whether the accumulator saturated (R104, R158). -/
def mxPass (acc : Nat) (terms : List Dy) (z : Bool) : Nat × Bool :=
  let accv : List Dy := match unpack fpA80 acc with
    | .fin d => [d]
    | _ => []
  let ts := if z then terms else terms ++ accv
  let nz := ts.filter fun t => t.m != 0
  match nz with
  | [] => (signPat fpA80 (ts.all fun t => t.neg), false)
  | t0 :: rest =>
    let emax := rest.foldl (fun m t => max m (dyLog t)) (dyLog t0)
    let q := emax - 80
    let s := nz.foldl (fun acc t => acc + dyTrunc t q) (0 : Int)
    if s = 0 then (0, false)
    else
      let (p, fl) := roundFin fpA80 .rne true false { neg := decide (s < 0), m := s.natAbs, e := q }
      (p, fl &&& fACCSAT != 0)

end Sys2Proof.Machine
end

