-- ==== Sys2Proof/Machine/Mem.lean ====
section
/-! DEFINITION. Memory at home: device, host and peer memory by bytes, the domes, translation (R292 to R296), decoded
ranges (R160 to R165), and the reads and writes that a home serves in one step (R265). -/

namespace Sys2Proof.Machine

/-! ### Memory by bytes -/

/-- What a byte that nothing has written reads as. DESIGN CHOICE (assumption 4). -/
def memDefault : Byte := 0

/-- The canonical form: strictly rising addresses, and no entry equal to what an unlisted address reads as. -/
def Memory.wf (m : List Host.Cell) : Bool := mrising m && m.all fun c => c.2 != memDefault

def memRead (m : List Host.Cell) (a : Nat) : Byte := mget memDefault m a
def memReads (m : List Host.Cell) (a n : Nat) : List Byte := mgets memDefault m a n
def memWrite (m : List Host.Cell) (a : Nat) (b : Byte) : List Host.Cell := mput memDefault m a b
def memWrites (m : List Host.Cell) (a : Nat) (bs : List Byte) : List Host.Cell := mputs memDefault m a bs
/-- Memory with the bytes of a range as nothing had written them. -/
def memClear (m : List Host.Cell) (a n : Nat) : List Host.Cell := m.filter fun c => c.1 < a || a + n ≤ c.1

/-! ### The control window -/

/-- A control-window register by its byte offset. -/
def ctlR (s : State) (off : Nat) : DWord := mget 0 s.ctl off
def ctlW (s : State) (off : Nat) (v : DWord) : State := { s with ctl := mput 0 s.ctl off v }

/-! ### Features -/

/-- The features that the host accepted, word `i` (R19, R21); all zero until committed. -/
def featWord (s : State) (i : Nat) : DWord := if s.faccDone then mget 0 s.facc i else 0

/-- Whether feature bit `i` is accepted (R22). -/
def feature (s : State) (i : Nat) : Bool := (featWord s 0).getLsbD i

/-! ### Domes and homes -/

/-- Interleave region `i`, when live: its first 4 KiB unit and its length (R299). -/
def region (s : State) (i : Nat) : Option (Nat × Nat) :=
  let w0 := ctlR s (0x0600 + 16 * i)
  if w0.getLsbD 0 then some (wfld w0 12 40, wfld (ctlR s (0x0608 + 16 * i)) 0 32) else none

/-- The region that holds a 4 KiB unit. -/
def regionOf (s : State) (unit : Nat) : Option (Nat × Nat) :=
  firstSome (fun i => match region s i with
    | some (st, n) => if st ≤ unit ∧ unit < st + n then some (st, n) else none
    | none => none) (List.range 8)

/-- The dome and the bucket of a 4 KiB unit (R300). -/
def stripe (st n unit : Nat) : Nat × Nat :=
  let u := unit - st
  let x := u / 80
  let j := u % 80
  let h := (fld x 0 7 ^^^ fld x 7 7 ^^^ fld x 14 7) % 80
  (if u ≥ 80 * (n / 80) then j else (j + h) % 80, (fld x 0 12 ^^^ fld x 12 9) % 4096)

/-- The dome that caches a device physical address, after retirements (R300, R312). -/
def domeOf (s : State) (addr : Nat) : Nat :=
  match regionOf s (addr / 4096) with
  | some (st, n) =>
    let (d, b) := stripe st n (addr / 4096)
    mget d s.buckets (d * 4096 + b)
  | none => 0

/-- A dome has been retired (R312). -/
def domeGone (s : State) (d : Nat) : Bool := (mget {} s.domes d).ret

/-- The dome that decodes: the first that is not retired. DESIGN CHOICE (assumption 70). -/
def decHome (s : State) : Nat := ((List.range Config.domes).find? fun d => !domeGone s d).getD 0

/-- The home of an access: domes 0 to 79, the host 80, peer p 81 + p (R259). -/
def homeOf (s : State) (t : Tgt) (addr : Nat) : Nat :=
  match t with
  | .dev => domeOf s addr
  | .dec _ => decHome s
  | .host | .win _ => 80
  | .peer p => 81 + p

/-- Bytes of a granule (R259). -/
def granSize : Tgt → Nat
  | .dev | .dec _ => 32
  | _ => 8

/-- A number that names a granule of device memory or of a decoded range. -/
def granKey (t : Tgt) (addr : Nat) : Nat :=
  match t with
  | .dec c => (c + 1) * 2 ^ 60 + addr / 32
  | _ => addr / 32

def pathKey (core home : Nat) : Nat := core * 128 + home

def pathReqs (s : State) (core home : Nat) : List Req := mget [] s.paths (pathKey core home)

/-- The stack of a dome retrains: the dome serves nothing until it is done (R341). -/
def homeHeld (s : State) (home : Nat) : Bool := decide (home < 80) && (mfind s.retrain (home / 10)).isSome

/-- A home serves a core's access at once: no request of the core is on its way there, and its stack does not retrain. -/
def pathClear (s : State) (core home : Nat) : Bool := (pathReqs s core home).isEmpty && !homeHeld s home

/-! ### Translation -/

/-- What an access needs of a leaf (R294, R272). -/
inductive Need where
  | load | store | rmw | fetch | loLoad | loStore | disc | hint | plainLoad | pin
deriving DecidableEq, Repr

/-- The result of a translation (R294). -/
inductive Xl where
  | ok (t : Tgt) (addr : Nat) (tol : Bool)
  | page
  | prot
deriving DecidableEq, Repr

/-- Device memory as the walker reads it: 8 bytes at home. -/
def devWord (s : State) (addr : Nat) : DWord := dw (natOf (memReads s.mem addr 8))

/-- A leaf's page size at a level, in bytes. -/
def leafBytes (lvl : Nat) (e : DWord) : Nat :=
  match lvl with
  | 2 => 2 ^ 30
  | 1 => 2 ^ 21
  | _ => if e.getLsbD 9 then 2 ^ 16 else 2 ^ 12

/-- Whether the route of a peer is live (R316). -/
def routeLive (s : State) (p : Nat) : Bool := (ctlR s (0x0680 + 8 * p)).getLsbD 3

/-- A malformed leaf (R294). -/
def leafBad (s : State) (lvl : Nat) (e : DWord) : Bool :=
  let tgt := wfld e 10 2
  let frame := wfld e 12 40 * 4096
  let sel := wfld e 60 4
  lvl == 3 || wfld e 52 8 != 0 || e.getLsbD 2 || frame % leafBytes lvl e != 0
    || (lvl != 0 && e.getLsbD 9)
    || (e.getLsbD 8 && tgt != 1) || (e.getLsbD 6 && tgt != 0)
    || tgt == 3 || (tgt == 0 && frame + leafBytes lvl e > Config.devBytes)
    || (tgt == 2 && (sel ≥ 8 || !routeLive s sel)) || (tgt != 2 && !e.getLsbD 8 && sel != 0)

/-- A four-level walk from a table of a level: the leaf and its level (R292, R293); the error is `true` for PAGE. -/
def walk (s : State) (va : Nat) : Nat → Nat → Nat → Except Bool (DWord × Nat)
  | 0, _, _ => .error false
  | k + 1, lvl, table =>
    let idx := if lvl = 3 then fld va 39 13 else fld va (12 + 9 * lvl) 9
    let e := devWord s (table + 8 * idx)
    if !e.getLsbD 0 then .error true
    else if e.getLsbD 1 then (if leafBad s lvl e then .error false else .ok (e, lvl))
    else if lvl = 0 then .error false
    else
      let frame := wfld e 12 40 * 4096
      if e != dw (frame + 1) || frame ≥ Config.devBytes then .error false
      else walk s va k (lvl - 1) frame

/-- The addresses of the table entries that a walk reads. -/
def walkAddrs (s : State) (va : Nat) : Nat → Nat → Nat → List Nat
  | 0, _, _ => []
  | k + 1, lvl, table =>
    let a := table + 8 * (if lvl = 3 then fld va 39 13 else fld va (12 + 9 * lvl) 9)
    let e := devWord s a
    if !e.getLsbD 0 || e.getLsbD 1 || lvl = 0 then [a] else a :: walkAddrs s va k (lvl - 1) (wfld e 12 40 * 4096)

/-- A cached translation covers an address. -/
def TlbEntry.covers (e : TlbEntry) (ctx va : Nat) : Bool :=
  e.ctx == ctx && decide (e.vpn ≤ va / 4096) && decide (va / 4096 < e.vpn + e.npg)

/-- The cached translation that an access uses, or none when it walks: which of those that the cores and quadrants hold it finds is
open (R295, R296; assumption 53). -/
def tlbFind (s : State) (ctx va : Nat) : Option TlbEntry :=
  match s.tlb.filter (·.covers ctx va) with
  | [] => none
  | es => es[Config.cached (2 * s.tick) % (es.length + 1)]?

/-- The leaf of an address with the page's base address and size: cached, or by a walk. -/
def leafOf (s : State) (ctx va : Nat) : Except Bool (DWord × Nat × Nat) :=
  match tlbFind s ctx va with
  | some e => .ok (e.leaf, e.vpn * 4096, e.npg * 4096)
  | none =>
    match mfind s.ctxs ctx with
    | none => .error true
    | some c =>
      match walk s va 4 3 c.root with
      | .ok (e, lvl) => .ok (e, alignDown va (leafBytes lvl e), leafBytes lvl e)
      | .error p => .error p

/-- The table entries that an access of an address reads: none with a cached translation (R294, R295). -/
def walkOf (s : State) (ctx va : Nat) : List Nat :=
  match tlbFind s ctx va, mfind s.ctxs ctx with
  | none, some c => if va ≥ 2 ^ 52 then [] else walkAddrs s va 4 3 c.root
  | _, _ => []

/-- The walk of an address reads a stack that retrains, and waits for it (R341). -/
def walkHeld (s : State) (ctx va : Nat) : Bool := !s.retrain.isEmpty && (walkOf s ctx va).any fun a => homeHeld s (domeOf s a)

/-- The live decoded range that holds an address of a context (R162, R164). -/
def rangeOf (s : State) (ctx va : Nat) : Option (List DWord) :=
  firstSome (fun kv =>
    let w0 := kv.2.getD 0 0
    let base := wfld w0 16 36 * 2 ^ 16
    let len := wfld (kv.2.getD 1 0) 16 36 * 2 ^ 16
    if w0.getLsbD 0 && wfld w0 10 6 == ctx && decide (base ≤ va) && decide (va < base + len) then some kv.2 else none)
    s.ranges

/-- Translates an address through the page tables (R294). `host` is SPACE 2 (TGT 1 or 2). -/
def xlatePage (s : State) (ctx va : Nat) (nd : Need) (host : Bool) : Xl :=
  match leafOf s ctx va with
  | .error true => .page
  | .error false => .prot
  | .ok (e, vbase, _) =>
    let tgt := wfld e 10 2
    let lo := e.getLsbD 6
    let r := e.getLsbD 3
    let w := e.getLsbD 4
    let x := e.getLsbD 5
    let perm :=
      match nd with
      | .load | .hint | .plainLoad => r && !lo
      | .pin => r
      | .store => w && !lo
      | .rmw => r && w && !lo
      | .fetch => x
      | .loLoad => r && lo
      | .loStore => w && lo
      | .disc => w && !lo
    let tgtOk := if host then tgt == 1 || tgt == 2 else tgt == 0
    let addr := wfld e 12 40 * 4096 + (va - vbase)
    let sel := wfld e 60 4
    let win := e.getLsbD 8
    if !perm || !tgtOk || (lo && !feature s 2) || (tgt == 2 && !feature s 8) then .prot
    else if tgt == 0 && (regionOf s (addr / 4096)).isNone then .prot
    else if win && !(ctlR s (0x0400 + 0x20 * sel)).getLsbD 0 then .prot
    else .ok (if tgt == 0 then .dev else if tgt == 2 then .peer (sel % 8) else if win then .win sel else .host)
      addr (e.getLsbD 7)

/-- Translates an access of a context (R294, R164). -/
def xlate (s : State) (ctx va : Nat) (nd : Need) (host : Bool) : Xl :=
  if va ≥ 2 ^ 52 then .prot
  else match rangeOf s ctx va with
    | some _ =>
      match nd with
      | .load | .hint => .ok (.dec ctx) va true
      | _ => .prot
    | none => xlatePage s ctx va nd host

/-! ### Uncorrectable and dead memory -/

/-- A sector holds a byte that cannot be corrected (R309, R311). -/
def sectorBad (s : State) (addr : Nat) : Bool :=
  (mget 0 s.uncorr (addr / 32) != 0 || s.rowsBad.any fun r => decide (r.1 ≤ addr) && decide (addr < r.1 + r.2))
    && !s.dead.contains (addr / 4096)

/-- An access of `n` bytes of one sector touches such a byte: those that a store has written since can be read (R309). -/
def bytesBad (s : State) (addr n : Nat) : Bool :=
  sectorBad s addr && ((s.rowsBad.any fun r => decide (r.1 ≤ addr) && decide (addr < r.1 + r.2))
    || (List.range n).any fun i => (mget 0 s.uncorr (addr / 32)).getLsbD (addr % 32 + i))

/-- Bytes of device memory at home. A dead granule reads as zero (R308). -/
def devRead (s : State) (addr n : Nat) : List Byte :=
  (List.range n).map fun i => if s.dead.contains ((addr + i) / 4096) then 0 else memRead s.mem (addr + i)

/-! ### Decoded ranges -/

/-- Bytes that a device read of the context finds, none when the read faults. The page tables are asked at once, so compressed
data that lies in a decoded range itself is read as stored, and the address is taken modulo 2^52. DESIGN CHOICE
(assumption 70). -/
def ctxRead (s : State) (ctx va n : Nat) : Option (List Byte) :=
  match xlatePage s ctx (va % 2 ^ 52) .load false with
  | .ok .dev a _ => if bytesBad s a n then none else some (devRead s a n)
  | _ => none

/-- The format of a decoded range (R162): whether it is BF16, and the parameters. -/
def decBf (ws : List DWord) : Bool := wfld (ws.getD 0 0) 4 4 == 7
def decFp (ws : List DWord) : FParams := if decBf ws then fpB16 else fpE4

/-- Where the index and the scale of weight group `j` lie, and the table word of an index (R161). -/
def decIdxAt (ws : List DWord) (j : Nat) : Nat := (ws.getD 2 0).toNat + 2 * j
def decSclAt (ws : List DWord) (j : Nat) : Nat := (ws.getD 3 0).toNat + j / 4
def decTabAt (ws : List DWord) (idx : Nat) : Nat := (ws.getD 4 0).toNat + 1024 * fld idx 15 1 + 4 * fld idx 0 8

/-- The byte of a decoded range, none when one of its reads faults (R161, R164). -/
def decodeByte (s : State) (ctx : Nat) (ws : List DWord) (va : Nat) : Option Byte :=
  let bf := decBf ws
  let p := decFp ws
  let e := if bf then 2 else 1
  let off := va - wfld (ws.getD 0 0) 16 36 * 2 ^ 16
  let j := off / e / 8
  let i := off / e % 8
  let pick (v : Nat) : Byte := BitVec.ofNat 8 (v / 256 ^ (off % e))
  match ctxRead s ctx (decIdxAt ws j) 2, ctxRead s ctx (decSclAt ws j) 1 with
  | some ib, some sb =>
    let idx := natOf ib
    let sc := natOf sb
    (ctxRead s ctx (decTabAt ws idx) 4).map fun tb =>
      let neg := if i < 7 then bit idx (8 + i) else popc 7 (fld idx 8 7) % 2 == 1
      let m := fld (natOf tb) (4 * i) 4
      if sc = 0xFF then pick p.canon
      else if m = 0 then 0
      else pick (roundFin p .rne (!bf) false { neg := neg, m := m, e := (sc : Int) - 127 }).1
  | _, _ => none

/-- The canonical NaN of a decoded range in every weight of `n` bytes (R164). -/
def decNan (ws : List DWord) (va n : Nat) : List Byte :=
  (List.range n).map fun i => BitVec.ofNat 8 ((decFp ws).canon / 256 ^ ((va + i) % (if decBf ws then 2 else 1)))

/-- The bytes of a decoded sector, or of a part of one, and whether the canonical NaN stands for the whole of it because one
of its reads faults (R164). -/
def decodeSector (s : State) (ctx : Nat) (ws : List DWord) (va n : Nat) : List Byte × Bool :=
  let base := alignDown va 32
  let bs := (List.range 32).map fun i => decodeByte s ctx ws (base + i)
  if bs.any (·.isNone) then (decNan ws va n, true)
  else (((bs.map (·.getD 0)).drop (va - base)).take n, false)

/-- The decoded sector that a dome holds (R163, R165); whether it has dropped it meanwhile is open (assumption 33). -/
def decLine (s : State) (ctx va : Nat) : Option DecLine :=
  match s.declines.find? fun l => l.ctx == ctx && l.va == alignDown va 32 with
  | some l => if Config.cached (2 * s.tick + 1) % 2 = 0 then some l else none
  | none => none

/-- Bytes of a decoded range within one sector, and whether they are substituted: from a line that a dome holds, else
decoded. -/
def decodeRead (s : State) (ctx va n : Nat) : List Byte × Bool :=
  match rangeOf s ctx va with
  | some ws =>
    match decLine s ctx va with
    | some l => ((l.bytes.drop (va % 32)).take n, false)
    | none => decodeSector s ctx ws va n
  | none => (List.replicate n 0, true)

/-- Device addresses of the compressed data, scales and table words behind a decoded sector. -/
def decAddrs (s : State) (ctx : Nat) (va : Nat) : List Nat :=
  match rangeOf s ctx va with
  | none => []
  | some ws =>
    let e := if decBf ws then 2 else 1
    let j0 := (alignDown va 32 - wfld (ws.getD 0 0) 16 36 * 2 ^ 16) / e / 8
    let vas := ((List.range (32 / e / 8)).map fun j =>
      [decIdxAt ws (j0 + j), decSclAt ws (j0 + j)] ++ (match ctxRead s ctx (decIdxAt ws (j0 + j)) 2 with
        | some ib => [decTabAt ws (natOf ib)]
        | none => [])).flatten
    vas.filterMap fun a => match xlatePage s ctx (a % 2 ^ 52) .load false with
      | .ok .dev x _ => some x
      | _ => none

/-! ### Reads and writes at home -/

/-- The bytes buffered for a host address, newest first (R277). -/
def pubByte (ps : List PubWrite) (a : Nat) : Option Byte :=
  ps.foldl (fun acc w => if w.addr ≤ a ∧ a < w.addr + w.bytes.length then w.bytes[a - w.addr]? else acc) none

/-- Bytes as a device read finds them at home (R265, R277). -/
def homeRead (s : State) (t : Tgt) (addr n : Nat) : List Byte :=
  match t with
  | .dev => devRead s addr n
  | .dec c => (decodeRead s c addr n).1
  | .host | .win _ =>
    (List.range n).map fun i =>
      (firstSome (fun kv => pubByte kv.2 (addr + i)) s.pubs).getD (memRead s.host (addr + i))
  | .peer p => memReads (mget [] s.peers p) addr n

/-- Whether the far side of an access cannot answer (R316). A route may name port 6 or 7: no part has them, they never go down, and the
peer answers (DESIGN CHOICE, assumption 73). -/
def linkLost (s : State) (t : Tgt) : Bool :=
  match t with
  | .host | .win _ => s.hostDown
  | .peer p => s.portsDown.contains (wfld (ctlR s (0x0680 + 8 * p)) 0 3)
  | _ => false

/-- Whether a read of `n` bytes at home, within one granule, is uncorrectable (R309, R316). -/
def homeBad (s : State) (t : Tgt) (addr n : Nat) : Bool :=
  match t with
  | .dev => bytesBad s addr n
  | .dec _ => false
  | t => linkLost s t

def granOf (s : State) (addr : Nat) : HomeGran := mget {} s.gran (addr / 32)
def setGran (s : State) (addr : Nat) (g : HomeGran) : State := { s with gran := mput {} s.gran (addr / 32) g }

/-- Bytes of a publication buffer (R315). -/
def pubBytes (ps : List PubWrite) : Nat := (ps.map fun w => w.bytes.length).foldl (· + ·) 0

/-- Writes the oldest buffered write of a window to the host (R277, R315). -/
def pubEvict (s : State) (w : Nat) : State :=
  match mget [] s.pubs w with
  | [] => s
  | p :: ps => { s with host := memWrites s.host p.addr p.bytes, pubs := mput [] s.pubs w ps }

def iter {α : Type} (f : α → α) : Nat → α → α
  | 0, a => a
  | n + 1, a => iter f n (f a)

/-- Makes room in a buffer of 256 KiB (R315): at most as many evictions as there are buffered writes. -/
def pubRoom (s : State) (w : Nat) : State :=
  iter (fun s => if pubBytes (mget [] s.pubs w) > 262144 then pubEvict s w else s) (mget [] s.pubs w).length s

/-- Rows of a failed remap entry drop writes (R311). -/
def rowsGone (s : State) (addr : Nat) : Bool := s.rowsBad.any fun r => decide (r.1 ≤ addr) && decide (addr < r.1 + r.2)

/-- The bytes of the sector at `addr` that the writes of one request cover. -/
def written (addr : Nat) (ws : List (Nat × List Byte)) : BitVec 32 :=
  (List.range 32).foldl (fun (m : BitVec 32) i =>
    if ws.any fun w => decide (w.1 ≤ alignDown addr 32 + i) && decide (alignDown addr 32 + i < w.1 + w.2.length) then
      m ||| (1 : BitVec 32) <<< i
    else m) 0

/-- Bytes of one device sector written at home by one request, at pairs of an address and bytes: a dead granule comes alive
zero-filled (R308), the bytes written can be read again and the others of the sector stay uncorrectable (R309), and rows of a failed
remap entry drop the writes (R311). -/
def devWrites (s : State) (addr : Nat) (ws : List (Nat × List Byte)) : State :=
  if rowsGone s addr then s
  else
    { s with
      mem := ws.foldl (fun m w => memWrites m w.1 w.2) s.mem
      dead := s.dead.filter fun g => g != addr / 4096
      uncorr := let m := mget 0 s.uncorr (addr / 32)
                if m = 0 then s.uncorr else mput 0 s.uncorr (addr / 32) (m &&& ~~~(written addr ws)) }

def devWrite (s : State) (addr : Nat) (bs : List Byte) : State := devWrites s addr [(addr, bs)]

/-- Bytes written at home for a context (R265, R277); the version of a device granule advances. -/
def homeWrite (s : State) (ctx : Nat) (t : Tgt) (addr : Nat) (bs : List Byte) : State :=
  match t with
  | .dev =>
    let g := granOf s addr
    setGran (devWrite s addr bs) addr { g with ver := g.ver + 1 }
  | .dec _ => s
  | .host => { s with host := memWrites s.host addr bs }
  | .win w => pubRoom { s with pubs := mput [] s.pubs w (mget [] s.pubs w ++ [{ addr := addr, bytes := bs, ctx := ctx }]) } w
  | .peer p => { s with peers := mset s.peers p (memWrites (mget [] s.peers p) addr bs) }

/-! ### Cores and L1 -/

def getCore (s : State) (c : Nat) : Core := mget {} s.cores c
def setCore (s : State) (c : Nat) (k : Core) : State := { s with cores := mput {} s.cores c k }

/-- Drops a granule from a core's L1. -/
def l1Drop (s : State) (core key : Nat) : State :=
  let k := getCore s core
  setCore s core { k with l1 := mdel k.l1 key }

/-- An answer on its way is at least as new as what its home holds (R283). -/
def answerFresh (s : State) : Resp → Bool
  | .answer _ _ .dev a _ ver _ _ _ _ => decide ((granOf s a).ver ≤ ver)
  | .answer _ _ (.dec c) a _ _ val _ _ _ => decodeRead s c (alignDown a 32) 32 == (val, false)
  | _ => true

/-- An answer that home has overtaken installs nothing in L1. -/
def Resp.stale (s : State) (r : Resp) : Resp :=
  match r with
  | .answer gs q t a g v val ps b lo => .answer gs q t a g v val ps b (lo || !answerFresh s r)
  | r => r

/-- An acquire: every L1 granule that the core does not own is invalidated, as one step (R267). An answer that home gave before the
acquire installs a copy after it only where it is at least as new as home's value at the acquire (R283). -/
def acquire (s : State) (core : Nat) : State :=
  let k := getCore s core
  setCore s core { k with l1 := k.l1.filter (fun g => g.2.owned), resp := k.resp.map (Resp.stale s) }

/-- A dome serves an access: the windows whose lines it hits reload their counters (R303). -/
def pinHit (s : State) (addr : Nat) : State :=
  { s with pins := s.pins.map fun kv =>
      if kv.2.pages.any fun p => decide (p.1 ≤ addr) && decide (addr < p.1 + p.2) then
        (kv.1, { kv.2 with count := kv.2.fade }) else kv }

/-- The domes serve the walk of an address (R303). -/
def walkHit (s : State) (ctx va : Nat) : State := if s.pins.isEmpty then s else (walkOf s ctx va).foldl pinHit s

/-- The dome that serves a sector: what a read hits, and a decoded sector is kept (R163, R303). -/
def domeHit (s : State) (t : Tgt) (addr : Nat) : State :=
  match t with
  | .dev => pinHit s addr
  | .dec c =>
    if (decLine s c addr).isSome then s
    else match rangeOf s c addr with
      | none => s
      | some ws =>
        let (bs, sub) := decodeSector s c ws (alignDown addr 32) 32
        let s := (decAddrs s c addr).foldl pinHit s
        let rest := s.declines.filter fun l => !(l.ctx == c && l.va == alignDown addr 32)
        { s with declines := if sub then rest else rest ++ [{ ctx := c, va := alignDown addr 32, bytes := bs }] }
  | _ => s

/-! ### Messages to cores (R265, R266) -/

def pushResp (s : State) (core : Nat) (r : Resp) : State :=
  let k := getCore s core
  setCore s core { k with resp := k.resp ++ [r] }

/-- The owner of a granule is sent a demotion unless it is the writer itself; gives the demotion's number (R265). -/
def sendDemote (s : State) (writer : Option Nat) (addr : Nat) : State × List Nat :=
  match (granOf s addr).owner with
  | some o =>
    if writer = some o then (s, [])
    else (pushResp { s with demId := s.demId + 1 } o (.demote s.demId (addr / 32)), [s.demId])
  | none => (s, [])

/-- What an acknowledgement carries of a device granule: its 32 bytes, none when they cannot be read. -/
def granVal (s : State) (addr : Nat) : Option (List Byte) :=
  let base := alignDown addr 32
  if sectorBad s base then none else some (devRead s base 32)

/-- A write at home that a core makes for an engine (its number, from 1) or for itself (0), or that an agent outside the cores
makes: the owner is sent a demotion, the writing core becomes the owner, and it is sent the acknowledgement (R265, R270,
R119, R314). -/
def engWrite (s : State) (who : Option Nat) (eng ctx : Nat) (t : Tgt) (addr : Nat) (bs : List Byte) : State :=
  match t with
  | .dev =>
    let (s, dem) := sendDemote (pinHit s addr) who addr
    let s := homeWrite s ctx .dev addr bs
    let s := setGran s addr { granOf s addr with owner := who }
    match who with
    | some c => pushResp s c (.wrote eng .dev (addr / 32) (granOf s addr).ver (granVal s addr) dem)
    | none => s
  | t => homeWrite s ctx t addr bs

/-- A write that a core made for an engine is not complete yet: it is on its way to its home, or its acknowledgement is not applied
(R266, R270). -/
def engWaits (s : State) (core eng : Nat) : Bool :=
  ((getCore s core).resp.any fun r => match r with
    | .wrote e .. => e == eng
    | _ => false)
    || s.paths.any fun kv => kv.1 / 128 == core && kv.2.any fun r => match r.kind with
      | .eng e _ => e == eng
      | _ => false

/-- The pieces of a range of `len` bytes at `addr` in granules of `g` bytes: pairs of an offset and a length. -/
def piecesOf (g addr len : Nat) : List (Nat × Nat) :=
  let first := addr / g
  let last := (addr + len - 1) / g
  if len = 0 then []
  else (List.range (last - first + 1)).map fun i =>
    let lo := max addr ((first + i) * g)
    let hi := min (addr + len) ((first + i + 1) * g)
    (lo - addr, hi - lo)

/-- Bytes that a core writes on a context's behalf at a virtual address, piece by piece; the address is already
known to translate (R119, R35). -/
def ctxWrite (s : State) (core ctx va : Nat) (bs : List Byte) : State :=
  (piecesOf 32 va bs.length).foldl (fun s p =>
    match xlate s ctx (va + p.1) .store false with
    | .ok t a _ => engWrite (walkHit s ctx (va + p.1)) (some core) 0 ctx t a ((bs.drop p.1).take p.2)
    | _ => s) s

/-- Whether every granule of a range translates for a need: the first failure with its address. -/
def rangeFault (s : State) (ctx va len : Nat) (nd : Need) (host : Bool) : Option (Bool × Nat) :=
  firstSome (fun p =>
    match xlate s ctx (va + p.1) nd host with
    | .ok .. => none
    | .page => some (true, va + p.1)
    | .prot => some (false, va + p.1)) (piecesOf 4096 va len)

/-- The same, for an instruction that reports PROT before PAGE (R98). -/
def rangeTrap (s : State) (ctx va len : Nat) (nd : Need) (host : Bool) : Option (Bool × Nat) :=
  let fs := (piecesOf 4096 va len).filterMap fun p => match xlate s ctx (va + p.1) nd host with
    | .ok .. => none
    | .page => some (true, va + p.1)
    | .prot => some (false, va + p.1)
  match fs.find? (fun f => !f.1) with
  | some f => some f
  | none => fs.head?

/-- Whether an access of a core to the home of any granule of a range must wait. -/
def rangeBusy (s : State) (core ctx va len : Nat) (nd : Need) : Bool :=
  (piecesOf 32 va len).any fun p => walkHeld s ctx (va + p.1) ||
    match xlate s ctx (va + p.1) nd false with
    | .ok t a _ => !pathClear s core (homeOf s t a)
    | _ => false

/-- A range of a context, or the walk to it, lies in part on a stack that retrains (R341). -/
def rangeHeld (s : State) (ctx va len : Nat) (nd : Need) : Bool :=
  (piecesOf 4096 va len).any fun p => walkHeld s ctx (va + p.1) ||
    match xlate s ctx (va + p.1) nd false with
    | .ok t a _ => homeHeld s (homeOf s t a)
    | _ => false

/-- Bytes that a core reads on a context's behalf at a virtual address that translates. -/
def ctxReads (s : State) (ctx va len : Nat) : List Byte :=
  ((piecesOf 32 va len).map fun p =>
    match xlate s ctx (va + p.1) .load false with
    | .ok t a _ => homeRead s t a p.2
    | _ => List.replicate p.2 0).flatten

/-- What the domes do as they serve such a read (R163, R303). -/
def ctxHits (s : State) (ctx va len : Nat) : State :=
  (piecesOf 32 va len).foldl (fun u p =>
    match xlate s ctx (va + p.1) .load false with
    | .ok t a _ => domeHit (walkHit u ctx (va + p.1)) t a
    | _ => u) s

end Sys2Proof.Machine
end

