-- ==== Sys2Proof/Machine/Ops.lean ====
section
/-! DEFINITION. The named operations over groups: registers, the history stack (R101, R121), fetch lines (R74 to
R80), marks and arrivals (R79, R125), the fault ring (R320), and taking a trap and returning from one (R318 to R323). -/

namespace Sys2Proof.Machine

/-- The outcome of a step. -/
abbrev Out := Host.Outcome State Fault Refusal

/-! ### Groups -/

def getGroup (s : State) (core gslot : Nat) : Option Group := mfind (getCore s core).groups gslot

def setGroup (s : State) (core gslot : Nat) (g : Group) : State :=
  let k := getCore s core
  setCore s core { k with groups := mset k.groups gslot g }

def modGroup (s : State) (core gslot : Nat) (f : Group → Group) : State :=
  match getGroup s core gslot with
  | some g => setGroup s core gslot (f g)
  | none => s

def getUnit (s : State) (core u : Nat) : Option Unit := mfind (getCore s core).units u

def setUnit (s : State) (core u : Nat) (x : Unit) : State :=
  let k := getCore s core
  setCore s core { k with units := mset k.units u x }

/-- The width of a group (R28). -/
def Group.w (g : Group) : Nat := 8 * 2 ^ g.wcode.toNat

def Group.path (g : Group) : Slot → Option Path
  | .a => g.pathA
  | .b => g.pathB

def Group.setPath (g : Group) (sl : Slot) (p : Option Path) : Group :=
  match sl with
  | .a => { g with pathA := p }
  | .b => { g with pathB := p }

/-- Both slots hold paths. -/
def Group.both (g : Group) : Bool := g.pathA.isSome && g.pathB.isSome

/-- Instructions count in ic outside handlers (R120). -/
def Group.counting (g : Group) : Bool := !g.uih && !g.cth

/-- Whether an issue pushes history records (R118, R120). -/
def Group.recording (g : Group) : Bool := g.recb && g.counting

/-- The IC of a record that an uncounted event pushes (R101). -/
def Group.lastIc (g : Group) : BitVec 48 := if g.ic = 0 then 0 else g.ic - 1

/-! ### Registers -/

def Group.nreg (g : Group) (i l : Nat) : Word := mget 0 g.n (i * 64 + l)
def Group.setN (g : Group) (i l : Nat) (v : Word) : Group := { g with n := mput 0 g.n (i * 64 + l) v }
def Group.qval (g : Group) (a l : Nat) : Word := mget 0 g.q (a * 64 + l)
def Group.setQ (g : Group) (a l : Nat) (v : Word) : Group := { g with q := mput 0 g.q (a * 64 + l) v }
def Group.qlive (g : Group) (a : Nat) : Mask := mget 0 g.live a
def Group.setLive (g : Group) (a : Nat) (m : Mask) : Group := { g with live := mput 0 g.live a m }
def Group.kreg (g : Group) (i : Nat) : DWord := mget 0 g.k i
def Group.setK (g : Group) (i : Nat) (v : DWord) : Group := { g with k := mput 0 g.k i v }
def Group.guard (g : Group) (i : Nat) : GState := mget .free g.guards i
def Group.setGuard (g : Group) (i : Nat) (v : GState) : Group := { g with guards := mput .free g.guards i v }

/-- A named register written in the lanes of a mask. -/
def Group.setNs (g : Group) (i : Nat) (m : Mask) (f : Nat → Word) : Group :=
  (lanes m).foldl (fun g l => g.setN i l (f l)) g

/-- Sets FSTAT flags (R70). -/
def Group.flag (g : Group) (f : Flags) : Group := { g with fstat := g.fstat ||| f }

/-! ### History -/

/-- Record kinds (R122). -/
def kNREG : Nat := 0x01
def kQEVICT : Nat := 0x02
def kCF : Nat := 0x03
def kSLOTS : Nat := 0x04
def kSPLIT : Nat := 0x05
def kJOINR : Nat := 0x06
def kMEMOLD : Nat := 0x07
def kHORIZON : Nat := 0x08
def kMARK : Nat := 0x09
def kSPECOPEN : Nat := 0x0A
def kKREG : Nat := 0x0B

/-- A record header (R121). -/
def histHeader (ic : BitVec 48) (len kind : Nat) (cont : Bool) : DWord :=
  dw (ic.toNat * 2 ^ 16 + len * 2 ^ 8 + b2n cont * 2 ^ 7 + kind)

/-- Pushes the pieces of a record: each at most 128 words, the first without CONT (R101). The window holds words
newest first. -/
def histPieces (g : Group) (ic : BitVec 48) (kind : Nat) : Nat → Bool → List DWord → Group
  | 0, _, _ => g
  | k + 1, cont, ws =>
    let p := ws.take 128
    let rest := ws.drop 128
    let g := { g with hist := histHeader ic p.length kind cont :: (p.reverse ++ g.hist),
                      hsp := g.hsp + dw (8 * (p.length + 1)) }
    if rest.isEmpty then g else histPieces g ic kind k true rest

/-- HistPush (R101). -/
def histPush (g : Group) (ic : BitVec 48) (kind : Nat) (ws : List DWord) : Group :=
  histPieces g ic kind (ws.length / 128 + 1) false ws

/-- Words that a record of `n` payload words takes, headers included. -/
def recWords (n : Nat) : Nat := n + max 1 ((n + 127) / 128)

/-- Lane words of a value per lane (R122). -/
def laneWords (w : Nat) (f : Nat → Word) : List DWord :=
  (List.range (w / 2)).map fun i => dw ((f (2 * i)).toNat + (f (2 * i + 1)).toNat * 2 ^ 32)

/-- The lane's value in lane words. -/
def laneOfWords (ws : List DWord) (l : Nat) : Word := ((ws.getD (l / 2) 0).extractLsb' (32 * (l % 2)) 32)

/-- NREG lane words of a run of registers, in ascending order (R122, R395). -/
def nregWords (g : Group) (i cnt : Nat) : List DWord :=
  ((List.range cnt).map fun j => laneWords g.w (fun l => g.nreg (i + j) l)).flatten

/-- Pushes the pending trace as one SLOTS record in trace form, with the IC of the newest issue covered (R127). -/
def flushTrace (g : Group) : Group :=
  if g.ptrace.isEmpty then g
  else
    let bits := (g.ptrace.zipIdx.map fun x => slotBit x.1 * 2 ^ x.2).foldl (· + ·) 0
    { histPush g g.ptraceIc kSLOTS [dw (bits * 2 ^ 6 + g.ptrace.length)] with ptrace := [] }

/-- A placement word (R126). -/
def placeWord (ev : Nat) (sl : Slot) (pk : Bool) (ppos fpos fser : Nat) : DWord :=
  dw (fser * 2 ^ 30 + fpos * 2 ^ 23 + ppos * 2 ^ 16 + b2n pk * 2 ^ 9 + slotBit sl * 2 ^ 8 + ev * 2 ^ 6)

/-- Words older than the newest 256 leave the window and are written to the granary (R119). -/
def spillWords (s : State) (core gslot : Nat) (g : Group) : State :=
  let s := setGroup s core gslot { g with hist := g.hist.take 256 }
  (g.hist.drop 256).zipIdx.foldl (fun s x =>
    ctxWrite s core g.ctx (g.hsp.toNat - 8 * 256 - 8 * (x.2 + 1)) (bytesOf 8 x.1.toNat)) s

/-- The addresses of the words that would leave the window if `words` more were pushed: the lowest and the length
in bytes. -/
def spillRange (g : Group) (words : Nat) : Nat × Nat :=
  let total := g.hist.length + words
  if total ≤ 256 then (g.hsp.toNat, 0)
  else (g.hsp.toNat - 8 * g.hist.length, 8 * (total - 256))

/-- The `i`-th word below HSP: in the window, or read from the granary. -/
def histWord (s : State) (g : Group) (i : Nat) : DWord :=
  match g.hist[i]? with
  | some w => w
  | none => dw (natOf (ctxReads s g.ctx (g.hsp.toNat - 8 * (i + 1)) 8))

/-- Drops the top `n` words. -/
def histDrop (g : Group) (n : Nat) : Group :=
  { g with hist := g.hist.drop n, hsp := g.hsp - dw (8 * n) }

/-! ### The fault ring -/

/-- The entries of the fault ring that are in use and its size (R320). -/
def frCount (s : State) : Nat × Nat :=
  let n := (ctlR s 0x0908).toNat
  if n = 0 then (0, 0) else (((ctlR s 0x0910).toNat + n - (ctlR s 0x0918).toNat % n) % n, n)

/-- Whether a record may be written now: one entry is always kept for machine checks (KIND 4). -/
def frRoom (s : State) (r : FaultRec) : Bool :=
  let (c, n) := frCount s
  if wfld r.w0 8 8 = 4 then c + 1 < n else c + 2 < n

/-- The address of the ring's next entry. -/
def frAddr (s : State) : Nat := (ctlR s 0x0900).toNat + 32 * (ctlR s 0x0910).toNat

/-- The 32 bytes of a record (R320). -/
def frBytes (r : FaultRec) : List Byte :=
  bytesOf 8 r.w0.toNat ++ bytesOf 8 r.w1.toNat ++ bytesOf 8 r.w2.toNat ++ bytesOf 8 r.w3.toNat

/-- Writes a record to the ring: the device itself writes it, and no core becomes its owner. -/
def frWrite (s : State) (r : FaultRec) : State :=
  let s' := engWrite s none 0 0 .dev (frAddr s) (frBytes r)
  ctlW s' 0x0910 (dw (((ctlR s 0x0910).toNat + 1) % (ctlR s 0x0908).toNat))

/-- Writes as many waiting records as fit, oldest first: a machine check passes records that wait for room (R320), and all wait
while the stack that holds the next entry retrains (R341). -/
def frDrainAux : List FaultRec → State → State
  | [], s => s
  | r :: rs, s =>
    if frRoom s r && !homeHeld s (domeOf s (frAddr s)) then frDrainAux rs (frWrite s r)
    else frDrainAux rs { s with frPending := s.frPending ++ [r] }

def frDrain (s : State) : State := frDrainAux s.frPending { s with frPending := [] }

/-- Posts a record (R320). -/
def postFault (s : State) (r : FaultRec) : State := frDrain { s with frPending := s.frPending ++ [r] }

/-- The ring has no room for another record that is no machine check: an agent with one to post is held (R320). -/
def frFull (s : State) : Bool := !s.frPending.isEmpty || !frRoom s { w0 := 0, w1 := 0, w2 := 0, w3 := 0 }

/-- The ring has room for `n` records that are no machine checks (R320). -/
def frHas (s : State) (n : Nat) : Bool :=
  let (c, size) := frCount s
  s.frPending.isEmpty && decide (c + 1 + n < size)

/-- A fault record from its fields (R320). -/
def mkFault (kind code ctx core slot : Nat) (dbl : Bool) (ii : II) (addr mask : DWord) : FaultRec :=
  { w0 := dw (ii.toNat * 2 ^ 16 + kind * 2 ^ 8 + code)
    w1 := dw (ctx * 2 ^ 58 + core * 2 ^ 50 + slot * 2 ^ 43 + b2n dbl * 2 ^ 42)
    w2 := addr
    w3 := mask }

/-- The record of a PAGE on an address, or none when the access shares the walk of another of its quadrant that missed on the
page before (R295): which walks are shared is free (assumption 71). -/
def postPage (s : State) (core ctx va : Nat) (r : FaultRec) : State :=
  let key := (core / 24, ctx, va / 4096)
  if s.pageRecs.contains key && Config.choice s.free % 2 == 1 then { s with free := s.free + 1 }
  else if s.pageRecs.contains key then postFault { s with free := s.free + 1 } r
  else postFault { s with pageRecs := s.pageRecs ++ [key] } r

/-- A host or peer store that cannot complete is dropped with a record (R316). -/
def hostDrop (s : State) (core ctx addr : Nat) : State :=
  postFault s (mkFault 9 0 ctx core 0 false 0 (dw addr) 0)

/-! ### Fetch lines -/

/-- What a line read gives (R75, R77, R294). -/
inductive FetchRes where
  | ok (bits : BitVec 512)
  | prot
  | page
  | par
deriving DecidableEq, Repr

/-- Parity of a line: PAR bit p is the even parity of its 60 payload bits (R76). -/
def parityOk (b : BitVec 512) : Bool :=
  (List.range 8).all fun p =>
    decide (popc 60 (b.extractLsb' (32 + 60 * p) 60).toNat % 2 = b2n (b.getLsbD (16 + p)))

/-- Reserved bits of the line word are zero (R76, R78). -/
def lineRsvdOk (b : BitVec 512) : Bool := b.extractLsb' 24 8 == 0 && b.extractLsb' 9 7 == 0

def icacheFind (k : Core) (launch line : Nat) : Option (BitVec 512) :=
  (k.icache.find? fun x => x.launch == launch && x.line == line).map (·.bits)

/-- Reads a fetch line: from the instruction cache, or from its home with a parity check. A mismatch is refetched from
the same home; the model's home has one copy, so the refetch gives the same bits (R77). Of the contents that a line has held since the
launch started, a core takes those of its first fetch for the launch and never fetches a line that it holds again (R80). DESIGN CHOICE
(assumption 70). -/
def readLine (s : State) (core ctx launch line : Nat) : FetchRes :=
  match icacheFind (getCore s core) launch line with
  | some b => .ok b
  | none =>
    let va := line * 64
    if va ≥ 2 ^ 51 then .prot
    else match xlate s ctx va .fetch false with
      | .page => .page
      | .prot => .prot
      | .ok t a _ =>
        let b := BitVec.ofNat 512 (natOf (homeRead s t a 64))
        if homeBad s t a 32 || homeBad s t (a + 32) 32 then .par
        else if parityOk b then .ok b else .par

/-- The dome that serves a fetch: the windows that it hits reload their counters (R303). -/
def fetchHit (s : State) (ctx line : Nat) : State :=
  match xlate s ctx (line * 64) .fetch false with
  | .ok .dev a _ => pinHit (pinHit (walkHit s ctx (line * 64)) a) (a + 32)
  | _ => s

/-- Brings a line into the instruction cache (R77). -/
def cacheLine (s : State) (core ctx launch line : Nat) (b : BitVec 512) : State :=
  let k := getCore s core
  match icacheFind k launch line with
  | some _ => s
  | none =>
    setCore (fetchHit s ctx line) core
      { k with icache := k.icache ++ [{ launch := launch, line := line, bits := b }] }

/-- A line that is not in the instruction cache, or the walk to it, lies on a stack that retrains: the fetch waits (R341). -/
def lineHeld (s : State) (core ctx launch line : Nat) : Bool :=
  match icacheFind (getCore s core) launch line with
  | some _ => false
  | none => walkHeld s ctx (line * 64) ||
    match xlate s ctx (line * 64) .fetch false with
    | .ok .dev a _ => homeHeld s (domeOf s a)
    | _ => false

/-- The instruction in a slot of a line (R74). -/
def lineSlot (b : BitVec 512) (i : Nat) : IWord := b.extractLsb' (32 + 96 * i) 96

/-- The TGT bit of a slot (R76). -/
def lineMark (b : BitVec 512) (i : Nat) : Bool := b.getLsbD i

def iiLine (ii : II) : Nat := ii.toNat / 5
def iiSlot (ii : II) : Nat := ii.toNat % 5

/-- Whether a slot is marked, when its line can be read; an unreadable line counts as unmarked here: its own fetch takes the trap, and
an arrival there is made once it can be read (DEDUCED, assumption 20). -/
def isMarked (s : State) (core : Nat) (g : Group) (ii : II) : Bool :=
  match readLine s core g.ctx g.launch (iiLine ii) with
  | .ok b => lineMark b (iiSlot ii)
  | _ => false

/-! ### Arrivals -/

/-- The path arrives at its II: at a marked slot cf takes the II of the transferring instruction, or FALLTHRU, and a CF
record keeps the old cf (R125). An arrival at a line that cannot be read is kept until it can (DEDUCED,
assumption 20). -/
def arriveCf (s : State) (core : Nat) (g : Group) (ic : BitVec 48) (recd : Bool) (p : Path) (src : DWord) :
    Group × Path :=
  match readLine s core g.ctx g.launch (iiLine p.ii) with
  | .ok b =>
    if lineMark b (iiSlot p.ii) then (if recd then histPush g ic kCF [p.cf] else g, { p with cf := src })
    else (g, p)
  | _ => (g, { p with arr := some (p.ii, src, recd, ic) })

/-! ### Traps -/

def tILLEGAL : BitVec 8 := 0x01
def tSTALE : BitVec 8 := 0x02
def tALIGN : BitVec 8 := 0x03
def tPAGE : BitVec 8 := 0x04
def tPROT : BitVec 8 := 0x05
def tHISTFULL : BitVec 8 := 0x06
def tHORIZON : BitVec 8 := 0x07
def tFIRSTNAN : BitVec 8 := 0x08
def tUNCORR : BitVec 8 := 0x09
def tFRAMEFULL : BitVec 8 := 0x0A
def tORPHAN : BitVec 8 := 0x0B
def tENGINE : BitVec 8 := 0x0C
def tDEBUG : BitVec 8 := 0x0E
def tSWTRAP : BitVec 8 := 0x0F
def tGUARD : BitVec 8 := 0x10
def tPAIR : BitVec 8 := 0x11
def tBOUNDS : BitVec 8 := 0x12
def tFETCHPAR : BitVec 8 := 0x13

/-- Codes whose destination is the context trap handler (R318). -/
def trapIsC (code : BitVec 8) : Bool :=
  code == tHISTFULL || code == tHORIZON || code == tFIRSTNAN || code == tUNCORR || code == tFRAMEFULL
    || code == tORPHAN || code == tENGINE || code == tSWTRAP || code == tGUARD || code == tPAIR || code == tBOUNDS

/-- Codes whose fault-ring record carries an address (R320). -/
def trapAddr (t : TrapBlock) : DWord :=
  if t.code == tALIGN || t.code == tPAGE || t.code == tPROT || t.code == tUNCORR then t.i2 else 0

def setInfo (g : Group) (t : TrapBlock) : Group :=
  { g with trapinfo0 := t.i0, trapinfo1 := t.i1, trapinfo2 := t.i2, trapinfo3 := t.i3 }

/-- The II that TRAPINFO0 names (R71). -/
def trapII (t : TrapBlock) : II := t.i0.extractLsb' 16 48

/-- A trap routed to the driver: the group is held and a KIND 1 record is posted (R319). The record's mask names the lanes that
the trap is reported for (R98). -/
def trapToDriver (s : State) (core gslot : Nat) (g : Group) (t : TrapBlock) (dbl : Bool) (m : Mask) : State :=
  let s := setGroup s core gslot
    { setInfo g t with held := .driver (t.code == tPAGE) (if dbl then some t else none) }
  let r := mkFault 1 t.code.toNat g.ctx core gslot dbl (trapII t) (trapAddr t) m
  if t.code == tPAGE then postPage s core g.ctx t.i2.toNat r else postFault s r

/-- Delivery of a C trap on the trapping path, as one step (R322). Delivery of FIRSTNAN clears FCTL.NANTRAP (R155). The
handler entry is no arrival, so cf stands (assumption 21). -/
def trapToHandler (s : State) (core gslot : Nat) (g : Group) (t : TrapBlock) (cthii : II) : State :=
  let g := setInfo g t
  let g := { g with ctret := some { slot := t.slot, ii := t.rii, kind := t.ret }, recCt := g.recb, recb := false,
                    cth := true, cthGset := false, cthHist := t.code == tHISTFULL, hSlot := t.slot,
                    fctl := if t.code == tFIRSTNAN then 0 else g.fctl }
  match g.path t.slot with
  | none => setGroup s core gslot g
  | some p => setGroup s core gslot (g.setPath t.slot
      (some { p with ii := cthii, wait := false, fresh := true, half := none, gwait := none }))

/-- Takes a trap: the one place where a trap acts (R318, R319, R322). `m` are the lanes that it is reported for. -/
def takeTrap (s : State) (core gslot : Nat) (t : TrapBlock) (m : Mask := t.i1) : State :=
  match getGroup s core gslot with
  | none => s
  | some g =>
    if trapIsC t.code then
      match mfind s.ctxs g.ctx with
      | some c =>
        if c.cthii = 0 || g.cth then trapToDriver s core gslot g t true m
        else trapToHandler s core gslot g t c.cthii
      | none => trapToDriver s core gslot g t true m
    else trapToDriver s core gslot g t false m

/-- TRAPINFO0 (R71). -/
def info0 (ii : II) (code : BitVec 8) : DWord := dw (ii.toNat * 2 ^ 16 + code.toNat)

/-- The block of a trap at a path's instruction. -/
def mkTrap (code : BitVec 8) (sl : Slot) (p : Path) (ret : RetKind) (i2 i3 : DWord) : TrapBlock :=
  { code := code, slot := sl, ret := ret, rii := if ret = .next then p.ii + 1 else p.ii,
    i0 := info0 p.ii code, i1 := p.mask, i2 := i2, i3 := i3 }

/-- The block of a trap that falls due between instructions, at a path that stands before an instruction that has not issued: a return
issues that instruction (R155, R192, R318). -/
def lateTrap (code : BitVec 8) (sl : Slot) (p : Path) (i2 i3 : DWord) : TrapBlock :=
  { mkTrap code sl p .reissue i2 i3 with ret := .next }

/-! ### The debug mailbox's status ring (R333, R338) -/

/-- The mailbox's offset in the control window. -/
def mbox : Nat := 0x1_0000

/-- The status ring holds 255 entries when full: STHEAD and STTAIL are indices modulo 256 (assumption 22). -/
def stFull (s : State) : Bool :=
  ((ctlR s (mbox + 0x10)).toNat + 1) % 256 == (ctlR s (mbox + 0x18)).toNat % 256

/-- Writes one status entry of eight words. -/
def stWrite (s : State) (ws : List DWord) : State :=
  let h := (ctlR s (mbox + 0x10)).toNat % 256
  let base := mbox + 0x2000 + 64 * h
  let s := ws.zipIdx.foldl (fun s x => ctlW s (base + 8 * x.2) x.1) s
  ctlW s (mbox + 0x10) (dw ((h + 1) % 256))

def stDrainAux : Nat → State → State
  | 0, s => s
  | k + 1, s =>
    match s.stPending with
    | [] => s
    | e :: es => if stFull s then s else stDrainAux k (stWrite { s with stPending := es } e)

/-- Writes as many waiting status entries as fit, oldest first (R333). -/
def stDrain (s : State) : State := stDrainAux s.stPending.length s

/-- Posts one status entry; it waits while the ring is full. -/
def stPost (s : State) (w0 w1 w2 w3 w4 w5 : DWord) : State :=
  stDrain { s with stPending := s.stPending ++ [[w0, w1, w2, w3, w4, w5, 0, 0]] }

/-- A status word w0 (R338). -/
def stW0 (kind ctx core slot token : Nat) : DWord :=
  dw (kind + ctx * 2 ^ 8 + core * 2 ^ 14 + slot * 2 ^ 22 + token * 2 ^ 32)

/-- Posts a status entry about a path of a group (R338). -/
def stGroup (s : State) (kind core gslot token : Nat) (g : Group) (sl : Slot) (ii : II) (mask v detail : DWord) : State :=
  stPost s (stW0 kind g.ctx core gslot token) (dw (ii.toNat + slotBit sl * 2 ^ 48)) (dw g.ic.toNat) mask v detail

end Sys2Proof.Machine
end

