-- ==== Sys2Proof/Machine/Operands.lean ====
section
/-! DEFINITION. Operand forms: sources (R83 to R85, R99), the result queue (R54, R55) and destinations (R86, R100). -/

namespace Sys2Proof.Machine

/-- The path that issues: where it stands, and the group and path as they are before the issue. -/
structure Cx where
  core  : Nat
  gslot : Nat
  slot  : Slot
  g     : Group
  p     : Path

def Cx.w (c : Cx) : Nat := c.g.w
/-- The IC of the records that this issue pushes (R101). -/
def Cx.ic (c : Cx) : BitVec 48 := c.g.ic

/-- A source operand and whether it is read as 64 bits (R85). -/
abbrev SrcUse := Src × Bool

/-! ### Sources -/

/-- The status queue that a pop selector names: 1, 3 or 5 (R60). -/
def popQueue : Src → Option Nat
  | .sel s => if s = 0x11 then some 1 else if s = 0x13 then some 3 else if s = 0x15 then some 5 else none
  | _ => none

def Group.status (g : Group) : Nat → List StatusEntry
  | 1 => g.e1
  | 3 => g.e3
  | _ => g.e5

def Group.setStatus (g : Group) (q : Nat) (l : List StatusEntry) : Group :=
  match q with
  | 1 => { g with e1 := l }
  | 3 => { g with e3 := l }
  | _ => { g with e5 := l }

/-- The value of a special selector, zero-extended, or a small immediate, sign-extended (R84, R85). -/
def selValue (c : Cx) (s : BitVec 8) (l : Nat) : DWord :=
  match s.toNat with
  | 0x00 => 0
  | 0x01 => dw l
  | 0x02 => dw c.w
  | 0x03 => dw (laneCount c.p.mask)
  | 0x04 => dw (wfld c.p.cf 0 32)
  | 0x05 => dw (c.ic.toNat % 2 ^ 32)
  | n => dw (wrapNat 64 ((n : Int) - 0x60))

/-- Opnd of a field for a lane; `nth` counts the earlier fields of the instruction that pop the same queue (R99). -/
def opndAt (c : Cx) (u : SrcUse) (nth l : Nat) : DWord :=
  match u.1 with
  | .q age _ =>
    let a := age.toNat + 1
    if u.2 then dw ((c.g.qval (a + 1) l).toNat + (c.g.qval a l).toNat * 2 ^ 32) else dw (c.g.qval a l).toNat
  | .n i =>
    if u.2 then dw ((c.g.nreg i.toNat l).toNat + (c.g.nreg (i.toNat + 1) l).toNat * 2 ^ 32)
    else dw (c.g.nreg i.toNat l).toNat
  | .k i => c.g.kreg i.toNat
  | .sel s =>
    match popQueue u.1 with
    | some q => ((c.g.status q)[nth]?.map (·.bits)).getD 0
    | none => selValue c s l

/-- How many earlier uses pop the same queue. -/
def popNth (us : List SrcUse) (i : Nat) : Nat :=
  match us[i]? with
  | some u => ((us.take i).filter fun v => (popQueue u.1).isSome && popQueue v.1 == popQueue u.1).length
  | none => 0

/-- The value of source `i` in a lane, as 64 bits. -/
def opnd (c : Cx) (us : List SrcUse) (i l : Nat) : DWord :=
  match us[i]? with
  | some u => opndAt c u (popNth us i) l
  | none => 0

/-- The value of source `i` in a lane, as a 32-bit operation reads it (R85). -/
def opnd32 (c : Cx) (us : List SrcUse) (i l : Nat) : Word := (opnd c us i l).setWidth 32

/-- The queue ages that a use reads, newest first. -/
def useAges (u : SrcUse) : List Nat :=
  match u.1 with
  | .q age _ => if u.2 then [age.toNat + 1, age.toNat + 2] else [age.toNat + 1]
  | _ => []

/-- The first dead entry that the uses name, in field order: its age (R56, R318). -/
def firstDead (c : Cx) (us : List SrcUse) : Option Nat :=
  ((us.map useAges).flatten).find? fun a => c.p.mask &&& ~~~(c.g.qlive a) != 0

/-- Clears the live bits of final-use reads in the active lanes, after every source is read (R52). -/
def clearFinal (us : List SrcUse) (m : Mask) (g : Group) : Group :=
  us.foldl (fun g u =>
    match u.1 with
    | .q _ true => (useAges u).foldl (fun g a => g.setLive a (g.qlive a &&& ~~~m)) g
    | _ => g) g

/-- The queues that the uses pop, in field order. -/
def usePops (us : List SrcUse) : List Nat := us.filterMap fun u => popQueue u.1

/-- Pops one entry per field that names a pop (R61). -/
def doPops (us : List SrcUse) (g : Group) : Group :=
  (usePops us).foldl (fun g q => g.setStatus q ((g.status q).drop 1)) g

/-- Whether a pop takes a thread's final status entry, which joins the thread (R271). -/
def popsJoin (us : List SrcUse) (g : Group) : Bool :=
  ((usePops us).foldl (fun (acc : Bool × Group) q =>
    (acc.1 || ((acc.2.status q).head?.map (·.ends)).getD false, acc.2.setStatus q ((acc.2.status q).drop 1)))
    (false, g)).1

/-! ### The result queue -/

/-- PushQ of one 32-bit value per active lane (R54). -/
def pushQ (ic : BitVec 48) (recd : Bool) (m : Mask) (v : Nat → Word) (g : Group) : Group :=
  let g := if recd && g.qlive 16 &&& m != 0 then
      histPush g ic kQEVICT (laneWords g.w (fun l => g.qval 16 l) ++ [g.qlive 16])
    else g
  let g := ((List.range 15).map fun i => 16 - i).foldl (fun g a =>
    let g := (lanes m).foldl (fun g l => g.setQ a l (g.qval (a - 1) l)) g
    g.setLive a ((g.qlive a &&& ~~~m) ||| (g.qlive (a - 1) &&& m))) g
  let g := (lanes m).foldl (fun g l => g.setQ 1 l (v l)) g
  g.setLive 1 (g.qlive 1 ||| m)

/-! ### Destinations -/

/-- A per-lane result written by WriteDst (R100): 64-bit values when `wide`. A uniform destination takes the value of
the lowest active lane, which its uniform sources make the same in every lane but for the lane selector. A 32-bit result of an
instruction other than MOV that goes to e2 is extended to bits [63:32] of the entry as for a uniform register (R61). DESIGN CHOICE
(assumption 54). -/
def writeDst (c : Cx) (d : Dst) (wide : Bool) (v : Nat → DWord) (g : Group) : Group :=
  let recd := c.g.recording
  let m := c.p.mask
  let lo (l : Nat) : Word := (v l).setWidth 32
  let hi (l : Nat) : Word := (v l).extractLsb' 32 32
  match d with
  | .push =>
    let g := pushQ c.ic recd m lo g
    if wide then pushQ c.ic recd m hi g else g
  | .recd i =>
    let g := if recd then histPush g c.ic kNREG (nregWords g i.toNat (if wide then 2 else 1)) else g
    let g := g.setNs i.toNat m lo
    if wide then g.setNs (i.toNat + 1) m hi else g
  | .dead i =>
    let g := g.setNs i.toNat m lo
    if wide then g.setNs (i.toNat + 1) m hi else g
  | .uni i =>
    let g := if recd then histPush g c.ic kKREG [g.kreg i.toNat] else g
    g.setK i.toNat (v (lowLane m))
  | .discard => g
  | .eng _ =>
    -- a lane write to e2: a chain entry with VALID = 0xFFFF_FFFF (R61, R215)
    { g with e2 := g.e2 ++ [{ bits := BitVec.ofNat 128 ((v (lowLane m)).toNat + 0xFFFFFFFF * 2 ^ 64), guard := none,
                              enq := false, seq := g.seq }] }

/-- History words that WriteDst may push (R98 step 5, R101). -/
def dstWords (c : Cx) (d : Dst) (wide : Bool) : Nat :=
  if !c.g.recording then 0
  else
    match d with
    | .push =>
      let one (a : Nat) : Nat := if c.g.qlive a &&& c.p.mask != 0 then recWords (c.w / 2 + 1) else 0
      if wide then one 16 + one 15 else one 16
    | .recd _ => recWords (c.w / 2 * (if wide then 2 else 1))
    | .uni _ => recWords 1
    | _ => 0

/-! ### What the scoreboard holds (R40) -/

/-- A register, the result queue or a tile of the unit that an instruction reads or writes. -/
inductive Use where
  | n (i cnt : Nat)
  | k (i : Nat)
  | q
  | tile (th : Nat)
deriving DecidableEq, Repr

/-- Registers that a load of `size` writes (R88). -/
def loadRegs (size : Nat) : Nat := if size ≤ 2 then 1 else 2 ^ (size - 2)

/-- Whether an unbound load will write what a use names. -/
def entryHits (e : LEntry) (u : Use) : Bool :=
  match e.dst, u with
  | .lanes (.recd i), .n j cnt | .lanes (.dead i), .n j cnt =>
      decide (i.toNat < j + cnt) && decide (j < i.toNat + loadRegs e.size)
  | .lanes (.uni i), .k j => i.toNat == j
  | .lanes .push, .q => true
  | .tile _ th _, .tile th' => th == th'
  | _, _ => false

def srcUses (u : SrcUse) : List Use :=
  match u.1 with
  | .q _ _ => [.q]
  | .n i => [.n i.toNat (if u.2 then 2 else 1)]
  | .k i => [.k i.toNat]
  | .sel _ => []

def dstUses (d : Dst) (wide : Bool) : List Use :=
  match d with
  | .push => [.q]
  | .recd i | .dead i => [.n i.toNat (if wide then 2 else 1)]
  | .uni i => [.k i.toNat]
  | _ => []

/-- The scoreboard holds the issue (R40). -/
def busy (g : Group) (us : List Use) : Bool :=
  g.lq.any fun e => g.uncorr.map (·.1) != some e.seq && us.any (entryHits e)

end Sys2Proof.Machine
end

