-- ==== Sys2Proof/Machine/Flags.lean ====
section
/-! DEFINITION. Integer types and every flag computation: the type-coded results of R144 and R350, and the sticky
FSTAT flags of the floating-point instructions (R69, R70, R103, R151). -/

namespace Sys2Proof.Machine

/-! ### Integer types (R144) -/

def itWidth : IType → Nat
  | .s8 | .b8 => 8
  | .s16 | .b16 => 16
  | .s32 | .b32 => 32

def itSigned : IType → Bool
  | .s8 | .s16 | .s32 => true
  | _ => false

/-- Bits [w-1:0] of an operand, extended by the type, as an exact integer. -/
def itVal (t : IType) (v : Word) : Int :=
  if itSigned t then sInt (itWidth t) v.toNat else (v.toNat % 2 ^ itWidth t : Nat)

def itMin (t : IType) : Int := if itSigned t then -(2 ^ (itWidth t - 1) : Nat) else 0
def itMax (t : IType) : Int := if itSigned t then (2 ^ (itWidth t - 1) : Nat) - 1 else (2 ^ itWidth t : Nat) - 1

/-- The written value of an exact result: wrapped, or saturated under .sat, then extended to 64 bits (R144, R350). -/
def itResult (t : IType) (sat : Bool) (x : Int) : DWord :=
  let y := if sat then max (itMin t) (min (itMax t) x) else x
  let w := itWidth t
  let v : Int := if itSigned t then sInt w (wrapNat w y) else (wrapNat w y : Nat)
  dw (wrapNat 64 v)

/-- The quotient and the remainder of R145. -/
def itDiv (t : IType) (a b : Int) : Int := if b = 0 then (2 ^ itWidth t : Nat) - 1 else Int.tdiv a b
def itRem (a b : Int) : Int := if b = 0 then a else Int.tmod a b

def ccHolds (cc : Cc) (a b : Int) : Bool :=
  match cc with
  | .eq => decide (a = b) | .ne => decide (a ≠ b) | .lt => decide (a < b) | .le => decide (a ≤ b)
  | .gt => decide (a > b) | .ge => decide (a ≥ b)

/-! ### Floating-point results with their flags (R151, R379) -/

/-- A result: the pattern, the flags, and whether a NaN was made from operands that held none (R154). -/
structure FRes where
  v    : Nat
  fl   : Flags := 0
  made : Bool := false
deriving DecidableEq, Repr

/-- INV when any operand read is a signalling NaN (R151). -/
def snanFlag (xs : List FVal) : Flags := if xs.any isSnan then fINV else 0

/-- The canonical NaN as a result: INV by a case of R151, or carried from a NaN operand. -/
def nanRes (p : FParams) (xs : List FVal) (inv : Bool) : FRes :=
  { v := p.canon, fl := snanFlag xs ||| (if inv then fINV else 0), made := !xs.any isNan }

def rounded (p : FParams) (rm : Rm) (ftz : Bool) (x : FVal) : FRes :=
  let r := roundTo p rm false ftz x
  { v := r.1, fl := r.2 }

/-- a + b (R149, R151). -/
def fAdd (p : FParams) (rm : Rm) (ftz : Bool) (a b : FVal) : FRes :=
  match a, b with
  | .nan _, _ | _, .nan _ => nanRes p [a, b] false
  | .inf s, .inf t => if s = t then { v := infPat p s } else nanRes p [a, b] true
  | .inf s, _ | _, .inf s => { v := infPat p s }
  | .fin x, .fin y => rounded p rm ftz (.fin (dyAdd rm x y))

def fNeg : FVal → FVal
  | .inf s => .inf (!s)
  | .fin d => .fin { d with neg := !d.neg }
  | x => x

def fSign : FVal → Bool
  | .inf s => s
  | .fin d => d.neg
  | .nan _ => false

/-- a * b. -/
def fMul (p : FParams) (rm : Rm) (ftz : Bool) (a b : FVal) : FRes :=
  match a, b with
  | .nan _, _ | _, .nan _ => nanRes p [a, b] false
  | .inf s, .inf t => { v := infPat p (s != t) }
  | .inf s, .fin d | .fin d, .inf s => if d.m = 0 then nanRes p [a, b] true else { v := infPat p (s != d.neg) }
  | .fin x, .fin y => rounded p rm ftz (.fin (dyMul x y))

/-- a * b + c, exact before its one rounding; 0 * infinity sets INV even beside a quiet NaN addend (R151). -/
def fFma (p : FParams) (rm : Rm) (ftz : Bool) (a b c : FVal) : FRes :=
  let zeroInf := match a, b with
    | .inf _, .fin d | .fin d, .inf _ => d.m == 0
    | _, _ => false
  if zeroInf then nanRes p [a, b, c] true
  else match a, b, c with
    | .nan _, _, _ | _, .nan _, _ | _, _, .nan _ => nanRes p [a, b, c] false
    | .fin x, .fin y, .fin z => rounded p rm ftz (.fin (dyAdd rm (dyMul x y) z))
    | .fin _, .fin _, .inf s => { v := infPat p s }
    | _, _, .inf s =>
      if (fSign a != fSign b) = s then { v := infPat p s } else nanRes p [a, b, c] true
    | _, _, .fin _ => { v := infPat p (fSign a != fSign b) }

/-- a / b. -/
def fDiv (p : FParams) (rm : Rm) (ftz : Bool) (a b : FVal) : FRes :=
  let s := fSign a != fSign b
  match a, b with
  | .nan _, _ | _, .nan _ => nanRes p [a, b] false
  | .inf _, .inf _ => nanRes p [a, b] true
  | .inf _, .fin _ => { v := infPat p s }
  | .fin _, .inf _ => { v := signPat p s }
  | .fin x, .fin y =>
    if y.m = 0 then (if x.m = 0 then nanRes p [a, b] true else { v := infPat p s, fl := fDZ })
    else if x.m = 0 then { v := signPat p s }
    else rounded p rm ftz (.fin (dyDiv x y))

def fSqrt (p : FParams) (rm : Rm) (ftz : Bool) (a : FVal) : FRes :=
  match a with
  | .nan _ => nanRes p [a] false
  | .inf s => if s then nanRes p [a] true else { v := infPat p false }
  | .fin x =>
    if x.m = 0 then { v := signPat p x.neg }
    else if x.neg then nanRes p [a] true
    else rounded p rm ftz (.fin (dySqrt x))

/-- 2^a: a value of 1024 or more, or of -1024 or less, rounds as 2^1024 or 2^-1024 does (R379). -/
def fExp2 (p : FParams) (rm : Rm) (ftz : Bool) (a : FVal) : FRes :=
  match a with
  | .nan _ => nanRes p [a] false
  | .inf s => if s then { v := 0 } else { v := infPat p false }
  | .fin x =>
    let big := dyLog x ≥ 10 && x.m != 0
    let y : Dy :=
      if big then { neg := false, m := 1, e := if x.neg then -1024 else 1024 }
      else match dyInteger? x with
        | some i => { neg := false, m := 1, e := i }
        | none => dyExp2 x
    rounded p rm ftz (.fin y)

def fLog2 (p : FParams) (rm : Rm) (ftz : Bool) (a : FVal) : FRes :=
  match a with
  | .nan _ => nanRes p [a] false
  | .inf s => if s then nanRes p [a] true else { v := infPat p false }
  | .fin x =>
    if x.m = 0 then { v := infPat p true, fl := fDZ }
    else if x.neg then nanRes p [a] true
    else
      let l := log2 x.m
      if x.m = 2 ^ l then rounded p rm ftz (.fin (dyInt ((l : Int) + x.e)))
      else rounded p rm ftz (.fin (dyLog2 x))

/-- Numeric order of values that are not NaNs. -/
def fLt (a b : FVal) : Bool :=
  match a, b with
  | .inf s, .inf t => s && !t
  | .inf s, .fin _ => s
  | .fin _, .inf t => !t
  | .fin x, .fin y => dyLt x y
  | _, _ => false

def fEq (a b : FVal) : Bool :=
  match a, b with
  | .inf s, .inf t => s == t
  | .fin x, .fin y => dyEq x y
  | _, _ => false

/-- Whether a is the lesser under FMIN: -0 orders before +0 (R151). -/
def fBefore (a b : FVal) : Bool := fLt a b || (fEq a b && fSign a && !fSign b)

/-- FMIN and FMAX on patterns already read under .ftz (R151). -/
def fMinMax (p : FParams) (wantMax : Bool) (av bv : Nat) (a b : FVal) : FRes :=
  if isNan a && isNan b then nanRes p [a, b] false
  else if isNan a then { v := bv, fl := snanFlag [a] }
  else if isNan b then { v := av, fl := snanFlag [b] }
  else { v := if (fBefore a b) != wantMax then av else bv }

/-- A pattern whose subnormal is read as zero of its sign under .ftz (R150). -/
def ftzPat (p : FParams) (ftz : Bool) (v : Nat) : Nat :=
  if ftz && fld v p.mbits p.ebits == 0 then signPat p (bit v (p.ebits + p.mbits)) else v

/-- The value of a pattern read under .ftz. -/
def fIn (p : FParams) (ftz : Bool) (v : Nat) : FVal := unpack p (ftzPat p ftz (v % 2 ^ p.width))

/-- FCMP: the result bit and the flags (R151, R381). -/
def fCmp (cc : FCc) (a b : FVal) : Bool × Flags :=
  let nan := isNan a || isNan b
  let q := snanFlag [a, b]
  match cc with
  | .unord => (nan, q)
  | .eq => (!nan && fEq a b, q)
  | .ne => (nan || !fEq a b, q)
  | .lt => if nan then (false, fINV) else (fLt a b, 0)
  | .le => if nan then (false, fINV) else (fLt a b || fEq a b, 0)
  | .gt => if nan then (false, fINV) else (fLt b a, 0)
  | .ge => if nan then (false, fINV) else (fLt b a || fEq a b, 0)

end Sys2Proof.Machine
end

