-- ==== Sys2Proof/Machine/Heads.lean ====
section
/-! DEFINITION. The heads of the engines' subqueues: what a command's guard says there (R210), and how a subqueue joins the
backlogged ones (R207, R208). -/

namespace Sys2Proof.Machine

/-! ### Heads (R210) -/

/-- What a guard says of a command at the head of its subqueue, when its slot is not PENDING. -/
def headEval (g : Group) (e : QEntry) : Option Verdict :=
  match e.guard with
  | none => some .run
  | some gs =>
    match g.guard gs.toNat with
    | .pending => none
    | .true => some .run
    | .false => some .drop
    | .free => some .free

/-- The command at the head is evaluated as soon as its slot is not PENDING; what its slot does afterwards changes nothing. -/
def evalHead (g : Group) : List QEntry → List QEntry
  | [] => []
  | e :: es => { e with eval := match e.eval with
      | some v => some v
      | none => headEval g e } :: es

/-- A subqueue's head is eligible: it is not held by its guard (R207). -/
def headElig : List QEntry → Bool
  | [] => false
  | e :: _ => e.eval.isSome

/-- The thread may start: every load older than the command is bound and every older SQ entry complete (R270). -/
def forkReady (g : Group) (e : QEntry) : Bool :=
  !(g.lq.any fun x => decide (x.seq ≤ e.seq)) && !(g.sq.any fun x => decide (x.seq ≤ e.seq))
    && !(g.hold.any fun x => decide (x.seq ≤ e.seq))

/-! ### Sharing (R207, R208) -/

/-- The least pass among backlogged subqueues. -/
def leastPass (l : List Tickets) : Option DWord :=
  (l.filter (·.backlogged)).foldl
    (fun acc x => match acc with
      | none => some x.pass
      | some p => some (if x.pass.ult p then x.pass else p)) none

/-- A subqueue that becomes backlogged takes the greater of its own pass and the least pass among the others (R208). Its own may lie
far above theirs, where R209's bound does not hold: R208 is followed (DESIGN CHOICE, assumption 73). -/
def joinSub (others : List Tickets) (elig : Bool) (t : Tickets) : Tickets :=
  if !elig then { t with backlogged := false }
  else if t.backlogged then t
  else { t with
    backlogged := true
    pass := match leastPass others with
      | some q => if t.pass.ult q then q else t.pass
      | none => t.pass }

/-- The other groups of a core. -/
def otherGroups (s : State) (core gslot : Nat) : List Group :=
  ((getCore s core).groups.filter fun kv => kv.1 != gslot).map (·.2)

/-- The other groups of a core's quadrant: their records go to the same decoders (R228). -/
def quadOthers (s : State) (core gslot : Nat) : List Group :=
  ((List.range 24).map fun i => otherGroups s (core / 24 * 24 + i) (if core % 24 = i then gslot else 128)).flatten

/-- What a push, a guard or a take changes at the heads of a group's subqueues: the heads are evaluated (R210), and a subqueue whose
head has become eligible joins the backlogged ones (R207, R208). -/
def syncQueues (s : State) (core gslot : Nat) : State :=
  modGroup s core gslot fun g =>
    let g := { g with e0 := evalHead g g.e0, e2 := evalHead g g.e2, e4 := evalHead g g.e4 }
    { g with
      tmx := joinSub ((otherGroups s core gslot).map (·.tmx)) (headElig g.e0) g.tmx
      tcp := joinSub ((otherGroups s core gslot).map (·.tcp)) (headElig g.e2) g.tcp
      tvd := joinSub ((quadOthers s core gslot).map (·.tvd)) (headElig g.e4) g.tvd }

/-- A subqueue of the group has grown since the issue began. -/
def grown (c : Cx) (g : Group) : Bool :=
  decide (g.e0.length > c.g.e0.length) || decide (g.e2.length > c.g.e2.length) || decide (g.e4.length > c.g.e4.length)

/-- An issue that has pushed to a subqueue changes what stands at its head. -/
def pushed (c : Cx) (s : State) : State :=
  if ((getGroup s c.core c.gslot).map (grown c)).getD false then syncQueues s c.core c.gslot else s

end Sys2Proof.Machine
end

