-- ==== Sys2Proof/Machine/Issue.lean ====
section
/-! DEFINITION. One issue of a path (R98): the checks in their order, the records that follow the effect (R123), and
the scheduler events that follow the issue (R33, R128). -/

namespace Sys2Proof.Machine

/-! ### The divergence stack -/

/-- An entry's 32 bytes (R35). -/
def entryBytes (e : StackEntry) : List Byte :=
  match e with
  | .path p =>
    bytesOf 8 (p.ii.toNat + 1 * 2 ^ 48 + b2n p.wait * 2 ^ 56 + b2n p.dem * 2 ^ 57) ++ bytesOf 8 p.mask.toNat
      ++ bytesOf 8 p.cf.toNat ++ bytesOf 8 (p.frame.getD 0xFFFF).toNat
  | .frame j m ser par =>
    bytesOf 8 ((j.getD 0xFFFF_FFFF_FFFF).toNat + 2 * 2 ^ 48) ++ bytesOf 8 m.toNat
      ++ bytesOf 8 ser.toNat ++ bytesOf 8 (par.getD 0xFFFF).toNat

/-- PRIVSZ of a group's launch (R28). -/
def privSz (s : State) (g : Group) : Nat :=
  match mfind s.launches g.launch with
  | some l => wfld (l.packet.getD 6 0) 0 16
  | none => 0

/-- The address of entry `e` of the divergence stack (R35). -/
def stackAddr (s : State) (g : Group) (e : Nat) : Nat :=
  g.privbase.toNat + (((privSz s g * 64 - 4) / 4 - e) * g.w) * 4

/-- Parked paths (R32). -/
def parked (st : List StackEntry) : Nat :=
  (st.filter fun e => match e with | .path _ => true | _ => false).length

/-- The position and data of a frame by its serial. -/
def findFrame (st : List StackEntry) (ser : BitVec 16) : Option (Nat × Option II × Mask × Option (BitVec 16)) :=
  firstSome (fun x => match x.1 with
    | .frame j m s par => if s = ser then some (x.2, j, m, par) else none
    | _ => none) st.zipIdx

/-- The join II of a path, when it has one. -/
def joinOf (st : List StackEntry) (p : Path) : Option II :=
  match p.frame with
  | none => none
  | some ser => match findFrame st ser with
    | some (_, j, _, _) => j
    | none => none

/-- A path that has issued and stands at another II: what it noted at the old one is over (R36, R125, R178, R336, R386). -/
def Path.moved (p : Path) (t : II) : Path :=
  { p with ii := t, dem := false, exch := false, bp := p.bp.filter (· != p.ii), fresh := false, bwait := none, half := none
           gwait := none, arr := p.arr.filter fun x => x.1 != p.ii }

/-- The arrival that a path still has to make where it stands (R125). -/
def Path.late (p : Path) : Option (DWord × Bool × BitVec 48) :=
  match p.arr with
  | some (ii, x) => if ii = p.ii then some x else none
  | none => none

/-- A slot whose path has an arrival to make, while no handler of the other slot runs. -/
def lateSlot (g : Group) : Option Slot :=
  [Slot.a, Slot.b].find? fun sl =>
    ((g.path sl).bind (·.late)).isSome && !((g.cth || g.uih) && g.hSlot != sl)

/-- The serial number of the group's next frame: the next that no frame on the stack has, and never 0xFFFF (R33, R35). -/
def nextSerial (g : Group) : BitVec 16 :=
  (firstSome (fun i =>
    let x : BitVec 16 := g.fserial + BitVec.ofNat 16 i
    if x != 0xFFFF && (findFrame g.stack x).isNone then some x else none) (List.range 130)).getD 0

/-- The most recently parked path that does not wait: its position. -/
def topReady (st : List StackEntry) : Option (Nat × Path) :=
  firstSome (fun x => match x.1 with
    | .path p => if p.wait then none else some (x.2, p)
    | _ => none) st.zipIdx.reverse

/-- A waiting parked path of a frame. -/
def parkedWaiter (st : List StackEntry) (ser : BitVec 16) : Option (Nat × Path) :=
  firstSome (fun x => match x.1 with
    | .path p => if p.wait && p.frame == some ser then some (x.2, p) else none
    | _ => none) st.zipIdx

/-- The slot of a group's path that began to wait first. -/
def firstWaiter (g : Group) : Slot :=
  match g.pathA, g.pathB with
  | some a, some b => if a.since ≤ b.since then .a else .b
  | none, _ => .b
  | _, none => .a

/-! ### Scheduler events (R33, R36) -/

/-- A path stands at its frame's marked join and does not wait yet. -/
def joinDue (s : State) (core : Nat) (g : Group) (p : Path) : Bool :=
  !p.wait && p.late.isNone && joinOf g.stack p == some p.ii && isMarked s core g p.ii

def waitsDue (s : State) (core : Nat) (g : Group) : Bool :=
  [Slot.a, Slot.b].any fun sl => ((g.path sl).map (joinDue s core g)).getD false

/-- Paths that stand at their frame's marked join begin to wait. -/
def beginWaits (s : State) (core : Nat) (g : Group) : Group :=
  [Slot.a, Slot.b].foldl (fun g sl =>
    match g.path sl with
    | some p =>
      if joinDue s core g p then
        { g.setPath sl (some { p with wait := true, since := g.waitCtr }) with waitCtr := g.waitCtr + 1 }
      else g
    | none => g) g

/-- The placement record of a scheduler event, which follows the pending trace (R127, R128). -/
def placeRec (g : Group) (w : DWord) : Group :=
  if g.recording then histPush (flushTrace g) g.lastIc kSLOTS [w] else g

/-- The JOINR record of a merge (R122). -/
def joinRec (g : Group) (gone : Path) : Group :=
  if g.recording then histPush g g.lastIc kJOINR [gone.mask, gone.cf] else g

/-- The exchange of a demoted path with the most recently parked path that does not wait (R36). -/
def exchangeOnce (g : Group) : Option Group :=
  firstSome (fun sl =>
    match g.path sl, topReady g.stack with
    | some p, some (pos, q) =>
      if p.exch && !p.wait then
        some { (placeRec g (placeWord 2 sl true pos 0 0)).setPath sl (some q) with
          stack := dropAt g.stack pos ++ [.path { p with dem := true, exch := false }] }
      else none
    | _, _ => none) [Slot.a, Slot.b]

/-- The merge of a slot's waiting path with a parked path of its frame, or its going on alone (R33). Going on alone removes the frame
without a record, for R128 lists none: a reversal past it does not bring the frame back (DESIGN CHOICE, assumption 73). -/
def mergeParked (g : Group) (sl : Slot) (p : Path) (ser : BitVec 16) (fpos : Nat) (fmask : Mask)
    (par : Option (BitVec 16)) : Option Group :=
  match parkedWaiter g.stack ser with
  | some (ppos, q) =>
    let g1 := joinRec (placeRec g (placeWord 3 sl true ppos fpos ser.toNat)) q
    let m : Path := { p with mask := p.mask ||| q.mask, frame := par, wait := false }
    some { g1.setPath sl (some m) with
      stack := if ppos > fpos then dropAt (dropAt g.stack ppos) fpos else dropAt (dropAt g.stack fpos) ppos }
  | none =>
    if fmask = p.mask then
      some { g.setPath sl (some { p with frame := par, wait := false }) with stack := dropAt g.stack fpos }
    else none

/-- The merge of two paths of one frame, or the sibling's going on alone; none when nothing merges (R33). -/
def mergeOnce (g : Group) : Option Group :=
  firstSome (fun sl =>
    match g.path sl with
    | none => none
    | some p =>
      if !p.wait then none else
      match p.frame with
      | none => none
      | some ser =>
        match findFrame g.stack ser with
        | none => none
        | some (fpos, _, fmask, par) =>
          match g.path (otherSlot sl) with
          | some q =>
            if q.wait && q.frame == some ser then
              -- both stand in slots: slot A keeps its cf
              let (a, b) := if sl = .a then (p, q) else (q, p)
              let g1 := joinRec (placeRec g (placeWord 3 .a false 0 fpos ser.toNat)) b
              let m : Path := { a with mask := a.mask ||| b.mask, frame := par, wait := false }
              some { g1 with pathA := some m, pathB := none, stack := dropAt g.stack fpos }
            else mergeParked g sl p ser fpos fmask par
          | none => mergeParked g sl p ser fpos fmask par) [Slot.a, Slot.b]

/-- A parked path that waits for a sibling whose lanes have all left goes on alone at its join (R33), without a record (DESIGN CHOICE,
assumption 73). -/
def aloneOnce (g : Group) : Option Group :=
  firstSome (fun x =>
    match x.1 with
    | .path p =>
      if !p.wait then none else
      match p.frame with
      | none => none
      | some ser =>
        match findFrame g.stack ser with
        | some (fpos, _, fmask, par) =>
          if fmask = p.mask then
            some { g with stack := dropAt (setAt g.stack x.2 (.path { p with frame := par, wait := false })) fpos }
          else none
        | none => none
    | _ => none) g.stack.zipIdx

/-- The reload of the most recently parked path that does not wait; none when there is no place or no path (R33). Of two free slots it
takes slot A (DESIGN CHOICE, assumption 73). -/
def reloadOnce (g : Group) : Option Group :=
  match topReady g.stack with
  | none => none
  | some (pos, p) =>
    let free : Option Slot := if g.pathA.isNone then some .a else if g.pathB.isNone then some .b else none
    match free with
    | some sl =>
      some { (placeRec g (placeWord 1 sl true pos 0 0)).setPath sl (some p) with stack := dropAt g.stack pos }
    | none =>
      let waits (x : Option Path) : Bool := (x.map (·.wait)).getD false
      if waits g.pathA && waits g.pathB then
        (g.path (firstWaiter g)).map fun w =>
          { (placeRec g (placeWord 2 (firstWaiter g) true pos 0 0)).setPath (firstWaiter g) (some p) with
            stack := dropAt g.stack pos ++ [.path w] }
      else none

/-- A group takes its scheduler events: outside handlers and reversals, and not while a trap that has fallen due stands at one of
its paths, or a path has still to arrive (R125, R318, R323). -/
def Group.moves (g : Group) : Bool :=
  g.counting && g.pend.isNone && g.rev.isNone && !g.ended && (lateSlot g).isNone

/-- The next scheduler event that is due, as the group after it. -/
def eventOnce (s : State) (core : Nat) (g : Group) : Option Group :=
  if !g.moves then none
  else if waitsDue s core g then some (beginWaits s core g)
  else firstSome (fun x => x) [exchangeOnce g, mergeOnce g, aloneOnce g, reloadOnce g]

/-- The records of an event fit below HLIM (R101). -/
def eventFits (g g' : Group) : Bool := g'.hsp == g.hsp || decide (g'.hsp.toNat ≤ g.hlim.toNat)

/-- The events of a group until none is due, as they would be with room for every record. Fuel bounds them: each merge removes a
frame. -/
def eventsAll (s : State) (core : Nat) : Nat → Group → Group
  | 0, g => g
  | k + 1, g => match eventOnce s core g with
    | some g' => eventsAll s core k g'
    | none => g

/-- Words that the scheduler events of a group push. -/
def eventWords (s : State) (core : Nat) (g : Group) : Nat :=
  ((eventsAll s core 260 g).hsp.toNat - g.hsp.toNat) / 8

def settleAux : Nat → State → Nat → Nat → State
  | 0, s, _, _ => s
  | k + 1, s, core, gslot =>
    match getGroup s core gslot with
    | none => s
    | some g =>
      match eventOnce s core g with
      | some g' => if eventFits g g' then settleAux k (setGroup s core gslot g') core gslot else s
      | none => s

/-! ### What the core writes back for a group (R35, R119) -/

/-- What a write-back gives: nothing is due, it must wait, its page fails (`true` for PAGE), or it is done. -/
inductive Back where
  | none
  | wait
  | fault (page : Bool) (va : Nat)
  | done (s : State)

/-- The lowest entry below the four topmost that memory does not hold yet (R35). -/
def deepDue (g : Group) : Option (Nat × StackEntry) :=
  firstSome (fun e => match g.stack[e]? with
    | some x => if g.deep[e]? == some x then Option.none else some (e, x)
    | Option.none => Option.none) (List.range (g.stack.length - 4))

/-- Bytes that the core writes to a group's memory, when they can be written. -/
def backWrite (s : State) (core ctx a n : Nat) (act : State) : Back :=
  match rangeFault s ctx a n .store false with
  | some (page, va) => .fault page va
  | Option.none => if rangeBusy s core ctx a n .store then .wait else .done act

/-- The next write-back of a group: an entry of the divergence stack, then the history words that have left the window. -/
def backOnce (s : State) (core gslot : Nat) (g : Group) : Back :=
  match deepDue g with
  | some (e, x) =>
    let deep := if e < g.deep.length then setAt g.deep e x else g.deep ++ [x]
    backWrite s core g.ctx (stackAddr s g e) 32
      (ctxWrite (setGroup s core gslot { g with deep := deep }) core g.ctx (stackAddr s g e) (entryBytes x))
  | Option.none =>
    if g.hist.length ≤ 256 then .none
    else backWrite s core g.ctx (spillRange g 0).1 (spillRange g 0).2 (spillWords s core gslot g)

def backAux : Nat → State → Nat → Nat → State
  | 0, s, _, _ => s
  | k + 1, s, core, gslot =>
    match getGroup s core gslot with
    | Option.none => s
    | some g => match backOnce s core gslot g with
      | .done s' => backAux k s' core gslot
      | _ => s

/-- The scheduler events that follow an issue, and the write-backs that can be made at once; what cannot be done waits for the
group's next boundary. -/
def settle (s : State) (core gslot : Nat) : State := backAux 130 (settleAux 260 s core gslot) core gslot

/-! ### The issue -/

/-- What an instruction tells the issue checks about itself. -/
structure Pre where
  /-- A condition of step 2 of R98 beyond the encoding. -/
  illegal : Bool := false
  /-- A condition of step 2 that depends on an operand's value, judged once the operand can be read. -/
  badValue : Bool := false
  /-- The target of a transfer, whose line and mark are checked at step 2 (R79). -/
  target : Option II := none
  /-- Registers that the target is computed from. -/
  early  : List Use := []
  /-- An engine command: pushed with its guard (R82). -/
  engine : Bool := false
  /-- A horizon: it pushes HORIZON, and waits under an open speculation (R131, R137). -/
  horizon : Bool := false
  /-- Under an open speculation it does not wait and pushes no HORIZON (R137). -/
  specPass : Bool := false
  srcs   : List SrcUse := []
  dst    : Option (Dst × Bool) := none
  uses   : List Use := []
  /-- Words of the instruction's own records besides the destination's. -/
  words  : Nat := 0
  /-- The instruction may divide the path. -/
  divides : Bool := false
  /-- The join of such a division. -/
  join : Option II := none
  /-- The groups that the instruction may leave, when it neither falls through nor transfers. -/
  leaves : Option (List Group) := none
  /-- The issue empties the history stack, or checks its own records against HLIM. -/
  commits : Bool := false
  /-- The issue sets REC, so its records count whatever REC is now (R118). -/
  setsRec : Bool := false
  /-- The issue pushes the pending trace before its effect (R127). -/
  flushes : Bool := false
  /-- The path falls through whatever `target` is. -/
  falls  : Bool := false
  /-- A GUARD trap of the instruction itself, with TRAPINFO2 (R133, R135, R136, R385, R386). -/
  guardTrap : Option DWord := none

/-- A trap at the issuing path. -/
def trapAt (c : Cx) (s : State) (code : BitVec 8) (ret : RetKind) (i2 i3 : DWord) : Out :=
  .next (takeTrap s c.core c.gslot (mkTrap code c.slot c.p ret i2 i3))

/-- A trap at the issuing path that is reported for some of its lanes (R98). -/
def trapMask (c : Cx) (s : State) (code : BitVec 8) (ret : RetKind) (m : Mask) (i2 i3 : DWord) : Out :=
  .next (takeTrap s c.core c.gslot (mkTrap code c.slot c.p ret i2 i3) m)

/-- The issuing path. -/
def enter (s : State) : Option Cx :=
  match getGroup s s.cur.1 s.cur.2.1 with
  | none => none
  | some g => match g.path s.cur.2.2 with
    | none => none
    | some p => some { core := s.cur.1, gslot := s.cur.2.1, slot := s.cur.2.2, g := g, p := p }

/-- No older acquire of the group is unbound and no older acquiring fence unfinished (R262). -/
def issueOpen (g : Group) : Bool :=
  !(g.lq.any fun e => e.acq && g.uncorr.map (·.1) != some e.seq) && !(g.sq.any fun e => e.kind == .fenceAr)

/-- The check of a transfer's target line: a fault of the read, or ILLEGAL when the slot is not marked (R79). The line's reserved bits
are tested only by the fetch that follows there (R78; DESIGN CHOICE, assumption 73). -/
def targetFault (s : State) (c : Cx) (t : II) : Option (BitVec 8 × DWord × DWord) :=
  let a := dw (iiLine t * 64)
  match readLine s c.core c.g.ctx c.g.launch (iiLine t) with
  | .ok b => if lineMark b (iiSlot t) then none else some (tILLEGAL, 0, 0)
  | .page => some (tPAGE, a, 2)
  | .prot => some (tPROT, a, 2)
  | .par => some (tFETCHPAR, a, 2)

/-- The registers and queues that an issue reads or writes (R40). -/
def preUses (f : Pre) : List Use :=
  f.uses ++ (f.srcs.map srcUses).flatten ++ (match f.dst with | some (d, w) => dstUses d w | none => [])

/-- The issue pushes an engine queue through its destination (R61). -/
def preEng (f : Pre) : Bool := match f.dst with | some (d, _) => d.isEng | none => false

/-- The instruction is a horizon: by itself, by a pop, or by a push to an engine queue (R132). -/
def isHorizon (f : Pre) : Bool :=
  f.horizon || !(usePops f.srcs).isEmpty || preEng f

/-- The paths of a division (R33): the other slot's path is parked, a frame is pushed, the fall-through lanes take slot A and the
taken lanes slot B; gives the group and the two paths. -/
def dividePaths (g : Group) (sl : Slot) (p : Path) (taken : Mask) (t : II) (j : Option II) : Group × Path × Path :=
  let st := match g.path (otherSlot sl) with
    | some q => g.stack ++ [.path q]
    | none => g.stack
  let ser := nextSerial g
  let base : Path := { p.moved p.ii with frame := some ser }
  ({ g with stack := st ++ [.frame j p.mask ser p.frame], fserial := ser + 1 },
    { base with ii := p.ii + 1, mask := p.mask &&& ~~~taken }, { base with ii := t, mask := taken })

/-- The places that an issue may leave its paths in, for any operand values. -/
def placesAfter (c : Cx) (f : Pre) : List Group :=
  let at_ (t : II) : Group := c.g.setPath c.slot (some { c.p with ii := t })
  match f.leaves, f.target with
  | some gs, _ => gs
  | none, none => [at_ (c.p.ii + 1)]
  | none, some t =>
    if f.falls then [at_ (c.p.ii + 1)]
    else if f.divides then
      let x := dividePaths c.g c.slot c.p (1 <<< lowLane c.p.mask) t f.join
      [at_ (c.p.ii + 1), at_ t] ++
        (if laneCount c.p.mask < 2 then [] else [{ x.1 with pathA := some x.2.1, pathB := some x.2.2 }])
    else [at_ t]

/-- The most words that the scheduler events after an issue push, the pending trace apart. -/
def followWords (s : State) (c : Cx) (f : Pre) : Nat :=
  ((placesAfter c f).map fun g =>
    eventWords s c.core { g with ptrace := [], recb := g.recb || f.setsRec }).foldl max 0

/-- History words that the issue may push, judged without regard to operand values (R98 step 5, R141). -/
def histNeed (s : State) (c : Cx) (f : Pre) : Nat :=
  if !(c.g.recording || (f.setsRec && c.g.counting)) || f.commits then 0
  else
    let dst := match f.dst with
      | some (d, w) => dstWords { c with g := clearFinal f.srcs c.p.mask c.g } d w
      | none => 0
    let fall := if isMarked s c.core c.g (c.p.ii + 1) then 2 else 0
    let flush := if f.flushes && !c.g.ptrace.isEmpty then 2 else 0
    let old := if f.flushes then 0 else c.g.ptrace.length
    let cf := match f.target with
      | some _ => if f.falls then fall else if f.divides then (if c.g.ptrace.isEmpty then 0 else 2) + 4 + 2 + fall else 2
      | none => fall
    let hz := if isHorizon f && !f.specPass then 1 else 0
    let other := dst + f.words + cf + hz
    let ev := followWords s c f
    let traced := c.g.both || f.divides
    flush + other + ev + (if (other + ev > 0 || old ≥ 57) && (traced || old > 0) then 2 else 0)

/-- HISTFULL (R98 step 5). -/
def histFull (c : Cx) (need : Nat) : Option (BitVec 8 × RetKind × DWord × DWord) :=
  if need ≠ 0 ∧ c.g.hsp.toNat + 8 * need > c.g.hlim.toNat then some (tHISTFULL, .reissue, dw (8 * need), c.g.hsp) else none

/-- A fault of the granary words that would be written back (R119): PROT before PAGE (R98 step 11). -/
def spillFault (s : State) (c : Cx) (need : Nat) : Option (BitVec 8 × RetKind × DWord × DWord) :=
  if need = 0 then none
  else
    let (a, n) := spillRange c.g need
    match rangeTrap s c.g.ctx a n .store false with
    | some (true, x) => some (tPAGE, .reissue, dw x, 1)
    | some (false, x) => some (tPROT, .reissue, dw x, 1)
    | none => none

/-- HISTFULL, or else a fault of the granary, for an issue that no other check follows. -/
def histFault (s : State) (c : Cx) (need : Nat) : Option (BitVec 8 × RetKind × DWord × DWord) :=
  match histFull c need with
  | some x => some x
  | none => spillFault s c need

/-- What the later checks and the body answer stands before a fault of the granary: a wait, or a trap, save PAGE before the granary's
PROT (R98 step 11). An issue that pushes records counts in ic, so a group whose ic has not moved has not issued. -/
def beforeSpill (c : Cx) (code : BitVec 8) (out : Out) : Bool :=
  match out with
  | .next t => match getGroup t c.core c.gslot with
    | some g => g.ic == c.g.ic && !(code == tPROT && match g.held with | .driver page _ => page | .none => false)
    | none => false
  | _ => true

/-- The answer of an issue whose records write granary words back: a fault of the granary is taken at its place among the traps. -/
def spillTrap (s : State) (c : Cx) (need : Nat) (out : Out) : Out :=
  match spillFault s c need with
  | none => out
  | some (code, ret, i2, i3) => if beforeSpill c code out then out else trapAt c s code ret i2 i3

/-- Whether the write-back of granary words must wait for the core's own requests. -/
def histBusy (s : State) (c : Cx) (need : Nat) : Bool :=
  let (a, n) := spillRange c.g need
  n != 0 && rangeBusy s c.core c.g.ctx a n .store

/-- A chain that still has a status entry to post: its fault's, or that of its last record (R221, R222, R225). -/
def chanPosts (ch : Chan) : Bool :=
  let last : Bool := match ch.recs with
    | r :: _ => (r.bytes.drop 8).take 8 == List.replicate 8 0
    | [] => false
  decide (ch.fstep < 3) || (ch.fault.isNone && !last)

/-- Whether an engine of the group will still produce a status entry for a queue (R62). -/
def producing (s : State) (c : Cx) (q : Nat) : Bool :=
  let k := getCore s c.core
  match q with
  | 1 => !c.g.e0.isEmpty || k.mx.run.any fun r => r.gslot == c.gslot
  | 3 => !c.g.e2.isEmpty || k.chans.any fun ch => ch.2.gslot == c.gslot && chanPosts ch.2
  | _ => !c.g.e4.isEmpty || s.decs.any fun f => f.2.core == c.core && f.2.gslot == c.gslot

/-- The selector that pops a queue. -/
def popSel (q : Nat) : Nat := 0x10 + q

/-- A queue that holds fewer entries than the instruction pops. -/
def emptyPop (c : Cx) (us : List SrcUse) : Option Nat :=
  (usePops us).find? fun q => (c.g.status q).length < ((usePops us).filter (· == q)).length

/-- Where a path goes on after its issue. -/
inductive Next where
  | fall
  | jump (t : II)
  /-- The body has placed the paths itself. -/
  | placed
deriving DecidableEq, Repr

/-- The pending trace after an issue (R127): the issuing slot is added when both slots hold paths, and the trace is
pushed when another record was pushed or it holds 58 entries. -/
def traceIssue (c : Cx) (g : Group) : Group :=
  if !c.g.recording then g
  else
    let other := g.hsp != c.g.hsp
    let g := if g.both then { g with ptrace := g.ptrace ++ [c.slot], ptraceIc := c.ic } else g
    if (other && !g.ptrace.isEmpty) || g.ptrace.length ≥ 58 then flushTrace g else g

/-- The end of an issue: arrivals with their CF records, HORIZON, the slot trace and ic (R123, R125, R127). -/
def finishG (s : State) (c : Cx) (next : Next) (hz : Bool) (g : Group) : Group :=
  let recd := c.g.recording
  let move (t : II) (src : DWord) : Group :=
    match g.path c.slot with
    | some p =>
      let (g, p) := arriveCf s c.core g c.ic recd (p.moved t) src
      g.setPath c.slot (some p)
    | none => g
  let g := match next with
    | .fall => move (c.p.ii + 1) fallthru
    | .jump t => move t (dw c.p.ii.toNat)
    | .placed => g
  let g := if hz && recd then histPush g c.ic kHORIZON [] else g
  let g := traceIssue c g
  let g := if c.g.counting then { g with ic := c.ic + 1 } else g
  { g with last := c.slot }

/-- The domes serve the walks of the accesses that an issue has made: those of its entries in LQ, SQ and the hold queue (R303). -/
def issueHits (c : Cx) (s : State) : State :=
  if s.pins.isEmpty then s
  else match getGroup s c.core c.gslot with
    | none => s
    | some g =>
      let loads := (g.lq.filter fun e => decide (c.g.seq < e.seq)).map fun e => e.pieces.map (·.va)
      let stores := ((g.sq ++ g.hold).filter fun e => decide (c.g.seq < e.seq)).map fun e => e.pieces.map (·.va)
      (loads ++ stores).flatten.foldl (fun s va => walkHit s g.ctx va) s

/-- Completes an issue whose effect has happened. -/
def finish (c : Cx) (next : Next) (hz : Bool) (s : State) : Out :=
  .next (settle (modGroup (issueHits c (pushed c s)) c.core c.gslot (finishG s c next hz)) c.core c.gslot)

/-- A guarded issue that resolves FALSE: no effect of the instruction (R53). Room for its CF and trace records is checked as for any
issue, because HSP never passes HLIM (R101; DEDUCED, assumption 72). -/
def issueSkip (c : Cx) (s : State) : Out :=
  match histFault s c (histNeed s c {}) with
  | some (code, ret, i2, i3) => trapAt c s code ret i2 i3
  | none => if histBusy s c (histNeed s c {}) then .next s else finish c .fall false s

/-- The checks after the guard, then the body. -/
def issueGo (s : State) (c : Cx) (f : Pre) (body : Cx → State → Out) : Out :=
  if isHorizon f && !f.specPass && c.g.spec.isSome then .next s
  else if busy c.g (preUses f) then .next s
  else if f.badValue then trapAt c s tILLEGAL .reissue 0 0
  else
    let need := histNeed s c f
    match histFull c need with
    | some (code, ret, i2, i3) => trapAt c s code ret i2 i3
    | none =>
      if histBusy s c need then .next s
      else spillTrap s c need (match firstDead c f.srcs with
        | some a => trapAt c s tSTALE .reissue (dw (a - 1)) 0
        | none =>
          match emptyPop c f.srcs with
          | some q => if producing s c q then .next s else trapAt c s tORPHAN .reissue (dw (popSel q)) 0
          | none =>
            if preEng f && c.g.e2.length ≥ 16 then .next s
            else body c s)

/-- The fault of a transfer's target line, if the instruction names a target (R79). -/
def preTarget (s : State) (c : Cx) (f : Pre) : Option (BitVec 8 × DWord × DWord) :=
  match f.target with
  | some t => targetFault s c t
  | none => none

/-- The state of a guard slot as the instruction finds it: what the slot became while it waited decides (R386). -/
def guardSeen (c : Cx) (gs : Nat) : GState :=
  match c.p.gwait with
  | some (ii, k, some v) => if ii = c.p.ii ∧ k = gs then v else c.g.guard gs
  | _ => c.g.guard gs

/-- The path notes that its instruction waits for a guard slot (R386). -/
def guardWaits (s : State) (c : Cx) (gd : Guard) : State :=
  modGroup s c.core c.gslot fun g =>
    g.setPath c.slot (some { c.p with gwait := gd.map fun gs => (c.p.ii, gs.toNat, (none : Option GState)) })

/-- The line of the next slot or of the target lies on a stack that retrains: the issue waits for the fetch (R341). -/
def preHeld (s : State) (c : Cx) (f : Pre) : Bool :=
  lineHeld s c.core c.g.ctx c.g.launch (iiLine (c.p.ii + 1))
    || (f.target.map fun t => lineHeld s c.core c.g.ctx c.g.launch (iiLine t)).getD false

/-- An issue of the instruction at `State.cur` (R98); an operand that names e5 without feature 3 is ILLEGAL (R22). A wait leaves the
state as it is. -/
def issue (s : State) (gd : Guard) (pre : Cx → Pre) (body : Cx → State → Out) : Out :=
  match enter s with
  | none => .fault .noIssuingPath
  | some c =>
    let f := pre c
    if !issueOpen c.g || preHeld s c f then .next s
    else
      if f.illegal || (usePops f.srcs).contains 5 && !feature s 3 then trapAt c s tILLEGAL .reissue 0 0
      else if busy c.g f.early then .next s
      else match preTarget s c f with
        | some (code, i2, i3) => trapAt c s code .reissue i2 i3
        | none =>
          let st : GState := match gd with
            | none => .true
            | some gs => guardSeen c gs.toNat
          match (if st = .free then gd.map fun gs => dw gs.toNat else f.guardTrap) with
          | some v => trapAt c s tGUARD .next v 0
          | none =>
            match st with
            | .pending => if f.engine then issueGo s c f body else .next (guardWaits s c gd)
            | .false => if f.engine then issueGo s c f body else issueSkip c s
            | _ => issueGo s c f body

/-! ### Shapes of bodies -/

/-- The reads are over: final-use marks and pops take effect; a pop of a final status entry is an acquire (R52, R61,
R271). -/
def consume (c : Cx) (us : List SrcUse) (s : State) : State :=
  let j := popsJoin us c.g
  let s := modGroup s c.core c.gslot fun g => doPops us (clearFinal us c.p.mask g)
  if j then acquire s c.core else s

/-- A lane instruction that writes one result and falls through. -/
def laneOp (s : State) (gd : Guard) (us : List SrcUse) (d : Dst) (wide : Bool) (v : Cx → Nat → DWord)
    (post : Cx → Group → Group) : Out :=
  issue s gd (fun _ => { srcs := us, dst := some (d, wide) }) fun c s =>
    let s := consume c us s
    let s := modGroup s c.core c.gslot fun g => post c (writeDst c d wide (v c) g)
    finish c .fall (isHorizon { srcs := us, dst := some (d, wide) }) s

/-- The same, with no effect besides the result. -/
def laneOp0 (s : State) (gd : Guard) (us : List SrcUse) (d : Dst) (v : Cx → Nat → DWord) : Out :=
  laneOp s gd us d false v fun _ g => g

/-- 32-bit sources. -/
def u32 (l : List Src) : List SrcUse := l.map fun a => (a, false)

/-- A 32-bit result, zero-extended. -/
def zx (w : Word) : DWord := w.setWidth 64

end Sys2Proof.Machine
end

