-- ==== Sys2Proof/Machine/LoadQ.lean ====
section
/-! DEFINITION. The queues of the ordering machine (R259): entering SQ (R274, R289), entering a path, forwarding from the
hold queue and SQ (R263), and what a bound load does (R395, R396, R398, R309). -/

namespace Sys2Proof.Machine

/-! ### Places -/

/-- The memory that a target names: a host window and the host are one memory. -/
def tgtSpace : Tgt → Nat
  | .dev => 0
  | .host | .win _ => 1
  | .peer p => 2 + p
  | .dec c => 1000 + c

/-- Two accesses share a granule (R259). -/
def sameGran (t : Tgt) (a : Nat) (u : Tgt) (b : Nat) : Bool :=
  tgtSpace t == tgtSpace u && a / granSize t == b / granSize t

/-- Two accesses share a byte. -/
def overlaps (t : Tgt) (a n : Nat) (u : Tgt) (b m : Nat) : Bool :=
  tgtSpace t == tgtSpace u && decide (a < b + m) && decide (b < a + n)

/-- Bytes that a store piece writes; a page of a DISCARD is written whole (R307). -/
def SPiece.len (k : SKind) (p : SPiece) : Nat := if k = .disc then 4096 else p.data.length

/-- Loads that are still unbound, without the load whose UNCORR trap has fallen due (R310). -/
def liveLq (g : Group) : List LEntry := g.lq.filter fun e => g.uncorr.map (·.1) != some e.seq

/-! ### Latest-only stores -/

/-- The SEQ that a latest-only store carries (R272). -/
def loSeq (bs : List Byte) : Nat := fld (natOf bs) 64 56

def sameCell (a b : Nat) : Bool := a / 16 == b / 16

/-- Of the lanes that name one cell, the one with the highest SEQ stays, the highest-numbered of equals (R289). -/
def keepHighest (ps : List SPiece) : List SPiece :=
  ps.filter fun p => !ps.any fun q =>
    sameCell p.addr q.addr &&
      (decide (loSeq p.data < loSeq q.data) || (loSeq p.data == loSeq q.data && decide (p.lane < q.lane)))

/-- Entries of SQ that a removal does not pass: a release, a marker, an STLO.md of the cell (R274). -/
def sqStops (x : SEntry) (addr : Nat) : Bool :=
  x.rel ||
    match x.kind with
    | .fenceRel | .fenceAr | .pub _ | .disc => true
    | .stlo md => md && x.pieces.any fun q => sameCell q.addr addr
    | _ => false

/-- Removal from SQ, read newest first, by a store to a cell (R274): what is left, and what was removed. -/
def sweepSq (gslot addr seqv : Nat) : List SEntry → List SEntry × List (Nat × Nat)
  | [] => ([], [])
  | x :: xs =>
    if sqStops x addr then (x :: xs, [])
    else
      let (ys, r) := sweepSq gslot addr seqv xs
      if x.kind == .stlo false && !x.drained then
        let gone := x.pieces.filter fun q => sameCell q.addr addr && decide (loSeq q.data < seqv)
        let left := x.pieces.filter fun q => !(sameCell q.addr addr && decide (loSeq q.data < seqv))
        ({ x with pieces := left } :: ys, (gone.map fun q => (gslot, x.seq) :: q.removed).flatten ++ r)
      else (x :: ys, r)

/-- An entry enters SQ (R262, R274, R289). -/
def enterSq (gslot : Nat) (g : Group) (e : SEntry) : Group :=
  match e.kind with
  | .stlo false =>
    let r := (keepHighest e.pieces).foldl (fun (acc : List SEntry × List SPiece) k =>
      let (sq, gone) := sweepSq gslot k.addr (loSeq k.data) acc.1
      (sq, acc.2 ++ [{ k with removed := k.removed ++ gone }])) (g.sq.reverse, [])
    { g with sq := r.1.reverse ++ [{ e with pieces := r.2, wait := r.2.length }] }
  | _ => { g with sq := g.sq ++ [{ e with wait := e.pieces.length }] }

def Req.plainStlo (r : Req) : Bool := r.kind == .stlo false
def Req.mdStlo (r : Req) : Bool := r.kind == .stlo true
def Req.loRead (r : Req) : Bool := r.kind == .read true

/-- A request touches a cell. -/
def Req.atCell (r : Req) (addr : Nat) : Bool := r.parts.any fun p => sameCell p.addr addr

/-- What a removal from a path gives: the requests that stay, newest first, the stores removed, and the reads that go behind the
entering request, oldest first. -/
structure Swept where
  keep  : List Req
  gone  : List (Nat × Nat)
  moved : List Req
deriving DecidableEq, Repr

/-- Removal from a path, read newest first, by a store to a cell (R274). An LDLO that stands behind a store of its group that is
removed goes behind the store that removes it, for it reads that store or a newer one (R276, R283; DEDUCED, assumption 24). -/
def sweepPath (addr seqv : Nat) : List Req → Swept
  | [] => ⟨[], [], []⟩
  | x :: xs =>
    if x.rel || (x.mdStlo && x.atCell addr) then ⟨x :: xs, [], []⟩
    else
      let r := sweepPath addr seqv xs
      let hit (p : RPart) : Bool := x.plainStlo && sameCell p.addr addr && decide (loSeq p.bytes < seqv)
      if x.parts.any hit then
        let left := x.parts.filter fun p => !hit p
        let gone := ((x.parts.filter hit).map fun p => (x.gslot, x.seq) :: p.removed).flatten
        { r with keep := if left.isEmpty then r.keep else { x with parts := left } :: r.keep, gone := gone ++ r.gone }
      else if x.loRead && x.atCell addr && (r.gone.any fun y => y.1 == x.gslot) then { r with moved := r.moved ++ [x] }
      else { r with keep := x :: r.keep }

/-- A request enters the path to its home (R263, R264, R274). -/
def pathPush (s : State) (core home : Nat) (r : Req) : State :=
  let q := pathReqs s core home
  let q := if r.plainStlo then
      let x := r.parts.foldl (fun (acc : List Req × List RPart × List Req) k =>
        let w := sweepPath k.addr (loSeq k.bytes) acc.1
        (w.keep, acc.2.1 ++ [{ k with removed := k.removed ++ w.gone }], acc.2.2 ++ w.moved)) (q.reverse, [], [])
      x.1.reverse ++ [{ r with parts := x.2.1 }] ++ x.2.2
    else q ++ [r]
  { s with paths := mput [] s.paths (pathKey core home) q }

/-- The requests that carry pieces of one entry: one for every sector of 32 bytes, host and peer pieces by their granules of 8, in
the order of the first piece of each (R260, R297). `f` names a piece's target and address. -/
def bySector {α : Type} (f : α → Tgt × Nat) (ps : List α) : List (List α) :=
  let key (p : α) : Nat × Nat := (tgtSpace (f p).1, (f p).2 / granSize (f p).1)
  ((ps.map key).eraseDups).map fun k => ps.filter fun p => key p == k

/-! ### Forwarding (R263) -/

/-- What one entry says of a byte: nothing, wait, or the byte. The data of the highest lane stands (R260). -/
def entryByte (e : SEntry) (t : Tgt) (a : Nat) : Option (Option Byte) :=
  match e.pieces.reverse.find? (fun p => overlaps t a 1 p.tgt p.addr (p.len e.kind)) with
  | none => none
  | some p =>
    match e.kind with
    | .st => some p.data[a - p.addr]?
    | .xst | .atom _ => some none
    | .disc => some (some 0)
    | _ => none

/-- The newest store of the hold queue, then of SQ, older than `seq`, that writes a byte: nothing, wait for it, or the
byte. -/
def fwdByte (g : Group) (seq : Nat) (t : Tgt) (a : Nat) : Option (Option Byte) :=
  firstSome (fun e => if e.seq < seq then entryByte e t a else none) (g.hold.reverse ++ g.sq.reverse)

/-- The granule of L1 that an access finds. -/
def l1Find (s : State) (core : Nat) (t : Tgt) (a : Nat) : Option L1Gran :=
  match t with
  | .dev | .dec _ => mfind (getCore s core).l1 (granKey t a)
  | _ => none

/-- What the core finds of bytes without asking a home: forwarded bytes over an L1 granule. The error is `true` when an
ATOM must complete first, else a home is needed. -/
def localBytes (s : State) (core : Nat) (g : Group) (seq : Nat) (t : Tgt) (a n : Nat) (ownedOnly : Bool) :
    Except Bool (List Byte) :=
  let f := (List.range n).map fun i => fwdByte g seq t (a + i)
  if f.any fun x => x == some none then .error true
  else
    let all := f.all fun x => x.isSome
    match l1Find s core t a with
    | some gr =>
      if ownedOnly && !gr.owned && !all then .error false
      else .ok (f.zipIdx.map fun x => (x.1.getD none).getD (gr.data.getD (a % 32 + x.2) 0))
    | none => if all then .ok (f.map fun x => (x.getD none).getD 0) else .error false

/-- What the group's own older stores say of the bytes of an access that asks its home (R263). -/
def fwdOf (g : Group) (seq : Nat) (t : Tgt) (a n : Nat) : List (Option Byte) :=
  (List.range n).map fun i => (fwdByte g seq t (a + i)).getD none

/-- The bytes of an answer with forwarded bytes over them. -/
def underFwd (fwd : List (Option Byte)) (data : List Byte) : List Byte :=
  data.zipIdx.map fun x => (fwd.getD x.2 none).getD x.1

/-- A granule installed as a copy, unless the core owns it or holds a newer version (R263). -/
def l1Copy (s : State) (core : Nat) (t : Tgt) (gran ver : Nat) (v : List Byte) : State :=
  let k := getCore s core
  let put : State := setCore s core { k with l1 := mset k.l1 gran { owned := false, ver := ver, data := v } }
  match t with
  | .dev | .dec _ =>
    match mfind k.l1 gran with
    | some o => if o.owned || ver < o.ver then s else put
    | none => put
  | _ => s

/-! ### Counters of a context -/

def modCtx (s : State) (c : Nat) (f : Ctx → Ctx) : State := { s with ctxs := mmod s.ctxs c f }

/-- The context is being killed (R332). -/
def ctxKilled (s : State) (c : Nat) : Bool := ((mfind s.ctxs c).map (·.killing)).getD false
def addUecnt (s : State) (c : Nat) : State := modCtx s c fun x => { x with uecnt := x.uecnt + 1 }
def addPfdrop (s : State) (c : Nat) : State := modCtx s c fun x => { x with pfdrop := x.pfdrop + 1 }

/-! ### Demotion of a path (R36) -/

/-- The path of these lanes is demoted: it is to be exchanged with the most recently parked path that does not wait, or is marked
alone. -/
def demotePath (s : State) (core gslot : Nat) (m : Mask) : State :=
  modGroup s core gslot fun g =>
    let mark (sl : Slot) (g : Group) : Group :=
      match g.path sl with
      | some p =>
        if p.mask = m then
          g.setPath sl (some { p with dem := true, exch := !p.wait && (topReady g.stack).isSome })
        else g
      | none => g
    { mark .b (mark .a g) with stack := g.stack.map fun e => match e with
        | .path p => if p.mask = m then .path { p with dem := true } else e
        | e => e }

/-! ### A bound load -/

/-- The bytes of a lane's load, its pieces in order. -/
def laneBytes (e : LEntry) (l : Nat) : List Byte :=
  ((e.pieces.filter fun p => p.lane == l).map fun p => p.val.getD []).flatten

/-- Lanes that name one cell in one LDLO bind the same 16 bytes: those of the first (R398). -/
def loadBytes (e : LEntry) (l : Nat) : List Byte :=
  if e.kind = .lo then
    match e.lanes.find? (fun x => x.1 == l) with
    | some x => match e.lanes.find? (fun y => y.2 == x.2) with
      | some y => laneBytes e y.1
      | none => laneBytes e l
    | none => laneBytes e l
  else laneBytes e l

/-- Word `j` of a lane's value: sizes below 4 bytes are extended to 32 bits (R395). -/
def loadWord (e : LEntry) (l j : Nat) : Word :=
  let bs := loadBytes e l
  match e.kind with
  | .ld true => w32 (wrapNat 32 (sInt (8 * bs.length) (natOf bs)))
  | _ => w32 (natOf ((bs.drop (4 * j)).take 4))

/-- The 64 bits that a uniform destination receives. -/
def loadDWord (e : LEntry) (l : Nat) : DWord :=
  let bs := loadBytes e l
  match e.kind with
  | .ld true => dw (wrapNat 64 (sInt (8 * bs.length) (natOf bs)))
  | _ => dw (natOf bs)

/-- The destination receives the bound values (R395). A queue destination's place was made at issue. -/
def writeLoad (e : LEntry) (d : Dst) (g : Group) : Group :=
  let m := maskOf fun l => e.pieces.any fun p => p.lane == l
  match d with
  | .push =>
    (lanes m).foldl (fun g l =>
      if e.size ≤ 2 then g.setQ 1 l (loadWord e l 0)
      else (g.setQ 2 l (loadWord e l 0)).setQ 1 l (loadWord e l 1)) g
  | .recd i | .dead i =>
    (List.range (loadRegs e.size)).foldl (fun g j => g.setNs (i.toNat + j) m fun l => loadWord e l j) g
  | .uni i => g.setK i.toNat (loadDWord e (lowLane m))
  | _ => g

/-- The poll record of a group after an LDPOLL, and whether every lane found what it found before (R396). -/
def pollOf (e : LEntry) : List (Nat × Nat × List Byte) := e.lanes.map fun x => (x.1, x.2, laneBytes e x.1)

def pollSame (old new : List (Nat × Nat × List Byte)) : Bool := !new.isEmpty && new.all fun x => old.contains x

/-- A compare-and-swap that failed in every active lane (R357). -/
def casFailed (e : LEntry) (sq : List SEntry) : Bool :=
  match e.kind with
  | .atom .cas =>
    match sq.find? (fun x => x.seq == e.seq) with
    | some x => x.pieces.all fun p => laneBytes e p.lane != p.data.take (2 ^ e.size)
    | none => false
  | _ => false

/-- Bytes of a core's scratchpad. -/
def scrReads (s : State) (core a n : Nat) : List Byte := mgets 0 (getCore s core).scr a n
def scrWrites (s : State) (core a : Nat) (bs : List Byte) : State :=
  let k := getCore s core
  setCore s core { k with scr := mputs 0 k.scr a bs }

/-- Lanes whose load found uncorrectable data on a page that is not tolerant (R309). -/
def badLanes (e : LEntry) : Mask := maskOf fun l => e.pieces.any fun p => p.lane == l && p.bad && !p.tol

/-- The slot of the path that a trap of a bound load runs on: the load's own slot while it holds a path. -/
def trapSlot (g : Group) (sl : Slot) : Slot := if (g.path sl).isSome then sl else otherSlot sl

/-- The UNCORR trap of a load (R309, R318). -/
def uncorrTrap (g : Group) (e : LEntry) (m : Mask) : TrapBlock :=
  let sl := trapSlot g e.slot
  let va := ((e.lanes.find? fun x => x.1 == lowLane m).map (·.2)).getD 0
  { code := tUNCORR, slot := sl, ret := .load, rii := ((g.path sl).map (·.ii)).getD e.ii,
    i0 := info0 e.ii tUNCORR, i1 := m, i2 := dw va, i3 := 0 }

/-- The elements of a tile that a TLD writes: those that the tile, which the group's own accesses wait for, still holds (R40,
R172). -/
def tileElems (s : State) (core unit th : Nat) (el : List (Nat × Nat)) : List (Nat × Nat) :=
  match (getCore s core).tiles.find? fun kv => kv.2.unit == unit && kv.2.th == th with
  | some (_, t) => el.filter fun x => decide (t.base ≤ x.2) && decide (x.2 < t.base + t.rows * t.rowBytes)
  | none => []

/-- The group is held for the driver with a trap that went there (R319). -/
def heldFor (g : Group) : Bool :=
  match g.held with
  | .driver _ t => t.isSome
  | .none => false

/-- The UNCORR trap of a load falls due, also while its group is held on a PAGE (R282); inside a context trap handler it goes to the
driver (R309, R318, R319). -/
def fallUncorr (g : Group) (e : LEntry) : Group :=
  if g.pend.isSome || heldFor g || (g.uncorr.isSome && !g.cth) then g
  else { g with pend := some (uncorrTrap g e (badLanes e)), uncorr := some (g.uncorr.getD (e.seq, badLanes e)) }

/-- A load whose pieces are all bound writes its destination and leaves LQ (R263, R266); with uncorrectable data the
UNCORR trap falls due instead and the load stays until UIRET (R310). -/
def finishLoad (s : State) (core gslot seq : Nat) : State :=
  match getGroup s core gslot with
  | none => s
  | some g =>
    match g.lq.find? (fun e => e.seq == seq) with
    | none => s
    | some e =>
      if e.pieces.any fun p => p.val.isNone then s
      else if badLanes e != 0 && !g.ended then setGroup s core gslot (fallUncorr g e)
      else
        let failed := casFailed e g.sq
        let new := pollOf e
        let same := e.kind == .poll && pollSame g.poll new
        let g := { g with lq := g.lq.filter fun x => x.seq != seq }
        let g := match e.dst with
          | .lanes d => writeLoad e d g
          | .tile .. => g
        let g := if e.kind = .poll then { g with poll := new } else g
        let s := setGroup s core gslot g
        let s := match e.dst with
          | .tile u th el => (tileElems s core u th el).foldl (fun s x => scrWrites s core x.2 (laneBytes e x.1)) s
          | _ => s
        let s := if e.pieces.any (fun p => p.bad && p.tol) then addUecnt s g.ctx else s
        let s := if e.acq then acquire s core else s
        if same || failed then settle (demotePath s core gslot e.mask) core gslot else s

/-- The bytes that a lane of an UNCORR load binds from REPLVAL (R310). -/
def replBytes (v : DWord) (n : Nat) : List Byte :=
  ((List.replicate (n / 8 + 1) (bytesOf 8 v.toNat)).flatten).take n

/-- The failing lanes of the UNCORR load bind REPLVAL; the load then completes as any other. -/
def replLoad (g : Group) (seq : Nat) (m : Mask) : Group :=
  { g with
    uncorr := none
    lq := g.lq.map fun e =>
      if e.seq = seq then
        { e with pieces := e.pieces.map fun p =>
            if m.getLsbD p.lane then
              { p with bad := false, val := some (((replBytes g.replval (p.off + p.len)).drop p.off).take p.len) }
            else p }
      else e }

end Sys2Proof.Machine
end

