-- ==== Sys2Proof/Machine/Transfer.lean ====
section
/-! DEFINITION. The transfers and the ends of a path: NOP, BRA, JMP, CALL, RET, LOOP, EXIT, BRK and TRAP (R33, R359
to R362, R390, R400, R409, R410, R442). -/

namespace Sys2Proof.Machine

/-- NOP (R409). -/
def execNop (g : Guard) (s : State) : Out := issue s g (fun _ => {}) fun c s => finish c .fall false s

/-- An II moved by a signed 32-bit offset. -/
def iiAdd (ii : II) (off : BitVec 32) : II := ii + off.signExtend 48

/-- The operands of a condition. -/
def condSrcs : BraCond → List Src
  | .al => []
  | .nz a | .z a => [a]
  | .lt a b | .ge a b | .ltu a b | .geu a b | .eq a b | .ne a b => [a, b]

/-- The condition of a BRA in a lane (R89). -/
def condHolds (cnd : BraCond) (x y : Word) : Bool :=
  match cnd with
  | .al => true
  | .nz _ => x != 0
  | .z _ => x == 0
  | .lt .. => x.slt y
  | .ge .. => !x.slt y
  | .ltu .. => x.ult y
  | .geu .. => !x.ult y
  | .eq .. => x == y
  | .ne .. => x != y

/-- A divergent transfer (R33): the other slot's path is parked, a frame is pushed, the fall-through lanes take slot A
and the taken lanes slot B. Each new path arrives at its first slot; CF records of A come before those of B (R123). -/
def divide (s : State) (c : Cx) (taken : Mask) (t : II) (j : Option II) : State :=
  match getGroup s c.core c.gslot with
  | none => s
  | some g =>
    let recd := c.g.recording
    let other := (g.path (otherSlot c.slot)).isSome
    let fpos := g.stack.length
    let g := if recd then
        histPush (histPush (flushTrace g) c.ic kSLOTS
          [placeWord 0 c.slot other (if other then fpos else 0) 0 0]) c.ic kSPLIT [taken]
      else g
    let (g, a, b) := dividePaths g c.slot c.p taken t j
    let (g, pa) := arriveCf s c.core g c.ic recd a fallthru
    let (g, pb) := arriveCf s c.core g c.ic recd b (dw c.p.ii.toNat)
    setGroup s c.core c.gslot { g with pathA := some pa, pathB := some pb }

/-- The stack entries that a division adds may have to go to memory: a fault there is taken before the effect (R35). -/
def divideFault (s : State) (c : Cx) : Option (BitVec 8 × DWord) :=
  let n := c.g.stack.length + (if (c.g.path (otherSlot c.slot)).isSome then 2 else 1)
  if n ≤ 4 then none
  else firstSome (fun e =>
    match rangeFault s c.g.ctx (stackAddr s c.g e) 32 .store false with
    | some (true, x) => some (tPAGE, dw x)
    | some (false, x) => some (tPROT, dw x)
    | none => none) ((List.range (n - 4)).filter fun e => decide (c.g.stack.length < e + 5))

/-- The end of a conditional transfer whose lanes in `taken` go to `t` (R359, R400). -/
def branchTo (c : Cx) (s : State) (taken : Mask) (t : II) (j : Option II) (hz : Bool) : Out :=
  if taken = c.p.mask then finish c (.jump t) hz s
  else if taken = 0 then finish c .fall hz s
  else finish c .placed hz (divide s c taken t j)

/-- The checks of a division: ILLEGAL inside a handler (R185, R323), and faults of the divergence stack. -/
def divideCheck (c : Cx) (s : State) (taken : Mask) : Option Out :=
  if taken = c.p.mask || taken = 0 then none
  else if !c.g.counting then some (trapAt c s tILLEGAL .reissue 0 0)
  else match divideFault s c with
    | some (code, x) => some (trapAt c s code .reissue x 1)
    | none => none

/-- The join of a BRA (R33). -/
def braJoin (c : Cx) (joff : BitVec 16) : Option II := if joff = 0 then none else some (c.p.ii + joff.signExtend 48)

/-- BRA (R359). -/
def execBra (g : Guard) (cnd : BraCond) (joff : BitVec 16) (off : BitVec 32) (s : State) : Out :=
  let us := u32 (condSrcs cnd)
  issue s g (fun c => { target := some (iiAdd c.p.ii off), srcs := us, join := braJoin c joff,
                        divides := (match cnd with | .al => false | _ => true) }) fun c s =>
    let taken := c.p.mask &&& maskOf fun l => condHolds cnd (opnd32 c us 0 l) (opnd32 c us 1 l)
    match divideCheck c s taken with
    | some o => o
    | none => branchTo c (consume c us s) taken (iiAdd c.p.ii off) (braJoin c joff) (isHorizon { srcs := us })

/-- The target of a JMP or CALL (R360, R390). -/
def targetOf (c : Cx) : Target → II
  | .rel off => iiAdd c.p.ii off
  | .abs k off => iiAdd ((c.g.kreg k.toNat).setWidth 48) off

def targetUses : Target → List Use
  | .rel _ => []
  | .abs k _ => [.k k.toNat]

/-- JMP (R390). -/
def execJmp (g : Guard) (t : Target) (s : State) : Out :=
  issue s g (fun c => { target := some (targetOf c t), early := targetUses t }) fun c s =>
    finish c (.jump (targetOf c t)) false s

/-- CALL: LINK receives II + 1 (R360). -/
def execCall (g : Guard) (link : Dst) (t : Target) (s : State) : Out :=
  issue s g (fun c => { target := some (targetOf c t), early := targetUses t, dst := some (link, false) }) fun c s =>
    finish c (.jump (targetOf c t)) false
      (modGroup s c.core c.gslot (writeDst c link false fun _ => dw (c.p.ii + 1).toNat))

/-- RET (R410). -/
def execRet (g : Guard) (k : BitVec 7) (s : State) : Out :=
  issue s g (fun c => { target := some ((c.g.kreg k.toNat).setWidth 48), early := [.k k.toNat] }) fun c s =>
    finish c (.jump ((c.g.kreg k.toNat).setWidth 48)) false s

/-- LOOP (R400). -/
def execLoop (g : Guard) (n : BitVec 6) (off : BitVec 32) (s : State) : Out :=
  issue s g (fun c => { target := some (iiAdd c.p.ii off), uses := [.n n.toNat 1], divides := true,
                        join := some (c.p.ii + 1) }) fun c s =>
    let left (l : Nat) : Word := c.g.nreg n.toNat l - 1
    let taken := c.p.mask &&& maskOf fun l => left l != 0
    match divideCheck c s taken with
    | some o => o
    | none =>
      branchTo c (modGroup s c.core c.gslot fun g => g.setNs n.toNat c.p.mask left) taken (iiAdd c.p.ii off)
        (some (c.p.ii + 1)) false

/-! ### Ends of paths and groups -/

/-- Lanes that have executed EXIT leave every frame (R33). -/
def leaveFrames (m : Mask) (st : List StackEntry) : List StackEntry :=
  st.map fun e => match e with
    | .frame j fm ser par => .frame j (fm &&& ~~~m) ser par
    | e => e

/-- The handler state ends with the path that ran it (R185, R323). -/
def endHandler (g : Group) : Group :=
  let g := if g.cth then { g with cth := false, recb := g.recCt, ctret := none } else g
  if g.uih then { g with uih := false, recb := g.recUi } else g

/-- The group has no path left: its pending causes are discarded (R182, R362). -/
def noPaths (g : Group) : Bool := g.pathA.isNone && g.pathB.isNone && parked g.stack == 0

/-- Drops frames that no lane is left in. -/
def dropFrames (st : List StackEntry) : List StackEntry :=
  st.filter fun e => match e with
    | .frame _ m _ _ => m != 0
    | _ => true

/-- Lanes of a slot's path end (R362). -/
def endLanes (sl : Slot) (m : Mask) (g : Group) : Group :=
  let g := match g.path sl with
    | some p => g.setPath sl (if p.mask &&& ~~~m = 0 then none else some { p with mask := p.mask &&& ~~~m })
    | none => g
  let g := { g with stack := dropFrames (leaveFrames m g.stack) }
  if noPaths g then { g with ended := true, causes := [], stack := [] } else g

/-- The load of an UNCORR handler that ends without UIRET binds as at UIRET: its failing lanes take REPLVAL and the other lanes their
data (R310, R323; DEDUCED, assumption 31). -/
def exitLoad (c : Cx) (s : State) : State :=
  match c.g.cth, c.g.uncorr with
  | true, some (seq, m) =>
    finishLoad (modGroup s c.core c.gslot fun g => replLoad g seq m) c.core c.gslot seq
  | _, _ => s

/-- EXIT: a horizon that ends the active lanes (R362). -/
def execExit (g : Guard) (s : State) : Out :=
  issue s g (fun c => { horizon := true, leaves := some [endLanes c.slot c.p.mask (endHandler c.g)] }) fun c s =>
    finish c .placed true (modGroup (exitLoad c s) c.core c.gslot fun g => endLanes c.slot c.p.mask (endHandler g))

/-- BRK: the group halts after the issue and reports KIND 9 (R361). -/
def execBrk (g : Guard) (imm : BitVec 32) (s : State) : Out :=
  issue s g (fun _ => {}) fun c s =>
    let counted : Group := if c.g.counting then { c.g with ic := c.ic + 1 } else c.g
    let s := stGroup s 9 c.core c.gslot 0 counted c.slot c.p.ii c.p.mask (zx imm) 0
    finish c .fall false (modGroup s c.core c.gslot fun g =>
      { g with halted := true, trapinfo0 := info0 c.p.ii tDEBUG, trapinfo1 := c.p.mask, trapinfo2 := zx imm,
               trapinfo3 := 0 })

/-- TRAP: SWTRAP follows the completed instruction (R318, R442). -/
def execTrap (g : Guard) (imm : BitVec 32) (s : State) : Out :=
  issue s g (fun _ => {}) fun c s =>
    finish c .fall false (modGroup s c.core c.gslot fun g =>
      { g with pend := some (mkTrap tSWTRAP c.slot c.p .next (imm.setWidth 64) 0) })

end Sys2Proof.Machine
end

