-- ==== Sys2Proof/Machine/UnitOps.lean ====
section
/-! DEFINITION. Operations over a unit's storage: tiles and their scratchpad bytes (R167 to R171, R245, R246), the
watchpoints on them (R337), what engine commands name (R447), and Arrive (R105, R179 to R182). -/

namespace Sys2Proof.Machine

/-! ### Tiles -/

/-- The tile that a unit's handle names: its index in the core's tile table and its entry (R64, R169). -/
def findTile (s : State) (core unit th : Nat) : Option (Nat × Tile) :=
  (getCore s core).tiles.find? fun kv => kv.2.unit == unit && kv.2.th == th

def setTile (s : State) (core i : Nat) (t : Tile) : State :=
  let k := getCore s core
  setCore s core { k with tiles := mset k.tiles i t }

/-- Bytes that a tile occupies (R168). -/
def tileSpan (rows rowBytes : Nat) : Nat := alignUp (rows * rowBytes) 128

/-- Columns of a tile (R171). -/
def Tile.cols (t : Tile) : Nat := t.rowBytes / fmtBytes t.fmt

/-- The scratchpad offset of a byte of a tile row. -/
def Tile.at_ (t : Tile) (row byte : Nat) : Nat := t.base + row * t.rowBytes + byte

/-- The raw bits of an element (R171). -/
def tileElem (s : State) (core : Nat) (t : Tile) (row col : Nat) : Nat :=
  natOf (scrReads s core (t.at_ row (col * fmtBytes t.fmt)) (fmtBytes t.fmt))

/-- A read extends by sign for .s8 and .s16, by zero for every other format (R171). -/
def elemExt (f : Fmt) (v : Nat) : Word :=
  match f with
  | .s8 => w32 (wrapNat 32 (sInt 8 v))
  | .s16 => w32 (wrapNat 32 (sInt 16 v))
  | _ => w32 v

/-- The header of a frame-tile row (R245). -/
def rowHdr (s : State) (core : Nat) (t : Tile) (r : Nat) : Nat := natOf (scrReads s core (t.at_ r 0) 4)

def hdrFilled (h : Nat) : Bool := bit h 0
def hdrAwake (h : Nat) : Bool := bit h 0 && bit h 1

def filledRows (s : State) (core : Nat) (t : Tile) : List Nat :=
  (List.range t.rows).filter fun r => hdrFilled (rowHdr s core t r)

def awakeRows (s : State) (core : Nat) (t : Tile) : List Nat :=
  (List.range t.rows).filter fun r => hdrAwake (rowHdr s core t r)

def freeRows (s : State) (core : Nat) (t : Tile) : List Nat :=
  (List.range t.rows).filter fun r => !hdrFilled (rowHdr s core t r)

/-- Frames held in the silo (R247). -/
def Bin.held (b : Bin) : Nat := (b.head + 2 ^ 32 - b.tail) % 2 ^ 32

/-! ### Watchpoints (R337) -/

/-- The first byte of an access that a watchpoint matches. -/
def watchByte (s : State) (core unit i : Nat) (ctx : Nat) (t : Tile) (write : Bool) (a n : Nat) : Option Nat :=
  let w0 := ctlR s (mbox + 0x80 + 32 * i)
  let w1 := ctlR s (mbox + 0x88 + 32 * i)
  let mode := wfld w0 61 2
  if w0.getLsbD 63 && (if write then mode ≥ 2 else mode % 2 == 1) && wfld w0 55 6 == ctx && wfld w0 47 8 == core
      && wfld w0 40 7 == unit && wfld w0 34 6 == t.th then
    (List.range n).findSome? fun j =>
      let o := a + j - t.base
      let row := o / t.rowBytes
      let col := o % t.rowBytes
      if decide (t.base ≤ a + j) && decide (wfld w0 24 10 ≤ row) && decide (row ≤ wfld w0 14 10)
          && decide (wfld w1 0 12 ≤ col) && decide (col ≤ wfld w1 12 12) then some (a + j) else none
  else none

/-- The first byte of an access of tile bytes that a watchpoint matches. -/
def watchHit (s : State) (core gslot unit : Nat) (t : Tile) (write : Bool) (l : List (Nat × Nat)) : Option Nat :=
  match getGroup s core gslot with
  | none => none
  | some g => firstSome (fun x => firstSome (fun i => watchByte s core unit i g.ctx t write x.1 x.2) (List.range 4)) l

/-- Matches that fall due for a group: it halts at its next boundary (R337). -/
def wpDue (s : State) (core gslot : Nat) (l : List (DWord × DWord)) : State :=
  modGroup s core gslot fun g => { g with wpPend := g.wpPend ++ l }

/-- An access of tile bytes: the group that made it, or whose command is complete with it, is to halt (R337). `eng` is the engine's
number. -/
def watch (s : State) (core gslot unit : Nat) (t : Tile) (write : Bool) (eng : Nat) (l : List (Nat × Nat)) : State :=
  match watchHit s core gslot unit t write l with
  | some a => wpDue s core gslot [(dw a, dw eng)]
  | none => s

/-! ### What engine commands name (R447) -/

def entOp (b : BitVec 128) : Nat := fld b.toNat 0 8
def entBe (b : BitVec 128) : Bool := b.getLsbD 24
def entBar (b : BitVec 128) : Nat := fld b.toNat 16 8
def entSrc (b : BitVec 128) : Nat := fld b.toNat 25 7
def entDsel (b : BitVec 128) : Nat := fld b.toNat 32 7

/-- A matrix entry names the handles in its SRC and DSEL; a field that its command does not use names a handle only where it is not
zero, as an ENQ may leave it (R191, R447; DESIGN CHOICE, assumption 73). -/
def mxNamesTile (b : BitVec 128) (th : Nat) : Bool :=
  let src := [0xB0, 0xB2, 0xB3].contains (entOp b)
  let dsel := [0xB2, 0xB3, 0xB4].contains (entOp b)
  ((src || th != 0) && entSrc b == th) || ((dsel || th != 0) && entDsel b == th)

def mxNamesBar (b : BitVec 128) (bar : Nat) : Bool := entBe b && entBar b == bar

/-- Word `i` of a record. -/
def recWord (bs : List Byte) (i : Nat) : DWord := dw (natOf ((bs.drop (8 * i)).take 8))

def cpNamesTile (bs : List Byte) (th : Nat) : Bool :=
  let w := recWord bs 0
  (wfld w 44 2 == 1 && wfld w 48 8 == th) || ((wfld w 20 4 == 1 || wfld w 20 4 == 4) && wfld w 24 8 == th)

def cpNamesBar (bs : List Byte) (bar : Nat) : Bool := wfld (recWord bs 0) 32 8 == bar

def vdNamesTile (bs : List Byte) (th : Nat) : Bool := (recWord bs 4).getLsbD 0 && wfld (recWord bs 4) 8 6 == th

def vdNamesBar (bs : List Byte) (bar : Nat) : Bool := (recWord bs 6).getLsbD 8 && wfld (recWord bs 6) 0 8 == bar

/-- A channel that a restore has brought back names what the record that it was writing names, before it has read it again (R226, R447);
one that cannot be read may name anything. -/
def backNames (s : State) (ctx : Nat) (c : Chan) (cp : List Byte → Bool) : Bool :=
  c.recs.isEmpty && c.tuple.isSome && match c.next with
    | some a => (rangeFault s ctx a 128 .load false).isSome || cp (ctxReads s ctx a 128)
    | none => false

/-- Whether a queued or executing engine command of a unit satisfies one of the tests on what it names (R447). -/
def engineNames (s : State) (core unit : Nat) (mx : BitVec 128 → Bool) (cp vd : List Byte → Bool) : Bool :=
  let k := getCore s core
  let ctx := ((getUnit s core unit).map (·.ctx)).getD 0
  (k.groups.any fun kv => kv.2.unit == unit && kv.2.e0.any fun e => mx e.bits)
    || (k.mx.run.any fun r => r.unit == unit && mx r.ent.bits)
    || (k.chans.any fun kv => kv.2.unit == unit &&
        ((kv.2.recs.any fun r => !r.bytes.isEmpty && cp r.bytes) || backNames s ctx kv.2 cp))
    || s.decs.any fun kv => kv.2.core == core && kv.2.unit == unit && vd kv.2.record

def tileNamed (s : State) (core unit th : Nat) : Bool :=
  engineNames s core unit (mxNamesTile · th) (cpNamesTile · th) (vdNamesTile · th)

def barNamed (s : State) (core unit bar : Nat) : Bool :=
  engineNames s core unit (mxNamesBar · bar) (cpNamesBar · bar) (vdNamesBar · bar)

/-! ### Barriers -/

def Unit.bar (u : Unit) (i : Nat) : Barrier := mget {} u.bars i
def Unit.setBar (u : Unit) (i : Nat) (b : Barrier) : Unit := { u with bars := mput {} u.bars i b }

/-- The group that a barrier interrupts, none when it has ended (R182): its group slot. -/
def armTarget (s : State) (core unit gidx : Nat) : Option (Nat × Group) :=
  (getCore s core).groups.find? fun kv => kv.2.unit == unit && kv.2.gidx == gidx && !kv.2.ended

/-- Appends a cause to the group that a barrier interrupts; none when its queue is full (R182). -/
def appendCause (s : State) (core unit bar kind : Nat) (b : Barrier) : Option State :=
  if !b.uie then some s
  else match armTarget s core unit b.armgrp with
    | none => some s
    | some (gs, g) =>
      if g.causes.length ≥ 16 then none
      else some (setGroup s core gs { g with causes := g.causes ++ [dw (kind + bar * 2 ^ 8 + b.phase * 2 ^ 16)] })

/-- The barrier after a phase has completed (R105). -/
def Barrier.next (b : Barrier) : Barrier := { b with phase := (b.phase + 1) % 16, pending := b.reload, poison := false }

/-- PHIST with the status of a phase (R177). -/
def phistSet (h : BitVec 16) (phase : Nat) (status : Bool) : BitVec 16 :=
  let m : BitVec 16 := (1 : BitVec 16) <<< phase
  if status then h ||| m else h &&& ~~~m

/-- Arrive(b, ds, n, p) at a barrier of a unit as one step; none when it waits (R105, R179, R182). -/
def arrive (s : State) (core unit bar : Nat) (ds : BitVec 32) (n : Nat) (p : Bool) : Option State :=
  match getUnit s core unit with
  | none => some s
  | some u =>
    let b := u.bar bar
    if b.reload = 0 then some (setUnit s core unit (u.setBar bar { b with sectors := b.sectors + ds }))
    else if n = 1 ∧ b.pending = 0 then none
    else
      let b := { b with sectors := b.sectors + ds, pending := b.pending - n, poison := b.poison || p }
      if b.pending = 0 ∧ b.sectors = 0 then
        let u := { u.setBar bar b.next with phist := mput 0 u.phist bar (phistSet (mget 0 u.phist bar) b.phase b.poison) }
        (appendCause s core unit bar (if b.poison then 2 else 1) b).map fun s => setUnit s core unit u
      else some (setUnit s core unit (u.setBar bar b))

/-- A cause of kind 3 or 4 through a barrier (R182, R225, R234); none when the queue is full. -/
def uiCause (s : State) (core unit bar kind : Nat) : Option State :=
  match getUnit s core unit with
  | none => some s
  | some u => appendCause s core unit bar kind (u.bar bar)

/-! ### A core's own loads -/

/-- Why a load that the core makes for a group gives no bytes: an earlier request of the core is on its way there, or a trap. -/
inductive CoreStop where
  | wait
  | trap (code : BitVec 8) (va : Nat)
deriving DecidableEq, Repr

/-- A load of a context's bytes, where `clear` tells that a home may be asked: an uncorrectable sector of a TOL page reads as zero, which
is told by `true`, and any other is UNCORR (R309). -/
def homeReads (s : State) (clear : State → Nat → Bool) (ctx va n : Nat) : Except CoreStop (State × List Byte × Bool) :=
  foldE (fun (acc : State × List Byte × Bool) p =>
    if walkHeld acc.1 ctx (va + p.1) then .error .wait
    else match xlate acc.1 ctx (va + p.1) .load false with
    | .page => .error (.trap tPAGE (va + p.1))
    | .prot => .error (.trap tPROT (va + p.1))
    | .ok t a tol =>
      if !clear acc.1 (homeOf acc.1 t a) then .error .wait
      else
        let s := domeHit (walkHit acc.1 ctx (va + p.1)) t a
        match t with
        | .dec c => let x := decodeRead s c a p.2; .ok (s, acc.2.1 ++ x.1, acc.2.2 || x.2)
        | t =>
          if homeBad s t a p.2 then
            if tol then .ok (s, acc.2.1 ++ List.replicate p.2 0, true) else .error (.trap tUNCORR (va + p.1))
          else .ok (s, acc.2.1 ++ homeRead s t a p.2, acc.2.2)) (s, [], false) (piecesOf 32 va n)

/-- An ordinary load by the core of a context's bytes: an uncorrectable sector of a TOL page reads as zero, which is told by `true`,
and any other is UNCORR (R309). -/
def coreRead (s : State) (core ctx va n : Nat) : Except CoreStop (State × List Byte × Bool) :=
  homeReads s (fun s h => pathClear s core h) ctx va n

/-- A value was substituted: UECNT counts once for the instruction (R309). -/
def countSub (s : State) (ctx : Nat) (sub : Bool) : State := if sub then addUecnt s ctx else s

/-! ### Releases -/

/-- Every access that the group made before is complete: what a release that acts at issue waits for (R178, R252,
R424). DEDUCED (assumption 28). -/
def released (g : Group) : Bool := (liveLq g).isEmpty && g.sq.isEmpty

end Sys2Proof.Machine
end

