-- ==== Sys2Proof/Machine/Boundary.lean ====
section
/-! DEFINITION. What happens at a path's instruction boundary before its next instruction runs: traps that have
fallen due (R155, R192, R318), user-level interrupts (R183, R184), breakpoints (R336), unmarked joins (R34), and the
fetch (R75 to R79). -/

namespace Sys2Proof.Machine

/-- The core has something to do for a group before any path of it issues: a trap that has fallen due, an arrival, a scheduler event,
or a write-back (R33, R119, R125, R318). -/
def groupDue (s : State) (core gslot : Nat) (g : Group) : Bool :=
  g.pend.isSome || (lateSlot g).isSome || (eventOnce s core g).isSome || match backOnce s core gslot g with
    | .none => false
    | _ => true

/-- Whether a path may issue: its group is free to, the path does not wait, and no handler of the other slot runs. A waiting path
still stands at its boundary while the core has something to do there. -/
def pathReady (s : State) (core gslot : Nat) (sl : Slot) : Option (Group × Path) :=
  let k := getCore s core
  match mfind k.groups gslot with
  | none => none
  | some g =>
    match g.path sl with
    | none => none
    | some p =>
      let killing := ctxKilled s g.ctx
      -- a TCOLOP that executes goes on row by row before its group does anything else (R440)
      match g.colop with
      | some r => if r.slot = sl && !killing && !k.gated then some (g, p) else none
      | none =>
      let argHeld := ((mfind k.units g.unit).map (·.argHeld)).getD false
      if argHeld || (g.halted && g.step.map (·.1) != some sl) || g.ended || g.argWait || g.held != .none || k.quiesced || k.gated
        || killing || s.thermalStop || ((g.cth || g.uih) && g.hSlot != sl) || g.rev.isSome then none
      else if p.wait && !groupDue s core gslot g then none
      else some (g, p)

/-- The trap that has fallen due for a group: one that stands at a path, else a matrix FIRSTNAN, else an ENGINE fault; the last two
name the path that would issue (R155, R192). A matrix event that falls due beside a vector event is lost (R155). -/
def dueTrap (g : Group) (sl : Slot) (p : Path) : Option (TrapBlock × Group) :=
  match g.pend with
  | some t => some (t, { g with pend := none, mxnan := if t.code == tFIRSTNAN then none else g.mxnan })
  | none =>
    match g.mxnan with
    | some (i2, i3) => some (lateTrap tFIRSTNAN sl p i2 i3, { g with mxnan := none })
    | none =>
      match g.engPend with
      | (i2, i3) :: es => some (lateTrap tENGINE sl p i2 i3, { g with engPend := es })
      | [] => none

/-- The group stands at an instruction boundary (R440), and no watchpoint's halt comes first. -/
def atBoundary (g : Group) : Bool := g.colop.isNone && g.wpPend.isEmpty

/-- A boundary has nothing to do before the traps that name the path that would issue, the interrupts and the breakpoints. -/
def tidied (s : State) (core gslot : Nat) (g : Group) : Bool := atBoundary g && !groupDue s core gslot g

/-- The instruction that a path waits to issue is to take GUARD (R386). -/
def guardCleared (p : Path) : Bool :=
  match p.gwait with
  | some (ii, _, some .free) => ii == p.ii
  | _ => false

/-- CONTEXT_TRAP_DELIVERY: the due trap is taken at a boundary (R318, R322). -/
def execContextTrapDelivery (core gslot : Nat) (sl : Slot) (s : State) : Out :=
  match pathReady s core gslot sl with
  | none => .next s
  | some (g, p) =>
    if !atBoundary g || (g.pend.isNone && groupDue s core gslot g) then .next s
    else match dueTrap g sl p with
    | none => .next s
    | some (t, g) => .next (takeTrap (setGroup s core gslot g) core gslot t)

/-- Whether the oldest pending cause may be delivered (R183). -/
def uiDue (g : Group) : Bool :=
  !g.causes.isEmpty && !g.dir && g.spec.isNone && !g.uih && !g.cth && !g.halted && g.uvec != 0

/-- The group with a cause delivered on a path, whose handler begins at `ent` (R184). -/
def uiEnter (s : State) (core : Nat) (sl : Slot) (p : Path) (cause : DWord) (rest : List DWord) (ent : II) (g : Group) : Group :=
  let g := if g.recording then histPush (flushTrace g) g.lastIc kHORIZON [] else g
  let g := { g with causes := rest, uiretpc := dw (p.ii.toNat + slotBit sl * 2 ^ 48), uicause := cause,
                    recUi := g.recb, recb := false, uih := true, hSlot := sl, uiSlot := sl, uirw := false }
  let (g, p') := arriveCf s core g g.lastIc false
    { p with ii := ent, fresh := true, half := none, gwait := none } (dw p.ii.toNat)
  g.setPath sl (some p')

/-- UI_DELIVERY: the oldest cause is delivered on the slot that would issue (R184). The vector read is a load of the context: it waits
until the group's own stores are complete, and a fault on it is a trap of the path, after which the delivery is tried again. Its
HORIZON must fit below HLIM (R101). -/
def execUiDelivery (core gslot : Nat) (sl : Slot) (s : State) : Out :=
  match pathReady s core gslot sl with
  | none => .next s
  | some (g, p) =>
    match g.causes with
    | [] => .next s
    | cause :: rest =>
      if !uiDue g || !tidied s core gslot g || (dueTrap g sl p).isSome || guardCleared p then .next s
      else if !g.sq.isEmpty then .next s
      else
        let uiv := match getUnit s core g.unit with
          | some u => (mget {} u.bars (wfld cause 8 8)).uiv
          | none => 0
        match coreRead s core g.ctx (g.uvec.toNat + 8 * uiv) 8 with
        | .error .wait => .next s
        | .error (.trap code va) => .next (takeTrap s core gslot (mkTrap code sl p .reissue (dw va) 0))
        | .ok (s', bs, sub) =>
          let g' := uiEnter s core sl p cause rest (iiOf (natOf bs % 2 ^ 48)) g
          if !eventFits g g' then .next (takeTrap s core gslot (mkTrap tHISTFULL sl p .reissue (g'.hsp - g.hsp) g.hsp))
          else .next (backAux 130 (setGroup (countSub s' g.ctx sub) core gslot g') core gslot)

/-- The breakpoint that a path stands at (R336). -/
def atBreakpoint (s : State) (g : Group) (p : Path) : Bool :=
  (List.range 8).any fun i =>
    let b := ctlR s (mbox + 0x40 + 8 * i)
    b.getLsbD 63 && wfld b 48 6 == g.ctx && b.setWidth 48 == p.ii

/-- BREAKPOINT_HALT: the group halts before the issue and reports KIND 3; a trap that is due comes first (R336, R338, R344). -/
def execBreakpointHalt (core gslot : Nat) (sl : Slot) (s : State) : Out :=
  match pathReady s core gslot sl with
  | none => .next s
  | some (g, p) =>
    if p.bp.contains p.ii || g.step.isSome || !atBreakpoint s g p || !tidied s core gslot g || (dueTrap g sl p).isSome || uiDue g then
      .next s
    else
      let s := stGroup s 3 core gslot 0 g sl p.ii p.mask 0 0
      .next (modGroup s core gslot fun g =>
        { g.setPath sl (some { p with bp := p.ii :: p.bp }) with
          halted := true, trapinfo0 := info0 p.ii tDEBUG, trapinfo1 := p.mask, trapinfo2 := 0, trapinfo3 := 0 })

/-- The line that a path needs comes into the instruction cache, or the path takes the trap of the fetch (R75, R77). -/
def lineFetch (s : State) (core gslot : Nat) (sl : Slot) (g : Group) (p : Path) : State :=
  match readLine s core g.ctx g.launch (iiLine p.ii) with
  | .ok b => cacheLine s core g.ctx g.launch (iiLine p.ii) b
  | .page => takeTrap s core gslot (mkTrap tPAGE sl p .reissue (dw (iiLine p.ii * 64)) 2)
  | .prot => takeTrap s core gslot (mkTrap tPROT sl p .reissue (dw (iiLine p.ii * 64)) 2)
  | .par => takeTrap s core gslot (mkTrap tFETCHPAR sl p .reissue 0 0)

/-- A line can be read. -/
def lineOk (s : State) (core : Nat) (g : Group) (p : Path) : Bool :=
  match readLine s core g.ctx g.launch (iiLine p.ii) with
  | .ok _ => true
  | _ => false

/-- INSTRUCTION_LINE_FETCH: brings the line that a path needs into the instruction cache; where it cannot be read, the path takes the
trap of the fetch once nothing else of its boundary comes first (R75, R77). -/
def execInstructionLineFetch (core gslot : Nat) (sl : Slot) (s : State) : Out :=
  match pathReady s core gslot sl with
  | none => .next s
  | some (g, p) =>
    if lineHeld s core g.ctx g.launch (iiLine p.ii) then .next s
    else if !lineOk s core g p && (!tidied s core gslot g || (dueTrap g sl p).isSome || uiDue g) then .next s
    else .next (lineFetch s core gslot sl g p)

/-- What a boundary gives: an outcome that ends the step, something that the core did for the group, or an instruction to run. -/
inductive BRes where
  | stop (o : Out)
  | tidy (s : State)
  | run (s : State) (i : Instr)

/-- The watchpoint halts that have fallen due, each reported (R337). -/
def watchHalt (s : State) (core gslot : Nat) (g : Group) (sl : Slot) (p : Path) : Option State :=
  if g.wpPend.isEmpty then none
  else
    let s := g.wpPend.foldl (fun s x => stGroup s 4 core gslot 0 g sl p.ii p.mask x.1 x.2) s
    some (modGroup s core gslot fun g => { g with halted := true, wpPend := [] })

/-- The fetch and decoding of a path's instruction (R34, R75 to R79). -/
def fetchInstr (s : State) (core gslot : Nat) (sl : Slot) (g : Group) (p : Path) : BRes :=
  if lineHeld s core g.ctx g.launch (iiLine p.ii) then .stop (.next s)
  else match readLine s core g.ctx g.launch (iiLine p.ii) with
  | .ok b =>
    let s := cacheLine s core g.ctx g.launch (iiLine p.ii) b
    let ill : BRes := .stop (.next (takeTrap s core gslot (mkTrap tILLEGAL sl p .reissue 0 0)))
    if !lineRsvdOk b then ill
    else if (p.fresh || joinOf g.stack p == some p.ii) && !lineMark b (iiSlot p.ii) then ill
    else match decode (lineSlot b (iiSlot p.ii)) with
      | .ok i => .run s i
      | .error _ => ill
  | _ => .stop (.next (lineFetch s core gslot sl g p))

/-- The group once the path of a slot has made its arrival: at a marked slot a CF record, with the pending trace over it, and cf (R125,
R127). -/
def lateArrival (g : Group) (sl : Slot) (p : Path) (mark : Bool) (src : DWord) (recd : Bool) (ic : BitVec 48) : Group :=
  let g' := if mark && recd then histPush g ic kCF [p.cf] else g
  let g' := if mark && recd && !g.ptrace.isEmpty then flushTrace g' else g'
  g'.setPath sl (some { p with arr := none, cf := if mark then src else p.cf })

/-- A path arrives at the line where it stands, which could not be read before; a line that cannot be read still is the path's trap
(R75, R77, R125). -/
def tidyLate (s : State) (core gslot : Nat) (sl : Slot) (g : Group) (p : Path) (x : DWord × Bool × BitVec 48) : BRes :=
  if lineHeld s core g.ctx g.launch (iiLine p.ii) then .stop (.next s)
  else match readLine s core g.ctx g.launch (iiLine p.ii) with
  | .ok b =>
    let g' := lateArrival g sl p (lineMark b (iiSlot p.ii)) x.1 x.2.1 x.2.2
    if eventFits g g' then .tidy (backAux 130 (setGroup (cacheLine s core g.ctx g.launch (iiLine p.ii) b) core gslot g') core gslot)
    else .stop (.next (takeTrap s core gslot (mkTrap tHISTFULL sl p .reissue (g'.hsp - g.hsp) g.hsp)))
  | _ => .stop (.next (lineFetch s core gslot sl g p))

/-- What the core does for a group at a boundary before anything issues: arrivals at lines that could not be read, the scheduler events,
then the write-backs; records that do not fit below HLIM are HISTFULL, and a page that fails is the trap of the path (R33, R35, R101,
R119). -/
def groupTidy (s : State) (core gslot : Nat) (sl : Slot) (g : Group) (p : Path) : Option BRes :=
  match (lateSlot g).bind fun sl => (g.path sl).bind fun q => q.late.map fun x => (sl, q, x) with
  | some (sl, q, x) => some (tidyLate s core gslot sl g q x)
  | none =>
  match eventOnce s core g with
  | some g' =>
    if eventFits g g' then some (.tidy (settle s core gslot))
    else some (.stop (.next (takeTrap s core gslot (mkTrap tHISTFULL sl p .reissue (g'.hsp - g.hsp) g.hsp))))
  | none =>
    match backOnce s core gslot g with
    | .none => none
    | .wait => some (.tidy s)
    | .fault page va =>
      some (.stop (.next (takeTrap s core gslot (mkTrap (if page then tPAGE else tPROT) sl p .reissue (dw va) 1))))
    | .done _ => some (.tidy (settle s core gslot))

/-- The boundary of a path that would issue, and the fetch and decoding of its instruction. -/
def boundary (s : State) (core gslot : Nat) (sl : Slot) : BRes :=
  match pathReady s core gslot sl with
  | none => .stop (.next s)
  | some (g, p) =>
    if g.colop.isSome then fetchInstr s core gslot sl g p
    else match watchHalt s core gslot g sl p with
    | some s => .stop (.next s)
    | none =>
      if g.pend.isSome then .stop (execContextTrapDelivery core gslot sl s)
      else match groupTidy s core gslot sl g p with
      | some r => r
      | none =>
        if (dueTrap g sl p).isSome then .stop (execContextTrapDelivery core gslot sl s)
        else if guardCleared p then fetchInstr s core gslot sl g p
        else if uiDue g then .stop (execUiDelivery core gslot sl s)
        else if !p.bp.contains p.ii && g.step.isNone && atBreakpoint s g p then .stop (execBreakpointHalt core gslot sl s)
        else fetchInstr s core gslot sl g p

/-! ### A step of the debug mailbox (R335) -/

/-- The oldest command of the mailbox's ring is done. -/
def cmdDone (s : State) : State :=
  ctlW s (mbox + 0x08) (dw (((ctlR s (mbox + 0x08)).toNat + 1) % 64))

/-- A group without what a wait leaves in it: what its paths have noted, and the watchpoints that are due. -/
def Group.settled (g : Group) : Group :=
  let clear (p : Path) : Path := { p with bwait := none, half := none, gwait := none }
  { g with pathA := g.pathA.map clear, pathB := g.pathB.map clear, wpPend := [] }

/-- A path of a group has done more than wait. -/
def groupActs (core gslot : Nat) (s s' : State) : Bool :=
  (getGroup s core gslot).map (·.settled) != (getGroup s' core gslot).map (·.settled)

/-- What follows an issue from `s` to `s'`: a group under a mailbox step that has issued, or taken a trap, halts again and
reports KIND 5 with the lanes that issued; a watchpoint that the issue hit is reported too (R335, R337). -/
def noteStep (core gslot : Nat) (sl : Slot) (s s' : State) : State :=
  match getGroup s core gslot, getGroup s' core gslot with
  | some g, some g' =>
    match g.step, g.path sl with
    | some (sl', tok), some p =>
      if sl' = sl ∧ g'.colop.isNone ∧ groupActs core gslot s s' then
        let s' := cmdDone (modGroup s' core gslot fun g => { g with step := none, halted := true })
        let s' := stGroup s' 5 core gslot tok g' sl p.ii p.mask 0 0
        (watchHalt s' core gslot g' sl p).getD s'
      else s'
    | _, _ => s'
  | _, _ => s'

/-! ### Merges and reloads as events of their own -/

/-- A scheduler event of one kind, when it is due and its records fit. -/
def eventStep (s : State) (core gslot : Nat) (f : Group → Option Group) : State :=
  match getGroup s core gslot with
  | none => s
  | some g =>
    match (if g.moves then f g else none) with
    | some g' => if eventFits g g' then backAux 130 (setGroup s core gslot g') core gslot else s
    | none => s

/-- JOIN_MERGE (R33). -/
def execJoinMerge (core gslot : Nat) (s : State) : Out := .next (eventStep s core gslot mergeOnce)

/-- PATH_RELOAD (R33). -/
def execPathReload (core gslot : Nat) (s : State) : Out := .next (eventStep s core gslot reloadOnce)

/-! ### The host's named instruction -/

/-- The line that holds a word in slot 0, marked, with its parity (R76). -/
def lineFor (w : IWord) : BitVec 512 :=
  let payload : BitVec 512 := w.setWidth 512 <<< 32
  let par := (List.range 8).foldl (fun acc p =>
    if popc 60 (payload.extractLsb' (32 + 60 * p) 60).toNat % 2 = 1 then acc ||| (1 : BitVec 512) <<< (16 + p) else acc) 0
  payload ||| par ||| 1

/-- The state with a word placed as the next instruction that step runs: context 0, launch 0, a unit of one group on
core 0 with one path at II 5, whose line stands in the instruction cache, every feature accepted, and the move that
issues it at the head of the agenda (assumption 1). -/
def placeWord1 (s : State) (w : IWord) : State :=
  let g : Group := { ctx := 0, launch := 0, unit := 0, gidx := 0, wcode := 0, priv := 0,
                     pathA := some { ii := 5, mask := 0xFF }, pathB := none, hlim := 4096 }
  let u : Unit := { ctx := 0, launch := 0, x := 0, y := 0, z := 0, ngrp := 1, nbar := 256, mxuse := true, pair := false,
                    resOff := 0, resBytes := 524288, tileBytes := 520192, started := 1 }
  let l : Launch := { ctx := 0, packet := [], addr := 0, serial := 1, stamp := 0, nextUnit := 1 }
  let k := getCore s 0
  let k := { k with groups := mset k.groups 0 g, units := mset k.units 0 u,
                    icache := [{ launch := 0, line := 1, bits := lineFor w }], quiesced := false, gated := false }
  let s := setCore s 0 k
  { s with
    ctxs := mset s.ctxs 0 { root := 0, cthii := 0, jobtab := 0 }
    launches := mset s.launches 0 l
    facc := [(0, 0x1FF)]
    faccDone := true
    thermalStop := false
    agenda := [.issue 0 0 .a] }

end Sys2Proof.Machine
end

