-- ==== Sys2Proof/Machine/Barrier.lean ====
section
/-! DEFINITION. The barrier instructions: BINIT, BARV, BWAIT, BTEST and BARM (R177 to R180, R363 to R366). -/

namespace Sys2Proof.Machine

/-- A BOUNDS trap of a barrier instruction: [25:16] the barrier index, [5:0] 0 (R177, R179). -/
def barTrap (c : Cx) (s : State) (bar : BitVec 8) : Out := trapAt c s tBOUNDS .next (dw (bar.toNat * 2 ^ 16)) 0

/-- The barrier of the issuing group's unit, none at or above NBAR (R177). -/
def findBar (s : State) (c : Cx) (bar : BitVec 8) : Option (Unit × Barrier) :=
  match getUnit s c.core c.g.unit with
  | none => none
  | some u => if bar.toNat ≥ u.nbar then none else some (u, u.bar bar.toNat)

/-- NGRP of the unit's launch bounds ARMGRP (R177, R178). -/
def armBad (u : Unit) (v : DWord) : Bool := decide (wfld v 24 8 ≥ u.ngrp)

/-- A BWAIT of the unit waits on the barrier: one that stands in a slot, at the BWAIT. A path that was parked or interrupted while it
waited does not hold back BINIT. DESIGN CHOICE (R178; assumption 73). -/
def barWaited (s : State) (core unit bar : Nat) : Bool :=
  let on (p : Option Path) : Bool := match p with
    | some p => p.bwait == some (bar, p.ii)
    | none => false
  (getCore s core).groups.any fun kv => kv.2.unit == unit && !kv.2.ended && (on kv.2.pathA || on kv.2.pathB)

/-- The barrier that BINIT writes (R178, R364). -/
def initBar (v : DWord) : Barrier :=
  { armgrp := wfld v 24 8, reload := wfld v 0 24, pending := wfld v 0 24, uiv := wfld v 32 8, uie := v.getLsbD 40 }

/-- BINIT (R178, R364). -/
def execBinit (g : Guard) (bar : BitVec 8) (ka : BitVec 7) (s : State) : Out :=
  issue s g (fun _ => { horizon := true, uses := [.k ka.toNat] }) fun c s =>
    let v := c.g.kreg ka.toNat
    match findBar s c bar with
    | none => barTrap c s bar
    | some (u, _) =>
      if wfld v 0 24 = 0 ∨ armBad u v then barTrap c s bar
      else if barNamed s c.core c.g.unit bar.toNat || barWaited s c.core c.g.unit bar.toNat then .next s
      else
        finish c .fall true (setUnit s c.core c.g.unit
          { u.setBar bar.toNat (initBar v) with phist := mdel u.phist bar.toNat })

/-- BARV: Arrive(b, ds, 1, 0), a release (R178, R364). An arrival that waits has not issued. -/
def execBarv (g : Guard) (bar : BitVec 8) (ka : BitVec 7) (s : State) : Out :=
  issue s g (fun _ => { horizon := true, uses := [.k ka.toNat] }) fun c s =>
    match findBar s c bar with
    | none => barTrap c s bar
    | some (_, b) =>
      if b.reload = 0 then barTrap c s bar
      else if !released c.g then .next s
      else match arrive s c.core c.g.unit bar.toNat ((c.g.kreg ka.toNat).setWidth 32) 1 false with
        | none => .next s
        | some s => finish c .fall true s

/-- BWAIT (R178, R364). While it waits, its path stands on record as a waiter of the barrier. -/
def execBwait (g : Guard) (d : Dst) (bar : BitVec 8) (ka : BitVec 7) (s : State) : Out :=
  issue s g (fun _ => { dst := some (d, false), uses := [.k ka.toNat] }) fun c s =>
    let p := wfld (c.g.kreg ka.toNat) 0 4
    match findBar s c bar with
    | none => barTrap c s bar
    | some (u, b) =>
      if b.reload = 0 then barTrap c s bar
      else if b.phase = p then
        .next (modGroup s c.core c.gslot fun g =>
          g.setPath c.slot ((g.path c.slot).map fun q => { q with bwait := some (bar.toNat, q.ii) }))
      else
        let v := b2n ((mget 0 u.phist bar.toNat).getLsbD p)
        finish c .fall d.isEng (modGroup (acquire s c.core) c.core c.gslot (writeDst c d false fun _ => dw v))

/-- The value that BTEST returns (R365). -/
def barValue (b : Barrier) : DWord :=
  dw (b.phase + b2n b.poison * 2 ^ 4 + b.pending * 2 ^ 8 + b.sectors.toNat * 2 ^ 32)

/-- BTEST (R364, R365). -/
def execBtest (g : Guard) (d : Dst) (bar : BitVec 8) (s : State) : Out :=
  issue s g (fun _ => { dst := some (d, false) }) fun c s =>
    match findBar s c bar with
    | none => barTrap c s bar
    | some (_, b) => finish c .fall d.isEng (modGroup s c.core c.gslot (writeDst c d false fun _ => barValue b))

/-- BARM (R178, R364). -/
def execBarm (g : Guard) (bar : BitVec 8) (ka : BitVec 7) (s : State) : Out :=
  issue s g (fun _ => { horizon := true, uses := [.k ka.toNat] }) fun c s =>
    let v := c.g.kreg ka.toNat
    match findBar s c bar with
    | none => barTrap c s bar
    | some (u, b) =>
      if b.reload = 0 ∨ armBad u v then barTrap c s bar
      else
        finish c .fall true (setUnit s c.core c.g.unit
          (u.setBar bar.toNat { b with armgrp := wfld v 24 8, uiv := wfld v 32 8, uie := v.getLsbD 40 }))

end Sys2Proof.Machine
end

