-- ==== Sys2Proof/Machine/Bit.lean ====
section
/-! DEFINITION. The bit operations (R351, R352, R405, R426). -/

namespace Sys2Proof.Machine

/-- A bit operation of two operands: a 32-bit result, zero-extended for a uniform destination. -/
def bitOp2 (s : State) (g : Guard) (d : Dst) (a b : Src) (f : Word → Word → Word) : Out :=
  laneOp0 s g (u32 [a, b]) d fun c l => zx (f (opnd32 c (u32 [a, b]) 0 l) (opnd32 c (u32 [a, b]) 1 l))

def bitOp1 (s : State) (g : Guard) (d : Dst) (a : Src) (f : Word → Word) : Out :=
  laneOp0 s g (u32 [a]) d fun c l => zx (f (opnd32 c (u32 [a]) 0 l))

/-- AND (R351). -/
def execAnd (g : Guard) (d : Dst) (a b : Src) (s : State) : Out := bitOp2 s g d a b fun x y => x &&& y

/-- OR (R405). -/
def execOr (g : Guard) (d : Dst) (a b : Src) (s : State) : Out := bitOp2 s g d a b fun x y => x ||| y

/-- XOR (R426). -/
def execXor (g : Guard) (d : Dst) (a b : Src) (s : State) : Out := bitOp2 s g d a b fun x y => x ^^^ y

/-- ANDN (R351). -/
def execAndn (g : Guard) (d : Dst) (a b : Src) (s : State) : Out := bitOp2 s g d a b fun x y => x &&& ~~~y

/-- SHL: an amount of 32 or more gives 0 (R426). -/
def execShl (g : Guard) (d : Dst) (a b : Src) (s : State) : Out :=
  bitOp2 s g d a b fun x y => if y.toNat ≥ 32 then 0 else x <<< y.toNat

/-- SHR (R426). -/
def execShr (g : Guard) (d : Dst) (a b : Src) (s : State) : Out :=
  bitOp2 s g d a b fun x y => if y.toNat ≥ 32 then 0 else x >>> y.toNat

/-- The arithmetic shift of SAR (R426). -/
def sarWord (x y : Word) : Word := x.sshiftRight (min y.toNat 31)

/-- SAR: a uniform destination receives it sign-extended (R426). -/
def execSar (g : Guard) (d : Dst) (a b : Src) (s : State) : Out :=
  laneOp0 s g (u32 [a, b]) d fun c l =>
    (sarWord (opnd32 c (u32 [a, b]) 0 l) (opnd32 c (u32 [a, b]) 1 l)).signExtend 64

/-- A rotation left by the low five bits of an amount (R405). -/
def rolWord (x y : Word) : Word := x.rotateLeft (y.toNat % 32)

/-- ROL (R405). -/
def execRol (g : Guard) (d : Dst) (a b : Src) (s : State) : Out := bitOp2 s g d a b rolWord

/-- Leading zero bits of a word (R351). -/
def clzWord (x : Word) : Word := if x = 0 then 32 else w32 (31 - log2 x.toNat)

/-- CLZ (R351). -/
def execClz (g : Guard) (d : Dst) (a : Src) (s : State) : Out := bitOp1 s g d a clzWord

/-- POPC (R405). -/
def execPopc (g : Guard) (d : Dst) (a : Src) (s : State) : Out := bitOp1 s g d a fun x => w32 (popc 32 x.toNat)

/-- BREV (R351). -/
def execBrev (g : Guard) (d : Dst) (a : Src) (s : State) : Out := bitOp1 s g d a fun x => x.reverse

/-- The position and length of a field specifier (R352). -/
def fieldPos (s : Word) : Nat := fld s.toNat 0 5
def fieldLen (s : Word) : Nat := min (fld s.toNat 8 6) (32 - fieldPos s)

/-- The field of BFE, sign-extended under .s (R352). -/
def bfeWord (sx : Bool) (a s : Word) : Word :=
  let len := fieldLen s
  let f := fld a.toNat (fieldPos s) len
  if sx && len != 0 && bit f (len - 1) then w32 (2 ^ 32 + f - 2 ^ len) else w32 f

/-- BFE (R351, R352). -/
def execBfe (g : Guard) (sx : Bool) (d : Dst) (a b : Src) (s : State) : Out :=
  laneOp0 s g (u32 [a, b]) d fun c l =>
    let v := bfeWord sx (opnd32 c (u32 [a, b]) 0 l) (opnd32 c (u32 [a, b]) 1 l)
    if sx then v.signExtend 64 else zx v

/-- The insertion of BFI (R352). -/
def bfiWord (a b s : Word) : Word :=
  let m := w32 ((2 ^ fieldLen s - 1) * 2 ^ fieldPos s)
  (a &&& ~~~m) ||| ((b <<< fieldPos s) &&& m)

/-- BFI (R351, R352). -/
def execBfi (g : Guard) (d : Dst) (a b e : Src) (s : State) : Out :=
  laneOp0 s g (u32 [a, b, e]) d fun c l =>
    zx (bfiWord (opnd32 c (u32 [a, b, e]) 0 l) (opnd32 c (u32 [a, b, e]) 1 l) (opnd32 c (u32 [a, b, e]) 2 l))

end Sys2Proof.Machine
end

