-- ==== Sys2Proof/Machine/Memory.lean ====
section
/-! DEFINITION. The memory instructions: LD, ST, XST, LDPOLL, PREF, FENCE, ATOM, LDLO, STLO, PUB, PIN, UNPIN and DISCARD
(R394 to R398, R433 to R435, R304 to R306, R384, R356 to R358, R413, R301 to R303, R307, R375, R412, R444). -/

namespace Sys2Proof.Machine

/-! ### Addresses (R88, R72, R260) -/

def SpaceIsHost : Space → Bool
  | .host => true
  | _ => false

/-- The address of a lane (R88): `us` are the instruction's sources and the offset operand is the first. -/
def memAddr (c : Cx) (us : List SrcUse) (m : MemOp) (l : Nat) : Nat :=
  let o : DWord := (opnd32 c us 0 l).signExtend 64
  (c.g.kreg m.kb.toNat + o <<< m.scale.toNat + m.off.signExtend 64).toNat

/-- Where byte `p` of a lane's private memory lies (R72). -/
def privAddr (g : Group) (l p : Nat) : Nat := g.privbase.toNat + (p / 4 * g.w + l) * 4 + p % 4

/-- Private bytes below the reserved end (R31). -/
def privLimit (s : State) (g : Group) : Nat := privSz s g * 64 - 512

/-- The words of a private access: offset in the access, address and length (R72). -/
def privWords (g : Group) (l p size : Nat) : List (Nat × Nat × Nat) :=
  if size < 4 then [(0, privAddr g l p, size)]
  else (List.range (size / 4)).map fun i => (4 * i, privAddr g l (p + 4 * i), 4)

/-- A failed check of an address: the trap's code and the address. -/
abbrev AddrFault := BitVec 8 × Nat

/-- The pieces of a span that lies in one page (R260). -/
def xlPieces (s : State) (ctx lane off va len : Nat) (nd : Need) (host : Bool) : Except AddrFault (List LPiece) :=
  match xlate s ctx va nd host with
  | .page => .error (tPAGE, va)
  | .prot => .error (tPROT, va)
  | .ok t a tol => .ok ((piecesOf (granSize t) a len).map fun p =>
      { lane := lane, off := off + p.1, tgt := t, addr := a + p.1, len := p.2, va := va + p.1, tol := tol })

/-- The bytes that an access of a size must be aligned to (R72, R260). -/
def accAlign (sp : Space) (size : Nat) : Nat := if sp = .priv then min size 4 else size

/-- The check of an address that waits: its walk reads a stack that retrains (R341). -/
def tWAIT : BitVec 8 := 0

/-- The first failure with a code. -/
def firstFail (code : BitVec 8) (ws : List (Except AddrFault (List LPiece))) : Option AddrFault :=
  firstSome (fun w => match w with
    | .error f => if f.1 = code then some f else none
    | .ok _ => none) ws

/-- The accesses of one lane (R88, R72, R294); PROT goes before PAGE (R98). An LDLO or STLO outside SPACE 0 is PROT (R272). -/
def laneAccess (s : State) (g : Group) (sp : Space) (size align : Nat) (nd : Need) (l a : Nat) :
    Except AddrFault (List LPiece) :=
  if a % align ≠ 0 then .error (tALIGN, a)
  else if a ≥ 2 ^ 52 then .error (tPROT, a)
  else if (nd = .loLoad ∨ nd = .loStore) ∧ sp ≠ .dev then .error (tPROT, a)
  else if (if sp = .priv then (privWords g l a size).map (·.2.1) else [a]).any (walkHeld s g.ctx) then .error (tWAIT, a)
  else
    match sp with
    | .dev => xlPieces s g.ctx l 0 a size nd false
    | .host => xlPieces s g.ctx l 0 a size nd true
    | .priv =>
      if a + size > privLimit s g then .error (tPROT, a)
      else
        let ws := (privWords g l a size).map fun w => xlPieces s g.ctx l w.1 w.2.1 w.2.2 nd false
        match firstFail tPROT ws, firstFail tPAGE ws with
        | some f, _ | none, some f => .error f
        | none, none => .ok (ws.map fun w => match w with | .ok ps => ps | .error _ => []).flatten

/-- The first trap among ALIGN, PROT and PAGE, or the wait for a walk behind ALIGN, for every lane that has it, with the lowest such lane's address (R98). -/
def firstFault (rs : List (Nat × Except AddrFault (List LPiece))) : Option (BitVec 8 × Mask × Nat) :=
  firstSome (fun code =>
    let bad := rs.filterMap fun r => match r.2 with
      | .error (k, a) => if k = code then some (r.1, a) else none
      | .ok _ => none
    match bad with
    | [] => none
    | (_, a) :: _ => some (code, maskOf fun l => bad.any fun b => b.1 == l, a)) [tALIGN, tWAIT, tPROT, tPAGE]

/-- The accesses of the lanes of a mask. -/
def accesses (s : State) (g : Group) (sp : Space) (size align : Nat) (nd : Need) (m : Mask) (addr : Nat → Nat) :
    Except (BitVec 8 × Mask × Nat) (List LPiece) :=
  let rs := (lanes m).map fun l => (l, laneAccess s g sp size align nd l (addr l))
  match firstFault rs with
  | some f => .error f
  | none => .ok (rs.map fun r => match r.2 with | .ok ps => ps | .error _ => []).flatten

/-- An address trap of an issue, or its wait: `w` tells a write (R318). -/
def addrTrap (c : Cx) (s : State) (f : BitVec 8 × Mask × Nat) (w : Bool) : Out :=
  if f.1 = tWAIT then .next s
  else trapMask c s f.1 .reissue f.2.1 (dw f.2.2) (if f.1 = tALIGN then 0 else dw (b2n w))

/-! ### Loads -/

/-- The destination of a load as the issue checks see it. -/
def loadPre (c : Cx) (us : List SrcUse) (kb : BitVec 7) (d : Dst) (size : Nat) : Pre :=
  match d with
  | .recd i => { srcs := us, uses := [.k kb.toNat, .n i.toNat (loadRegs size)],
                 words := if c.g.recording then recWords (c.w / 2 * loadRegs size) else 0 }
  | .dead i => { srcs := us, uses := [.k kb.toNat, .n i.toNat (loadRegs size)] }
  | d => { srcs := us, uses := [.k kb.toNat], dst := some (d, size == 3) }

/-- What a load does to its destination at issue: the record of the old value, and a place in the result queue that the
bound value fills (R395, R54). -/
def loadDst (c : Cx) (d : Dst) (size : Nat) (g : Group) : Group :=
  let recd := c.g.recording
  match d with
  | .recd i => if recd then histPush g c.ic kNREG (nregWords g i.toNat (loadRegs size)) else g
  | .push =>
    let g := pushQ c.ic recd c.p.mask (fun _ => 0) g
    if size = 3 then pushQ c.ic recd c.p.mask (fun _ => 0) g else g
  | .uni i => if recd then histPush g c.ic kKREG [g.kreg i.toNat] else g
  | _ => g

/-- An LQ entry of the issuing path. -/
def lqEntry (c : Cx) (seq : Nat) (kind : LKind) (dst : LDst) (size : Nat) (acq : Bool) (vas : List (Nat × Nat))
    (ps : List LPiece) : LEntry :=
  { seq := seq, kind := kind, dst := dst, size := size, mask := c.p.mask, slot := c.slot, ii := c.p.ii, acq := acq,
    lanes := vas, pieces := ps }

/-- A load enters LQ unbound (R262). -/
def issueLoad (c : Cx) (us : List SrcUse) (kind : LKind) (d : Dst) (size : Nat) (acq : Bool) (vas : List (Nat × Nat))
    (ps : List LPiece) (s : State) : Out :=
  let s := consume c us s
  let s := modGroup s c.core c.gslot fun g =>
    let g := loadDst c d size g
    { g with seq := g.seq + 1, lq := g.lq ++ [lqEntry c (g.seq + 1) kind (.lanes d) size acq vas ps] }
  finish c .fall (isHorizon { srcs := us }) s

/-- The shape of LD, LDPOLL and LDLO: a uniform destination is loaded once, by the lowest active lane (R394). -/
def loadOp (s : State) (g : Guard) (m : MemOp) (d : Dst) (kind : LKind) (nd : Need) (align : Nat) (acq : Bool) : Out :=
  let us : List SrcUse := [(m.sa, false)]
  issue s g (fun c => loadPre c us m.kb d m.size.toNat) fun c s =>
    let lm : Mask := if d.isUni then 1 <<< lowLane c.p.mask else c.p.mask
    match accesses s c.g m.space (2 ^ m.size.toNat) align nd lm (memAddr c us m) with
    | .error f => addrTrap c s f false
    | .ok ps => issueLoad c us kind d m.size.toNat acq ((lanes lm).map fun l => (l, memAddr c us m l)) ps s

/-- LD (R394, R395). -/
def execLd (g : Guard) (sx : Bool) (m : MemOp) (d : Dst) (s : State) : Out :=
  loadOp s g m d (.ld sx) .load (accAlign m.space (2 ^ m.size.toNat)) m.ord

/-- LDPOLL (R396). -/
def execLdpoll (g : Guard) (m : MemOp) (d : Dst) (s : State) : Out :=
  loadOp s g m d .poll .load (accAlign m.space (2 ^ m.size.toNat)) false

/-- A latest-only instruction of a part whose feature 2 is not accepted is ILLEGAL (R22). -/
def loOff (s : State) : Bool := !feature s 2

/-- LDLO (R398). -/
def execLdlo (g : Guard) (m : MemOp) (d : Dst) (s : State) : Out :=
  let us : List SrcUse := [(m.sa, false)]
  issue s g (fun c => { loadPre c us m.kb d 4 with illegal := loOff s }) fun c s =>
    match accesses s c.g m.space 16 16 .loLoad c.p.mask (memAddr c us m) with
    | .error f => addrTrap c s f false
    | .ok ps => issueLoad c us .lo d 4 false ((lanes c.p.mask).map fun l => (l, memAddr c us m l)) ps s

/-! ### Stores -/

/-- The registers that a store's data takes beyond the operand itself (R88). -/
def storeUses (b : Src) (size : Nat) : List Use :=
  match b with
  | .n i => [.n i.toNat (loadRegs size)]
  | _ => []

/-- A lane's data: the operand, as 64 bits at 8 bytes, or a run of registers (R88, R433). -/
def storeBytes (c : Cx) (us : List SrcUse) (b : Src) (size l : Nat) : List Byte :=
  match b with
  | .n i =>
    if size > 3 then
      ((List.range (2 ^ (size - 2))).map fun j => bytesOf 4 (c.g.nreg (i.toNat + j) l).toNat).flatten
    else bytesOf (2 ^ size) (opnd c us 1 l).toNat
  | _ => bytesOf (2 ^ size) (opnd c us 1 l).toNat

/-- The pieces of a store with their data. -/
def storePieces (ps : List LPiece) (data : Nat → List Byte) : List SPiece :=
  ps.map fun p => { lane := p.lane, off := p.off, tgt := p.tgt, addr := p.addr,
                    data := ((data p.lane).drop p.off).take p.len, va := p.va, tol := p.tol }

def sqEntry (c : Cx) (seq : Nat) (kind : SKind) (rel : Bool) (size : Nat) (ps : List SPiece) : SEntry :=
  { seq := seq, kind := kind, rel := rel, size := size, mask := c.p.mask, pieces := ps, wait := 0 }

/-- A store enters SQ, or the hold queue under an open speculation (R137, R262). -/
def pushStore (c : Cx) (kind : SKind) (rel : Bool) (size : Nat) (ps : List SPiece) (held : Bool) (g : Group) : Group :=
  let e := sqEntry c (g.seq + 1) kind rel size ps
  let g := { g with seq := g.seq + 1 }
  if held then { g with hold := g.hold ++ [e] } else enterSq c.gslot g e

/-- The hold queue is full: a 33rd store waits (R137). -/
def holdFull (g : Group) : Bool := g.spec.isSome && g.hold.length ≥ 32

/-- Bytes as 8-byte words, the last padded with zeros. -/
def packWords : Nat → List Byte → List DWord
  | 0, _ => []
  | n + 1, bs => dw (natOf (bs.take 8)) :: packWords n (bs.drop 8)

/-- Words of a MEMOLD record (R122). -/
def memoldLen (w size : Nat) : Nat := (w * size + 7) / 8

/-- The old bytes of a piece, read at issue: none when an ATOM must complete or a request of the core is still on its way
to the home (R73, R263). -/
def peek (s : State) (c : Cx) (p : LPiece) : Option (List Byte × Bool) :=
  match localBytes s c.core c.g (c.g.seq + 1) p.tgt p.addr p.len false with
  | .ok bs => some (bs, false)
  | .error true => none
  | .error false =>
    if !pathClear s c.core (homeOf s p.tgt p.addr) then none
    else
      let bad := homeBad s p.tgt p.addr p.len
      some (underFwd (fwdOf c.g (c.g.seq + 1) p.tgt p.addr p.len)
        (if bad then List.replicate p.len 0 else homeRead s p.tgt p.addr p.len), bad)

/-- The old bytes of every piece. -/
def peekAll (s : State) (c : Cx) : List LPiece → Option (List LPiece)
  | [] => some []
  | p :: ps =>
    match peek s c p, peekAll s c ps with
    | some (bs, bad), some r => some ({ p with val := some bs, bad := bad } :: r)
    | _, _ => none

/-- The domes that serve such reads (R303). -/
def peekHits (s : State) (c : Cx) (ps : List LPiece) : State :=
  ps.foldl (fun u p => match localBytes s c.core c.g (c.g.seq + 1) p.tgt p.addr p.len false with
    | .error false => domeHit u p.tgt p.addr
    | _ => u) s

/-- A MEMOLD payload: every lane's old bytes, an inactive lane's zero (R122). -/
def memoldWords (w size : Nat) (ps : List LPiece) : List DWord :=
  packWords (memoldLen w size) ((List.range w).map fun l =>
    let bs := ((ps.filter fun p => p.lane == l).map fun p => p.val.getD []).flatten
    if bs.isEmpty then List.replicate size 0 else bs).flatten

/-- ST (R433). -/
def execSt (g : Guard) (m : MemOp) (b : Src) (s : State) : Out :=
  let size := m.size.toNat
  let us : List SrcUse := [(m.sa, false), (b, size == 3)]
  let priv := m.space == .priv
  issue s g (fun c => { srcs := us, uses := .k m.kb.toNat :: storeUses b size, horizon := !priv,
                        specPass := !priv && c.g.spec.isSome && (usePops us).isEmpty,
                        words := if priv && c.g.recording then recWords (memoldLen c.w (2 ^ size)) else 0 }) fun c s =>
    match accesses s c.g m.space (2 ^ size) (accAlign m.space (2 ^ size)) .store c.p.mask (memAddr c us m) with
    | .error f => addrTrap c s f true
    | .ok ps =>
      let sp := storePieces ps (storeBytes c us b size)
      if priv then
        if c.g.recording then
          match peekAll s c ps with
          | none => .next s
          | some old =>
            let s := consume c us (peekHits s c ps)
            let s := modGroup s c.core c.gslot fun g =>
              pushStore c .st m.ord size sp false (histPush g c.ic kMEMOLD (memoldWords c.w (2 ^ size) old))
            finish c .fall (isHorizon { srcs := us }) s
        else
          finish c .fall (isHorizon { srcs := us })
            (modGroup (consume c us s) c.core c.gslot (pushStore c .st m.ord size sp false))
      else if holdFull c.g then .next s
      else
        finish c .fall c.g.spec.isNone
          (modGroup (consume c us s) c.core c.gslot (pushStore c .st m.ord size sp c.g.spec.isSome))

/-- STLO (R435). -/
def execStlo (g : Guard) (md : Bool) (m : MemOp) (b : Src) (s : State) : Out :=
  let us : List SrcUse := [(m.sa, false), (b, false)]
  issue s g (fun c => { srcs := us, uses := .k m.kb.toNat :: storeUses b 4, horizon := true, illegal := loOff s,
                        specPass := c.g.spec.isSome && (usePops us).isEmpty }) fun c s =>
    match accesses s c.g m.space 16 16 .loStore c.p.mask (memAddr c us m) with
    | .error f => addrTrap c s f true
    | .ok ps =>
      if holdFull c.g then .next s
      else
        finish c .fall c.g.spec.isNone
          (modGroup (consume c us s) c.core c.gslot
            (pushStore c (.stlo md) m.ord 4 (storePieces ps (storeBytes c us b 4)) c.g.spec.isSome))

/-- A destination that pushes no record of its own: MEMOLD stands in its place for a private XST (R73). -/
def xstMemold (d : Dst) : Bool :=
  match d with
  | .dead _ | .discard => true
  | _ => false

/-- XST (R434). -/
def execXst (g : Guard) (m : MemOp) (d : Dst) (b : Src) (s : State) : Out :=
  let size := m.size.toNat
  let us : List SrcUse := [(m.sa, false), (b, size == 3)]
  let priv := m.space == .priv
  issue s g (fun c =>
    let f := loadPre c us m.kb d size
    { f with uses := f.uses ++ storeUses b size, horizon := !priv,
             words := f.words + (if priv && xstMemold d && c.g.recording then recWords (memoldLen c.w (2 ^ size)) else 0) })
    fun c s =>
    match accesses s c.g m.space (2 ^ size) (accAlign m.space (2 ^ size)) .rmw c.p.mask (memAddr c us m) with
    | .error f => addrTrap c s f true
    | .ok ps =>
      let sp := storePieces ps (storeBytes c us b size)
      let vas := (lanes c.p.mask).map fun l => (l, memAddr c us m l)
      if priv then
        match peekAll s c ps with
        | none => .next s
        | some old =>
          let s := consume c us (peekHits s c ps)
          let s := modGroup s c.core c.gslot fun g =>
            let g := if xstMemold d && c.g.recording then histPush g c.ic kMEMOLD (memoldWords c.w (2 ^ size) old) else g
            let g := pushStore c .st m.ord size sp false (loadDst c d size g)
            { g with lq := g.lq ++ [lqEntry c g.seq .xst (.lanes d) size false vas old] }
          match finish c .fall (isHorizon { srcs := us }) s with
          | .next s => .next (finishLoad s c.core c.gslot (c.g.seq + 1))
          | o => o
      else
        let s := consume c us s
        let s := modGroup s c.core c.gslot fun g =>
          let g := pushStore c .xst m.ord size sp false (loadDst c d size g)
          { g with lq := g.lq ++ [lqEntry c g.seq .xst (.lanes d) size false vas ps] }
        finish c .fall true s

/-! ### ATOM -/

/-- A lane's operand: for .cas the compare value and then the new value (R356). -/
def atomBytes (c : Cx) (us : List SrcUse) (op : AtomOp) (b : Src) (size l : Nat) : List Byte :=
  match op, b with
  | .cas, .n i =>
    ((List.range (2 * 2 ^ (size - 2))).map fun j => bytesOf 4 (c.g.nreg (i.toNat + j) l).toNat).flatten
  | _, _ => bytesOf (2 ^ size) (opnd c us 1 l).toNat

/-- ATOM (R356 to R358). -/
def execAtom (g : Guard) (op : AtomOp) (m : MemOp) (d : Dst) (b : Src) (s : State) : Out :=
  let size := m.size.toNat
  let us : List SrcUse := [(m.sa, false), (b, size == 3 && op != .cas)]
  issue s g (fun c =>
    let f := loadPre c us m.kb d size
    { f with uses := f.uses ++ (match op, b with | .cas, .n i => [.n i.toNat (2 * 2 ^ (size - 2))] | _, _ => []),
             horizon := true }) fun c s =>
    match accesses s c.g m.space (2 ^ size) (2 ^ size) .rmw c.p.mask (memAddr c us m) with
    | .error f => addrTrap c s f true
    | .ok ps =>
      let sp := ps.map fun p => ({ lane := p.lane, off := p.off, tgt := p.tgt, addr := p.addr,
                                   data := atomBytes c us op b size p.lane, va := p.va, tol := p.tol } : SPiece)
      let vas := (lanes c.p.mask).map fun l => (l, memAddr c us m l)
      let s := consume c us s
      let s := modGroup s c.core c.gslot fun g =>
        let g := pushStore c (.atom op) m.ord size sp false (loadDst c d size g)
        { g with lq := g.lq ++ [lqEntry c g.seq (.atom op) (.lanes d) size m.ord vas ps] }
      finish c .fall true s

/-! ### FENCE and PUB -/

/-- FENCE (R268, R384). FENCE.acq waits at issue until every older load is bound, and then acquires; the others enter
SQ, or the hold queue, as a marker. -/
def execFence (g : Guard) (k : FenceKind) (s : State) : Out :=
  issue s g (fun _ => {}) fun c s =>
    match k with
    | .acq => if (liveLq c.g).isEmpty then finish c .fall false (acquire s c.core) else .next s
    | .rel =>
      if holdFull c.g then .next s
      else finish c .fall false (modGroup s c.core c.gslot (pushStore c .fenceRel false 0 [] c.g.spec.isSome))
    | .ar =>
      if holdFull c.g then .next s
      else finish c .fall false (modGroup s c.core c.gslot (pushStore c .fenceAr false 0 [] c.g.spec.isSome))

/-- A host window's first configuration word (R315). -/
def winWord (s : State) (w : Nat) : DWord := ctlR s (0x0400 + 0x20 * w)

/-- PUB (R413). -/
def execPub (g : Guard) (w : BitVec 4) (s : State) : Out :=
  issue s g (fun _ => { horizon := true }) fun c s =>
    if !(winWord s w.toNat).getLsbD 0 then trapAt c s tPROT .reissue (dw w.toNat) 0
    else finish c .fall true (modGroup s c.core c.gslot (pushStore c (.pub w.toNat) true 0 [] false))

/-! ### PREF -/

/-- The page of an address is a latest-only page (R272). -/
def pageIsLo (s : State) (ctx va : Nat) : Bool :=
  match leafOf s ctx va with
  | .ok (e, _, _) => e.getLsbD 6
  | .error _ => false

/-- The spans that a lane's hint names: none when it is dropped (R304, R306, R411). -/
def prefSpans (s : State) (g : Group) (sp : Space) (size l a : Nat) : Option (List (Nat × Nat)) :=
  match sp with
  | .host => some []
  | .dev => if a ≥ 2 ^ 52 then none else some ((piecesOf 4096 a size).map fun p => (a + p.1, p.2))
  | .priv =>
    if a + size > privLimit s g then none
    else some ((List.range ((a + size - 1) / 4 - a / 4 + 1)).map fun i => (privAddr g l (4 * (a / 4 + i)), 4))

/-- The entry and the sector that a read asks for (R297). -/
def Req.sector (r : Req) : Nat × Nat × Nat × Nat := (r.gslot, r.seq, tgtSpace r.tgt, r.addr / 32)

def Req.isRead (r : Req) : Bool := r.kind == .read true || r.kind == .read false

/-- Sector reads that a core has outstanding: on their way to a home or answered and not applied (R297). -/
def outstanding (s : State) (core : Nat) : Nat :=
  let sent := ((s.paths.filter fun kv => kv.1 / 128 == core).map fun kv => (kv.2.filter Req.isRead).map Req.sector).flatten
  let back := (getCore s core).resp.filterMap fun r => match r with
    | .answer gs q t a .. => some (gs, q, tgtSpace t, a / 32)
    | _ => none
  (sent ++ back).eraseDups.length

/-- A read request of a hint: its answer installs a copy and binds nothing (R304). -/
def prefRead (s : State) (core gslot : Nat) (t : Tgt) (a va : Nat) : State :=
  match l1Find s core t a with
  | some _ => s
  | none =>
    pathPush s core (homeOf s t a)
      { gslot := gslot, seq := 0, tgt := t, addr := alignDown a 32, va := alignDown va 32, tol := true,
        kind := .read false, parts := [] }

/-- The spans that the lanes of a hint name, each with its translation; a lane whose hint is dropped has none (R304, R411). -/
def prefTargets (s : State) (c : Cx) (m : MemOp) (addr : Nat → Nat) : List ((Nat × Nat) × Option Xl) :=
  ((lanes c.p.mask).map fun l =>
    match prefSpans s c.g m.space (2 ^ m.size.toNat) l (addr l) with
    | some vs => vs.map fun v => (v, some (xlate s c.g.ctx v.1 .hint false))
    | none => [((0, 0), none)]).flatten

/-- The sectors of a hint that L1 does not hold: each takes a request (R297). -/
def prefMiss (s : State) (core : Nat) (xs : List ((Nat × Nat) × Option Xl)) : Nat :=
  (xs.map fun x => match x.2 with
    | some (.ok t a _) =>
      ((piecesOf 32 a x.1.2).filter fun p => (l1Find s core t (a + p.1)).isNone).map fun p => (a + p.1) / 32
    | _ => []).flatten.eraseDups.length

/-- The lanes of a hint that name a latest-only page, each with the address (R272). -/
def prefLo (s : State) (c : Cx) (m : MemOp) (addr : Nat → Nat) : List (Nat × Nat) :=
  (lanes c.p.mask).filterMap fun l =>
    match prefSpans s c.g m.space (2 ^ m.size.toNat) l (addr l) with
    | some vs => (vs.find? fun v => pageIsLo s c.g.ctx v.1 && xlate s c.g.ctx v.1 .hint false == .prot).map fun v => (l, v.1)
    | none => none

/-- What the spans of a hint do: the domes that it names are hit, or the sectors that L1 lacks are read (R303 to R305). -/
def prefGo (core gslot ctx : Nat) (dome : Bool) (xs : List ((Nat × Nat) × Option Xl)) (s : State) : State :=
  xs.foldl (fun s x => match x.2 with
    | some (.ok t a _) =>
      (piecesOf 32 a x.1.2).foldl (fun s p =>
        if dome then domeHit s t (a + p.1) else prefRead s core gslot t (a + p.1) (x.1.1 + p.1)) (walkHit s ctx x.1.1)
    | _ => s) s

/-- The walk of a hint reads a stack that retrains (R341). -/
def prefHeld (s : State) (c : Cx) (xs : List ((Nat × Nat) × Option Xl)) : Bool :=
  xs.any fun x => x.2.isSome && walkHeld s c.g.ctx x.1.1

/-- PREF: a hint to an LO page is PROT, and one that fails its checks is dropped and counted (R304 to R306). -/
def execPref (g : Guard) (dome : Bool) (m : MemOp) (s : State) : Out :=
  let us : List SrcUse := [(m.sa, false)]
  issue s g (fun _ => { srcs := us, uses := [.k m.kb.toNat] }) fun c s =>
    let xs := prefTargets s c m (memAddr c us m)
    if prefHeld s c xs then .next s
    else match prefLo s c m (memAddr c us m) with
    | (l, a) :: lo => addrTrap c s (tPROT, maskOf fun i => i == l || lo.any fun b => b.1 == i, a) false
    | [] =>
      let miss := prefMiss s c.core xs
      if !dome && miss > 0 && outstanding s c.core + miss > 256 then .next s
      else
        let s := consume c us s
        let s := if xs.any fun x => match x.2 with | some (.ok ..) => false | _ => true then addPfdrop s c.g.ctx else s
        finish c .fall (isHorizon { srcs := us }) (prefGo c.core c.gslot c.g.ctx dome xs s)

/-! ### Pinned windows and dead regions (R301 to R303, R307, R375, R412) -/

/-- A status value (R301). -/
def pinStatus (code win : Nat) : DWord := dw (code * 2 ^ 28 + win)

/-- Device pages of a range, each with its virtual address, none when a page fails its check (R306, R307). -/
def devPages (s : State) (ctx base len : Nat) (nd : Need) : Option (List (Nat × Nat)) :=
  let rs := (piecesOf 4096 base len).map fun p => match xlate s ctx (base + p.1) nd false with
    | .ok .dev a _ => some (a, base + p.1)
    | _ => none
  if rs.all (·.isSome) then some (rs.filterMap id) else none

/-- A dome's share of a list of pages, in bytes. -/
def domeShare (s : State) (pages : List Nat) (d : Nat) : Nat :=
  4096 * (pages.filter fun a => domeOf s a == d).length

/-- Bytes pinned over all windows. -/
def pinnedTotal (s : State) : Nat := (s.pins.map fun p => p.2.units * 65536).foldl (· + ·) 0

/-- The status of a PIN, its pages, and whether its pages failed (R412). -/
def pinCode (s : State) (ctx : Nat) (v : DWord) (len : Nat) : Nat × List Nat × Nat :=
  let base := wfld v 16 36 * 65536
  if wfld v 52 12 ≠ 0 ∨ wfld v 0 16 = 0 ∨ len = 0 ∨ base + len * 65536 > 2 ^ 52 then (5, [], 0)
  else match devPages s ctx base (len * 65536) .pin with
    | none => (1, [], 0)
    | some ps =>
      let pages := ps.map (·.1)
      if s.pins.any fun p => p.2.ctx == ctx && decide (base < p.2.base + p.2.units * 65536)
          && decide (p.2.base < base + len * 65536) then (4, [], 0)
      else
        match (List.range 32).find? (fun w => (mfind s.pins w).isNone) with
        | none => (2, [], 0)
        | some w =>
          if pinnedTotal s + len * 65536 > 160 * 2 ^ 20
            ∨ (List.range Config.domes).any (fun d => decide (domeShare s pages d > 2 * 2 ^ 20)) then (3, [], 0)
          else (0, pages, w)

/-- PIN (R412). -/
def execPin (g : Guard) (d : Dst) (k : BitVec 7) (imm : BitVec 32) (s : State) : Out :=
  issue s g (fun _ => { horizon := true, dst := some (d, false), uses := [.k k.toNat] }) fun c s =>
    let v := c.g.kreg k.toNat
    let base := wfld v 16 36 * 65536
    let (code, pages, w) := pinCode s c.g.ctx v imm.toNat
    if code ≠ 5 && rangeHeld s c.g.ctx base (imm.toNat * 65536) .pin then .next s else
    let s := if code = 5 then s else (piecesOf 4096 base (imm.toNat * 65536)).foldl (fun s p => walkHit s c.g.ctx (base + p.1)) s
    let s := if code = 1 then addPfdrop s c.g.ctx else s
    let s := if code = 0 then
        { s with pins := mset s.pins w { ctx := c.g.ctx, base := wfld v 16 36 * 65536, units := imm.toNat,
                                         fade := wfld v 0 16, count := wfld v 0 16,
                                         pages := pages.map fun a => (a, 4096) } }
      else s
    finish c .fall true (modGroup s c.core c.gslot (writeDst c d false fun _ => pinStatus code w))

/-- UNPIN (R444). -/
def execUnpin (g : Guard) (d : Dst) (imm : BitVec 32) (s : State) : Out :=
  issue s g (fun _ => { horizon := true, dst := some (d, false) }) fun c s =>
    let w := imm.toNat % 32
    let mine := match mfind s.pins w with
      | some p => p.ctx == c.g.ctx
      | none => false
    let code := if imm.toNat ≥ 32 then 5 else if mine then 0 else 1
    let s := if code = 0 then { s with pins := mdel s.pins w } else s
    finish c .fall true (modGroup s c.core c.gslot (writeDst c d false fun _ => pinStatus code 0))

/-- DISCARD: a marker that every dome of the range applies (R307, R375). -/
def execDiscard (g : Guard) (d : Dst) (k : BitVec 7) (imm : BitVec 32) (s : State) : Out :=
  issue s g (fun _ => { horizon := true, dst := some (d, false), uses := [.k k.toNat] }) fun c s =>
    let v := c.g.kreg k.toNat
    let base := wfld v 16 36 * 65536
    let len := imm.toNat * 65536
    if wfld v 52 12 ≠ 0 ∨ wfld v 0 16 ≠ 0 ∨ len = 0 ∨ base + len > 2 ^ 52 then
      finish c .fall true (modGroup s c.core c.gslot (writeDst c d false fun _ => pinStatus 5 0))
    else if rangeHeld s c.g.ctx base len .disc then .next s
    else match rangeTrap s c.g.ctx base len .disc false with
      | some (true, a) => trapAt c s tPAGE .reissue (dw a) 1
      | some (false, a) => trapAt c s tPROT .reissue (dw a) 1
      | none =>
        let ps := ((devPages s c.g.ctx base len .disc).getD []).map fun a =>
          ({ lane := 0, off := 0, tgt := .dev, addr := a.1, data := [], va := a.2 } : SPiece)
        finish c .fall true (modGroup s c.core c.gslot fun g =>
          pushStore c .disc true 0 ps false (writeDst c d false (fun _ => pinStatus 0 0) g))

end Sys2Proof.Machine
end

