-- ==== Sys2Proof/Machine/Tile.lean ====
section
/-! DEFINITION. The tile instructions: TALLOC, TFREE, TRING, TRD, TWR, TXCH, TCOLOP, TLD and TST (R167 to R176, R248,
R437 to R441). -/

namespace Sys2Proof.Machine

/-- A BOUNDS trap: [5:0] handle, [25:16] index (R318). -/
def boundsTrap (c : Cx) (s : State) (th idx : Nat) : Out :=
  trapAt c s tBOUNDS .next (dw (th + idx % 1024 * 2 ^ 16)) 0

/-! ### Allocation (R167, R168, R170, R248) -/

def shapeRows (s : BitVec 32) : Nat := fld s.toNat 0 10 + 1
def shapeRowBytes (s : BitVec 32) : Nat := (fld s.toNat 10 10 + 1) * 4
def shapeFmt (s : BitVec 32) : Fmt := (decFmt (s.extractLsb' 20 4)).getD .s8
def shapeTh (s : BitVec 32) : Nat := fld s.toNat 24 6

/-- A silo word that TALLOC refuses (R248). -/
def siloBad (w : DWord) (rowBytes : Nat) : Bool :=
  let scap := wfld w 52 12
  let sbase := wfld w 12 40
  wfld w 0 12 != 0 || ((scap == 0) != (sbase == 0)) || decide (sbase * 4096 + scap * 256 * rowBytes > 2 ^ 52)

/-- The lowest 128-byte-aligned offset of the unit's tile region that holds a span (R168). -/
def tilePlace (s : State) (core unit : Nat) (u : Unit) (span : Nat) : Option Nat :=
  let spans := ((getCore s core).tiles.filter fun kv => kv.2.unit == unit).map fun kv =>
    (kv.2.base, tileSpan kv.2.rows kv.2.rowBytes)
  let fits (a : Nat) : Bool :=
    decide (a + span ≤ u.resOff + u.tileBytes) && spans.all fun x => decide (a + span ≤ x.1) || decide (x.1 + x.2 ≤ a)
  ((alignUp u.resOff 128 :: spans.map fun x => x.1 + x.2).filter fits).foldl
    (fun acc a => match acc with
      | none => some a
      | some b => some (min a b)) none

/-- The status of a TALLOC, and where the tile goes when it binds (R168, R248). -/
def tallocStatus (s : State) (c : Cx) (kind : TileKind) (silo : DWord) (shape : BitVec 32) : Nat × Nat :=
  if kind = .frame && siloBad silo (shapeRowBytes shape) then (3, 0)
  else if (findTile s c.core c.g.unit (shapeTh shape)).isSome then (2, 0)
  else if (getCore s c.core).tiles.length ≥ 256 then (1, 0)
  else match getUnit s c.core c.g.unit with
    | none => (1, 0)
    | some u =>
      match tilePlace s c.core c.g.unit u (tileSpan (shapeRows shape) (shapeRowBytes shape)) with
      | some a => (0, a)
      | none => (1, 0)

/-- The tile that a TALLOC binds. -/
def newTile (unit : Nat) (kind : TileKind) (silo : DWord) (shape : BitVec 32) (base : Nat) : Tile :=
  { kind := kind, unit := unit, th := shapeTh shape, fmt := shapeFmt shape, rows := shapeRows shape,
    rowBytes := shapeRowBytes shape, base := base,
    bin := if kind = .frame then { scap := wfld silo 52 12, sbase := wfld silo 12 40 } else {} }

/-- TALLOC (R168, R437). -/
def execTalloc (g : Guard) (kind : TileKind) (d : Dst) (a : Src) (shape : BitVec 32) (s : State) : Out :=
  let us : List SrcUse := [(a, true)]
  issue s g (fun c => { srcs := us, dst := some (d, false), horizon := true, uses := [.tile (shapeTh shape)],
                        illegal := kind == .frame && (!feature s 1 || shapeRows shape % c.w != 0) }) fun c s =>
    let silo := opnd c us 0 (lowLane c.p.mask)
    let (st, base) := tallocStatus s c kind silo shape
    let s := if st = 0 then
        let s := setTile s c.core (mfree (getCore s c.core).tiles) (newTile c.g.unit kind silo shape base)
        scrWrites s c.core base (List.replicate (tileSpan (shapeRows shape) (shapeRowBytes shape)) 0)
      else s
    finish c .fall true (modGroup s c.core c.gslot (writeDst c d false fun _ => dw st))

/-- TFREE (R170, R437). -/
def execTfree (g : Guard) (h : BitVec 6) (s : State) : Out :=
  issue s g (fun _ => { horizon := true, uses := [.tile h.toNat] }) fun c s =>
    match findTile s c.core c.g.unit h.toNat with
    | none => boundsTrap c s h.toNat 0
    | some (i, t) =>
      if tileNamed s c.core c.g.unit h.toNat then .next s
      else if t.kind = .frame ∧ (filledRows s c.core t ≠ [] ∨ t.bin.held ≠ 0) then boundsTrap c s h.toNat 0
      else
        let k := getCore s c.core
        finish c .fall true (setCore s c.core { k with tiles := mdel k.tiles i })

/-! ### Rings (R173 to R175, R438) -/

def Ring.slots (r : Ring) : Nat := 2 ^ r.logs
/-- FREE (R173). -/
def Ring.free (r : Ring) : Nat := (BitVec.ofNat 32 r.slots - (r.res - r.rls)).toNat
/-- FILLED (R173). -/
def Ring.filled (r : Ring) : Nat := (r.cmt - r.acq).toNat
/-- End of stream stands (R175). -/
def Ring.ended (r : Ring) : Bool := r.preg != 0 && r.eos == r.preg && r.filled == 0 && r.cmt == r.res

/-- What a ring operation does: a BOUNDS trap, a wait, or the new ring with the result. -/
inductive RingRes where
  | bounds
  | wait
  | done (r : Ring) (v : Nat)
deriving DecidableEq, Repr

def ringInit (t : Tile) (logs : Nat) : RingRes :=
  if logs > 6 ∨ t.rows % 2 ^ logs ≠ 0 then .bounds else .done { inited := true, logs := logs } 0

/-- One operation of TRING on a ring tile (R174): `i` is the SA value and `p` the producer. -/
def ringStep (t : Tile) (op : RingOp) (i : BitVec 32) (logs p : Nat) : RingRes :=
  let r := t.ring
  if op = .init then ringInit t logs
  else if !r.inited then .bounds
  else match op with
    | .init => ringInit t logs
    | .reg => .done { r with preg := r.preg ||| (1 : BitVec 8) <<< p } 0
    | .reserve =>
      if !r.preg.getLsbD p || r.eos.getLsbD p then .bounds
      else if r.free = 0 then .wait
      else .done { r with res := r.res + 1 } r.res.toNat
    | .commit =>
      if (i - r.cmt).toNat ≥ (r.res - r.cmt).toNat then .bounds
      else if r.cmt ≠ i then .wait
      else .done { r with cmt := r.cmt + 1 } 0
    | .acquire =>
      if r.filled > 0 then .done { r with acq := r.acq + 1 } r.acq.toNat
      else if r.ended then .done r (r.acq.toNat + 2 ^ 32)
      else .wait
    | .release =>
      if (i - r.rls).toNat ≥ (r.acq - r.rls).toNat then .bounds
      else if r.rls ≠ i then .wait
      else .done { r with rls := r.rls + 1 } 0
    | .eos => if !r.preg.getLsbD p then .bounds else .done { r with eos := r.eos ||| (1 : BitVec 8) <<< p } 0
    | .state => .done r (r.free + r.filled * 2 ^ 8 + r.preg.toNat * 2 ^ 16 + r.eos.toNat * 2 ^ 24)

/-- commit, release and eos are releases (R424). -/
def ringReleases : RingOp → Bool
  | .commit | .release | .eos => true
  | _ => false

/-- reserve and acquire are acquires when they return (R424). -/
def ringAcquires : RingOp → Bool
  | .reserve | .acquire => true
  | _ => false

def ringReadsSa : RingOp → Bool
  | .commit | .release => true
  | _ => false

/-- TRING (R174, R424, R438). -/
def execTring (g : Guard) (op : RingOp) (d : Dst) (a : Src) (th : BitVec 6) (logs p : BitVec 3) (s : State) : Out :=
  let us : List SrcUse := if ringReadsSa op then [(a, true)] else []
  issue s g (fun _ => { srcs := us, dst := some (d, true), horizon := true, uses := [.tile th.toNat] }) fun c s =>
    let i : BitVec 32 := opnd32 c us 0 (lowLane c.p.mask)
    match findTile s c.core c.g.unit th.toNat with
    | none => boundsTrap c s th.toNat 0
    | some (ix, t) =>
      if t.kind ≠ .ring then boundsTrap c s th.toNat 0
      else match ringStep t op i logs.toNat p.toNat with
        | .bounds => boundsTrap c s th.toNat (if ringReadsSa op then i.toNat else 0)
        | .wait => .next s
        | .done r v =>
          if ringReleases op && !released c.g then .next s
          else
            let s := setTile s c.core ix { t with ring := r }
            let s := if ringAcquires op then acquire s c.core else s
            finish c .fall true (modGroup s c.core c.gslot (writeDst c d true fun _ => dw v))

/-! ### Slice moves (R90, R171, R439) -/

/-- The slice index (R90). -/
def sliceIdx (c : Cx) (sl : Slice) : Nat := sl.idx.toNat + (if sl.kie then wfld (c.g.kreg sl.ki.toNat) 0 10 else 0)

/-- A slice instruction holds its tile and the register of its index (R40, R90). -/
def sliceUses (sl : Slice) : List Use := .tile sl.th.toNat :: (if sl.kie then [.k sl.ki.toNat] else [])

/-- The scratchpad offset of each active lane's element, none where the slice leaves the tile (R90, R171). -/
def sliceOffs (s : State) (c : Cx) (sl : Slice) : Option (Tile × List (Nat × Nat)) :=
  match findTile s c.core c.g.unit sl.th.toNat with
  | none => none
  | some (_, t) =>
    let i := sliceIdx c sl
    let e := fmtBytes t.fmt
    let (lim, across) := if sl.ax then (t.cols, t.rows) else (t.rows, t.cols)
    if t.fmt = .a80 ∨ i ≥ lim ∨ (lanes c.p.mask).any (fun l => decide (l ≥ across)) then none
    else some (t, (lanes c.p.mask).map fun l => (l, if sl.ax then t.at_ l (i * e) else t.at_ i (l * e)))

/-- The BOUNDS trap of a slice instruction: an unbound handle names no index. -/
def sliceTrap (c : Cx) (s : State) (sl : Slice) : Out :=
  boundsTrap c s sl.th.toNat (if (findTile s c.core c.g.unit sl.th.toNat).isSome then sliceIdx c sl else 0)

/-- The scratchpad offset of a lane's element. -/
def laneOff (offs : List (Nat × Nat)) (l : Nat) : Nat := ((offs.find? fun x => x.1 == l).map (·.2)).getD 0

/-- A lane's element, extended (R171). -/
def sliceVal (s : State) (core : Nat) (t : Tile) (offs : List (Nat × Nat)) (l : Nat) : Word :=
  elemExt t.fmt (natOf (scrReads s core (laneOff offs l) (fmtBytes t.fmt)))

/-- Every active lane's element written with its low bytes, one step per lane (R269, R439). -/
def sliceWrite (s : State) (core : Nat) (t : Tile) (offs : List (Nat × Nat)) (v : Nat → Word) : State :=
  offs.foldl (fun s x => scrWrites s core x.2 (bytesOf (fmtBytes t.fmt) (v x.1).toNat)) s

/-- The bytes that a slice touches. -/
def sliceSpans (t : Tile) (offs : List (Nat × Nat)) : List (Nat × Nat) := offs.map fun x => (x.2, fmtBytes t.fmt)

/-- MEMOLD of the old elements (R122, R439). -/
def sliceMemold (s : State) (c : Cx) (t : Tile) (offs : List (Nat × Nat)) : List DWord :=
  let e := fmtBytes t.fmt
  packWords (memoldLen c.w e) ((List.range c.w).map fun l =>
    if c.p.mask.getLsbD l then scrReads s c.core (laneOff offs l) e else List.replicate e 0).flatten

/-- Words of the MEMOLD record of a slice write, of any tile (R98). -/
def sliceWords (c : Cx) : Nat := if c.g.recording then recWords (memoldLen c.w 4) else 0

/-- TRD (R439). -/
def execTrd (g : Guard) (sl : Slice) (d : Dst) (s : State) : Out :=
  issue s g (fun _ => { dst := some (d, false), uses := sliceUses sl }) fun c s =>
    match sliceOffs s c sl with
    | none => sliceTrap c s sl
    | some (t, offs) =>
      let v (l : Nat) : DWord := zx (sliceVal s c.core t offs l)
      let s := watch s c.core c.gslot c.g.unit t false 0 (sliceSpans t offs)
      finish c .fall d.isEng (modGroup s c.core c.gslot (writeDst c d false v))

/-- TWR (R439). -/
def execTwr (g : Guard) (sl : Slice) (a : Src) (s : State) : Out :=
  let us : List SrcUse := [(a, false)]
  issue s g (fun c => { srcs := us, uses := sliceUses sl, words := sliceWords c }) fun c s =>
    match sliceOffs s c sl with
    | none => sliceTrap c s sl
    | some (t, offs) =>
      let old := sliceMemold s c t offs
      let s := consume c us s
      let s := modGroup s c.core c.gslot fun g => if c.g.recording then histPush g c.ic kMEMOLD old else g
      let s := sliceWrite s c.core t offs (opnd32 c us 0)
      let s := watch s c.core c.gslot c.g.unit t true 0 (sliceSpans t offs)
      finish c .fall (isHorizon { srcs := us }) s

/-- TXCH (R439). -/
def execTxch (g : Guard) (sl : Slice) (d : Dst) (a : Src) (s : State) : Out :=
  let us : List SrcUse := [(a, false)]
  let dead := match d with
    | .dead _ => true
    | _ => false
  issue s g (fun c => { srcs := us, dst := some (d, false), uses := sliceUses sl,
                        words := if dead then sliceWords c else 0 }) fun c s =>
    match sliceOffs s c sl with
    | none => sliceTrap c s sl
    | some (t, offs) =>
      let old := sliceMemold s c t offs
      let v (l : Nat) : DWord := zx (sliceVal s c.core t offs l)
      let s := consume c us s
      let s := modGroup s c.core c.gslot fun g =>
        let g := if dead && c.g.recording then histPush g c.ic kMEMOLD old else g
        writeDst c d false v g
      let s := sliceWrite s c.core t offs (opnd32 c us 0)
      let s := watch s c.core c.gslot c.g.unit t false 0 (sliceSpans t offs)
      let s := watch s c.core c.gslot c.g.unit t true 0 (sliceSpans t offs)
      finish c .fall (isHorizon { srcs := us }) s

/-! ### TCOLOP (R440) -/

/-- The new bits of an element and its flags; `b` and `x` are the operands as raw bits. -/
def colElem (f : Fmt) (op : ColOp) (tgt : Fmt) (y b x : Nat) : Nat × Flags :=
  let e := fmtBytes f
  let m := 2 ^ (8 * e)
  let lt (p q : Nat) : Bool := if fmtSigned f then decide (sInt (8 * e) p < sInt (8 * e) q) else decide (p < q)
  match op with
  | .and => (y &&& b, 0)
  | .or => (y ||| b, 0)
  | .xor => (y ^^^ b, 0)
  | .cvt =>
    let v := fmtValue f y
    let sat := match tgt with
      | .e4m3 => true
      | t => (fmtParams t).isNone
    let r := fmtConvert tgt .rne sat false v
    (r.1, r.2 ||| (if isSnan v then fINV else 0))
  | op =>
    match fmtParams f with
    | some p =>
      let u (v : Nat) : FVal := unpack p v
      let r := match op with
        | .add => fAdd p .rne false (u y) (u b)
        | .sub => fAdd p .rne false (u y) (fNeg (u b))
        | .mul => fMul p .rne false (u y) (u b)
        | .fma => fFma p .rne false (u y) (u b) (u x)
        | .min => fMinMax p false y b (u y) (u b)
        | _ => fMinMax p true y b (u y) (u b)
      (r.v, r.fl)
    | none =>
      match op with
      | .add => ((y + b) % m, 0)
      | .sub => ((y + m - b) % m, 0)
      | .mul => (y * b % m, 0)
      | .fma => ((y * b + x) % m, 0)
      | .min => (if lt b y then b else y, 0)
      | _ => (if lt y b then b else y, 0)

/-- One row of a TCOLOP: the row's bytes and the flags. -/
def colRow (s : State) (core : Nat) (t : Tile) (op : ColOp) (tgt : Fmt) (row col n : Nat) (b : DWord) : State × Flags :=
  let e := fmtBytes t.fmt
  let bv := wfld b 0 (8 * e)
  let xv := if op = .fma then wfld b 32 (8 * e) else 0
  (List.range n).foldl (fun acc j =>
    let r := colElem t.fmt op tgt (tileElem acc.1 core t row (col + j)) bv xv
    (scrWrites acc.1 core (t.at_ row ((col + j) * e)) (bytesOf e r.1), acc.2 ||| r.2)) (s, 0)

/-- The next row of the TCOLOP that a group executes; after the last the instruction is complete. -/
def colStep (c : Cx) (th : Nat) (op : ColOp) (tgt : Fmt) (n : Nat) (r : ColRun) (s : State) : Out :=
  match findTile s c.core c.g.unit th with
  | none => finish c .fall true (modGroup s c.core c.gslot fun g => { g with colop := none })
  | some (_, t) =>
    let on := t.kind != .frame || hdrFilled (rowHdr s c.core t r.row)
    let (s, fl) := if on then colRow s c.core t op tgt r.row r.col n r.b else (s, 0)
    let spans := [(t.at_ r.row (r.col * fmtBytes t.fmt), n * fmtBytes t.fmt)]
    let s := if on then
        watch (watch s c.core c.gslot c.g.unit t false 0 spans) c.core c.gslot c.g.unit t true 0 spans
      else s
    let last := decide (r.row + 1 ≥ t.rows)
    let s := modGroup s c.core c.gslot fun g =>
      { g.flag fl with colop := if last then none else some { r with row := r.row + 1 } }
    if last then finish c .fall true s else .next s

/-- TCOLOP (R440). -/
def execTcolop (g : Guard) (op : ColOp) (sl : Slice) (n : BitVec 10) (fmt : BitVec 4) (a : Src) (s : State) : Out :=
  let us : List SrcUse := [(a, true)]
  let tgt := (decFmt fmt).getD .s8
  let cnt := n.toNat + 1
  match enter s with
  | none => .fault .noIssuingPath
  | some c =>
    match c.g.colop with
    | some r => if r.slot = c.slot then colStep c sl.th.toNat op tgt cnt r s else .next s
    | none =>
      issue s g (fun c =>
        { srcs := us, uses := sliceUses sl, horizon := true,
          illegal := op == .cvt && match findTile s c.core c.g.unit sl.th.toNat with
            | some (_, t) => fmtBytes tgt != fmtBytes t.fmt
            | none => false }) fun c s =>
        match findTile s c.core c.g.unit sl.th.toNat with
        | none => boundsTrap c s sl.th.toNat 0
        | some (_, t) =>
          if t.fmt = .a80 ∨ sliceIdx c sl + cnt > t.cols then boundsTrap c s sl.th.toNat (sliceIdx c sl)
          else
            let r : ColRun := { slot := c.slot, th := sl.th.toNat, row := 0, col := sliceIdx c sl, b := opnd c us 0 (lowLane c.p.mask) }
            let s := modGroup (consume c us s) c.core c.gslot fun g => { g with colop := some r }
            colStep c sl.th.toNat op tgt cnt r s

/-! ### TLD and TST (R441) -/

def tileSpace (host : Bool) : Space := if host then .host else .dev

/-- A lane's address (R441). -/
def tileAddr (c : Cx) (us : List SrcUse) (kb : BitVec 7) (l : Nat) : Nat :=
  (c.g.kreg kb.toNat + (opnd32 c us 0 l).signExtend 64).toNat

/-- log2 of an element's bytes. -/
def elemLog (f : Fmt) : Nat := log2 (fmtBytes f)

/-- TLD (R441). -/
def execTld (g : Guard) (sl : Slice) (acq host : Bool) (kb : BitVec 7) (a : Src) (s : State) : Out :=
  let us : List SrcUse := [(a, false)]
  issue s g (fun _ => { srcs := us, uses := .k kb.toNat :: sliceUses sl, horizon := true }) fun c s =>
    match sliceOffs s c sl with
    | none => sliceTrap c s sl
    | some (t, offs) =>
      let e := fmtBytes t.fmt
      match accesses s c.g (tileSpace host) e e .plainLoad c.p.mask (tileAddr c us kb) with
      | .error f => addrTrap c s f false
      | .ok ps =>
        let vas := (lanes c.p.mask).map fun l => (l, tileAddr c us kb l)
        let s := consume c us s
        let s := modGroup s c.core c.gslot fun g =>
          { g with seq := g.seq + 1,
                   lq := g.lq ++ [lqEntry c (g.seq + 1) .tld (.tile c.g.unit sl.th.toNat offs) (elemLog t.fmt) acq vas ps] }
        let s := watch s c.core c.gslot c.g.unit t true 0 (sliceSpans t offs)
        finish c .fall true s

/-- TST (R441). -/
def execTst (g : Guard) (sl : Slice) (rel host : Bool) (kb : BitVec 7) (a : Src) (s : State) : Out :=
  let us : List SrcUse := [(a, false)]
  issue s g (fun _ => { srcs := us, uses := .k kb.toNat :: sliceUses sl, horizon := true }) fun c s =>
    match sliceOffs s c sl with
    | none => sliceTrap c s sl
    | some (t, offs) =>
      let e := fmtBytes t.fmt
      match accesses s c.g (tileSpace host) e e .store c.p.mask (tileAddr c us kb) with
      | .error f => addrTrap c s f true
      | .ok ps =>
        let sp := storePieces ps fun l => scrReads s c.core (laneOff offs l) e
        let s := modGroup (consume c us s) c.core c.gslot (pushStore c .st rel (elemLog t.fmt) sp false)
        let s := watch s c.core c.gslot c.g.unit t false 0 (sliceSpans t offs)
        finish c .fall true s

end Sys2Proof.Machine
end

