-- ==== Sys2Proof/Machine/Coroutine.lean ====
section
/-! DEFINITION. Frame tiles, their silos (R243 to R248, R255), and SUSP, WAKE, BINFLUSH and BINSTAT (R249 to R253, R367,
R436). -/

namespace Sys2Proof.Machine

/-! ### Suspend-point descriptors (R243, R244) -/

def spNc (d : List Byte) : Nat := wfld (recWord d 0) 58 5
def spNumber (d : List Byte) : Nat := wfld (recWord d 0) 54 4
def spTh (d : List Byte) : Nat := wfld (recWord d 0) 48 6
def spResume (d : List Byte) : II := (recWord d 0).setWidth 48
def spCarry (d : List Byte) (i : Nat) : Nat := (d.getD (8 + i) 0).toNat

/-- The carry registers in order. -/
def spCarries (d : List Byte) : List Nat := (List.range (spNc d + 1)).map (spCarry d)

/-- Bytes of a frame: the header and the carries (R245). -/
def spBytes (d : List Byte) : Nat := 4 + 4 * (spNc d + 1)

/-- A reserved bit or byte is nonzero, a carry index repeats, or an index is no named register (R244). -/
def spBad (d : List Byte) : Bool :=
  let cs := spCarries d
  (recWord d 0).getLsbD 63 || ((List.range 32).any fun i => decide (i > spNc d) && spCarry d i != 0)
    || ((d.drop 40).any fun b => b != 0) || (cs.any fun c => decide (c > 63)) || decide (cs.eraseDups.length < cs.length)

/-! ### Silos (R247, R255) -/

def siloCap (t : Tile) : Nat := t.bin.scap * 256

/-- The address of silo frame `j`. -/
def siloAt (t : Tile) (j : Nat) : Nat := t.bin.sbase * 4096 + j % siloCap t * t.rowBytes

/-- The numbers of the held frames, oldest first (R247). -/
def siloHeld (t : Tile) : List Nat := (List.range t.bin.held).map fun i => (t.bin.tail + i) % 2 ^ 32

/-- The header of a silo frame, none when it cannot be read: an uncorrectable one reads as zero in a TOL page (R309). -/
def siloHdr (s : State) (core ctx : Nat) (t : Tile) (j : Nat) : Option Nat :=
  match coreRead s core ctx (siloAt t j) 4 with
  | .ok (_, bs, _) => some (natOf bs)
  | .error _ => none

/-- The rows and held silo frames that are awake (R253), none while a held frame's header cannot be read. -/
def awakeCount (s : State) (core ctx : Nat) (t : Tile) : Option Nat :=
  let hs := (siloHeld t).map (siloHdr s core ctx t)
  if hs.any (·.isNone) then none
  else some ((awakeRows s core t).length + (hs.filter fun h => (h.map hdrAwake).getD false).length)

/-- A row or a held silo frame is known to be awake: a header that cannot be read tells nothing (R256). -/
def awakeSome (s : State) (core ctx : Nat) (t : Tile) : Bool :=
  !(awakeRows s core t).isEmpty || (siloHeld t).any fun j => ((siloHdr s core ctx t j).map hdrAwake).getD false

/-- A header with AWAKE set, reserved bits as zero (R4, R245). -/
def hdrWake (h : Nat) : Nat := h / 256 * 256 + 3

/-- A header with FILLED and AWAKE cleared, reserved bits as zero (R4, R245). -/
def hdrClear (h : Nat) : Nat := h / 256 * 256

/-- A fault of the core's access to silo frames: PROT or else PAGE with the address, for the trap of the instruction (R98). -/
def siloFault (s : State) (ctx : Nat) (t : Tile) (js : List Nat) (len : Nat) (nd : Need) : Option (BitVec 8 × Nat) :=
  let fs := js.filterMap fun j => rangeTrap s ctx (siloAt t j) len nd false
  match fs.find? (fun f => !f.1) with
  | some f => some (tPROT, f.2)
  | none => fs.head?.map fun f => (tPAGE, f.2)

/-! ### SUSP (R250, R251) -/

/-- What a SUSP finds: the tile's index and the tile with its descriptor bound, after the read; a trap; or a wait. -/
inductive SuspTile where
  | wait
  | trap (code : BitVec 8) (ret : RetKind) (i2 : DWord)
  | ok (s : State) (ix : Nat) (t : Tile) (d : List Byte)
deriving DecidableEq, Repr

/-- The tile that a descriptor address names: bound already, or bound by this SUSP, which reads the descriptor once (R244). -/
def suspTile (s : State) (c : Cx) (a : Nat) : SuspTile :=
  let bound := (getCore s c.core).tiles.find? fun kv =>
    kv.2.unit == c.g.unit && kv.2.bin.desc.isSome && kv.2.bin.descAddr == a
  match bound with
  | some (ix, t) => .ok s ix t (t.bin.desc.getD [])
  | none =>
    if a % 64 ≠ 0 then .trap tBOUNDS .next 0
    else match coreRead s c.core c.g.ctx a 64 with
      | .error .wait => .wait
      | .error (.trap code va) => .trap code .reissue (dw va)
      | .ok (s', d, sub) =>
        match findTile s c.core c.g.unit (spTh d) with
        | none => .trap tBOUNDS .next (dw (spTh d))
        | some (ix, t) =>
          if spBad d || t.kind ≠ .frame || t.bin.desc.isSome || t.rowBytes < spBytes d then
            .trap tBOUNDS .next (dw (spTh d))
          else .ok (countSub s' c.g.ctx sub) ix { t with bin := { t.bin with desc := some d, descAddr := a } } d

/-- The bytes of a lane's frame (R250). -/
def frameBytes (c : Cx) (d : List Byte) (w : Bool) (l : Nat) : List Byte :=
  let tag := (c.g.nreg (spCarry d 0) l).toNat % 2 ^ 16
  bytesOf 4 ((if w then 1 else 3) + c.gslot * 2 ^ 8 + tag * 2 ^ 16)
    ++ ((spCarries d).map fun i => bytesOf 4 (c.g.nreg i l).toNat).flatten

/-- Places a frame: the lowest free row while the silo is empty, else the silo's head (R250, R255). -/
def placeFrame (core gslot unit ctx ix : Nat) (s : State) (bs : List Byte) : State :=
  match mfind (getCore s core).tiles ix with
  | none => s
  | some t =>
    match freeRows s core t with
    | r :: _ =>
      if t.bin.held = 0 then
        watch (scrWrites s core (t.at_ r 0) bs) core gslot unit t true 0 [(t.at_ r 0, bs.length)]
      else
        setTile (ctxWrite s core ctx (siloAt t t.bin.head) bs) core ix
          { t with bin := { t.bin with head := (t.bin.head + 1) % 2 ^ 32 } }
    | [] =>
      setTile (ctxWrite s core ctx (siloAt t t.bin.head) bs) core ix
        { t with bin := { t.bin with head := (t.bin.head + 1) % 2 ^ 32 } }

/-- The group after a SUSP: its history is committed, its lanes leave, and HORIZON is the only record when a lane of a recording
group remains (R250). -/
def suspGone (c : Cx) (g : Group) : Group :=
  let g := { g with ptrace := [], hist := [], hsp := g.hbase }
  let g := endLanes c.slot c.p.mask g
  let g := if c.g.recording && !g.ended then histPush g c.ic kHORIZON [] else g
  { g with ic := c.ic + 1, last := c.slot }

def suspEnd (c : Cx) (s : State) : Out := .next (settle (modGroup s c.core c.gslot (suspGone c)) c.core c.gslot)

/-- The words of the records that follow a SUSP on the emptied stack, those of the scheduler events among them (R101, R250). -/
def suspNeed (s : State) (c : Cx) : Nat :=
  ((eventsAll s c.core 260 (suspGone c c.g)).hsp.toNat - c.g.hbase.toNat) / 8

/-- The bin instructions are ILLEGAL inside handlers and without feature 1 (R249). -/
def binIllegal (s : State) (c : Cx) : Bool := !c.g.counting || !feature s 1

/-- SUSP (R250 to R252, R436). -/
def execSusp (g : Guard) (w : Bool) (ka : BitVec 7) (s : State) : Out :=
  issue s g (fun c => { illegal := binIllegal s c, uses := [.k ka.toNat], horizon := true, commits := true }) fun c s =>
    if !released c.g then .next s
    else
      let a := wfld (c.g.kreg ka.toNat) 0 52
      let m := lanes c.p.mask
      let need := suspNeed s c
      if need ≠ 0 ∧ c.g.hbase.toNat + 8 * need > c.g.hlim.toNat then
        trapAt c s tHISTFULL .reissue (dw (8 * need)) c.g.hsp
      else if busy c.g [.n 0 64] then .next s
      else match suspTile s c a with
        | .wait => .next s
        | .trap code ret i2 => trapAt c s code ret i2 0
        | .ok s' ix t d =>
          let free := (freeRows s c.core t).length
          if free + (siloCap t - t.bin.held) < m.length then trapAt c s tFRAMEFULL .reissue (dw t.th) 0
          -- frames move back while a row is free (R255): the silo has no room until they have
          else if t.bin.held ≠ 0 && siloCap t - t.bin.held < m.length then .next s
          else
            let k := if t.bin.held = 0 then m.length - free else m.length
            let js := (List.range k).map fun i => (t.bin.head + i) % 2 ^ 32
            match siloFault s c.g.ctx t js (spBytes d) .store with
            | some (code, x) => trapAt c s code .reissue (dw x) 1
            | none =>
              if js.any fun j => rangeBusy s c.core c.g.ctx (siloAt t j) (spBytes d) .store then .next s
              else
                let s := setTile s' c.core ix t
                suspEnd c (m.foldl (fun s l =>
                  placeFrame c.core c.gslot c.g.unit c.g.ctx ix s (frameBytes c d w l)) s)

/-! ### WAKE, BINFLUSH and BINSTAT -/

/-- The frame tile that SRC names, or the BOUNDS trap (R249). -/
def binTile (c : Cx) (s : State) (th : BitVec 7) (k : Nat → Tile → Out) : Out :=
  match findTile s c.core c.g.unit th.toNat with
  | none => boundsTrap c s th.toNat 0
  | some (ix, t) => if t.kind = .frame then k ix t else boundsTrap c s th.toNat 0

/-- The headers of the held frames, with the frames' numbers, as the core loads them (R255). -/
def siloHdrs (s : State) (core ctx : Nat) (t : Tile) : Except CoreStop (State × List (Nat × Nat) × Bool) :=
  foldE (fun (acc : State × List (Nat × Nat) × Bool) j =>
    match coreRead acc.1 core ctx (siloAt t j) 4 with
    | .error e => .error e
    | .ok (s, bs, sub) => .ok (s, acc.2.1 ++ [(j, natOf bs)], acc.2.2 || sub)) (s, [], false) (siloHeld t)

/-- An instruction acts on the held frames' headers once the core has loaded them. -/
def siloGo (c : Cx) (s : State) (t : Tile) (k : State → List (Nat × Nat) → Out) : Out :=
  match siloFault s c.g.ctx t (siloHeld t) 4 .load with
  | some (code, x) => trapAt c s code .reissue (dw x) 0
  | none =>
    match siloHdrs s c.core c.g.ctx t with
    | .error .wait => .next s
    | .error (.trap code va) => trapAt c s code .reissue (dw va) 0
    | .ok (s, hs, sub) => k (countSub s c.g.ctx sub) hs

/-- WAKE (R253, R436). -/
def execWake (g : Guard) (all : Bool) (d : Dst) (th ka : BitVec 7) (s : State) : Out :=
  issue s g (fun c => { illegal := binIllegal s c, uses := if all then [] else [.k ka.toNat], dst := some (d, false),
                        horizon := true }) fun c s =>
    if !released c.g then .next s
    else binTile c s th fun _ t =>
      siloGo c s t fun s' hs =>
        let tag := wfld (c.g.kreg ka.toNat) 0 16
        let hit (h : Nat) : Bool := hdrFilled h && !bit h 1 && (all || fld h 16 16 == tag)
        let rows := (filledRows s c.core t).filter fun r => hit (rowHdr s c.core t r)
        let js := hs.filter fun j => hit j.2
        match siloFault s c.g.ctx t (js.map (·.1)) 4 .store with
        | some (code, x) => trapAt c s code .reissue (dw x) 1
        | none =>
          let s' := rows.foldl (fun s r => scrWrites s c.core (t.at_ r 0) (bytesOf 4 (hdrWake (rowHdr s c.core t r)))) s'
          let s' := js.foldl (fun s j => ctxWrite s c.core c.g.ctx (siloAt t j.1) (bytesOf 4 (hdrWake j.2))) s'
          let s' := watch s' c.core c.gslot c.g.unit t true 0 (rows.map fun r => (t.at_ r 0, 4))
          finish c .fall true (modGroup s' c.core c.gslot (writeDst c d false fun _ => dw (rows.length + js.length)))

/-- BINFLUSH (R253, R367). -/
def execBinflush (g : Guard) (d : Dst) (th : BitVec 7) (s : State) : Out :=
  issue s g (fun c => { illegal := binIllegal s c, dst := some (d, false), horizon := true,
                        uses := [.tile th.toNat] }) fun c s =>
    binTile c s th fun ix t =>
      siloGo c s t fun s hs =>
        let n := (awakeRows s c.core t).length + (hs.filter fun j => hdrAwake j.2).length
        let s := if n = 0 then s else setTile s c.core ix { t with bin := { t.bin with flsh := true } }
        finish c .fall true (modGroup s c.core c.gslot (writeDst c d false fun _ => dw n))

/-- BINSTAT (R249, R367). -/
def execBinstat (g : Guard) (silo : Bool) (d : Dst) (th : BitVec 7) (s : State) : Out :=
  issue s g (fun c => { illegal := binIllegal s c, dst := some (d, false), uses := [.tile th.toNat] }) fun c s =>
    binTile c s th fun _ t =>
      let v := if silo then dw t.bin.held
        else dw ((filledRows s c.core t).length + (awakeRows s c.core t).length * 2 ^ 16)
      finish c .fall d.isEng (modGroup s c.core c.gslot (writeDst c d false fun _ => v))

end Sys2Proof.Machine
end

