-- ==== Sys2Proof/Machine/EngineQ.lean ====
section
/-! DEFINITION. The engines' subqueues: pushes, stride sharing (R207, R208), guards at the head (R210), status queues (R199,
R222, R233) and what stops an engine. -/

namespace Sys2Proof.Machine

/-- The checks of an engine command: its push is a horizon but for one guarded on the open speculation's slot (R137). -/
def enginePre (c : Cx) (gd : Guard) (f : Pre) : Pre :=
  { f with engine := true, horizon := true,
           specPass := match c.g.spec, gd with
             | some sp, some g => sp.guard == g
             | _, _ => false }

/-- The push needs no HORIZON record (R137). -/
def enginePass (c : Cx) (gd : Guard) : Bool := (enginePre c gd {}).specPass

/-- An entry of a subqueue, made at this issue. -/
def mkEntry (c : Cx) (bits : BitVec 128) (gd : Guard) (enq : Bool) : QEntry :=
  { bits := bits, guard := gd, enq := enq, seq := c.g.seq }

/-! ### Pushes and shares -/

/-- A push to a subqueue of 16 entries waits while it is full (R62). -/
def pushSub (c : Cx) (s : State) (e : Nat) (pass : Bool) (x : QEntry) : Out :=
  let q := if e = 0 then c.g.e0 else if e = 2 then c.g.e2 else c.g.e4
  if q.length ≥ 16 then .next s
  else finish c .fall (!pass) (modGroup s c.core c.gslot fun g =>
    if e = 0 then { g with e0 := g.e0 ++ [x], mxseq := g.mxseq + 1 }
    else if e = 2 then { g with e2 := g.e2 ++ [x] }
    else { g with e4 := g.e4 ++ [x] })

/-- A subqueue that an engine may take from: its group slot and core, and its parameters. -/
structure Cand where
  gslot : Nat
  core  : Nat
  tk    : Tickets
deriving DecidableEq, Repr

/-- The backlogged subqueue of the least pass, the lowest group slot of equals (R208). -/
def choose (l : List Cand) : Option Cand :=
  (l.filter (·.tk.backlogged)).foldl
    (fun acc x => match acc with
      | none => some x
      | some y =>
        if x.tk.pass.ult y.tk.pass || (x.tk.pass == y.tk.pass && decide (x.gslot < y.gslot)) then some x else acc) none

/-- The chosen subqueue's parameters after the choice: its stride is added (R207, R208). -/
def charge (t : Tickets) : Tickets := { t with pass := t.pass + dw (2 ^ 20 / t.t) }

/-- A quadrant of 24 cores loads firmware: its engines take nothing (R339). -/
def quadBusy (s : State) (q : Nat) : Bool := (ctlR s (0x0C00 + 8 * q)).getLsbD 0

/-- No queued command of a quadrant is taken: its firmware is loading, or the device has shut down (R25, R339). Commands
that are taken already go on. -/
def takeOff (s : State) (q : Nat) : Bool := quadBusy s q || s.thermalStop

/-- Whether the engines of a core stand still for a context: the core is saved or gated, or the context is being killed
(R211, R332, R343). -/
def engStop (s : State) (core ctx : Nat) : Bool :=
  let k := getCore s core
  k.quiesced || k.gated || ctxKilled s ctx

/-! ### Status queues -/

/-- Sets bit `b` of the oldest entry: older entries were dropped. -/
def markLost (b : Nat) : List StatusEntry → List StatusEntry
  | [] => []
  | e :: es => { e with bits := e.bits ||| (1 : DWord) <<< b } :: es

/-- Appends to a queue of 16 entries; when it is full the oldest is dropped and LOST set (R199, R222). -/
def postQ (q : List StatusEntry) (lost : Nat) (e : StatusEntry) : List StatusEntry :=
  if q.length < 16 then q ++ [e] else markLost lost (q.drop 1 ++ [e])

/-- A status entry for a group; one that has ended receives none (R362). -/
def postStatus (s : State) (core gslot : Nat) (f : Group → Group) : State :=
  modGroup s core gslot fun g => if g.ended then g else f g

/-- ENGINE falls due in the pushing group: TRAPINFO2 is the entry's low half, TRAPINFO3 the reason (R192, R318). -/
def engineFault (s : State) (core gslot : Nat) (bits : BitVec 128) (reason : Nat) : State :=
  postStatus s core gslot fun g => { g with engPend := g.engPend ++ [(bits.setWidth 64, dw reason)] }

/-! ### Engine accesses to memory (R270, R294, R309, R316) -/

/-- Why an engine access does not act: reads are on their way, in the state given, or a PAGE, or a fault. -/
inductive EngStop where
  | wait (s : State)
  | page (va : Nat)
  | fail
deriving DecidableEq, Repr

/-- A read of bytes within one granule that an engine makes: its number among the reads of the engine, its address and length, and
whether it goes to the host or a peer. -/
structure ERead where
  idx  : Nat
  va   : Nat
  len  : Nat
  host : Bool := false
deriving DecidableEq, Repr

/-- The answer of an engine's read: bytes, substituted, unreadable. -/
def engGot (s : State) (core eng idx : Nat) : Option (List Byte × Bool × Bool) :=
  firstSome (fun r => match r with
    | .got e i v sub bad => if e = eng ∧ i = idx then some (v, sub, bad) else none
    | _ => none) (getCore s core).resp

/-- A request is a read of an engine, with one of `n` numbers from `lo` on. -/
def Req.isERead (r : Req) (eng lo n : Nat) : Bool :=
  match r.kind with
  | .eread e _ => e == eng && r.parts.any fun p => decide (lo ≤ p.lane ∧ p.lane < lo + n)
  | _ => false

/-- A response is the answer of such a read. -/
def Resp.isGot (r : Resp) (eng lo n : Nat) : Bool :=
  match r with
  | .got e i .. => e == eng && decide (lo ≤ i ∧ i < lo + n)
  | _ => false

/-- The request of an engine's read is on its way to its home. -/
def engAsked (s : State) (core eng idx : Nat) : Bool :=
  s.paths.any fun kv => kv.1 / 128 == core && kv.2.any fun r => r.isERead eng idx 1

/-- Drops what is on its way or answered for `n` reads of an engine, numbered from `lo` on. -/
def engForget (s : State) (core eng lo n : Nat) : State :=
  let k := getCore s core
  let s := { s with paths := s.paths.filterMap fun kv =>
    let q := if kv.1 / 128 = core then kv.2.filter fun r => !r.isERead eng lo n else kv.2
    if q.isEmpty then none else some (kv.1, q) }
  setCore s core { k with resp := k.resp.filter fun r => !r.isGot eng lo n }

/-- All reads of an engine are dropped: it has ended, or it stops for a save or a kill. -/
def engClear (s : State) (core eng : Nat) : State := engForget s core eng 0 (2 ^ 64)

/-- How an engine's reads stand, in order: the bytes up to the first that has no answer, whether one was substituted, whether some
are on their way, and what stops the rest. -/
structure EngRun where
  s     : State
  bytes : List Byte := []
  sub   : Bool := false
  waits : Bool := false
  stop  : Option EngStop := none
deriving DecidableEq, Repr

/-- An engine's next read: its answer is taken, or its request enters the path to its home, behind every earlier request of the core
(R270). A read that cannot translate or that is unreadable stops the ones behind it (R224, R225, R309); `strict` tells that a
substituted one does too. -/
def engNext (core eng ctx : Nat) (strict : Bool) (x : EngRun) (p : ERead) : EngRun :=
  if x.stop.isSome then x
  else match engGot x.s core eng p.idx with
  | some (v, sub, bad) =>
    if bad || (strict && sub) then { x with stop := some .fail }
    else if x.waits then x
    else { x with bytes := x.bytes ++ v, sub := x.sub || sub }
  | none =>
    if engAsked x.s core eng p.idx then { x with waits := true }
    else if walkHeld x.s ctx p.va then { x with waits := true }
    else match xlate x.s ctx p.va .load p.host with
      | .page => { x with stop := some (.page p.va) }
      | .prot => { x with stop := some .fail }
      | .ok t a tol =>
        let r : Req := { gslot := 0, seq := 0, tgt := t, addr := a, va := p.va, tol := tol, kind := .eread eng ctx,
                         parts := [{ lane := p.idx, off := 0, addr := a, len := p.len }] }
        { x with waits := true, s := pathPush (walkHit x.s ctx p.va) core (homeOf x.s t a) r }

/-- An engine's reads, in order. -/
def engRun (s : State) (core eng ctx : Nat) (strict : Bool) (ps : List ERead) : EngRun :=
  ps.foldl (engNext core eng ctx strict) { s := s }

/-- The reads of a range of bytes, granule by granule, numbered from `lo` on. -/
def engPieces (lo va n : Nat) : List ERead :=
  (piecesOf 32 va n).zipIdx.map fun x => { idx := lo + x.2, va := va + x.1.1, len := x.1.2 }

/-- A read of a range, numbered from `lo` on: its bytes once every answer is there (R270). -/
def engReads (s : State) (core eng ctx lo va n : Nat) : Except EngStop (State × List Byte × Bool) :=
  let x := engRun s core eng ctx false (engPieces lo va n)
  if x.waits then .error (.wait x.s)
  else match x.stop with
    | some e => .error e
    | none => .ok (engForget x.s core eng lo (piecesOf 32 va n).length, x.bytes, x.sub)

/-- A write of bytes within one granule enters the path to its home, behind every earlier request of the core; `eng` is the engine's
number (R270). -/
def engStore (s : State) (core eng ctx va : Nat) (bs : List Byte) (host : Bool) : Except EngStop State :=
  if walkHeld s ctx va then .error (.wait s)
  else match xlate s ctx va .store host with
  | .page => .error (.page va)
  | .prot => .error .fail
  | .ok t a tol =>
    .ok (pathPush (walkHit s ctx va) core (homeOf s t a)
      { gslot := 0, seq := 0, tgt := t, addr := a, va := va, tol := tol, kind := .eng eng ctx,
        parts := [{ lane := 0, off := 0, addr := a, len := bs.length, bytes := bs }] })

/-- The engines' numbers: copy channels 1 to 4, decoders 16 to 31. -/
def chanEng (chan : Nat) : Nat := 1 + chan
def decEng (d : Nat) : Nat := 16 + d

/-- The channels and decoders that work for units of a core stop reading (R226, R237, R332). -/
def engQuit (s : State) (core : Nat) (us : List Nat) : State :=
  let s := ((getCore s core).chans.filter fun kv => us.contains kv.2.unit).foldl (fun s kv => engClear s core (chanEng kv.1)) s
  (s.decs.filter fun kv => kv.2.core == core && us.contains kv.2.unit).foldl (fun s kv => engClear s core (decEng kv.1)) s

/-- The record of a PAGE that an engine meets, or none when it shares another's walk (R295); the engine holds until REPLAY (R225, R228,
R320). -/
def engPage (s : State) (core ctx slot va : Nat) : State :=
  postPage s core ctx va (mkFault 10 0x04 ctx core slot false 0 (dw va) 0)

end Sys2Proof.Machine
end

