-- ==== Sys2Proof/Machine/Engine.lean ====
section
/-! DEFINITION. The engine-queue instructions: ENQ, DEQ, CPSTART, CPSTAT, VDSUB, VDSTAT and QTICK (R61, R62, R214, R215, R368 to
R370, R415, R445). -/

namespace Sys2Proof.Machine

/-- The bits that ENQ pushes: SA low, SB high (R369); an e4 entry is the record's address (R215). -/
def enqBits (c : Cx) (us : List SrcUse) (e : BitVec 3) : BitVec 128 :=
  let l := lowLane c.p.mask
  let a := (opnd c us 0 l).toNat
  let b := (opnd c us 1 l).toNat
  if e = 4 then BitVec.ofNat 128 (a % 2 ^ 52) else BitVec.ofNat 128 (a + b * 2 ^ 64)

/-- The guard of an e0 entry is its own (R93, R369). -/
def entGuard (b : BitVec 128) : Guard := if b.getLsbD 11 then some (b.extractLsb' 8 3) else none

/-- ENQ (R369). -/
def execEnq (g : Guard) (e : BitVec 3) (a b : Src) (s : State) : Out :=
  let us : List SrcUse := [(a, true), (b, true)]
  let gd (c : Cx) : Guard := if e = 0 then entGuard (enqBits c us e) else g
  issue s g (fun c => enginePre c (gd c)
      { srcs := us, early := (us.map srcUses).flatten,
        illegal := (e == 0 && match getUnit s c.core c.g.unit with | some u => !u.mxuse | none => true)
          || (e == 4 && !feature s 3) }) fun c s =>
    pushSub c s e.toNat (enginePass c (gd c)) (mkEntry c (enqBits c us e) (gd c) true)

/-- DEQ: pops one entry and writes all 64 bits (R370). -/
def execDeq (g : Guard) (d : Dst) (e : BitVec 3) (s : State) : Out :=
  let us : List SrcUse := [(.sel (0x10 + e.setWidth 8), true)]
  issue s g (fun _ => { srcs := us, dst := some (d, true) }) fun c s =>
    let v := opnd c us 0 (lowLane c.p.mask)
    finish c .fall true (modGroup (consume c us s) c.core c.gslot (writeDst c d true fun _ => v))

/-- CPSTART (R214, R215, R368). -/
def execCpstart (g : Guard) (kve : Bool) (kv ka : BitVec 7) (s : State) : Out :=
  issue s g (fun c => enginePre c g { uses := .k ka.toNat :: if kve then [.k kv.toNat] else [] }) fun c s =>
    let valid := if kve then wfld (c.g.kreg kv.toNat) 0 32 else 0xFFFF_FFFF
    pushSub c s 2 (enginePass c g)
      (mkEntry c (BitVec.ofNat 128 (wfld (c.g.kreg ka.toNat) 0 52 + valid * 2 ^ 64)) g false)

/-- Counts as a status value (R214). -/
def countValue (waiting running entries : Nat) : DWord :=
  dw (min waiting 255 + min running 255 * 2 ^ 8 + min entries 255 * 2 ^ 16)

/-- CPSTAT (R214, R368). -/
def execCpstat (g : Guard) (d : Dst) (s : State) : Out :=
  issue s g (fun _ => { dst := some (d, false) }) fun c s =>
    let run := ((getCore s c.core).chans.filter fun kv => kv.2.gslot == c.gslot).length
    finish c .fall d.isEng (modGroup s c.core c.gslot
      (writeDst c d false fun _ => countValue c.g.e2.length run c.g.e3.length))

/-- VDSUB (R214, R445). -/
def execVdsub (g : Guard) (ka : BitVec 7) (s : State) : Out :=
  issue s g (fun c => enginePre c g { uses := [.k ka.toNat], illegal := !feature s 3 }) fun c s =>
    pushSub c s 4 (enginePass c g) (mkEntry c (BitVec.ofNat 128 (wfld (c.g.kreg ka.toNat) 0 52)) g false)

/-- VDSTAT (R214, R445). -/
def execVdstat (g : Guard) (d : Dst) (s : State) : Out :=
  issue s g (fun _ => { dst := some (d, false), illegal := !feature s 3 }) fun c s =>
    let run := (s.decs.filter fun kv => kv.2.core == c.core && kv.2.gslot == c.gslot).length
    finish c .fall d.isEng (modGroup s c.core c.gslot
      (writeDst c d false fun _ => countValue c.g.e4.length run c.g.e5.length))

/-- QTICK (R207, R415). -/
def execQtick (g : Guard) (e : BitVec 2) (t : BitVec 12) (s : State) : Out :=
  issue s g (fun _ => { horizon := true }) fun c s =>
    finish c .fall true (modGroup s c.core c.gslot fun g =>
      let g := if e = 0 ∨ e = 3 then { g with tmx := { g.tmx with t := t.toNat } } else g
      let g := if e = 1 ∨ e = 3 then { g with tcp := { g.tcp with t := t.toNat } } else g
      if e = 2 ∨ e = 3 then { g with tvd := { g.tvd with t := t.toNat } } else g)

end Sys2Proof.Machine
end

