-- ==== Sys2Proof/Machine/Matrix.lean ====
section
/-! DEFINITION. The matrix commands as instructions: MXLDS, MXSWAP, MXSTR, MXDRAIN and MXZERO push one entry to e0 (R93,
R191 to R193, R196, R201, R416, R417). -/

namespace Sys2Proof.Machine

/-- Rows of a plane image (R193). -/
def ldsRows (sp : Bool) : Nat := if sp then 72 else 64

/-- Accumulator columns of a command (R201). -/
def mxCols (pair : Bool) : Nat := if pair then 128 else 64

/-- Buffer rows of a drained row (R196). -/
def drainQ (f : Fmt) (pair : Bool) : Nat := (mxCols pair * fmtBytes f + 127) / 128

/-- Rows `base` to `base + n - 1` lie in the storage that a selector names, and a tile's rows hold bytes `col` to
`col + len - 1`; a tile column is a multiple of 4 (R193, R195, R196). Buffers take `bufRows` rows in all. -/
def mxRoom (s : State) (core unit sel base bufRows n col len : Nat) : Bool :=
  if sel < 64 then
    match findTile s core unit sel with
    | none => false
    | some (_, t) => decide (base + n ≤ t.rows) && col % 4 == 0 && decide (col + len ≤ t.rowBytes)
  else decide (base + bufRows ≤ 256)

/-- The range of MXLDS (R193). -/
def ldsRoom (s : State) (core unit : Nat) (sp pair : Bool) (src base : Nat) : Bool :=
  let n := ldsRows sp * (if pair then 2 else 1)
  mxRoom s core unit src base n n 0 128

/-- The range of MXDRAIN of `n` rows (R196). -/
def drainRoom (s : State) (core unit : Nat) (pair : Bool) (f : Fmt) (dsel base n col : Nat) : Bool :=
  mxRoom s core unit dsel base (n * drainQ f pair) n col (mxCols pair * fmtBytes f)

/-- An unbound tile handle (R64). -/
def selUnbound (s : State) (core unit sel : Nat) : Bool := decide (sel < 64) && (findTile s core unit sel).isNone

/-- The group's unit is on a leader core and its launch has PAIR = 1 (R201). -/
def pairOk (s : State) (core unit : Nat) : Bool :=
  core % 2 == 0 && match getUnit s core unit with
    | some u => u.pair
    | none => false

/-- The launch uses the matrix engine (R43). -/
def mxUses (s : State) (core unit : Nat) : Bool :=
  match getUnit s core unit with
  | some u => u.mxuse
  | none => false

/-- BAR at or above NBAR with BE = 1 (R177). -/
def mxBarBad (s : State) (core unit : Nat) (x : MxCommon) : Bool :=
  x.be && match getUnit s core unit with
    | some u => decide (x.bar.toNat ≥ u.nbar)
    | none => true

/-- The fields of a command's entry (R93). -/
structure MxFields where
  op    : Nat
  md    : Nat := 0
  fmt   : Nat := 0
  rbase : Nat := 0
  rows  : Nat := 0
  src   : Nat := 0
  dsel  : Nat := 0
  valid : Nat := 1
  karg  : Nat := 0

/-- The 128-bit entry (R93). -/
def mxEntry (f : MxFields) (x : MxCommon) (gd : Guard) : BitVec 128 :=
  let gbits := match gd with
    | none => 0
    | some gs => 2 ^ 11 + gs.toNat * 2 ^ 8
  BitVec.ofNat 128 (f.op + gbits + f.md * 2 ^ 12 + x.bar.toNat * 2 ^ 16 + b2n x.be * 2 ^ 24 + f.src * 2 ^ 25
    + f.dsel * 2 ^ 32 + b2n x.pair * 2 ^ 39 + f.rows * 2 ^ 40 + f.rbase * 2 ^ 46 + f.fmt * 2 ^ 56
    + f.valid * 2 ^ 64 + f.karg * 2 ^ 96)

/-- KARG and VALID as captured at issue (R93, R416). -/
def kargOf (c : Cx) (ka : BitVec 7) : Nat := wfld (c.g.kreg ka.toNat) 0 32
def validOf (c : Cx) (kve : Bool) (kv : BitVec 7) (rows : Nat) : Nat :=
  if kve then wfld (c.g.kreg kv.toNat) 0 32 else rows + 1

/-- The shape of a matrix command (R416): `bounds` is the handle and index of an issue-time BOUNDS trap of its own. -/
def mxIssue (s : State) (gd : Guard) (x : MxCommon) (sp : Bool) (uses : List Use) (bounds : Cx → State → Option (Nat × Nat))
    (entry : Cx → MxFields) : Out :=
  issue s gd (fun c => enginePre c gd
      { uses := uses,
        illegal := !mxUses s c.core c.g.unit || (x.pair && !feature s 6) || (sp && !feature s 5) }) fun c s =>
    if x.pair && !pairOk s c.core c.g.unit then trapAt c s tPAIR .next 0 0
    else if mxBarBad s c.core c.g.unit x then boundsTrap0 c s 0 x.bar.toNat
    else match bounds c s with
      | some (th, i) => boundsTrap0 c s th i
      | none =>
        pushSub c s 0 (enginePass c gd) (mkEntry c (mxEntry (entry c) x gd) gd false)
where
  boundsTrap0 (c : Cx) (s : State) (th i : Nat) : Out := trapAt c s tBOUNDS .next (dw (th + i % 1024 * 2 ^ 16)) 0

/-- The handle that a BOUNDS trap names. -/
def selHandle (sel : Nat) : Nat := if sel < 64 then sel else 0

/-- MXLDS (R193, R417). -/
def execMxlds (g : Guard) (sp : Bool) (src : BitVec 7) (rbase : BitVec 10) (fmt : Fmt) (x : MxCommon) (s : State) : Out :=
  mxIssue s g x sp [.k 0]
    (fun c s => if ldsRoom s c.core c.g.unit sp x.pair src.toNat rbase.toNat then none
      else some (selHandle src.toNat, rbase.toNat))
    fun c => { op := 0xB0, md := b2n sp, fmt := fmt.code.toNat, rbase := rbase.toNat, src := src.toNat, karg := kargOf c 0 }

/-- MXSWAP (R194, R417). -/
def execMxswap (g : Guard) (x : MxCommon) (s : State) : Out :=
  mxIssue s g x false [.k 0] (fun _ _ => none) fun c => { op := 0xB1, karg := kargOf c 0 }

/-- MXSTR (R195, R417): its source range is checked when the engine takes it (R192). -/
def execMxstr (g : Guard) (z : Bool) (src dsel : BitVec 7) (rbase : BitVec 10) (rows : BitVec 6) (kve : Bool)
    (kv : BitVec 7) (fmt : Fmt) (ka : BitVec 7) (x : MxCommon) (s : State) : Out :=
  mxIssue s g x false (.k ka.toNat :: if kve then [.k kv.toNat] else [])
    (fun c s => if selUnbound s c.core c.g.unit src.toNat then some (src.toNat, 0) else none)
    fun c => { op := 0xB2, md := b2n z, fmt := fmt.code.toNat, rbase := rbase.toNat, rows := rows.toNat,
               src := src.toNat, dsel := dsel.toNat, valid := validOf c kve kv rows.toNat, karg := kargOf c ka }

/-- MXDRAIN (R196, R417). -/
def execMxdrain (g : Guard) (sat : Bool) (src dsel : BitVec 7) (rbase : BitVec 10) (rows : BitVec 6) (kve : Bool)
    (kv : BitVec 7) (fmt : Fmt) (ka : BitVec 7) (x : MxCommon) (s : State) : Out :=
  mxIssue s g x false (.k ka.toNat :: if kve then [.k kv.toNat] else [])
    (fun c s =>
      if drainRoom s c.core c.g.unit x.pair fmt dsel.toNat rbase.toNat (rows.toNat + 1) (kargOf c ka % 2 ^ 12) then none
      else some (selHandle dsel.toNat, rbase.toNat))
    fun c => { op := 0xB3, md := b2n sat, fmt := fmt.code.toNat, rbase := rbase.toNat, rows := rows.toNat,
               src := src.toNat, dsel := dsel.toNat, valid := validOf c kve kv rows.toNat, karg := kargOf c ka }

/-- MXZERO (R197, R417). -/
def execMxzero (g : Guard) (dsel : BitVec 7) (x : MxCommon) (s : State) : Out :=
  mxIssue s g x false [.k 0] (fun _ _ => none) fun c => { op := 0xB4, dsel := dsel.toNat, karg := kargOf c 0 }

end Sys2Proof.Machine
end

