-- ==== Sys2Proof/Machine/EvMatrix.lean ====
section
/-! DEFINITION. The matrix engine: MATRIX_TAKE and MATRIX_RETIRE (R157 to R159, R186 to R212). -/

namespace Sys2Proof.Machine

/-! ### The command of an entry -/

/-- The fields of an entry (R93). -/
structure MxCmd where
  op    : Nat
  md0   : Bool
  fmt   : Fmt
  rbase : Nat
  n     : Nat
  src   : Nat
  dsel  : Nat
  pair  : Bool
  be    : Bool
  bar   : Nat
  valid : Nat
  col   : Nat
deriving DecidableEq, Repr

def mxCmd (b : BitVec 128) : MxCmd :=
  let v := b.toNat
  { op := fld v 0 8, md0 := bit v 12, fmt := (decFmt (b.extractLsb' 56 4)).getD .bf16, rbase := fld v 46 10,
    n := fld v 40 6 + 1, src := fld v 25 7, dsel := fld v 32 7, pair := bit v 39, be := bit v 24, bar := fld v 16 8,
    valid := fld v 64 32, col := fld v 96 12 }

/-- Rows processed (R50, R199). -/
def MxCmd.rows (c : MxCmd) : Nat := if c.op = 0xB1 ∨ c.op = 0xB4 then 0 else min c.valid c.n

/-- Rows that the engine works through: a plane's data and metadata rows, the valid rows of a stream or drain, one step
of a swap or zeroing. -/
def MxCmd.work (c : MxCmd) : Nat :=
  if c.op = 0xB0 then ldsRows c.md0 else if c.op = 0xB1 ∨ c.op = 0xB4 then 1 else min c.valid c.n

/-- The E-format instruction that an entry stands for (R94): the fields that the entry does not keep are zero. -/
def entWord (b : BitVec 128) : IWord :=
  let v := b.toNat
  BitVec.ofNat 96 (fld v 0 16 + 0xC010 * 2 ^ 16 + fld v 16 8 * 2 ^ 39 + fld v 24 1 * 2 ^ 47 + fld v 25 7 * 2 ^ 48
    + fld v 32 7 * 2 ^ 55 + fld v 39 1 * 2 ^ 62 + fld v 40 6 * 2 ^ 72 + fld v 46 10 * 2 ^ 78 + fld v 56 4 * 2 ^ 88
    + fld v 60 4 * 2 ^ 92)

/-- The entry is legal as an encoding (R94). -/
def entLegal (b : BitVec 128) : Bool :=
  match decode (entWord b) with
  | .ok (.mxlds ..) | .ok (.mxswap ..) | .ok (.mxstr ..) | .ok (.mxdrain ..) | .ok (.mxzero ..) => true
  | _ => false

/-- Classes of activation and plane formats (R190). -/
def mxClass : Fmt → Nat
  | .f16 | .bf16 => 1
  | .e4m3 | .e5m2 => 2
  | .s8 | .b8 => 3
  | _ => 0

/-- Logical elements of an activation row under a plane (R187). -/
def planeK (p : Plane) : Nat := (if p.sparse then 2 else 1) * (128 / fmtBytes p.fmt)

def getMx (s : State) (core : Nat) : Mx := (getCore s core).mx
def setMx (s : State) (core : Nat) (m : Mx) : State :=
  let k := getCore s core
  setCore s core { k with mx := m }

/-- The cores whose arrays a command works on (R201). -/
def mxHalves (core : Nat) (pair : Bool) : List Nat := if pair then [core, core + 1] else [core]

/-- What the engine finds when it takes a command: a fault's reason, or none (R94, R192). -/
def mxFault (s : State) (core unit : Nat) (b : BitVec 128) : Option Nat :=
  let c := mxCmd b
  let x : MxCommon := { pair := c.pair, be := c.be, bar := BitVec.ofNat 8 c.bar }
  if !entLegal b || (c.pair && (!feature s 6 || !pairOk s core unit)) || (c.op == 0xB0 && c.md0 && !feature s 5)
      || mxBarBad s core unit x then some 3
  else if c.op = 0xB0 then (if ldsRoom s core unit c.md0 c.pair c.src c.rbase then none else some 3)
  else if c.op = 0xB3 then
    (if drainRoom s core unit c.pair c.fmt c.dsel c.rbase c.n c.col then none else some 3)
  else if c.op = 0xB2 then
    if selUnbound s core unit c.src then some 3
    else if (mxHalves core c.pair).any fun h => mxClass c.fmt == 0 || mxClass c.fmt != mxClass (getMx s h).active.fmt then some 1
    else
      let p := (getMx s core).active
      let r := if p.sparse then 2 else 1
      if mxRoom s core unit c.src c.rbase (r * c.n) c.n c.col (planeK p * fmtBytes c.fmt) then none else some 2
  else none

/-! ### Storage -/

/-- Bytes `col` to `col + n - 1` of row `row` of the storage that a selector names. -/
def selRead (s : State) (core unit sel row col n : Nat) : List Byte :=
  if sel < 64 then
    match findTile s core unit sel with
    | some (_, t) => scrReads s core (t.at_ row col) n
    | none => List.replicate n 0
  else mgets 0 (getMx s core).ob ((sel - 64) * 32768 + row * 128 + col) n

/-- The poison tag of a buffer row (R203). -/
def obTag (s : State) (core sel row : Nat) : Bool :=
  if sel < 64 then false else mget false (getMx s core).tags ((sel - 64) * 256 + row)

def setTag (s : State) (core buf row : Nat) (v : Bool) : State :=
  let m := getMx s core
  setMx s core { m with tags := mput false m.tags (buf * 256 + row) v }

def obWrite (s : State) (core buf off : Nat) (bs : List Byte) : State :=
  let m := getMx s core
  setMx s core { m with ob := mputs 0 m.ob (buf * 32768 + off) bs }

/-- A NaN or an infinity (R157). -/
def isSpecial : FVal → Bool
  | .nan _ | .inf _ => true
  | .fin _ => false

/-- Raw bits of element `i` of a row. -/
def elemOf (f : Fmt) (bs : List Byte) (i : Nat) : Nat := natOf ((bs.drop (i * fmtBytes f)).take (fmtBytes f))

/-- The product of an activation element and a weight, exact; a special element gives +0 (R157). -/
def mxProd (fa fw : Fmt) (a w : Nat) : Dy :=
  match fmtParams fa, fmtParams fw with
  | some p, some q =>
    match unpack p a, unpack q w with
    | .fin x, .fin y => dyMul x y
    | _, _ => dyInt 0
  | _, _ =>
    let v (f : Fmt) (r : Nat) : Int := if fmtSigned f then sInt 8 r else (r % 256 : Nat)
    dyInt (v fa a * v fw w)

def planeByte (p : Plane) (o : Nat) : Nat := (mget 0 p.data o).toNat

/-- The raw weight at kept row or plane row `r`, column `n`; `j` tells the element of an 8-bit pair (R188). -/
def planeElem (p : Plane) (r n j : Nat) : Nat :=
  if fmtBytes p.fmt = 2 then planeByte p (128 * r + 2 * n) + 256 * planeByte p (128 * r + 2 * n + 1)
  else planeByte p (128 * r + 2 * n + j)

/-- The logical k and the raw weight of every term of column `n` (R188, R189). -/
def planeTerms (p : Plane) (n : Nat) : List (Nat × Nat) :=
  let wide := fmtBytes p.fmt == 2
  let pos (r : Nat) : Nat := fld (planeByte p (64 * 128 + 16 * r + n / 4)) (2 * (n % 4)) 2
  ((List.range 64).map fun r =>
    if wide then [(if p.sparse then 4 * (r / 2) + pos r else r, planeElem p r n 0)]
    else [0, 1].map fun j => (if p.sparse then 2 * (4 * (r / 2) + pos r) + j else 2 * r + j, planeElem p r n j)).flatten

/-- The lowest column of a plane that holds a special element (R156). -/
def planeCol (p : Plane) : Nat :=
  ((List.range 64).find? fun n => match fmtParams p.fmt with
    | some q => (planeTerms p n).any fun t => isSpecial (unpack q t.2)
    | none => false).getD 0

def accKey (a m n : Nat) : Nat := a * 4096 + m * 64 + n
def rowBit (m : Nat) : BitVec 64 := (1 : BitVec 64) <<< m
def setRow (l : AMap (BitVec 64)) (a m : Nat) (v : Bool) : AMap (BitVec 64) :=
  mput 0 l a (if v then mget 0 l a ||| rowBit m else mget 0 l a &&& ~~~rowBit m)
def rowIs (l : AMap (BitVec 64)) (a m : Nat) : Bool := (mget 0 l a).getLsbD m

/-! ### Rows -/

/-- Row `i` of an MXLDS: the shadow plane of each half takes its image's row; the first row resets the plane (R193, R204,
R206). -/
def ldsRow (s : State) (core unit : Nat) (c : MxCmd) (i : Nat) (r : MxRun) : State × MxRun :=
  let l := ldsRows c.md0
  (mxHalves core c.pair).zipIdx.foldl (fun acc h =>
    let row := c.rbase + l * h.2 + i
    let bs := selRead acc.1 core unit c.src row 0 128
    let tag := obTag acc.1 core c.src row
    let m := getMx acc.1 h.1
    let p : Plane := if i = 0 then { fmt := c.fmt, sparse := c.md0 } else m.shadow
    let sp := decide (i < 64) && match fmtParams c.fmt with
      | some q => (List.range (128 / fmtBytes c.fmt)).any fun k => isSpecial (unpack q (elemOf c.fmt bs k))
      | none => false
    let p := { p with data := mputs 0 p.data (128 * i) bs, nan := p.nan || sp, poison := p.poison || tag }
    (setMx acc.1 h.1 { m with shadow := p }, { acc.2 with psn := acc.2.psn || tag })) (s, r)

/-- The activation row of an MXSTR's row `m`: its bytes, whether it carries a tag, and the lowest k of a special element (R195). -/
def strOperand (s : State) (core unit : Nat) (c : MxCmd) (m : Nat) : List Byte × Bool × Option Nat :=
  let p := (getMx s core).active
  let rr := if p.sparse then 2 else 1
  let bs := if c.src < 64 then selRead s core unit c.src (c.rbase + m) c.col (planeK p * fmtBytes c.fmt)
    else selRead s core unit c.src (c.rbase + rr * m) 0 (planeK p * fmtBytes c.fmt)
  (bs, (List.range rr).any fun j => obTag s core c.src (c.rbase + rr * m + j),
   match fmtParams c.fmt with
    | some q => (List.range (planeK p)).find? fun k => isSpecial (unpack q (elemOf c.fmt bs k))
    | none => none)

/-- The row and column of the FIRSTNAN event that row `m` makes on a half, none when it makes none (R154, R156). -/
def strEvent (p : Plane) (half m : Nat) (tag : Bool) (special : Option Nat) : Option (Nat × Nat) :=
  if tag || p.poison then none
  else if p.nan then some (0, 64 * half + planeCol p)
  else special.map fun k => (m, k)

/-- Row `m` of an MXSTR (R195): its passes, flags and marks, and the FIRSTNAN event that it makes (R154). Only a row that is processed
and carries no tag makes an event, also under a plane that holds a special element, and the event of the command is that of the lowest
such row (R156; DESIGN CHOICE, assumption 73). Under PAIR the leader's plane gives the row's length, and each half works with its own plane
(R201), the leader's half first: an event there is the row's, whatever the follower's plane is (DESIGN CHOICE, assumption 73). -/
def strRow (s : State) (core unit : Nat) (c : MxCmd) (m : Nat) (r : MxRun) : State × MxRun :=
  let a := c.dsel - 72
  let (bs, tag, special) := strOperand s core unit c m
  (mxHalves core c.pair).zipIdx.foldl (fun acc h =>
    let x := getMx acc.1 h.1
    let p := x.active
    let step (acc : AMap (BitVec 80) × Bool) (n : Nat) : AMap (BitVec 80) × Bool :=
      let terms := (planeTerms p n).map fun t => mxProd c.fmt p.fmt (elemOf c.fmt bs t.1) t.2
      let v := mxPass (mget 0 acc.1 (accKey a m n)).toNat terms c.md0
      (mput 0 acc.1 (accKey a m n) (BitVec.ofNat 80 v.1), acc.2 || v.2)
    let (acc', sat) := (List.range 64).foldl step (x.acc, false)
    let flag := (!c.md0 && rowIs x.flags a m) || special.isSome || p.nan
    let mark := (!c.md0 && rowIs x.marks a m) || tag || p.poison
    let nan := match acc.2.nan with
      | some e => some e
      | none => strEvent p h.2 m tag special
    (setMx acc.1 h.1 { x with acc := acc', flags := setRow x.flags a m flag, marks := setRow x.marks a m mark },
     { acc.2 with sat := acc.2.sat || sat, flg := acc.2.flg || flag, psn := acc.2.psn || mark, nan := nan })) (s, r)

/-- One drained element as raw bits (R159). -/
def drainElem (f : Fmt) (sat bad : Bool) (v : Nat) : Nat :=
  match f with
  | .a80 => v
  | f =>
    if bad then
      match fmtParams f with
      | some p => p.canon
      | none => if fmtSigned f then 2 ^ (8 * fmtBytes f - 1) else 0
    else
      (fmtConvert f .rne (sat || f == .e4m3 || f == .e5m2) false (unpack fpA80 v)).1

/-- Row `m` of an MXDRAIN (R196, R203). Under PAIR every buffer row takes the marks of both halves (DESIGN CHOICE, assumption 73). -/
def drainRow (s : State) (core unit : Nat) (c : MxCmd) (m : Nat) (r : MxRun) : State × MxRun :=
  let a := c.src - 72
  let halves := (mxHalves core c.pair).map fun h => getMx s h
  let flag := halves.any fun x => rowIs x.flags a m
  let mark := halves.any fun x => rowIs x.marks a m
  let bs := (halves.map fun x =>
    ((List.range 64).map fun n =>
      bytesOf (fmtBytes c.fmt) (drainElem c.fmt c.md0 (rowIs x.flags a m || rowIs x.marks a m)
        (mget 0 x.acc (accKey a m n)).toNat)).flatten).flatten
  let r := { r with flg := r.flg || flag, psn := r.psn || mark }
  if c.dsel < 64 then
    match findTile s core unit c.dsel with
    | some (_, t) => (scrWrites s core (t.at_ (c.rbase + m) c.col) bs, r)
    | none => (s, r)
  else
    let q := drainQ c.fmt c.pair
    let s := obWrite s core (c.dsel - 64) ((c.rbase + m * q) * 128) bs
    ((List.range q).foldl (fun s j => setTag s core (c.dsel - 64) (c.rbase + m * q + j) mark) s, r)

/-- MXSWAP on a core (R194). -/
def swapPlanes (s : State) (core : Nat) : State :=
  let m := getMx s core
  setMx s core { m with active := m.shadow, shadow := m.active }

/-- MXZERO of an accumulator (R197). -/
def zeroAcc (s : State) (a : Nat) (core : Nat) : State :=
  let m := getMx s core
  setMx s core { m with acc := m.acc.filter (fun kv => kv.1 / 4096 != a), flags := mdel m.flags a,
                        marks := mdel m.marks a, ksteps := mdel m.ksteps a }

/-- The next row of a running command. -/
def mxRow (s : State) (core : Nat) (r : MxRun) : State × MxRun :=
  let c := mxCmd r.ent.bits
  let i := r.rowsDone
  let r := { r with rowsDone := i + 1 }
  if c.op = 0xB0 then ldsRow s core r.unit c i r
  else if c.op = 0xB2 then strRow s core r.unit c i r
  else if c.op = 0xB3 then drainRow s core r.unit c i r
  else if c.op = 0xB1 then ((mxHalves core c.pair).foldl swapPlanes s, r)
  else ((mxHalves core c.pair).foldl (fun s h => zeroAcc s (c.dsel - 72) h) s, r)

/-- `n` rows of a running command. -/
def mxRows (s : State) (core : Nat) (r : MxRun) : Nat → State × MxRun
  | 0 => (s, r)
  | n + 1 => let x := mxRow s core r; mxRows x.1 core x.2 n

/-! ### Taking a command (R207, R208, R210) -/

/-- The subqueues that the matrix engine of a core may take from. -/
def mxCands (s : State) (core : Nat) : List Cand :=
  ((getCore s core).groups.filter fun kv => !engStop s core kv.2.ctx).map fun kv =>
    { gslot := kv.1, core := core, tk := kv.2.tmx }

/-- A status entry of e1 (R199). -/
def mxStatus (seq : BitVec 8) (op rows : Nat) (fault disc sat psn flg : Bool) : StatusEntry :=
  { bits := dw (seq.toNat * 2 ^ 40 + op * 2 ^ 32 + rows * 2 ^ 16 + b2n fault * 2 ^ 6 + b2n disc * 2 ^ 5 + b2n sat * 2 ^ 4
      + b2n psn * 2 ^ 3 + b2n flg * 2 ^ 2)
    ends := true }

def postMx (s : State) (core gslot : Nat) (e : StatusEntry) : State :=
  postStatus s core gslot fun g => { g with e1 := postQ g.e1 7 e }

/-- A FIRSTNAN that has fallen due on the core is not yet delivered: no later command starts (R155). -/
def nanWaits (k : Core) : Bool := k.groups.any fun kv => kv.2.mxnan.isSome && !kv.2.ended

/-- MATRIX_TAKE: the head of the least pass is taken once its thread may start: it starts, is discarded, or faults (R192, R208, R210,
R270). The status entry of a command that is discarded or faults gives ROWS 0, since it processes none (R199; DESIGN CHOICE,
assumption 73). -/
def execMatrixTake (core : Nat) (s : State) : Out :=
  let k := getCore s core
  if !k.mx.run.isEmpty || nanWaits k || takeOff s (core / 24) then .next s
  else match choose (mxCands s core) with
    | none => .next s
    | some x =>
      match getGroup s core x.gslot with
      | none => .next s
      | some g =>
        match g.e0 with
        | [] => .next s
        | e :: rest =>
          if !forkReady g e then .next s else
          let seq := g.mxseq - BitVec.ofNat 8 g.e0.length
          let s := syncQueues (setGroup s core x.gslot { g with e0 := rest, tmx := charge g.tmx }) core x.gslot
          let op := entOp e.bits
          let fault (reason : Nat) : Out :=
            .next (engineFault (postMx s core x.gslot (mxStatus seq op 0 true false false false false)) core x.gslot e.bits reason)
          match e.eval with
          | none => .next s
          | some .drop => .next (postMx s core x.gslot (mxStatus seq op 0 false true false false false))
          | some .free => fault 3
          | some .run =>
            match mxFault s core g.unit e.bits with
            | some reason => fault reason
            | none =>
              let m := getMx s core
              .next (setMx s core { m with run := [{ gslot := x.gslot, unit := g.unit, ent := e, seq := seq }] })

/-! ### Retiring (R199) -/

/-- FIRSTNAN of an MXSTR falls due in the issuing group when NANTRAP is 1 (R154 to R156). -/
def mxFirstNan (s : State) (core : Nat) (c : MxCmd) (r : MxRun) : State :=
  match r.nan with
  | some (row, col) =>
    let a := c.dsel - 72
    postStatus s core r.gslot fun g =>
      if g.fctl = 1 && g.mxnan.isNone && !r.told then
        { g with mxnan := some (dw (col * 2 ^ 32 + row * 2 ^ 16 + a * 2 ^ 8 + 1),
                                dw (mget 0 (getMx s core).ksteps a).toNat) }
      else g
  | none => s

/-- The k-step of an accumulator counts a pass on each half (R195, R201). -/
def kstep (c : MxCmd) (s : State) (core : Nat) : State :=
  let m := getMx s core
  let a := c.dsel - 72
  setMx s core { m with ksteps := mput 0 m.ksteps a ((if c.md0 then 0 else mget 0 m.ksteps a) + 1) }

/-- The bytes of the tile that a command read or wrote, for watchpoints (R337). -/
def mxSpans (t : Tile) (c : MxCmd) (rows len : Nat) : List (Nat × Nat) :=
  (List.range rows).map fun m => (t.at_ (c.rbase + m) (if c.op = 0xB0 then 0 else c.col), len)

def mxWatch (s : State) (core : Nat) (c : MxCmd) (r : MxRun) : State :=
  let sel := if c.op = 0xB3 then c.dsel else c.src
  if c.op = 0xB1 ∨ c.op = 0xB4 then s
  else if sel ≥ 64 then s
  else match findTile s core r.unit sel with
    | none => s
    | some (_, t) =>
      let len := if c.op = 0xB0 then 128
        else if c.op = 0xB2 then planeK (getMx s core).active * fmtBytes c.fmt
        else mxCols c.pair * fmtBytes c.fmt
      let rows := if c.op = 0xB0 then ldsRows c.md0 * (if c.pair then 2 else 1) else c.rows
      watch s core r.gslot r.unit t (c.op == 0xB3) 0 (mxSpans t c rows len)

/-- The steps of R199 after the writes: arrival, ACCSAT and status. While the arrival waits the command stays. -/
def mxEnd (s : State) (core : Nat) (r : MxRun) : State :=
  let c := mxCmd r.ent.bits
  let m := getMx s core
  let keep : State := setMx s core { m with run := [r] }
  let arrived := if c.be then arrive s core r.unit c.bar 0 1 (c.op == 0xB3 && r.psn) else some s
  match arrived with
  | none => keep
  | some s =>
    let s := if c.op = 0xB2 then (mxHalves core c.pair).foldl (kstep c) s else s
    let m := getMx s core
    let s := setMx s core { m with run := [] }
    let s := if r.sat then postStatus s core r.gslot fun g => g.flag fACCSAT else s
    let s := postMx s core r.gslot (mxStatus r.seq c.op c.rows false false r.sat r.psn r.flg)
    mxFirstNan s core c r

/-- The engine is stopped: by a save, a gate or a kill (R211, R332). -/
def mxStopped (s : State) (core : Nat) (r : MxRun) : Bool :=
  engStop s core (((getUnit s core r.unit).map (·.ctx)).getD 0)
    || ((mxCmd r.ent.bits).pair && (getCore s (core + 1)).quiesced)

/-- MATRIX_RETIRE: the running command completes its writes and takes the steps of R199. -/
def execMatrixRetire (core : Nat) (s : State) : Out :=
  let k := getCore s core
  match k.mx.run with
  | [] => .next s
  | r :: _ =>
    if mxStopped s core r then .next s else
    let c := mxCmd r.ent.bits
    let x := mxRows s core r (c.work - r.rowsDone)
    .next (mxEnd (mxWatch x.1 core c x.2) core x.2)

end Sys2Proof.Machine
end

