-- ==== Sys2Proof/Machine/EvCopy.lean ====
section
/-! DEFINITION. The copy engine: CHAIN_TAKE, COPY_RECORD_READ, RING_SLOT_RESERVE, COPY_SECTOR_WRITE and
COPY_RECORD_FINISH (R215 to R226). -/

namespace Sys2Proof.Machine

/-! ### The fields of a record (R217, R218) -/

/-- The side of a record: its kind, its handle, its address, and which stride it uses. -/
structure CpSide where
  kind : Nat
  th   : Nat
  addr : Nat
  dst  : Bool
deriving DecidableEq, Repr

def cpW0 (bs : List Byte) : DWord := recWord bs 0
def cpOwn (bs : List Byte) : Bool := (cpW0 bs).getLsbD 0
def cpIrq (bs : List Byte) : Bool := (cpW0 bs).getLsbD 1
def cpArr (bs : List Byte) : Bool := (cpW0 bs).getLsbD 2
def cpBar (bs : List Byte) : Nat := wfld (cpW0 bs) 32 8
def cpProd (bs : List Byte) : Nat := wfld (cpW0 bs) 40 3
def cpLsz (bs : List Byte) : Nat := wfld (cpW0 bs) 16 4
def cpE (bs : List Byte) : Nat := 2 ^ cpLsz bs
def cpDims (bs : List Byte) : Nat := wfld (cpW0 bs) 8 8
def cpNext (bs : List Byte) : Nat := (recWord bs 1).toNat

def cpSrc (bs : List Byte) : CpSide :=
  { kind := wfld (cpW0 bs) 44 2, th := wfld (cpW0 bs) 48 8, addr := (recWord bs 2).toNat, dst := false }

def cpDst (bs : List Byte) : CpSide :=
  { kind := wfld (cpW0 bs) 20 4, th := wfld (cpW0 bs) 24 8, addr := (recWord bs 3).toNat, dst := true }

/-- Four bytes of a record at an offset. -/
def recWord32 (bs : List Byte) (o : Nat) : Nat := natOf ((bs.drop o).take 4)

/-- The counts of the dimensions, innermost first. -/
def cpCnt (bs : List Byte) : List Nat := (List.range (cpDims bs + 1)).map fun i => recWord32 bs (32 + 12 * i)

/-- The strides of a side, innermost first. -/
def cpStr (bs : List Byte) (dst : Bool) : List Int :=
  (List.range (cpDims bs + 1)).map fun i => sInt 32 (recWord32 bs ((if dst then 40 else 36) + 12 * i))

/-- Elements of a record, and its sectors (R219). -/
def cpCount (bs : List Byte) : Nat := (cpCnt bs).foldl (· * ·) 1
def cpSectors (bs : List Byte) : Nat := (cpE bs * cpCount bs + 31) / 32

/-- The index tuple of element `f`, x0 fastest (R219). -/
def cpTuple : List Nat → Nat → List Nat
  | [], _ => []
  | n :: ns, f => f % n :: cpTuple ns (f / n)

/-- The tuple of an element as a save writes it: that of a record whose last element is written has the outermost count (R226). -/
def cpSaved (cnts : List Nat) (f : Nat) : List Nat :=
  if f = cnts.foldl (· * ·) 1 then (cnts.dropLast.map fun _ => 0) ++ [cnts.getLast?.getD 0] else cpTuple cnts f

/-- The element that a saved tuple names. -/
def cpIndex : List Nat → List Nat → Nat
  | n :: ns, x :: xs => x + n * cpIndex ns xs
  | _, _ => 0

/-- The offset of element `f` on a side. -/
def cpOff (bs : List Byte) (dst : Bool) (f : Nat) : Int :=
  ((cpTuple (cpCnt bs) f).zip (cpStr bs dst)).foldl (fun (acc : Int) x => acc + (x.1 : Int) * x.2) 0

/-- Element `f` is inside the valid count (R219). -/
def cpValid (bs : List Byte) (valid : Nat) (f : Nat) : Bool := decide ((cpTuple (cpCnt bs) f).getLast?.getD 0 < valid)

/-! ### Storage -/

/-- The bytes that a side of kind 1, 2 or 4 addresses: the first byte of the storage, its row bytes and its length. A slot of
a ring takes its index. -/
def cpRoom (s : State) (core unit : Nat) (x : CpSide) (ring : Nat) : Option (Nat × Nat × Nat) :=
  if x.kind = 2 then some (x.th * 32768, 128, 32768)
  else match findTile s core unit x.th with
    | none => none
    | some (_, t) =>
      if x.kind = 1 then some (t.base, t.rowBytes, t.rows * t.rowBytes)
      else
        let n := t.rows / t.ring.slots * t.rowBytes
        some (t.base + ring % t.ring.slots * n, t.rowBytes, n)

/-- The offset of a side's first element within its storage, or its address (R219). -/
def cpBase (x : CpSide) (rowBytes : Nat) : Int :=
  if x.kind = 1 ∨ x.kind = 2 then ((x.addr % 65536 * rowBytes + x.addr / 65536 % 65536 : Nat) : Int) else (x.addr : Int)

/-- The operand buffers are those of the core's owner context (R44). -/
def obOwned (s : State) (core ctx : Nat) : Bool := (getMx s core).owner == some ctx

/-! ### What is wrong with a record (R223, R224) -/

def cpBadFields (bs : List Byte) (nbar : Nat) : Bool :=
  let w := (cpW0 bs).toNat
  let side (x : CpSide) : Bool :=
    ((x.kind == 0 || x.kind == 3) && x.th != 0) || (x.kind == 2 && decide (x.th > 7))
      || ((x.kind == 1 || x.kind == 4) && decide (x.th > 63)) || ((x.kind == 1 || x.kind == 2) && decide (x.addr ≥ 2 ^ 32))
  (w &&& 0xFF00_C800_0000_00F8) != 0 || ((bs.drop 116).any fun b => b != 0)
    || decide ((cpDst bs).kind > 4) || decide (cpLsz bs > 3) || decide (cpDims bs > 6)
    || (cpProd bs != 0 && (cpDst bs).kind != 4) || decide (cpBar bs ≥ nbar) || side (cpSrc bs) || side (cpDst bs)

def cpMisaligned (bs : List Byte) : Bool :=
  let e := cpE bs
  let side (x : CpSide) : Bool :=
    (if x.kind = 1 ∨ x.kind = 2 then x.addr / 65536 % 65536 % e != 0 else x.addr % e != 0)
      || (cpStr bs x.dst).any fun d => d % (e : Int) != 0
  side (cpSrc bs) || side (cpDst bs)

/-- A side's handle is unbound, its buffer is not the context's, its ring has no such producer, or a valid element lies
outside its storage. -/
def cpBadSide (s : State) (core unit ctx valid : Nat) (bs : List Byte) (x : CpSide) : Bool :=
  if x.kind = 0 ∨ x.kind = 3 then false
  else if x.kind = 2 && !obOwned s core ctx then true
  else
    let noRing := x.kind == 4 && match findTile s core unit x.th with
      | some (_, t) => t.kind != .ring || !t.ring.inited || !t.ring.preg.getLsbD (cpProd bs)
      | none => true
    noRing || match cpRoom s core unit x 0 with
      | none => true
      | some (_, rb, len) =>
        (List.range (cpCount bs)).any fun f =>
          let o := cpBase x rb + cpOff bs x.dst f
          cpValid bs valid f && (decide (o < 0) || decide (o + (cpE bs : Int) > (len : Int)))

/-- The reason of the fault that a record has when it is read (R224). -/
def cpReason (s : State) (core unit ctx nbar valid : Nat) (bs : List Byte) (own : Bool) : Option Nat :=
  if own && !cpOwn bs then some 1
  else if cpBadFields bs nbar then some 3
  else if cpMisaligned bs then some 4
  else if cpCount bs * cpE bs > 65536 then some 5
  else if cpBadSide s core unit ctx valid bs (cpSrc bs) || cpBadSide s core unit ctx valid bs (cpDst bs) then some 5
  else none

/-! ### Channels -/

def setChan (s : State) (core i : Nat) (c : Chan) : State :=
  let k := getCore s core
  setCore s core { k with chans := mset k.chans i c }

def dropChan (s : State) (core i : Nat) : State :=
  let s := engClear s core (chanEng i)
  let k := getCore s core
  setCore s core { k with chans := mdel k.chans i }

/-- A status entry of e3 (R222). -/
def cpStatus (addr reason : Nat) (disc fault ends : Bool) : StatusEntry :=
  { bits := dw (reason * 2 ^ 52 + addr % 2 ^ 52 / 64 * 64 + b2n disc * 4 + b2n fault * 2 + b2n ends), ends := ends }

def postCp (s : State) (core gslot : Nat) (e : StatusEntry) : State :=
  postStatus s core gslot fun g => { g with e3 := postQ g.e3 3 e }

/-- The subqueues that the copy engine of a core may take from. -/
def cpCands (s : State) (core : Nat) : List Cand :=
  ((getCore s core).groups.filter fun kv => !engStop s core kv.2.ctx).map fun kv =>
    { gslot := kv.1, core := core, tk := kv.2.tcp }

/-- CHAIN_TAKE: a free channel takes the head of the least pass, once its thread may start (R215, R216, R270). -/
def execChainTake (core chan : Nat) (s : State) : Out :=
  if chan ≥ 4 || (mfind (getCore s core).chans chan).isSome || takeOff s (core / 24) then .next s
  else match choose (cpCands s core) with
    | none => .next s
    | some x =>
      match getGroup s core x.gslot with
      | none => .next s
      | some g =>
        match g.e2 with
        | [] => .next s
        | e :: rest =>
          if !forkReady g e then .next s else
          let s := syncQueues (setGroup s core x.gslot { g with e2 := rest, tcp := charge g.tcp }) core x.gslot
          let head := fld e.bits.toNat 0 52
          let bad := fld e.bits.toNat 52 12 != 0 || fld e.bits.toNat 96 32 != 0
          match e.eval with
          | none => .next s
          | some .drop => .next (postCp s core x.gslot (cpStatus head 0 true false true))
          | some v =>
            if bad || v == .free then
              .next (engineFault (postCp s core x.gslot (cpStatus head 3 false true true)) core x.gslot e.bits 3)
            else .next (setChan s core chan
              { gslot := x.gslot, unit := g.unit, entry := e, valid := BitVec.ofNat 32 (fld e.bits.toNat 64 32),
                next := some head })

/-- The channel may act: its group's context and its unit, when nothing stops it. -/
def chanReady (s : State) (core i : Nat) : Option (Chan × Nat × Unit) :=
  match mfind (getCore s core).chans i with
  | none => none
  | some c =>
    match getGroup s core c.gslot, getUnit s core c.unit with
    | some g, some u => if c.held || engStop s core g.ctx then none else some (c, g.ctx, u)
    | _, _ => none

/-- The channel holds on a PAGE. -/
def chanPage (s : State) (core ctx i : Nat) (c : Chan) (va : Nat) : State :=
  engPage (setChan s core i { c with held := true }) core ctx i va

/-- COPY_RECORD_READ: the channel reads and checks the next record of its chain, at most twelve ahead of the one that it
writes and 48 in flight on the core (R216, R223, R224). A record read again after a save keeps the reason of a fault in
progress, and its OWN may be 0 already (R226). -/
def execCopyRecordRead (core chan : Nat) (s : State) : Out :=
  match chanReady s core chan with
  | none => .next s
  | some (c, ctx, u) =>
    match c.next with
    | none => .next s
    | some a =>
      let flight := ((getCore s core).chans.map fun kv => kv.2.recs.length).foldl (· + ·) 0
      if c.recs.length ≥ 13 || flight ≥ 48 || (c.recs.any fun r => r.fault.isSome) then .next s
      else
        let add (r : CRec) (next : Option Nat) (last : Option Nat) : State :=
          setChan s core chan { c with recs := c.recs ++ [r], next := next, lastBar := last }
        if a % 64 ≠ 0 then .next (add { addr := a, bytes := [], fault := some 2 } none c.lastBar)
        else match engReads s core (chanEng chan) ctx 0 a 128 with
          | .error (.wait s) => .next s
          | .error (.page va) => .next (chanPage s core ctx chan c va)
          | .error .fail => .next (add { addr := a, bytes := [], fault := some 6 } none c.lastBar)
          | .ok (s, bs, sub) =>
            let s := countSub s ctx sub
            let again := c.recs.isEmpty && c.fault.isSome
            let reason := if again then c.fault
              else cpReason s core c.unit ctx u.nbar c.valid.toNat bs (!(c.recs.isEmpty && decide (c.fstep ≥ 2)))
            let add (r : CRec) (next : Option Nat) (last : Option Nat) : State :=
              let c := if c.recs.isEmpty then
                  { c with index := (c.tuple.map (cpIndex (cpCnt bs))).getD c.index, tuple := none }
                else c
              setChan s core chan { c with recs := c.recs ++ [r], next := next, lastBar := last }
            match reason with
            | some r => .next (add { addr := a, bytes := bs, fault := some r } none c.lastBar)
            | none => .next (add { addr := a, bytes := bs } (if cpNext bs = 0 then none else some (cpNext bs))
                (some (cpBar bs)))

/-- The record at the channel's head when it may be written: read without a fault, and not finishing. -/
def chanHead (c : Chan) : Option CRec :=
  match c.recs with
  | r :: _ => if r.fault.isNone && c.fault.isNone && c.fstep = 0 then some r else none
  | [] => none

/-- RING_SLOT_RESERVE: a ring producer reserves its slot when the record starts, waiting while FREE is 0 (R176). -/
def execRingSlotReserve (core chan : Nat) (s : State) : Out :=
  match chanReady s core chan with
  | none => .next s
  | some (c, _, _) =>
    match chanHead c with
    | none => .next s
    | some r =>
      let d := cpDst r.bytes
      if d.kind ≠ 4 || c.ringIdx.isSome then .next s
      else match findTile s core c.unit d.th with
        | none => .next s
        | some (ix, t) =>
          if t.ring.free = 0 then .next s
          else
            let s := setTile s core ix { t with ring := { t.ring with res := t.ring.res + 1 } }
            .next (setChan s core chan { c with ringIdx := some t.ring.res })

/-! ### Moving elements (R219, R220) -/

/-- Where element `f` lies on a side, and the bytes of a granule there (R220): an address, or an offset in the scratchpad or the
buffers. -/
def cpSpot (s : State) (core unit : Nat) (bs : List Byte) (x : CpSide) (ring f : Nat) : Option (Nat × Nat) :=
  if x.kind = 0 ∨ x.kind = 3 then
    some (wrapNat 64 (cpBase x 0 + cpOff bs x.dst f), if x.kind = 3 then 8 else 32)
  else (cpRoom s core unit x ring).map fun r => (((r.1 : Int) + cpBase x r.2.1 + cpOff bs x.dst f).toNat, 64)

/-- Element `g` lies behind element `f` in one granule: both are one access (R220, R260). -/
def cpBeside (e : Nat) (spot : Nat → Option (Nat × Nat)) (f g : Nat) : Bool :=
  match spot f, spot g with
  | some (a, n), some (b, _) => g == f + 1 && b == a + e && b % n != 0
  | _, _ => false

/-- Elements in order, gathered into accesses. -/
def cpRuns (e : Nat) (spot : Nat → Option (Nat × Nat)) : List Nat → List (List Nat)
  | [] => []
  | f :: fs =>
    match cpRuns e spot fs with
    | (g :: gs) :: rest => if cpBeside e spot f g then (f :: g :: gs) :: rest else [f] :: (g :: gs) :: rest
    | rest => [f] :: rest

/-- The first sector boundary of a record behind element `f`, in elements. -/
def cpBound (bs : List Byte) (f : Nat) : Nat :=
  let k := 32 / cpE bs
  min (cpCount bs) ((f / k + 1) * k)

/-- The elements that a channel moves at once from one sector boundary of the record on: to the next boundary, or to the last one
within the destination's granule (R220, R226). Masked elements are not among them (R219). -/
def cpUnit (s : State) (core unit : Nat) (bs : List Byte) (valid ring f : Nat) : List Nat × Nat :=
  let els (n : Nat) : List Nat := ((List.range n).map (f + ·)).filter fun i => decide (i < cpCount bs) && cpValid bs valid i
  let first := ((cpRuns (cpE bs) (cpSpot s core unit bs (cpDst bs) ring) (els 64)).head?.map (·.length)).getD 1
  let far := if f + first = cpCount bs then f + first else (f + first) / (32 / cpE bs) * (32 / cpE bs)
  let b := max (cpBound bs f) far
  (els (b - f), b)

/-- Reads elements: a piece of storage at once, memory through the core's paths (R270). -/
def cpReads (s : State) (core chan ctx : Nat) (c : Chan) (bs : List Byte) (fs : List Nat) : EngRun :=
  let x := cpSrc bs
  let spot := cpSpot s core c.unit bs x 0
  if x.kind = 0 ∨ x.kind = 3 then
    engRun s core (chanEng chan) ctx false ((cpRuns (cpE bs) spot fs).zipIdx.map fun r =>
      { idx := 8 + r.2, va := ((r.1.head?.bind spot).map (·.1)).getD 0, len := cpE bs * r.1.length, host := x.kind == 3 })
  else
    fs.foldl (fun r f => match spot f with
      | none => { r with stop := some .fail }
      | some (o, _) =>
        if r.stop.isSome then r
        else
          let v := if x.kind = 2 then mgets 0 (getMx s core).ob o (cpE bs) else scrReads s core o (cpE bs)
          { r with bytes := r.bytes ++ v }) { s := s }

/-- Writes a piece of the destination. -/
def cpWrite (s : State) (core chan ctx : Nat) (bs : List Byte) (a : Nat) (v : List Byte) : Except EngStop State :=
  match (cpDst bs).kind with
  | 0 => engStore s core (chanEng chan) ctx a v false
  | 3 => engStore s core (chanEng chan) ctx a v true
  | 2 => .ok (obWrite s core 0 a v)
  | _ => .ok (scrWrites s core a v)

/-- Writes elements, a run at a time: the state, the elements written, and what stopped the next run. -/
def cpWrites (core chan ctx unit ring : Nat) (bs : List Byte) : List (List Nat) → List Byte → State → List Nat →
    State × List Nat × Option EngStop
  | [], _, s, done => (s, done, none)
  | r :: rs, v, s, done =>
    let n := cpE bs * r.length
    match (r.head?.bind (cpSpot s core unit bs (cpDst bs) ring)) with
    | none => (s, done, some .fail)
    | some (a, _) =>
      match cpWrite s core chan ctx bs a (v.take n) with
      | .error e => (s, done, some e)
      | .ok s => cpWrites core chan ctx unit ring bs rs (v.drop n) s (done ++ r)

/-- The bytes of storage that elements of a record touch on a side, for watchpoints (R337). -/
def cpSpans (bs : List Byte) (valid : Nat) (x : CpSide) (room : Nat × Nat × Nat) (fs : List Nat) : List (Nat × Nat) :=
  (fs.filter (cpValid bs valid)).map fun f => (room.1 + (cpBase x room.2.1 + cpOff bs x.dst f).toNat, cpE bs)

/-- The watchpoint match of a side, kept with the chain until it is complete. -/
def cpWatchSide (s : State) (core : Nat) (bs : List Byte) (x : CpSide) (fs : List Nat) (c : Chan) : Chan :=
  if x.kind = 1 ∨ x.kind = 4 then
    match findTile s core c.unit x.th, cpRoom s core c.unit x (if x.dst then (c.ringIdx.map (·.toNat)).getD 0 else 0) with
    | some (_, t), some room =>
      match watchHit s core c.gslot c.unit t x.dst (cpSpans bs c.valid.toNat x room fs) with
      | some a => { c with wp := c.wp ++ [(dw a, 2)] }
      | none => c
    | _, _ => c
  else c

/-- The operand-buffer rows that element `f` touches. -/
def cpRow (bs : List Byte) (f : Nat) : Int := (cpBase (cpDst bs) 128 + cpOff bs true f) / 128

/-- Byte `b` of the operand buffer is written by one of the first `n` elements. -/
def cpWrote (bs : List Byte) (valid n b : Nat) : Bool :=
  (List.range n).any fun f =>
    let o := cpBase (cpDst bs) 128 + cpOff bs true f
    cpValid bs valid f && decide (o ≤ (b : Int)) && decide ((b : Int) < o + (cpE bs : Int))

/-- A whole row that the record has written has its poison tag cleared (R203, R220). -/
def cpClearTags (s : State) (core : Nat) (bs : List Byte) (valid n : Nat) (fs : List Nat) : State :=
  if (cpDst bs).kind ≠ 2 then s
  else (fs.filter (cpValid bs valid)).foldl (fun s f =>
    let r := (cpRow bs f).toNat
    if (List.range 128).all fun j => cpWrote bs valid n (128 * r + j) then setTag s core (cpDst bs).th r false else s) s

/-- The next elements of a record, from one sector boundary to another (R226): the state, the channel and the next element. A PAGE
leaves them all unmoved; a fault ends the record behind the elements before it (R224). -/
def cpNextUnit (core chan ctx : Nat) (c : Chan) (bs : List Byte) (s : State) : Except EngStop (State × Chan) :=
  let ring := (c.ringIdx.map (·.toNat)).getD 0
  let (fs, b) := cpUnit s core c.unit bs c.valid.toNat ring c.index
  let x := cpReads s core chan ctx c bs fs
  if x.waits then .error (.wait x.s)
  else match x.stop with
    | some (.page va) => .error (.page va)
    | _ =>
      let ready := fs.take (x.bytes.length / cpE bs)
      let spot := cpSpot s core c.unit bs (cpDst bs) ring
      let (s, done, stop) := cpWrites core chan ctx c.unit ring bs (cpRuns (cpE bs) spot ready) x.bytes x.s []
      match stop with
      | some (.page va) => .error (.page va)
      | some (.wait _) => .error (.wait x.s)
      | _ =>
        let bad := stop.isSome || x.stop.isSome
        let s := countSub (engForget s core (chanEng chan) 8 (2 ^ 64)) ctx x.sub
        let j := if bad then c.index + done.length else b
        let s := cpClearTags s core bs c.valid.toNat j done
        let c := { c with index := j, fault := if bad then some 6 else c.fault }
        .ok (s, cpWatchSide s core bs (cpDst bs) done (cpWatchSide s core bs (cpSrc bs) done c))

/-- At most `n` such moves: the state, the channel, and what stopped the next one. -/
def cpMove (core chan ctx : Nat) (bs : List Byte) : Nat → State → Chan → State × Chan × Option EngStop
  | 0, s, c => (s, c, none)
  | n + 1, s, c =>
    if c.index ≥ cpCount bs ∨ c.fault.isSome then (s, c, none)
    else match cpNextUnit core chan ctx c bs s with
      | .error (.wait s') => (s', c, none)
      | .error e => (s, c, some e)
      | .ok (s, c) => cpMove core chan ctx bs n s c

/-- Sectors of a record whose bytes are written, masked ones included (R219). -/
def cpDone (bs : List Byte) (i : Nat) : Nat := if i ≥ cpCount bs then cpSectors bs else i * cpE bs / 32

/-- The written sectors are subtracted by one Arrive call, once the writes that it counts are complete (R219, R271); none while the
call waits. -/
def cpSubtract (s : State) (core chan : Nat) (bs : List Byte) (c : Chan) : Option (State × Chan) :=
  let k := cpDone bs c.index - c.subtracted
  if k = 0 || engWaits s core (chanEng chan) then some (s, c)
  else (arrive s core c.unit (cpBar bs) (-(BitVec.ofNat 32 k)) 0 false).map fun s =>
    (s, { c with subtracted := c.subtracted + k })

/-- A side of the record names an operand buffer that is no longer the context's (R44). -/
def cpLost (s : State) (core ctx : Nat) (bs : List Byte) : Bool :=
  ((cpSrc bs).kind == 2 || (cpDst bs).kind == 2) && !obOwned s core ctx

/-- COPY_SECTOR_WRITE: the channel moves the elements up to the `n`-th next sector boundary and subtracts whole sectors from its
barrier (R219, R220); a fault at an access ends the record (R224). -/
def execCopySectorWrite (core chan n : Nat) (s : State) : Out :=
  match chanReady s core chan with
  | none => .next s
  | some (c, ctx, _) =>
    match chanHead c with
    | none => .next s
    | some r =>
      if (cpDst r.bytes).kind = 4 && c.ringIdx.isNone then .next s
      else if c.index < cpCount r.bytes && cpLost s core ctx r.bytes then .next (setChan s core chan { c with fault := some 5 })
      else
        let (s', c', stop) := cpMove core chan ctx r.bytes (max 1 n) s c
        match (if c'.index = c.index then stop else none) with
        | some (.page va) => .next (chanPage s core ctx chan c va)
        | _ =>
          match cpSubtract s' core chan r.bytes c' with
          | none => .next s
          | some (s', c') => .next (setChan s' core chan c')

/-! ### Finishing (R221) and faults (R225) -/

/-- A chain is complete: its channel is free, and its watchpoint matches fall due (R337). -/
def endChan (s : State) (core chan : Nat) (c : Chan) : State := wpDue (dropChan s core chan) core c.gslot c.wp

/-- What a finishing channel does next. -/
inductive CpFin where
  | wait
  | go (s : State) (c : Chan)
  | done (s : State)
deriving DecidableEq, Repr

/-- The slot of a ring destination is committed, in index order; a slot that an init discarded has none (R174, R176). -/
def cpCommit (s : State) (core : Nat) (c : Chan) (bs : List Byte) : Option State :=
  match c.ringIdx with
  | none => some s
  | some i =>
    match findTile s core c.unit (cpDst bs).th with
    | none => some s
    | some (ix, t) =>
      if (i - t.ring.cmt).toNat ≥ (t.ring.res - t.ring.cmt).toNat then some s
      else if t.ring.cmt = i then some (setTile s core ix { t with ring := { t.ring with cmt := t.ring.cmt + 1 } })
      else none

/-- The next finish step of R221. -/
def cpFinStep (s : State) (core ctx chan : Nat) (c : Chan) (r : CRec) : CpFin :=
  let bs := r.bytes
  let bar := cpBar bs
  if c.fstep ≠ 1 && engWaits s core (chanEng chan) then .wait
  else match c.fstep with
  | 0 =>
    let left := cpSectors bs - c.subtracted
    if left = 0 then .go s { c with fstep := 1 }
    else match arrive s core c.unit bar (-(BitVec.ofNat 32 left)) 0 false with
      | none => .wait
      | some s => .go s { c with fstep := 1, subtracted := cpSectors bs }
  | 1 =>
    match engStore s core (chanEng chan) ctx r.addr (bytesOf 8 (cpW0 bs &&& ~~~(1 : DWord)).toNat) false with
    | .ok s => .go s { c with fstep := 2 }
    | .error (.wait _) => .wait
    | .error (.page va) => .done (chanPage s core ctx chan c va)
    | .error .fail => .done (setChan s core chan { c with fault := some 6, fstep := 0 })
  | 2 =>
    match cpCommit s core c bs with
    | none => .wait
    | some s =>
      let ends := decide (cpNext bs = 0)
      .go (if cpIrq bs || ends then postCp s core c.gslot (cpStatus r.addr 0 false false ends) else s) { c with fstep := 3 }
  | 3 =>
    if !cpArr bs then .go s { c with fstep := 4 }
    else match arrive s core c.unit bar 0 1 false with
      | none => .wait
      | some s => .go s { c with fstep := 4 }
  | _ =>
    if cpNext bs = 0 then .done (endChan s core chan c)
    else .done (setChan s core chan { c with recs := c.recs.drop 1, index := 0, subtracted := 0, ringIdx := none,
                                             fstep := 0 })

/-- The barrier of a fault: the record's own, or that of the last record of the chain read without fault (R225). -/
def cpFaultBar (c : Chan) (r : CRec) (reason nbar : Nat) : Option Nat × Bool :=
  if reason = 2 || r.bytes.isEmpty || (reason = 3 && cpBar r.bytes ≥ nbar) then (c.lastBar, false)
  else (some (cpBar r.bytes), true)

/-- The rows whose tags a record fault sets (R225 step 2). -/
def cpFaultTags (s : State) (core ctx : Nat) (c : Chan) (r : CRec) (reason : Nat) : State :=
  let bs := r.bytes
  if reason ≤ 3 || bs.isEmpty || (cpDst bs).kind ≠ 2 || !obOwned s core ctx then s
  else (List.range 256).foldl (fun s (row : Nat) =>
    if (List.range (cpCount bs)).any fun f => cpValid bs c.valid.toNat f &&
        (decide (cpRow bs f = (row : Int))
          || decide ((cpBase (cpDst bs) 128 + cpOff bs true f + (cpE bs : Int) - 1) / 128 = (row : Int))) then
      setTag s core (cpDst bs).th row true else s) s

/-- The next fault step of R225. -/
def cpFaultStep (s : State) (core ctx chan nbar reason : Nat) (c : Chan) (r : CRec) : CpFin :=
  let (bar, own) := cpFaultBar c r reason nbar
  if (c.fstep = 2 || c.fstep = 3) && engWaits s core (chanEng chan) then .wait
  else match c.fstep with
  | 0 => .go s { c with recs := [r], next := none, fault := some reason, fstep := 1 }
  | 1 => .go (cpFaultTags s core ctx c r reason) { c with fstep := 2 }
  | 2 => .go (postCp s core c.gslot (cpStatus r.addr reason false true true)) { c with fstep := 3 }
  | 3 =>
    match bar with
    | none => .go s { c with fstep := 4 }
    | some b =>
      let left := if own then cpSectors r.bytes - c.subtracted else 0
      match arrive s core c.unit b (-(BitVec.ofNat 32 left)) (if own then b2n (cpArr r.bytes) else 0) true with
      | none => .wait
      | some s => .go s { c with fstep := 4 }
  | _ =>
    match bar with
    | none => .done (endChan s core chan c)
    | some b =>
      match uiCause s core c.unit b 3 with
      | none => .wait
      | some s => .done (endChan s core chan c)

/-- The steps in turn, until one waits: the channel then keeps the steps done (R226). -/
def cpSteps (core chan : Nat) (f : State → Chan → CpFin) : Nat → State → Chan → State
  | 0, s, c => setChan s core chan c
  | n + 1, s, c =>
    match f s c with
    | .wait => setChan s core chan c
    | .go s c => cpSteps core chan f n s c
    | .done s => s

/-- The finishing steps of a channel from where they stand. -/
def cpFinish (s : State) (core chan : Nat) : State :=
  match chanReady s core chan with
  | none => s
  | some (c, ctx, u) =>
    match c.recs with
    | [] => s
    | r :: _ =>
      match (if c.fault.isSome then c.fault else r.fault) with
      | some reason => cpSteps core chan (fun s c => cpFaultStep s core ctx chan u.nbar reason c r) 5 s c
      | none =>
        if c.index < cpCount r.bytes || ((cpDst r.bytes).kind = 4 && c.ringIdx.isNone) then s
        else cpSteps core chan (fun s c => cpFinStep s core ctx chan c r) 5 s c

/-- COPY_RECORD_FINISH: the record's last element is written, or its fault stands: the steps of R221 or R225. -/
def execCopyRecordFinish (core chan : Nat) (s : State) : Out := .next (cpFinish s core chan)

end Sys2Proof.Machine
end

