-- ==== Sys2Proof/Machine/Av1.lean ====
section
/-! DEFINITION. What a decoder reads of a bitstream by itself: the OBUs, the sequence header and the control block (R227, R230,
R233, R235). The bit layouts are those of the AV1 standard that R227 cites (PRESUMED, assumption 74); tiles and frame headers are left
to Config.av1Frame and its neighbours. -/

namespace Sys2Proof.Machine

/-! ### Bits -/

/-- A reader of bits, most significant first; an error is a status code (R233). -/
abbrev Rd (α : Type) := StateT (List Bool) (Except Nat) α

def bitList (bs : List Byte) : List Bool := (bs.map fun b => (List.range 8).map fun i => b.getLsbD (7 - i)).flatten

/-- `n` bits as a number; a bitstream that ends before them is corrupt. -/
def rd (n : Nat) : Rd Nat := fun bs =>
  if bs.length < n then .error 1 else .ok ((bs.take n).foldl (fun a b => 2 * a + b2n b) 0, bs.drop n)

def rd1 : Rd Bool := do return (← rd 1) == 1

/-- A number after as many bits as it has leading zeros. -/
def rdUvlc : Rd Nat := do
  let z := ((← get).takeWhile (!·)).length
  let _ ← rd (z + 1)
  if z ≥ 32 then return 2 ^ 32 - 1
  return 2 ^ z - 1 + (← rd z)

/-- `n` times the same. -/
def rdTimes (f : Nat → Rd Nat) : Nat → Rd (List Nat)
  | 0 => return []
  | n + 1 => do
    let l ← rdTimes f n
    return l ++ [← f n]

/-! ### The sequence header (R227) -/

/-- What the decoder keeps of a sequence header. -/
structure Av1Seq where
  level   : Nat
  reduced : Bool
  w       : Nat
  h       : Nat
  deep    : Bool
  mono    : Bool
  grain   : Bool
deriving DecidableEq, Repr

/-- The operating points of a sequence header: the levels. -/
def rdPoints : Rd (List Nat) := do
  let timing ← rd1
  let mut delay := none
  if timing then
    let _ ← rd 32
    let _ ← rd 32
    if ← rd1 then
      let _ ← rdUvlc
    if ← rd1 then
      delay := some ((← rd 5) + 1)
      let _ ← rd 32
      let _ ← rd 10
  let display ← rd1
  let n ← rd 5
  rdTimes (fun _ => do
    let _ ← rd 12
    let l ← rd 5
    if l > 7 then
      let _ ← rd 1
    match delay with
    | some k =>
      if ← rd1 then
        let _ ← rd (2 * k + 1)
    | none => pure ()
    if display then
      if ← rd1 then
        let _ ← rd 4
    return l) (n + 1)

/-- The tools that a header lists when it is not reduced. -/
def rdTools : Rd Nat := do
  let _ ← rd 4
  let order ← rd1
  if order then
    let _ ← rd 2
  let force ← (do if ← rd1 then return 2 else rd 1)
  if force > 0 then
    if !(← rd1) then
      let _ ← rd 1
  if order then rd 3 else return 0

/-- Bit depth above 8, and monochrome; any sampling but 4:2:0 is unsupported (R227). -/
def rdColor : Rd (Bool × Bool) := do
  let deep ← rd1
  let mono ← rd1
  let cp ← (do if ← rd1 then rd 24 else return 0x020202)
  if mono then
    let _ ← rd 1
  else if cp = 0x010D00 then throw 3
  else
    let _ ← rd 4
  return (deep, mono)

/-- A sequence header: its fields in order, and its trailing bits (R227, R235). -/
def rdSeq : Rd Av1Seq := do
  if (← rd 3) ≠ 0 then throw 3
  let still ← rd1
  let reduced ← rd1
  if reduced && !still then throw 1
  let levels ← (do if reduced then return [← rd 5] else rdPoints)
  if levels.any (· ≥ 20) then throw 3
  let wb ← rd 4
  let hb ← rd 4
  let w ← rd (wb + 1)
  let h ← rd (hb + 1)
  if !reduced then
    if ← rd1 then
      let _ ← rd 7
  let _ ← rd 3
  if !reduced then
    let _ ← rdTools
  let _ ← rd 3
  let (deep, mono) ← rdColor
  let grain ← rd1
  let tail ← get
  if tail.head? ≠ some true ∨ (tail.drop 1).any id then throw 1
  return { level := levels.headD 0, reduced := reduced, w := w + 1, h := h + 1, deep := deep, mono := mono, grain := grain }

/-- A sequence header's payload, or the code that it ends the frame with. -/
def av1Seq (bs : List Byte) : Except Nat Av1Seq := (rdSeq (bitList bs)).map (·.1)

/-- The largest picture, width and height of a level; a level that the standard reserves takes those of the next (PRESUMED,
assumption 74). -/
def levelMax (l : Nat) : Nat × Nat × Nat :=
  if l = 0 then (147456, 2048, 1152)
  else if l = 1 then (278784, 2816, 1584)
  else if l ≤ 4 then (665856, 4352, 2448)
  else if l ≤ 5 then (1065024, 5504, 3096)
  else if l ≤ 9 then (2359296, 6144, 3456)
  else if l ≤ 15 then (8912896, 8192, 4352)
  else (35651584, 16384, 8704)

/-- A frame exceeds the limits of the declared level (R227, R235). -/
def levelOver (q : Av1Seq) (d : Nat × Nat) : Bool :=
  let m := levelMax q.level
  decide (d.1 * d.2 > m.1) || decide (d.1 > m.2.1) || decide (d.2 > m.2.2)

/-! ### OBUs -/

/-- An OBU: its type, where it begins, and its payload. -/
structure Obu where
  typ  : Nat
  off  : Nat
  body : List Byte
deriving DecidableEq, Repr

/-- A number of seven bits a byte, least first: its value and its bytes. -/
def leb128 : Nat → List Byte → Option (Nat × Nat)
  | 0, _ => none
  | _, [] => none
  | k + 1, b :: bs =>
    let v := b.toNat % 128
    if b.toNat < 128 then some (v, 1) else (leb128 k bs).map fun x => (v + 128 * x.1, x.2 + 1)

/-- The OBUs from offset `off` on, and the offset of the first that is no OBU: obu_forbidden_bit is 1, or it does not fit (R235). -/
def obuList : Nat → Nat → List Byte → List Obu × Option Nat
  | 0, off, _ => ([], some off)
  | _, _, [] => ([], none)
  | k + 1, off, b :: bs =>
    let v := b.toNat
    let ext := b2n (bit v 2)
    let size : Option (Nat × Nat) := if bit v 1 then leb128 8 (bs.drop ext) else some (bs.length - ext, 0)
    match size with
    | some (n, k') =>
      if bit v 7 ∨ bs.length < ext + k' + n then ([], some off)
      else
        let rest := obuList k (off + 1 + ext + k' + n) (bs.drop (ext + k' + n))
        ({ typ := fld v 3 4, off := off, body := (bs.drop (ext + k')).take n } :: rest.1, rest.2)
    | none => ([], some off)

/-- A length-delimited stream of Annex B: its first number is the length of all the rest, and a temporal delimiter follows the next
two (PRESUMED, assumption 74). -/
def annexB (bs : List Byte) : Bool :=
  match leb128 8 bs with
  | some (n, k) =>
    let r := bs.drop k
    n == r.length && n != 0 && match leb128 8 r with
      | some (_, k) => match leb128 8 (r.drop k) with
        | some (_, k') => ((r.drop (k + k')).head?.map fun b => fld b.toNat 3 4) == some 2
        | none => false
      | none => false
  | none => false

/-- What the decoder knows of a record's bitstream before the frame header: the sequence header of the record with its payload, the
OBU of the frame header with its payload, the first stop with its code and offset, and the bytes read. -/
structure Av1Scan where
  seq   : Option (List Byte × Av1Seq) := none
  frame : Option Nat := none
  head  : List Byte := []
  stop  : Option (Nat × Nat) := none
  used  : Nat := 0
deriving DecidableEq, Repr

/-- The next OBU: a sequence header is parsed, a frame header is found, and a tile list is large-scale tile decoding (R227). -/
def scanObu (a : Av1Scan) (o : Obu) : Av1Scan :=
  if a.stop.isSome then a
  else if o.typ = 8 then { a with stop := some (3, o.off) }
  else if o.typ = 1 ∧ a.frame.isNone then
    match av1Seq o.body with
    | .ok q => { a with seq := some (o.body, q) }
    | .error c => { a with stop := some (c, o.off) }
  else if (o.typ = 3 ∨ o.typ = 6) ∧ a.frame.isNone then { a with frame := some o.off, head := o.body }
  else a

/-- The scan of a bitstream; one that holds no frame header is corrupt. -/
def av1Scan (bs : List Byte) : Av1Scan :=
  if annexB bs then { stop := some (3, 0) }
  else
    let (os, bad) := obuList (bs.length + 1) 0 bs
    let a := os.foldl scanObu { used := bs.length }
    let a := match a.stop, bad with
      | none, some off => { a with stop := some (1, off) }
      | _, _ => a
    if a.frame.isNone && a.stop.isNone then { a with stop := some (1, bs.length) } else a

/-- The first fields of a frame header: show_existing_frame, frame_type and show_frame (R233). -/
structure Av1Head where
  existing : Bool
  ftype    : Nat
  shown    : Bool
deriving DecidableEq, Repr

/-- Reads them; a reduced header leaves them out: it is a key frame that is shown (PRESUMED, assumption 74). -/
def rdHead (reduced : Bool) : Rd Av1Head := do
  if reduced then return { existing := false, ftype := 0, shown := true }
  let ex ← rd1
  if ex then return { existing := true, ftype := 0, shown := true }
  let ft ← rd 2
  let sh ← rd1
  return { existing := false, ftype := ft, shown := sh }

/-- The fields, none when the header ends before them. -/
def av1Head (reduced : Bool) (bs : List Byte) : Option Av1Head := ((rdHead reduced (bitList bs)).map (·.1)).toOption

/-- The frame reads no reference slot: it is a key frame or an intra-only frame. -/
def Av1Head.intra (h : Av1Head) : Bool := !h.existing && (h.ftype == 0 || h.ftype == 2)

/-- The offset of OBU `i`, or of the last. -/
def obuOff (bs : List Byte) (i : Nat) : Nat :=
  let os := (obuList (bs.length + 1) 0 bs).1
  (os.getD (min i (os.length - 1)) { typ := 0, off := 0, body := [] }).off

/-! ### The control block (R230) -/

/-- The contents without the check word: the slot map, the taint bits and the sequence header. -/
def ctlBody (c : Config.Av1Ctl) : List Byte :=
  let b := ((List.range 8).map fun i => BitVec.ofNat 8 ((c.slots.getD i none).getD 255)) ++ [c.taint]
    ++ bytesOf 2 c.seq.length ++ c.seq
  (b ++ List.replicate (0xBF8 - b.length) 0).take 0xBF8

/-- A control block: where and how the decoder keeps its own contents is free (Config.av1Check, Config.av1Pad; assumption 10), and
what it writes it reads back. -/
def ctlBlock (c : Config.Av1Ctl) (grain : List Byte) : List Byte :=
  let b := ctlBody c
  let l := bytesOf 8 (Config.av1Check b).toNat ++ b ++ (List.range 0x80).map (grain.getD · 0) ++ List.replicate 0x380 0
  l.zipIdx.map fun x => if 0xC00 ≤ x.2 ∧ x.2 < 0xC80 then x.1 else x.1 ^^^ Config.av1Pad x.2

/-- A fresh context: every slot is empty. -/
def ctlFresh : Config.Av1Ctl := { seq := [], slots := List.replicate 8 none, taint := 0 }

/-- The contents of a control block, none when its check word fails. -/
def ctlOpen (bs : List Byte) : Option Config.Av1Ctl :=
  if bs.all (· == 0) then some ctlFresh
  else
    let l := (bs.take 0xC00).zipIdx.map fun x => x.1 ^^^ Config.av1Pad x.2
    let b := l.drop 8
    if l.take 8 = bytesOf 8 (Config.av1Check b).toNat then
      some { seq := (b.drop 11).take (natOf ((b.drop 9).take 2))
             slots := (List.range 8).map fun i => let v := (b.getD i 0).toNat; if v < 9 then some v else none
             taint := b.getD 8 0 }
    else none

end Sys2Proof.Machine
end

