-- ==== Sys2Proof/Machine/EvDecode.lean ====
section
/-! DEFINITION. The AV1 decoders: DECODE_TAKE, DECODE_ERROR_STOP and DECODE_FRAME_FINISH (R227 to R238). What the standard
that R227 cites makes of frame headers and tiles is free (Config.av1Frame and its neighbours). -/

namespace Sys2Proof.Machine

/-! ### Status (R228, R233) -/

/-- Sets LOST in word 0 of the oldest record. -/
def vdMarkLost (q : List StatusEntry) : List StatusEntry := markLost 11 q

/-- Appends a record of two words to a queue of sixteen words (R233). -/
def postWords (q : List StatusEntry) (w0 w1 : DWord) : List StatusEntry :=
  let r : List StatusEntry := [{ bits := w0, ends := false }, { bits := w1, ends := true }]
  if q.length + 2 ≤ 16 then q ++ r
  else vdMarkLost (q.drop (if (q.head?.map (·.ends)).getD false then 1 else 2) ++ r)

def postVd (s : State) (core gslot : Nat) (w0 w1 : DWord) : State :=
  postStatus s core gslot fun g => { g with e5 := postWords g.e5 w0 w1 }

/-- A frame's status record. -/
def postFrame (s : State) (core gslot : Nat) (e : FrameEnd) : State :=
  postVd s core gslot (dw (e.fid * 2 ^ 32 + e.bits * 2 ^ 5 + e.code)) (dw (e.bad * 2 ^ 32 + e.used))

/-! ### The record (R229) -/

def vdFactor (bs : List Byte) : Nat := 2 ^ wfld (recWord bs 4) 32 2

/-- OFMT (R229). -/
def vdFmt (bs : List Byte) : Option Fmt :=
  match wfld (recWord bs 4) 28 4 with
  | 1 => some .b8
  | 3 => some .b16
  | 7 => some .bf16
  | 9 => some .e4m3
  | _ => none

def vdTile (bs : List Byte) : Bool := (recWord bs 4).getLsbD 0
def vdDest (bs : List Byte) : Nat := wfld (recWord bs 4) 8 6
def vdBase (bs : List Byte) : Nat := wfld (recWord bs 4) 14 10
def vdPlanes (bs : List Byte) : Nat := wfld (recWord bs 4) 24 3
def vdX0 (bs : List Byte) : Nat := wfld (recWord bs 5) 0 16
def vdY0 (bs : List Byte) : Nat := wfld (recWord bs 5) 16 16
def vdCw (bs : List Byte) : Nat := wfld (recWord bs 5) 32 16
def vdCh (bs : List Byte) : Nat := wfld (recWord bs 5) 48 16
def vdBuf (bs : List Byte) : Nat := wfld (recWord bs 3) 0 16
def vdScratch (bs : List Byte) : Nat := wfld (recWord bs 2) 0 52
/-- Bytes of a frame buffer (R230). -/
def vdBufLen (bs : List Byte) : Nat := vdBuf bs * 65536
def vdBe (bs : List Byte) : Bool := (recWord bs 6).getLsbD 8
def vdBar (bs : List Byte) : Nat := wfld (recWord bs 6) 0 8
def vdSirq (bs : List Byte) : Bool := (recWord bs 6).getLsbD 9
def vdFid (bs : List Byte) : Nat := wfld (recWord bs 1) 32 32

/-- A field of the record is out of its range, or its destination is not the unit's (R229). -/
def vdBad (s : State) (core unit ctx : Nat) (bs : List Byte) : Bool :=
  let w (i : Nat) : Nat := (recWord bs i).toNat
  fld (w 0) 52 12 != 0 || fld (w 1) 0 32 == 0 || fld (w 2) 52 12 != 0 || fld (w 2) 0 12 != 0 || fld (w 3) 16 48 != 0
    || vdBuf bs == 0 || fld (w 4) 35 29 != 0 || decide (fld (w 4) 32 2 > 2) || (vdFmt bs).isNone || bit (w 4) 27
    || vdPlanes bs == 0 || fld (w 4) 1 7 != 0 || fld (w 6) 10 54 != 0 || w 7 != 0
    || ([vdX0 bs, vdY0 bs, vdCw bs, vdCh bs].any fun v => v % (2 * vdFactor bs) != 0)
    || (if vdTile bs then (findTile s core unit (vdDest bs)).isNone else decide (vdDest bs > 7) || !obOwned s core ctx)

/-- How a frame of status 3 that writes nothing ends. -/
def vdRefuse (bs : List Byte) (used : Nat) : FrameEnd :=
  { fid := vdFid bs, used := used, be := vdBe bs, bar := vdBar bs, sirq := vdSirq bs }

/-! ### Taking a record (R228) -/

def setDec (s : State) (d : Nat) (f : Frame) : State := { s with decs := mset s.decs d f }

/-- The group's record is at a decoder already: a group's records decode one at a time. -/
def vdBusy (s : State) (core gslot : Nat) : Bool := s.decs.any fun kv => kv.2.core == core && kv.2.gslot == gslot

/-- The subqueues that a decoder of a quadrant may take from. -/
def vdCands (s : State) (quad : Nat) : List Cand :=
  ((List.range 24).map fun i =>
    let core := 24 * quad + i
    ((getCore s core).groups.filter fun kv => !vdBusy s core kv.1 && !engStop s core kv.2.ctx).map fun kv =>
      ({ gslot := kv.1, core := core, tk := kv.2.tvd } : Cand)).flatten

/-- Reads the record of a frame, and its control block when the record stands (R228 to R230). -/
def vdRead (s : State) (d : Nat) (f : Frame) (ctx nbar : Nat) : State :=
  let hold (s : State) (f : Frame) (va : Nat) : State := engPage (setDec s d { f with held := true }) f.core ctx (64 + d) va
  let withRecord (s : State) (f : Frame) : State :=
    let bs := f.record
    if vdBe bs && decide (vdBar bs ≥ nbar) then
      setDec s d { f with fin := some { fid := vdFid bs } }
    else if vdBad s f.core f.unit ctx bs then setDec s d { f with fin := some (vdRefuse bs 0) }
    else match engReads s f.core (decEng d) ctx 0 (vdScratch bs) 4096 with
      | .error (.wait s) => setDec s d f
      | .error (.page va) => hold s f va
      | .error .fail => setDec s d { f with fin := some (vdRefuse bs 0) }
      | .ok (s, ctl, sub) =>
        if sub || (ctlOpen ctl).isNone then
          setDec s d { f with fin := some (vdRefuse bs 0) }
        else setDec s d { f with ctl := ctl }
  if f.record.isEmpty then
    match engReads s f.core (decEng d) ctx 0 (fld f.entry.bits.toNat 0 52) 64 with
    | .error (.wait s) => setDec s d f
    | .error (.page va) => hold s f va
    | .error .fail => setDec s d { f with fin := some {} }
    | .ok (s, bs, _) => withRecord s { f with record := bs }
  else withRecord s f

/-- The decoder may act on its frame: the context, the unit and the frame. A save lets a frame that ends take its last steps (R237). -/
def vdReady (s : State) (d : Nat) : Option (Frame × Nat × Unit) :=
  match mfind s.decs d with
  | none => none
  | some f =>
    match getGroup s f.core f.gslot, getUnit s f.core f.unit with
    | some g, some u =>
      let stop := if f.ending then ctxKilled s g.ctx else engStop s f.core g.ctx
      if f.held || d ≥ 16 || stop then none else some (f, g.ctx, u)
    | _, _ => none

/-- A frame leaves its decoder, and nothing of it is on its way any more. -/
def dropDec (s : State) (d : Nat) (f : Frame) : State :=
  { engClear s f.core (decEng d) with decs := mdel s.decs d }

/-- A frame that a restore has brought back and that waits for a decoder of its quadrant: entries from 16 on (R237). -/
def vdWaiting (s : State) (quad : Nat) : Option (Nat × Frame) :=
  s.decs.find? fun kv => decide (kv.1 ≥ 16) && kv.2.core / 24 == quad &&
    !(getCore s kv.2.core).quiesced && !(getCore s kv.2.core).gated

/-- DECODE_TAKE: a free decoder of the quadrant takes a restored frame, or the head of the least pass; a decoder that holds an
entry reads its record again (R228, R237). -/
def execDecodeTake (dec : Nat) (s : State) : Out :=
  if dec ≥ 16 then .next s
  else match mfind s.decs dec with
    | some _ =>
      match vdReady s dec with
      | some (f, ctx, u) => if f.ctl.isEmpty && f.fin.isNone then .next (vdRead s dec f ctx u.nbar) else .next s
      | none => .next s
    | none =>
      if takeOff s (dec / 2) then .next s else
      match vdWaiting s (dec / 2) with
      | some (i, f) => .next (setDec { s with decs := mdel s.decs i } dec f)
      | none =>
      match choose (vdCands s (dec / 2)) with
      | none => .next s
      | some x =>
        match getGroup s x.core x.gslot with
        | none => .next s
        | some g =>
          match g.e4 with
          | [] => .next s
          | e :: rest =>
            if !forkReady g e then .next s else
            let s := syncQueues (setGroup s x.core x.gslot { g with e4 := rest, tvd := charge g.tvd }) x.core x.gslot
            match e.eval with
            | none => .next s
            | some .drop => .next (postVd s x.core x.gslot 0x400 0xFFFF_FFFF_0000_0000)
            | some .free =>
              .next (engineFault (postVd s x.core x.gslot 3 0xFFFF_FFFF_0000_0000) x.core x.gslot e.bits 3)
            | some .run =>
              let f : Frame := { core := x.core, gslot := x.gslot, unit := g.unit, entry := e }
              .next (vdRead s dec f g.ctx (((getUnit s x.core g.unit).map (·.nbar)).getD 0))

/-! ### Decoding (R230 to R232, R235, R236) -/

/-- What reading the frame's memory gives: the bitstream, the reference bytes, and whether a read failed. -/
inductive VdMem where
  | wait (s : State)
  | page (va : Nat)
  | got (s : State) (bits refs : List Byte) (bad : Bool)
deriving DecidableEq, Repr

/-- Reads a range, its reads numbered from `lo` on, until a sector of it cannot be read; a substituted sector counts as unreadable
(R309). -/
def vdBytes (s : State) (core eng ctx lo va n : Nat) : VdMem :=
  let x := engRun s core eng ctx true (engPieces lo va n)
  if x.waits then .wait x.s
  else match x.stop with
    | some (.page a) => .page a
    | some _ => .got x.s x.bytes [] true
    | none => .got x.s x.bytes [] false

/-- The contents of the frame's control block (R230). -/
def vdCtl (f : Frame) : Config.Av1Ctl := (ctlOpen f.ctl).getD ctlFresh

/-- The sequence header that governs the frame, with its payload: the record's, or the control block's (R235). -/
def vdSeq (f : Frame) (bits : List Byte) : Option (List Byte × Av1Seq) :=
  match (av1Scan bits).seq with
  | some x => some x
  | none => (av1Seq (vdCtl f).seq).toOption.map fun q => ((vdCtl f).seq, q)

/-- The control block's contents under that sequence header. -/
def vdUnder (f : Frame) (bits : List Byte) : Config.Av1Ctl :=
  { vdCtl f with seq := ((vdSeq f bits).map (·.1)).getD [] }

def vdSlot (c : Config.Av1Ctl) (i : Nat) : Option Nat := (c.slots.getD i none)

/-- The address of frame buffer `i`, and its bytes. -/
def vdBufAt (bs : List Byte) (i : Nat) : Nat := vdScratch bs + 0x1000 + i * vdBufLen bs

/-- The first fields of the frame's header. -/
def vdHead (f : Frame) (bits : List Byte) : Option Av1Head :=
  (vdSeq f bits).bind fun q => av1Head q.2.reduced (av1Scan bits).head

/-- The reference slots that the frame reads, each with the bytes of its buffer: none for a key frame or an intra-only frame (R236). -/
def vdRefs (f : Frame) (bits : List Byte) : List (Nat × Nat) :=
  if ((vdHead f bits).map (·.intra)).getD false then [] else Config.av1Refs bits (vdUnder f bits)

/-- The bitstream and the reference bytes of a frame: every read's answer is kept until the frame is decoded. -/
def vdMem (s : State) (d : Nat) (f : Frame) (ctx : Nat) : VdMem :=
  let bs := f.record
  let read (s : State) (lo va n : Nat) : VdMem := vdBytes s f.core (decEng d) ctx lo va n
  match read s 0 (wfld (recWord bs 0) 0 52) (wfld (recWord bs 1) 0 32) with
  | .got s bits _ bad =>
    (vdRefs f bits).zipIdx.foldl (fun acc x =>
      match acc, vdSlot (vdUnder f bits) x.1.1 with
      | .got s bits refs bad, some b =>
        match read s ((x.2 + 1) * 2 ^ 40) (vdBufAt bs b) (min x.1.2 (vdBufLen bs)) with
        | .got s r _ bad' => .got s bits (refs ++ r) (bad || bad')
        | x => x
      | acc, _ => acc) (.got s bits [] bad)
  | x => x

/-- The window of a frame of given size: its width and height (R229). -/
def vdWindow (bs : List Byte) (w h : Nat) : Nat × Nat :=
  (if vdCw bs = 0 then w - vdX0 bs else vdCw bs, if vdCh bs = 0 then h - vdY0 bs else vdCh bs)

/-- The window lies wholly inside the frame. -/
def vdInside (bs : List Byte) (w h : Nat) : Bool :=
  decide (vdX0 bs < w) && decide (vdY0 bs < h) && decide (vdX0 bs + vdCw bs ≤ w) && decide (vdY0 bs + vdCh bs ≤ h)

/-- The planes written, each with its subsampling, its samples a line, its lines and its rows a line (R231). -/
def vdGeom (bs : List Byte) (w h rb : Nat) : List (Nat × Nat × Nat × Nat × Nat) :=
  let (cw, ch) := vdWindow bs w h
  let e := ((vdFmt bs).map fmtBytes).getD 1
  ((List.range 3).filter fun p => bit (vdPlanes bs) p).map fun p =>
    let sh := if p = 0 then 1 else 2
    let n := cw / sh / vdFactor bs
    (p, sh, n, ch / sh / vdFactor bs, (n * e + rb - 1) / rb)

def vdRows (bs : List Byte) (w h rb : Nat) : Nat := ((vdGeom bs w h rb).map fun g => g.2.2.2.1 * g.2.2.2.2).foldl (· + ·) 0

/-- Row bytes and rows of the destination (R231). -/
def vdRoom (s : State) (core unit : Nat) (bs : List Byte) : Nat × Nat :=
  if vdTile bs then
    match findTile s core unit (vdDest bs) with
    | some (_, t) => (t.rowBytes, t.rows)
    | none => (128, 0)
  else (128, 256)

/-- Bytes that a frame needs in each buffer (R230). -/
def vdNeed (w h : Nat) (mono : Bool) : Nat :=
  let a := alignUp w 64 * alignUp h 64
  a * (if mono then 2 else 3) + a / 8

/-- An output sample from the sum of f × f samples (R232). -/
def vdSample (f : Fmt) (down depth sum : Nat) : Nat :=
  let sh : Int := -(2 * down : Nat)
  let e : Int := match f with
    | .b16 => sh
    | .b8 => sh + 8 - (depth : Int)
    | _ => sh - (depth : Int)
  (fmtConvert f .rne (f == .e4m3) false (.fin { neg := false, m := sum, e := e })).1

/-- The samples of a frame: plane, row and column. -/
abbrev VdPic := Nat → Nat → Nat → Nat

/-- One line of output as bytes, its last row padded with zeros (R231, R232). -/
def vdLine (bs : List Byte) (depth rb : Nat) (pic : VdPic) (g : Nat × Nat × Nat × Nat × Nat) (y : Nat) : List Byte :=
  let (p, sh, n, _, q) := g
  let k := vdFactor bs
  let fm := (vdFmt bs).getD .b8
  let line := ((List.range n).map fun x =>
    let sum := ((List.range k).map fun j => ((List.range k).map fun i =>
      pic p (vdY0 bs / sh + y * k + j) (vdX0 bs / sh + x * k + i)).foldl (· + ·) 0).foldl (· + ·) 0
    bytesOf (fmtBytes fm) (vdSample fm (log2 k) depth sum)).flatten
  line ++ List.replicate (q * rb - line.length) 0

/-- The destination rows in order; rows from `good` on are zero (R235). -/
def vdOut (bs : List Byte) (w h depth rb good : Nat) (pic : VdPic) : List (List Byte) :=
  let rows := ((vdGeom bs w h rb).map fun g =>
    ((List.range g.2.2.2.1).map fun y =>
      let l := vdLine bs depth rb pic g y
      (List.range g.2.2.2.2).map fun j => (l.drop (j * rb)).take rb).flatten).flatten
  rows.zipIdx.map fun r => if r.2 < good then r.1 else List.replicate rb 0

/-- Writes the rows and their tags (R234 step 1). -/
def vdWrite (s : State) (f : Frame) (tag : Bool) (rows : List (List Byte)) : State :=
  let bs := f.record
  if vdTile bs then
    match findTile s f.core f.unit (vdDest bs) with
    | some (_, t) =>
      let s := rows.zipIdx.foldl (fun s r => scrWrites s f.core (t.at_ (vdBase bs + r.2) 0) r.1) s
      watch s f.core f.gslot f.unit t true 4 (rows.zipIdx.map fun r => (t.at_ (vdBase bs + r.2) 0, r.1.length))
    | none => s
  else rows.zipIdx.foldl (fun s r =>
    setTag (obWrite s f.core (vdDest bs) ((vdBase bs + r.2) * 128) r.1) f.core (vdDest bs) (vdBase bs + r.2) tag) s

/-- How the frame comes out (R235, R236): its code, the size that its output takes, the bytes consumed, whether the frame header was
parsed, the first bad superblock, and the rows written before an error. -/
structure VdOutcome where
  code : Nat
  size : Option (Nat × Nat)
  used : Nat
  known : Bool := false
  bad : BitVec 32 := 0
  good : Nat := 0
deriving DecidableEq, Repr

/-- The standard's part of the frame: its header's first fields stand as they are read, a shown key frame refreshes every slot, and a
reduced header fixes the largest size too (R235; PRESUMED, assumption 74). -/
def vdFrame (f : Frame) (bits refs : List Byte) : Config.Av1Out :=
  let o := Config.av1Frame bits (vdUnder f bits) refs
  let o := match vdHead f bits with
    | some h =>
      if h.existing then o
      else
        let o := { o with ftype := BitVec.ofNat 2 h.ftype, show_ := h.shown }
        if h.ftype = 0 ∧ h.shown then { o with refresh := 0xFF } else o
    | none => o
  match vdSeq f bits with
  | some (_, q) =>
    let o := { o with grain := o.grain && q.grain }
    if q.reduced then { o with dims := (q.w, q.h) } else o
  | none => o

/-- The size of a frame whose header did not parse (R235). -/
def vdGuess (f : Frame) (bits : List Byte) : Option (Nat × Nat) :=
  match vdSeq f bits with
  | some (_, q) => some (q.w, q.h)
  | none =>
    if vdCw f.record ≠ 0 ∧ vdCh f.record ≠ 0 then
      some (vdX0 f.record + vdCw f.record, vdY0 f.record + vdCh f.record)
    else none

/-- The output of a frame of given size does not fit its destination (R231). -/
def vdTooBig (s : State) (f : Frame) (x : Nat × Nat) : Bool :=
  let (rb, cap) := vdRoom s f.core f.unit f.record
  decide (vdBase f.record + vdRows f.record x.1 x.2 rb > cap)

/-- A parsed header that the decoder refuses (R229, R230, R231). -/
def vdHdrBad (s : State) (f : Frame) (q : Av1Seq) (d : Nat × Nat) : Bool :=
  !vdInside f.record d.1 d.2 || (q.mono && vdPlanes f.record != 1) || decide (vdNeed d.1 d.2 q.mono > vdBufLen f.record)
    || vdTooBig s f d

/-- The outcome once the frame header stands at offset `off`: what the header itself breaks, then the references, then the tiles and
the OBUs that follow, the earlier first (R233, R235; DEDUCED, assumption 19). -/
def vdParsed (s : State) (f : Frame) (bits : List Byte) (o : Config.Av1Out) (q : Av1Seq) (badRef : Bool) (off : Nat) : VdOutcome :=
  let sc := av1Scan bits
  let c := vdUnder f bits
  let slots := (vdRefs f bits).map (·.1)
  let at_ (code used : Nat) : VdOutcome := { code := code, size := some o.dims, used := used, known := true }
  let own : Option (Nat × Nat) :=
    if o.code = 0 then none else some (if o.code = 1 then 1 else 3, max off (obuOff bits o.obu))
  let stop : Option (Nat × Nat) := match own, sc.stop with
    | some x, some y => some (if x.2 ≤ y.2 then x else y)
    | some x, none => some x
    | none, y => y
  if vdHdrBad s f q o.dims then at_ 3 off
  else if levelOver q o.dims then at_ 1 off
  else if slots.any fun i => (vdSlot c i).isNone then at_ 2 off
  else if badRef then at_ 1 off
  else match stop with
    | some (code, used) => { at_ code used with bad := o.badSb, good := o.good }
    | none => { at_ (if slots.any fun i => c.taint.getLsbD i then 4 else 0) sc.used with bad := 0xFFFF_FFFF }

def vdOutcome (s : State) (f : Frame) (bits refs : List Byte) (badRef : Bool) : VdOutcome :=
  let sc := av1Scan bits
  let o := vdFrame f bits refs
  let guess (code used : Nat) : VdOutcome :=
    let size := vdGuess f bits
    if code = 3 || (size.map (vdTooBig s f)).getD false then { code := 3, size := none, used := used }
    else { code := code, size := size, used := used }
  match sc.frame, vdSeq f bits with
  | none, _ => guess ((sc.stop.map (·.1)).getD 1) ((sc.stop.map (·.2)).getD 0)
  | some off, none => guess 1 off
  | some off, some (_, q) =>
    if o.parsed || o.code = 0 then vdParsed s f bits o q badRef off
    else guess (if o.code = 1 then 1 else 3) off

/-- The control block after the frame (R230, R235, R236). -/
def vdBlock (f : Frame) (bits : List Byte) (o : Config.Av1Out) (x : VdOutcome) (buf : Nat) : List Byte :=
  let c := vdCtl f
  let ok := x.code == 0 || x.code == 4
  let r : BitVec 8 := if x.known then o.refresh else 0xFF
  ctlBlock
    { seq := if ok then (vdUnder f bits).seq else c.seq
      slots := if ok then (List.range 8).map fun i => if r.getLsbD i then some buf else vdSlot c i else c.slots
      taint := if x.code = 0 then c.taint &&& ~~~r else c.taint ||| r }
    (if ok then o.grainParams else (f.ctl.drop 0xC00).take 0x80)

/-- Writes a range of the group's memory, granule by granule. -/
def engStores (s : State) (core eng ctx va : Nat) (bs : List Byte) : Except EngStop State :=
  foldE (fun s p => engStore s core eng ctx (va + p.1) ((bs.drop p.1).take p.2) false) s (piecesOf 32 va bs.length)

/-- The lowest-numbered buffer that no slot maps (R230). -/
def vdFree (f : Frame) : Nat := ((List.range 9).find? fun b => !(vdCtl f).slots.contains (some b)).getD 0

/-- What a frame's decoding gives. -/
inductive VdRes where
  | wait (s : State)
  | page (va : Nat)
  | ended (s : State) (e : FrameEnd)
deriving DecidableEq, Repr

/-- The frame's status bits [9:5] as a number: grain present, PSN, frame_type, show_frame (R233). -/
def vdBits (o : Config.Av1Out) (known psn : Bool) : Nat :=
  b2n psn * 8 + (if known then b2n o.grain * 16 + o.ftype.toNat * 2 + b2n o.show_ else 0)

/-- The frame's destination is a tile, or a buffer that its context still owns (R44). -/
def vdOwned (s : State) (f : Frame) (ctx : Nat) : Bool := vdTile f.record || obOwned s f.core ctx

/-- Decodes a frame: its rows and tags, its frame buffer, and how it will end (R230 to R236). `err` tells which kind of end is
wanted. -/
def vdRun (s : State) (d : Nat) (f : Frame) (ctx : Nat) (err : Bool) : VdRes :=
  if !vdOwned s f ctx then (if err then .wait s else .ended s (vdRefuse f.record 0))
  else match vdMem s d f ctx with
  | .wait s => .wait s
  | .page va => .page va
  | .got s' bits refs bad =>
    let bs := f.record
    let o := vdFrame f bits refs
    let x := vdOutcome s' f bits refs bad
    let s := engClear s' f.core (decEng d)
    if (x.code == 1 || x.code == 2) != err then .wait s'
    else if x.code = 3 then .ended s { vdRefuse bs x.used with bits := vdBits o x.known false }
    else
      let (rb, _) := vdRoom s f.core f.unit bs
      let deep := ((vdSeq f bits).map (·.2.deep)).getD false
      let rows := match x.size with
        | some (w, h) =>
          vdOut bs w h (if deep then 10 else 8) rb (if err then x.good else vdRows bs w h rb)
            (Config.av1Sample bits (vdUnder f bits) refs (wfld (recWord bs 4) 34 1 == 1))
        | none => []
      let e : FrameEnd := { vdRefuse bs x.used with sectors := (rows.length * rb + 31) / 32, rows := rows.length }
      let recon := (Config.av1Recon bits (vdUnder f bits) refs).take (vdBufLen bs)
      match engStores s f.core (decEng d) ctx (vdBufAt bs (vdFree f)) recon with
      | .error (.wait s) => .wait s
      | .error (.page va) => .page va
      | .error .fail => .ended (vdWrite s f true rows) { e with bits := vdBits o x.known true }
      | .ok s =>
        .ended (vdWrite s f (x.code != 0) rows)
          { e with code := x.code, bits := vdBits o x.known (x.code != 0), bad := x.bad.toNat,
                   block := vdBlock f bits o x (vdFree f) }

/-! ### The steps of R234 -/

/-- The end of a frame whose control block cannot be written: its rows are poisoned and its code is 3 (R230). -/
def vdLost (s : State) (f : Frame) (ctx : Nat) (e : FrameEnd) : State × FrameEnd :=
  (if vdTile f.record || !vdOwned s f ctx then s
    else (List.range e.rows).foldl (fun s i => setTag s f.core (vdDest f.record) (vdBase f.record + i) true) s,
   { e with code := 3, bad := 0xFFFF_FFFF, bits := e.bits ||| 8, block := [] })

/-- The cause, the status record and the arrival, and the decoder is free (R234); none while one of them must wait. -/
def vdPost (s : State) (d : Nat) (f : Frame) (e : FrameEnd) : Option State :=
  match (if e.sirq then uiCause s f.core f.unit e.bar 4 else some s) with
  | none => none
  | some s =>
    let s := postFrame s f.core f.gslot e
    (if e.be then arrive s f.core f.unit e.bar 0 1 (e.code != 0) else some s).map fun s => dropDec s d f

/-- The control block is written once what follows it can happen, and the status record, the cause and the arrival follow when the
write is complete (R230, R234, R271; DEDUCED, assumption 6). -/
def vdLast (s : State) (d : Nat) (f : Frame) (ctx : Nat) (e : FrameEnd) : State :=
  let hold : State := setDec s d f
  if engWaits s f.core (decEng d) || (vdPost s d f e).isNone then hold
  else if e.block.isEmpty || f.ending then (vdPost s d f e).getD hold
  else match engStores s f.core (decEng d) ctx (vdScratch f.record) e.block with
    | .ok s => setDec s d { f with fin := some e, ending := true }
    | .error (.wait _) => hold
    | .error (.page va) => engPage (setDec s d { f with held := true }) f.core ctx (64 + d) va
    | .error .fail =>
      let x := vdLost s f ctx e
      (vdPost x.1 d f x.2).getD (setDec x.1 d { f with fin := some x.2 })

/-- The steps after the rows: the sectors, then the rest; a step that must wait leaves the frame as it is (R234). -/
def vdSteps (s : State) (d : Nat) (f : Frame) (ctx : Nat) (e : FrameEnd) : State :=
  let left := e.sectors - f.subtracted
  let nbar := ((getUnit s f.core f.unit).map (·.nbar)).getD 0
  match (if left = 0 ∨ e.bar ≥ nbar then some s else arrive s f.core f.unit e.bar (-(BitVec.ofNat 32 left)) 0 false) with
  | none => setDec s d f
  | some s => vdLast s d { f with subtracted := max f.subtracted e.sectors } ctx e

/-- The frame ends in one way or the other, or goes on with its steps. -/
def vdEnd (s : State) (d : Nat) (err : Bool) : State :=
  match vdReady s d with
  | none => s
  | some (f, ctx, _) =>
    match f.fin with
    | some e => if err then s else vdSteps s d f ctx e
    | none =>
      if f.ctl.isEmpty then s
      else match vdRun s d f ctx err with
        | .wait s => s
        | .page va => engPage (setDec s d { f with held := true }) f.core ctx (64 + d) va
        | .ended s e => vdSteps s d { f with fin := some e } ctx e

/-- DECODE_ERROR_STOP: the first detected error stops the frame (R235). -/
def execDecodeErrorStop (dec : Nat) (s : State) : Out := .next (vdEnd s dec true)

/-- DECODE_FRAME_FINISH: the frame finishes with the steps of R234. -/
def execDecodeFrameFinish (dec : Nat) (s : State) : Out := .next (vdEnd s dec false)

end Sys2Proof.Machine
end

