-- ==== Sys2Proof/Machine/EvArrive.lean ====
section
/-! DEFINITION. DEFERRED_ARRIVE: an arrival or a cause that waited is applied, with the steps that follow it (R105, R182, R199,
R221, R225, R234). -/

namespace Sys2Proof.Machine

/-- A matrix command whose rows are done and whose arrival waits. -/
def mxDeferred (s : State) (core : Nat) : State :=
  match (getMx s core).run with
  | [] => s
  | r :: _ => if !mxStopped s core r && decide (r.rowsDone ≥ (mxCmd r.ent.bits).work) then mxEnd s core r else s

/-- DEFERRED_ARRIVE: `idx` names what waits: 0 to 3 a copy channel, 4 the matrix engine, 5 + d a frame of decoder d. -/
def execDeferredArrive (core idx : Nat) (s : State) : Out :=
  if idx < 4 then
    match mfind (getCore s core).chans idx with
    | some c => if c.fstep = 0 then .next s else .next (cpFinish s core idx)
    | none => .next s
  else if idx = 4 then .next (mxDeferred s core)
  else
    match mfind s.decs (idx - 5) with
    | some f => if f.core = core ∧ f.fin.isSome then .next (vdEnd s (idx - 5) false) else .next s
    | none => .next s

end Sys2Proof.Machine
end

