-- ==== Sys2Proof/Machine/Ordering.lean ====
section
/-! DEFINITION. The steps of the ordering machine: bind, drain, deliver, complete, publish (R263 to R266, R273 to R277),
accesses from outside (R314, R316) and translation walks (R292 to R295). -/

namespace Sys2Proof.Machine

/-! ### Bind (R263, R276) -/

/-- Changes an entry of LQ. -/
def modLq (s : State) (core gslot seq : Nat) (f : LEntry → LEntry) : State :=
  modGroup s core gslot fun g => { g with lq := g.lq.map fun e => if e.seq = seq then f e else e }

def setPiece (s : State) (core gslot seq i : Nat) (p : LPiece) : State :=
  modLq s core gslot seq fun e => { e with pieces := setAt e.pieces i p }

/-- A piece of a load that has not taken its bytes, or that holds uncorrectable data until its handler returns (R263, R281). -/
def LPiece.unbound (p : LPiece) : Bool := p.val.isNone || (p.bad && !p.tol)

/-- An older load of the group to an overlapping granule is unbound. -/
def olderUnbound (g : Group) (e : LEntry) (p : LPiece) : Bool :=
  g.lq.any fun o => decide (o.seq < e.seq) && o.pieces.any fun q => q.unbound && sameGran q.tgt q.addr p.tgt p.addr

/-- An STLO of the group to the cell, older than an LDLO, has not drained: it waits in SQ or in the hold queue, or the store that
removed it waits (R275, R276). A release that removed it waits for the LDLO (R264), so the LDLO does not wait for the release (DEDUCED,
assumption 24). -/
def stloWaiting (g : Group) (seq addr : Nat) : Bool :=
  (g.hold ++ g.sq).any fun x => !x.drained &&
    match x.kind with
    | .stlo _ => x.pieces.any fun q => sameCell q.addr addr &&
        (decide (x.seq < seq) || !x.rel && q.removed.any fun r => decide (r.2 < seq))
    | _ => false

/-- A piece of a load asks its home now (R263, R276). -/
def asksHome (s : State) (core : Nat) (g : Group) (e : LEntry) (p : LPiece) : Bool :=
  !p.sent && p.val.isNone && !olderUnbound g e p &&
    (if e.kind = .lo then !stloWaiting g e.seq p.addr
     else match localBytes s core g e.seq p.tgt p.addr p.len (e.kind == .poll) with
      | .error false => true
      | _ => false)

/-- The pieces of a load that lie in the sector of one of them and ask its home now: one request carries them all (R297). -/
def sectorPieces (s : State) (core : Nat) (g : Group) (e : LEntry) (p : LPiece) : List LPiece :=
  e.pieces.filter fun q => sameGran q.tgt q.addr p.tgt p.addr && asksHome s core g e q

/-- The load's request for a sector enters the path to its home. -/
def sendRead (s : State) (core gslot : Nat) (g : Group) (e : LEntry) (p : LPiece) : State :=
  let qs := sectorPieces s core g e p
  let mark (q : LPiece) : LPiece :=
    if qs.contains q then
      { q with sent := true, fwd := if e.kind = .lo then [] else fwdOf g e.seq q.tgt q.addr q.len }
    else q
  pathPush (modLq s core gslot e.seq fun e => { e with pieces := e.pieces.map mark }) core (homeOf s p.tgt p.addr)
    { gslot := gslot, seq := e.seq, tgt := p.tgt, addr := p.addr, va := p.va, tol := p.tol, kind := .read (e.kind == .lo),
      parts := qs.map fun q => { lane := q.lane, off := q.off, addr := q.addr, len := q.len } }

/-- The granules that a response is about. -/
def respGrans : Resp → List Nat
  | .demote _ gr => [gr]
  | .ack _ _ _ _ .dev gr _ _ _ _ => [gr]
  | .answer _ _ .dev _ gr _ _ _ _ _ => [gr]
  | .wrote _ .dev gr _ _ _ => [gr]
  | .discDone _ _ gs _ => gs.map (·.1)
  | _ => []

/-- Responses about one granule reach a core in the order in which home made them (DEDUCED from R283, assumption 25). -/
def respFirst (l : List Resp) (i : Nat) : Bool :=
  match l[i]? with
  | none => false
  | some r => (respGrans r).all fun gr => !(l.take i).any fun q => (respGrans q).contains gr

/-- A response is the answer for a piece of a load. -/
def isAnswerFor (gslot seq : Nat) (p : LPiece) : Resp → Bool
  | .answer gs q _ _ _ _ _ ps _ _ => gs == gslot && q == seq && ps.any fun x => x.1 == p.lane && x.2.1 == p.off
  | _ => false

def dropResp (s : State) (core i : Nat) : State :=
  let k := getCore s core
  setCore s core { k with resp := dropAt k.resp i }

/-- A piece with what an answer brings for it: the bytes that the group's own older stores supplied when the request was sent stand
over it (R263); a tolerant page and a decoded range substitute for uncorrectable data (R309, R164). -/
def boundPiece (t : Tgt) (ps : List (Nat × Nat × List Byte)) (bad : Bool) (p : LPiece) : LPiece :=
  match ps.find? fun x => x.1 == p.lane && x.2.1 == p.off with
  | none => p
  | some (_, _, bs) =>
    let dec := match t with
      | .dec _ => true
      | _ => false
    let data := if bad && p.tol && !dec then List.replicate p.len 0 else bs
    { p with val := some (underFwd p.fwd data), bad := bad, tol := p.tol || dec }

/-- The answer of a home is bound and installed (R263, R309). -/
def bindAnswer (s : State) (core gslot seq : Nat) (p : LPiece) : State :=
  let k := getCore s core
  match k.resp.findIdx? (isAnswerFor gslot seq p) with
  | none => s
  | some j =>
    if !respFirst k.resp j then s
    else match k.resp[j]? with
      | some (.answer _ _ t _ gr ver v ps bad lo) =>
        let s := dropResp s core j
        let s := if lo || bad then s else l1Copy s core t gr ver v
        finishLoad (modLq s core gslot seq fun e => { e with pieces := e.pieces.map (boundPiece t ps bad) }) core gslot seq
      | _ => s

/-- LOAD_BIND: one piece of an unbound load takes its bytes, or its sector's request goes to its home while fewer than 256 are
outstanding (R263, R297). The load part of an ATOM or XST is bound by its acknowledgement. -/
def execLoadBind (core gslot entry piece : Nat) (s : State) : Out :=
  match getGroup s core gslot with
  | none => .next s
  | some g =>
    match g.lq[entry]? with
    | none => .next s
    | some e =>
      match e.kind, e.pieces[piece]? with
      | .atom _, _ | .xst, _ | _, none => .next (finishLoad s core gslot e.seq)
      | kind, some p =>
        if p.val.isSome then .next (finishLoad s core gslot e.seq)
        else if p.sent then .next (bindAnswer s core gslot e.seq p)
        else if asksHome s core g e p then
          if outstanding s core ≥ 256 then .next s else .next (sendRead s core gslot g e p)
        else if kind = .lo || olderUnbound g e p then .next s
        else match localBytes s core g e.seq p.tgt p.addr p.len (kind == .poll) with
          | .ok bs =>
            .next (finishLoad (setPiece s core gslot e.seq piece { p with val := some bs }) core gslot e.seq)
          | .error _ => .next s

/-! ### Drain (R264) -/

/-- Every older load of the group is bound. -/
def loadsBefore (g : Group) (seq : Nat) : Bool := g.lq.any fun e => decide (e.seq < seq)

/-- An older load that has not gone to its home reads bytes that the entry writes: program order between overlapping
accesses of one group (R261; DEDUCED, assumption 26). An LDLO that waits for a store which the entry removed goes behind the entry
(assumption 24). -/
def readsFirst (g : Group) (x : SEntry) : Bool :=
  (liveLq g).any fun e => decide (e.seq < x.seq) && e.pieces.any fun p => p.val.isNone && !p.sent &&
    x.pieces.any fun q => overlaps p.tgt p.addr p.len q.tgt q.addr (q.len x.kind)
      && !(e.kind == .lo && q.removed.any fun r => decide (r.2 < e.seq))

/-- The kinds that drain under the release condition. -/
def relDrain (x : SEntry) : Bool :=
  x.rel || match x.kind with
    | .fenceRel | .fenceAr | .pub _ | .disc => true
    | _ => false

/-- What a store asks its home. -/
def reqKind (x : SEntry) : ReqKind :=
  match x.kind with
  | .xst => .xst
  | .atom op => .atom op (2 ^ x.size)
  | .stlo md => .stlo md
  | _ => .store

/-- The request that carries the pieces of an entry in one sector, in lane order. -/
def storeReq (gslot : Nat) (x : SEntry) (p : SPiece) (ps : List SPiece) : Req :=
  { gslot := gslot, seq := x.seq, tgt := p.tgt, addr := p.addr, va := p.va, tol := p.tol, kind := reqKind x, rel := x.rel,
    parts := ps.map fun q => { lane := q.lane, off := q.off, addr := q.addr, len := q.data.length, bytes := q.data,
                               removed := q.removed } }

/-- The pieces of an entry enter the paths to their homes, one request for each sector (R297). -/
def sendStores (s : State) (core gslot : Nat) (x : SEntry) : State :=
  (bySector (fun p => (p.tgt, p.addr)) x.pieces).foldl (fun s ps => match ps with
    | [] => s
    | p :: _ => pathPush s core (homeOf s p.tgt p.addr) (storeReq gslot x p ps)) s

/-- A DISCARD goes to every dome that holds part of its range (R307). -/
def sendDiscard (s : State) (core gslot : Nat) (x : SEntry) : State :=
  (List.range Config.domes).foldl (fun s d =>
    match (x.pieces.map (·.addr)).filter fun a => domeOf s a == d with
    | [] => s
    | a :: as => pathPush s core d
        { gslot := gslot, seq := x.seq, tgt := .dev, addr := a, va := 0, tol := false, kind := .disc (a :: as), parts := [] }) s

/-- Domes that hold part of a list of pages. -/
def domesOf (s : State) (pages : List Nat) : Nat :=
  ((List.range Config.domes).filter fun d => pages.any fun a => domeOf s a == d).length

def modSq (s : State) (core gslot seq : Nat) (f : SEntry → SEntry) : State :=
  modGroup s core gslot fun g => { g with sq := g.sq.map fun e => if e.seq = seq then f e else e }

def dropSq (s : State) (core gslot seq : Nat) : State :=
  modGroup s core gslot fun g => { g with sq := g.sq.filter fun e => e.seq != seq }

/-- The oldest entry is a PUB marker that has drained and has not published yet: nothing drains behind it (R277, R413). -/
def pubPending (g : Group) : Bool :=
  match g.sq with
  | x :: _ => match x.kind with
    | .pub _ => x.drained
    | _ => false
  | [] => false

/-- SQ_DRAIN: the oldest waiting entry drains when its condition holds (R264). -/
def execSqDrain (core gslot : Nat) (s : State) : Out :=
  match getGroup s core gslot with
  | none => .next s
  | some g =>
    match g.sq.find? (fun x => !x.drained) with
    | none => .next s
    | some x =>
      if pubPending g then .next s
      else if relDrain x && (loadsBefore g x.seq || (g.sq.head?.map (·.seq)) != some x.seq) then .next s
      else if readsFirst g x then .next s
      else
        match x.kind with
        | .fenceRel => .next (dropSq s core gslot x.seq)
        | .fenceAr => .next (acquire (dropSq s core gslot x.seq) core)
        | .pub _ => .next (modSq s core gslot x.seq fun e => { e with drained := true })
        | .disc =>
          let n := domesOf s (x.pieces.map (·.addr))
          let s := modSq s core gslot x.seq fun e => { e with drained := true, wait := n }
          .next (sendDiscard s core gslot x)
        | _ =>
          let s := modSq s core gslot x.seq fun e => { e with drained := true }
          .next (sendStores s core gslot x)

/-- PUB_PUBLISH: a drained PUB marker publishes its window and leaves SQ (R277). -/
def execPubPublish (core gslot : Nat) (s : State) : Out :=
  match getGroup s core gslot with
  | none => .next s
  | some g =>
    match g.sq with
    | [] => .next s
    | x :: _ =>
      match x.kind with
      | .pub w =>
        if !x.drained || (s.hostDown && frFull s) then .next s
        else
          let ps := mget [] s.pubs w
          let vc := wfld (winWord s w) 3 61 * 8
          let s := { s with pubs := mdel s.pubs w }
          let s := if s.hostDown then hostDrop s core g.ctx vc
            else
              let s := ps.foldl (fun s p => { s with host := memWrites s.host p.addr p.bytes }) s
              { s with host := memWrites s.host vc (bytesOf 8 (natOf (memReads s.host vc 8) + 1)) }
          .next (dropSq s core gslot x.seq)
      | _ => .next s

/-! ### Deliver (R265) -/

/-- The sector that an error names. -/
def errSector : BitErr → Nat
  | .none => 0
  | .corrected x | .uncorrectable x | .remap x => x

/-- What goes wrong with the bits of a sector that a dome reads (R298, R309, R311). -/
def bitError (s : State) (d : Nat) : BitErr → State
  | .none => s
  | .corrected _ =>
    let x := mget {} s.domes d
    { s with domes := mset s.domes d { x with cecnt := min (2 ^ 32 - 1) (x.cecnt + 1) } }
  | .uncorrectable x => { s with uncorr := mput 0 s.uncorr x (BitVec.allOnes 32) }
  | .remap x =>
    let base := alignDown (32 * x) 4096
    if s.rowsBad.contains (base, 4096) then s
    else postFault { s with rowsBad := s.rowsBad ++ [(base, 4096)] } (mkFault 4 0 0 0 0 false 0 (dw base) 4096)

/-- Old values that an acknowledgement carries for the parts of a request: none for a store. -/
def Req.olds (r : Req) : List (Nat × Nat × List Byte) := r.parts.map fun p => (p.lane, p.off, [])

/-- The stores that the parts of a request displaced. -/
def Req.gone (r : Req) : List (Nat × Nat) := (r.parts.map (·.removed)).flatten

/-- A core's writes at the home of a device granule: bytes, version, demotion, owner and acknowledgement (R265). -/
def serveDevStore (s : State) (core : Nat) (r : Req) (ws : List (Nat × List Byte)) (olds : List (Nat × Nat × List Byte)) :
    State :=
  let (s, dem) := sendDemote s (some core) r.addr
  let s := devWrites s r.addr ws
  let s := setGran s r.addr { ver := (granOf s r.addr).ver + 1, owner := some core }
  let msg : Resp := match r.kind with
    | .eng e _ => .wrote e .dev (r.addr / 32) (granOf s r.addr).ver (granVal s r.addr) dem
    | _ => .ack r.gslot r.seq olds r.gone .dev (r.addr / 32) (granOf s r.addr).ver (granVal s r.addr) false dem
  pushResp s core msg

/-- An acknowledgement that installs nothing. -/
def plainAck (s : State) (core : Nat) (r : Req) (olds : List (Nat × Nat × List Byte)) (bad : Bool) : State :=
  pushResp s core (match r.kind with
    | .eng e _ => .wrote e .host 0 0 none []
    | _ => .ack r.gslot r.seq olds r.gone .host 0 0 none bad [])

/-- The context that a request acts for. -/
def reqCtx (s : State) (core : Nat) (r : Req) : Nat :=
  match r.kind with
  | .eng _ ctx | .eread _ ctx => ctx
  | _ => ((getGroup s core r.gslot).map (·.ctx)).getD 0

/-- Bytes with later writes over them. -/
def withWrites (ws : List (Nat × List Byte)) (a : Nat) (bs : List Byte) : List Byte :=
  bs.zipIdx.map fun x => ws.foldl (fun b w =>
    if w.1 ≤ a + x.2 ∧ a + x.2 < w.1 + w.2.length then w.2.getD (a + x.2 - w.1) 0 else b) x.1

/-- Read-modify-writes of the parts of a request, one after another in lane order: the writes and the old values. `rd` reads the
memory before them. -/
def rmwRun (rd : Nat → Nat → List Byte) (n : Nat) (f : List Byte → List Byte → List Byte) :
    List RPart → List (Nat × List Byte) → List (Nat × List Byte) × List (Nat × Nat × List Byte)
  | [], ws => (ws, [])
  | p :: ps, ws =>
    let old := withWrites ws p.addr (rd p.addr n)
    let r := rmwRun rd n f ps (ws ++ [(p.addr, f old p.bytes)])
    (r.1, (p.lane, p.off, old) :: r.2)

/-- The 32 bytes of a sector, with zeros for those that cannot be read. -/
def readable (s : State) (base : Nat) : List Byte :=
  (List.range 32).map fun i => if bytesBad s (base + i) 1 then 0 else (devRead s (base + i) 1).headD 0

/-- A request for those of its parts that satisfy a test. -/
def Req.only (r : Req) (f : RPart → Bool) : Req := { r with parts := r.parts.filter f }

/-- A request's part that touches uncorrectable bytes. -/
def partBad (s : State) (p : RPart) : Bool := bytesBad s p.addr p.len

/-- A read-modify-write at its home. On uncorrectable bytes a tolerant page reads zero and the sector is rewritten whole; on any
other page nothing is written there and the load part is uncorrectable (R309). `n` is the access's bytes, and `f` takes the old bytes
and the operand. -/
def serveRmw (s : State) (core : Nat) (r : Req) (n : Nat) (f : List Byte → List Byte → List Byte) : State :=
  let zeros (ps : List RPart) : List (Nat × Nat × List Byte) := ps.map fun p => (p.lane, p.off, List.replicate n 0)
  let dev (s : State) (r : Req) : State :=
    let x := rmwRun (devRead s) n f r.parts []
    serveDevStore s core r x.1 x.2
  match r.tgt with
  | .dev =>
    if !r.parts.any (partBad s) then dev s r
    else if r.tol then
      let base := alignDown r.addr 32
      let ones := readable s base
      let x := rmwRun (fun a n => (ones.drop (a - base)).take n) n f r.parts []
      serveDevStore s core r ((base, ones) :: x.1) x.2
    else
      -- the lanes whose bytes can be read go on
      let b := r.only (partBad s)
      let g := r.only fun p => !partBad s p
      let s := plainAck s core b (zeros b.parts) true
      if g.parts.isEmpty then s else dev s g
  | t =>
    if linkLost s t then hostDrop (plainAck s core r (zeros r.parts) true) core (reqCtx s core r) r.addr
    else
      let x := rmwRun (homeRead s t) n f r.parts []
      plainAck (x.1.foldl (fun s w => homeWrite s (reqCtx s core r) t w.1 w.2) s) core r x.2 false

/-- The result of an ATOM (R357): `d` is the operand, for .cas the compare value and then the new one. -/
def atomNew (op : AtomOp) (n : Nat) (old : Nat) (d : List Byte) : Nat :=
  let v := natOf (d.take n)
  let so := sInt (8 * n) old
  let sv := sInt (8 * n) v
  match op with
  | .add => (old + v) % 2 ^ (8 * n)
  | .minS => if so ≤ sv then old else v
  | .maxS => if so ≤ sv then v else old
  | .minB => min old v
  | .maxB => max old v
  | .and => old &&& v
  | .or => old ||| v
  | .xor => old ^^^ v
  | .exch => v
  | .cas => if old = v then natOf (d.drop n) else old
  | .fadd => (fAdd fp32 .rne false (unpack fp32 old) (unpack fp32 v)).v

/-- What a latest-only store leaves in a cell of the given bytes, none when it is dropped (R273). -/
def stloCell (md : Bool) (cell bs : List Byte) : Option (List Byte) :=
  let rst := fld (natOf cell) 120 8
  let out (rst : Nat) : List Byte := bs.take 8 ++ bytesOf 7 (loSeq bs) ++ bytesOf 1 rst
  if md then some (out ((rst + 1) % 256))
  else if loSeq bs > loSeq cell then some (out rst)
  else none

/-- Latest-only stores at their home: a dropped one changes no version and causes no demotion (R273). -/
def serveStlo (s : State) (core : Nat) (r : Req) (md : Bool) : State :=
  let ws := r.parts.foldl (fun ws p =>
    match stloCell md (withWrites ws p.addr (devRead s p.addr 16)) p.bytes with
    | some bs => ws ++ [(p.addr, bs)]
    | none => ws) []
  if ws.isEmpty then plainAck s core r r.olds false else serveDevStore s core r ws r.olds

/-- A store at its home. -/
def serveStore (s : State) (core : Nat) (r : Req) : State :=
  match r.tgt with
  | .dev => serveDevStore s core r (r.parts.map fun p => (p.addr, p.bytes)) r.olds
  | t =>
    if linkLost s t then hostDrop (plainAck s core r r.olds false) core (reqCtx s core r) r.addr
    else plainAck (r.parts.foldl (fun s p => homeWrite s (reqCtx s core r) t p.addr p.bytes) s) core r r.olds false

/-- The granules of a page. -/
def pageGrans (a : Nat) : List Nat := (List.range 128).map fun i => a + 32 * i

/-- A DISCARD at one dome: a store of zeros to every granule of its pages, which are dead from then on (R307). -/
def serveDiscard (s : State) (core : Nat) (r : Req) (pages : List Nat) : State :=
  let x := ((pages.map pageGrans).flatten).foldl (fun (acc : State × List Nat × List (Nat × Nat)) a =>
    let d := sendDemote acc.1 (some core) a
    let v := (granOf d.1 a).ver + 1
    (setGran d.1 a { ver := v, owner := some core }, acc.2.1 ++ d.2, acc.2.2 ++ [(a / 32, v)])) (s, [], [])
  let s := pages.foldl (fun s a =>
    { pinHit s a with
      mem := memClear s.mem a 4096
      uncorr := s.uncorr.filter fun x => decide (x.1 < a / 32) || decide (a / 32 + 128 ≤ x.1)
      dead := if s.dead.contains (a / 4096) then s.dead else s.dead ++ [a / 4096] }) x.1
  pushResp s core (.discDone r.gslot r.seq x.2.2 x.2.1)

/-- The answer of a read: each part's bytes out of a sector's 32 bytes. -/
def partsOf (r : Req) (base : Nat) (sector : List Byte) : List (Nat × Nat × List Byte) :=
  r.parts.map fun p => (p.lane, p.off, (sector.drop (p.addr - base)).take p.len)

/-- A decoded read at a dome: the sector, or its substitute (R164). -/
def serveDecoded (s : State) (core : Nat) (r : Req) (ctx va : Nat) : State :=
  let base := alignDown va 32
  let (bs, sub) := decodeRead s ctx base 32
  pushResp (domeHit s (.dec ctx) va) core
    (.answer r.gslot r.seq (.dec ctx) r.addr (granKey (.dec ctx) va) 0 bs (partsOf r (alignDown r.addr 32) bs) sub false)

/-- A read at its home: the value and the version (R265, R309). A format range decides as it stands when the read reaches its dome
(R163): an address that lies in a live range by now is decoded, and one whose range is retired is read through the page tables and
installed nowhere; where they fail it the answer is zero, substituted (assumption 70). -/
def serveRead (s : State) (core : Nat) (r : Req) (lo : Bool) : State :=
  let base := alignDown r.addr 32
  match r.tgt with
  | .dev =>
    if !lo && (rangeOf s (reqCtx s core r) r.va).isSome then serveDecoded s core r (reqCtx s core r) r.va
    else
      let give (s : State) (r : Req) (bad : Bool) : State :=
        pushResp s core (.answer r.gslot r.seq .dev r.addr (granKey .dev r.addr) (granOf s r.addr).ver (devRead s base 32)
          (partsOf r base (devRead s base 32)) bad (lo || sectorBad s base))
      -- the lanes whose bytes can be read have an answer of their own (R309)
      if r.parts.any (partBad s) && r.parts.any (fun p => !partBad s p) then
        give (give s (r.only fun p => !partBad s p) false) (r.only (partBad s)) true
      else give s r (r.parts.any (partBad s) || (r.parts.isEmpty && sectorBad s base))
  | .dec c =>
    if (rangeOf s c r.addr).isSome then serveDecoded s core r c r.addr
    else
      match xlatePage s c r.addr .load false with
      | .ok .dev a _ =>
        pushResp s core (.answer r.gslot r.seq .host r.addr 0 0 [] (partsOf r base (devRead s (alignDown a 32) 32))
          (bytesBad s (alignDown a 32) 32) false)
      | _ =>
        pushResp s core (.answer r.gslot r.seq (.dec c) r.addr 0 0 [] (partsOf r base (List.replicate 32 0)) true false)
  | t =>
    pushResp s core (.answer r.gslot r.seq t r.addr 0 0 []
      (r.parts.map fun p => (p.lane, p.off, homeRead s t p.addr p.len)) (linkLost s t) lo)

/-- An engine's read at its home (R265, R270, R309): format ranges decide as they stand when it gets there (R163), as for a load. -/
def serveERead (s : State) (core : Nat) (r : Req) (eng ctx : Nat) : State :=
  let idx := (r.parts.head?.map (·.lane)).getD 0
  let n := (r.parts.head?.map (·.len)).getD 0
  let give (s : State) (v : List Byte) (sub bad : Bool) : State := pushResp s core (.got eng idx v sub bad)
  let plain (v : List Byte) (bad tol : Bool) : State :=
    if bad then give s (List.replicate n 0) tol (!tol) else give s v false false
  let decoded (c va : Nat) : State :=
    let (v, sub) := decodeRead s c va n
    give (domeHit s (.dec c) va) v sub false
  match r.tgt with
  | .dev =>
    if (rangeOf s ctx r.va).isSome then decoded ctx r.va
    else plain (devRead s r.addr n) (bytesBad s r.addr n) r.tol
  | .dec c =>
    if (rangeOf s c r.addr).isSome then decoded c r.addr
    else match xlatePage s c r.addr .load false with
      | .ok .dev a tol => plain (devRead s a n) (bytesBad s a n) tol
      | _ => give s (List.replicate n 0) true false
  | t => plain (homeRead s t r.addr n) (linkLost s t) r.tol

/-- A request is served in one step (R265). -/
def serve (s : State) (core : Nat) (r : Req) : State :=
  let s := match r.tgt, r.kind with
    | .dev, .disc _ => s
    | .dev, _ => pinHit s r.addr
    | _, _ => s
  match r.kind with
  | .store | .eng .. => serveStore s core r
  | .xst => serveRmw s core r (((r.parts.head?.map (·.bytes.length))).getD 0) fun _ d => d
  | .atom op n => serveRmw s core r n fun old d => bytesOf n (atomNew op n (natOf old) d)
  | .stlo md => serveStlo s core r md
  | .disc pages => serveDiscard s core r pages
  | .read lo => serveRead s core r lo
  | .eread eng ctx => serveERead s core r eng ctx

/-- HOME_DELIVER: what a dome finds wrong with the bits of a sector that it reads for any agent, and then the head request of a
path is served; the domes of a stack that retrains hold theirs (R265, R298, R341). -/
def execHomeDeliver (core home : Nat) (err : BitErr) (s : State) : Out :=
  if homeHeld s home then .next s
  else
    let s := if home < 80 && domeOf s (32 * errSector err) == home then bitError s home err else s
    match pathReqs s core home with
    | [] => .next s
    | r :: rs =>
      -- a store that is dropped waits for room for its record (R316, R320)
      let reads := match r.kind with
        | .read _ | .eread .. => true
        | _ => false
      if linkLost s r.tgt && !reads && frFull s then .next s
      else .next (serve { s with paths := mput [] s.paths (pathKey core home) rs } core r)

/-! ### Complete (R266, R275) -/

/-- DEMOTION_APPLY: an owned granule becomes absent (R266). -/
def execDemotionApply (core idx : Nat) (s : State) : Out :=
  let k := getCore s core
  match k.resp[idx]? with
  | some (.demote _ gr) =>
    if !respFirst k.resp idx then .next s
    else
      let s := dropResp s core idx
      match mfind k.l1 gr with
      | some o => if o.owned then .next (l1Drop s core gr) else .next s
      | none => .next s
  | _ => .next s

/-- A demotion is still on its way. -/
def demPending (s : State) (id : Nat) : Bool :=
  s.cores.any fun kv => kv.2.resp.any fun r => match r with | .demote i _ => i == id | _ => false

/-- One piece of an SQ entry is complete; the entry leaves SQ with its last. -/
def pieceDone (core : Nat) (s : State) (x : Nat × Nat) : State :=
  match getGroup s core x.1 with
  | none => s
  | some g =>
    match g.sq.find? (fun e => e.seq == x.2) with
    | none => s
    | some e =>
      if e.wait ≤ 1 then
        let s := finishLoad s core x.1 x.2
        dropSq s core x.1 x.2
      else modSq s core x.1 x.2 fun e => { e with wait := e.wait - 1 }

/-- The old values are bound to the load part of an ATOM or XST (R266); a store's acknowledgement carries none, and a private XST has
bound its own at issue (R281). -/
def bindOlds (s : State) (core gslot seq : Nat) (olds : List (Nat × Nat × List Byte)) (bad : Bool) : State :=
  modLq s core gslot seq fun e =>
    { e with pieces := e.pieces.map fun p =>
        match olds.find? fun x => x.1 == p.lane && x.2.1 == p.off with
        | some x => if x.2.2.isEmpty then p else { p with val := some x.2.2, bad := bad }
        | none => p }

/-- A granule that an acknowledgement brings: installed as owned, unless the core holds a newer version; without a value an older
copy goes (R266). -/
def l1Own (s : State) (core gran ver : Nat) (v : Option (List Byte)) : State :=
  let k := getCore s core
  match mfind k.l1 gran with
  | some o => if ver < o.ver then s else put s k
  | none => put s k
where
  put (s : State) (k : Core) : State :=
    setCore s core { k with l1 := match v with
      | some bs => mset k.l1 gran { owned := true, ver := ver, data := bs }
      | none => mdel k.l1 gran }

/-- ACK_APPLY: an acknowledgement, or the answer of a hint, is applied (R266, R304). -/
def execAckApply (core idx : Nat) (s : State) : Out :=
  let k := getCore s core
  if !respFirst k.resp idx then .next s
  else match k.resp[idx]? with
  | some (.ack gslot seq olds removed t gr ver v bad dem) =>
    if dem.any (demPending s) then .next s
    else
      let s := dropResp s core idx
      let s := if t = .dev then l1Own s core gr ver v else s
      let s := bindOlds s core gslot seq olds bad
      .next ((olds.map (fun _ => (gslot, seq)) ++ removed).foldl (pieceDone core) s)
  | some (.wrote _ t gr ver v dem) =>
    if dem.any (demPending s) then .next s
    else .next (if t = .dev then l1Own (dropResp s core idx) core gr ver v else dropResp s core idx)
  | some (.discDone gslot seq grans dem) =>
    if dem.any (demPending s) then .next s
    else
      let s := grans.foldl (fun s g => l1Own s core g.1 g.2 (some (List.replicate 32 0))) (dropResp s core idx)
      .next (pieceDone core s (gslot, seq))
  | some (.answer _ 0 t _ gr ver v _ bad lo) =>
    .next (if lo || bad then dropResp s core idx else l1Copy (dropResp s core idx) core t gr ver v)
  | _ => .next s

/-- PUBLICATION_EVICT: the `n` oldest writes of a window go to the host (R277, R315). -/
def execPublicationEvict (w n : Nat) (s : State) : Out :=
  .next (if s.hostDown then s else iter (fun s => pubEvict s w) (min n (mget [] s.pubs w).length) s)

/-! ### Accesses from outside (R314, R316) -/

/-- An access that a home serves for the host or a peer, at a device address: a reply for what reads, none where the data cannot be
read (R265, R309). A write has no reply. -/
def outsideServe (s : State) (x : OutAccess) (a : Nat) (tol : Bool) : State :=
  let s := pinHit s a
  let bad := bytesBad s a x.len
  let reply (s : State) (v : Option (List Byte)) : State := { s with hostReply := s.hostReply ++ [v] }
  match x.op with
  | .read => reply s (if bad then none else some (devRead s a x.len))
  | .write bs => engWrite s none 0 x.ctx .dev a (bs.take x.len)
  | .atom op d =>
    if bad && !tol then reply s none
    else
      let old := if bad then List.replicate x.len 0 else devRead s a x.len
      let new := bytesOf x.len (atomNew op x.len (natOf old) d)
      let s := if bad then devWrite s (alignDown a 32) (overlay (readable s (alignDown a 32)) (a % 32) new) else s
      reply (engWrite s none 0 x.ctx .dev a new) (some old)

/-- What an access from outside needs of its page (R294). -/
def outNeed : OutOp → Need
  | .read => .load
  | .write _ => .store
  | .atom .. => .rmw

/-- An access from outside: at most 8 bytes of one aligned 8, served at home in one step; a refused one is answered as an
unsupported request and reported (R164, R314). The aperture addresses a context's memory (assumption 27). It waits while its dome's
stack retrains (R341), or for room for its record (R320). -/
def outside (s : State) (x : OutAccess) : State :=
  if x.len = 0 ∨ x.va % 8 + x.len > 8 then s
  else
    if walkHeld s x.ctx x.va then s else
    match xlate s x.ctx x.va (outNeed x.op) false with
    | .ok .dev a tol => if homeHeld s (domeOf s a) then s else outsideServe (walkHit s x.ctx x.va) x a tol
    | _ => if frFull s then s else hostDrop { walkHit s x.ctx x.va with hostReply := s.hostReply ++ [none] } 0 x.ctx x.va

/-- HOST_ACCESS (R314). -/
def execHostAccess (x : OutAccess) (s : State) : Out := .next (if s.hostDown then s else outside s x)

/-- PEER_ACCESS: over the port that the peer's route names (R316). -/
def execPeerAccess (peer : Nat) (x : OutAccess) (s : State) : Out :=
  .next (if feature s 8 && routeLive s peer && !linkLost s (.peer peer) then outside s x else s)

/-- LINK_DOWN: the host link or a port goes down (R316). -/
def execLinkDown (l : LinkId) (s : State) : Out :=
  match l with
  | .host => .next { s with hostDown := true }
  | .port p => .next (if s.portsDown.contains p then s else { s with portsDown := s.portsDown ++ [p] })

/-- The holders of a core's translations and the room of each (R295). -/
def tlbHolders (core : Nat) : List (Nat × Nat) := [(core, 2048), (192 + core / 24, 32768)]

/-- A translation enters a core's or a quadrant's cache: it takes the place of the one for its page, and the oldest makes room
(R295). -/
def tlbPut (l : List TlbEntry) (room : Nat) (e : TlbEntry) : List TlbEntry :=
  let l := l.filter fun x => !(x.holder == e.holder && x.ctx == e.ctx && x.vpn == e.vpn)
  let mine := l.filter fun x => x.holder == e.holder
  (if mine.length ≥ room then match l.findIdx? fun x => x.holder == e.holder with
    | some i => dropAt l i
    | none => l
  else l) ++ [e]

/-- PAGE_WALK: a walk that ends in a leaf is cached by the core that missed and by its quadrant (R294, R295); it waits for a stack that
retrains (R341). -/
def execPageWalk (w : Walker) (va : Nat) (s : State) : Out :=
  match mfind s.ctxs w.ctx with
  | none => .next s
  | some c =>
    if (walkAddrs s va 4 3 c.root).any fun a => homeHeld s (domeOf s a) then .next s else
    let s := (walkAddrs s va 4 3 c.root).foldl pinHit s
    match walk s va 4 3 c.root with
    | .ok (leaf, lvl) =>
      let vpn := alignDown va (leafBytes lvl leaf) / 4096
      .next { s with tlb := (tlbHolders w.core).foldl (fun l h =>
        tlbPut l h.2 { holder := h.1, ctx := w.ctx, vpn := vpn, npg := leafBytes lvl leaf / 4096, leaf := leaf }) s.tlb }
    | .error _ => .next s

end Sys2Proof.Machine
end

