-- ==== Sys2Proof/Machine/EvDome.lean ====
section
/-! DEFINITION. The domes' own steps: pinned windows fill and fade (R302, R303), and a dome retires (R282, R312). -/

namespace Sys2Proof.Machine

/-! ### Pinned windows -/

/-- PIN_FILL: the domes have brought a window's range in by home reads, which change no owner and no version (R302). -/
def execPinFill (w : Nat) (s : State) : Out :=
  .next { s with pins := mmod s.pins w fun p => { p with filled := true } }

/-- REFERENCE_TICK: the windows whose counters reached 0 in the tick before, and that no hit reloaded in it, are released, and every
other fade counter goes down by one (R303). -/
def execReferenceTick (s : State) : Out :=
  .next { s with pins := (s.pins.filter fun kv => decide (kv.2.count > 0)).map fun kv =>
    (kv.1, { kv.2 with count := kv.2.count - 1 }) }

/-- PIN_FADE_OUT: a window whose counter stands at 0 is released (R303). A hit that came first has reloaded the counter. -/
def execPinFadeOut (w : Nat) (s : State) : Out :=
  match mfind s.pins w with
  | some p => .next (if p.count = 0 then { s with pins := mdel s.pins w } else s)
  | none => .next s

/-! ### Retirement (R312) -/

/-- The threshold CETHR. -/
def cethr (s : State) : Nat := wfld (ctlR s 0x0300) 0 32

def getDome (s : State) (d : Nat) : Dome := mget {} s.domes d
def setDome (s : State) (d : Nat) (x : Dome) : State := { s with domes := mput {} s.domes d x }

/-- The live domes of a dome's base die other than itself. -/
def liveOthers (s : State) (d : Nat) : List Nat :=
  ((List.range 10).map fun i => d / 10 * 10 + i).filter fun e => e != d && !(getDome s e).ret

/-- A dome's retirement is due: the driver asked for it, or CECNT has passed CETHR. -/
def retireDue (s : State) (d : Nat) : Bool :=
  let x := getDome s d
  !x.ret && (x.retq || (cethr s != 0 && decide (x.cecnt > cethr s)))

/-- Every request of one core's path to a dome is served, in order. -/
def servePath (d : Nat) (s : State) (core : Nat) : State :=
  let rs := pathReqs s core d
  rs.foldl (fun s r => serve s core r) { s with paths := mput [] s.paths (pathKey core d) [] }

/-- The bucket-table entries that a dome of a base die caches, in bucket order: each is table * 4096 + bucket. Of one bucket number
the lower table comes first (DESIGN CHOICE, assumption 43). -/
def bucketsOf (s : State) (d : Nat) : List Nat :=
  ((List.range 4096).map fun b =>
    ((List.range 10).map fun i => (d / 10 * 10 + i) * 4096 + b).filter fun k => mget (k / 4096) s.buckets k == d).flatten

/-- Deals those entries round-robin to other domes (R312), the lowest-numbered first (DESIGN CHOICE, assumption 43). -/
def dealBuckets (s : State) (d : Nat) (live : List Nat) : State :=
  { s with buckets := (bucketsOf s d).zipIdx.foldl (fun m x =>
      mset m x.1 (live.getD (x.2 % live.length) d)) s.buckets }

/-- DOME_RETIREMENT: the requests in paths to the dome are delivered, and its buckets go to the other live domes of its base
die. Granules are held by address, so nothing else moves. The last live dome of a base die stays (R282, R312). -/
def execDomeRetirement (d : Nat) (s : State) : Out :=
  if d ≥ Config.domes || !retireDue s d then .next s
  else match liveOthers s d with
    | [] => .next (setDome s d { getDome s d with retq := false })
    | live =>
      if (mfind s.retrain (d / 10)).isSome then .next s
      else
        let s := (List.range Config.cores).foldl (servePath d) s
        let s := dealBuckets s d live
        .next (setDome s d { getDome s d with ret := true, retq := false })

end Sys2Proof.Machine
end

