-- ==== Sys2Proof/Machine/Job.lean ====
section
/-! DEFINITION. Launch packets (R28, R29), private slots (R30), the state of a group at its first issue (R51), the job table
(R45 to R49, R393), and LAUNCH, CANCEL, CCNT and DBGMB (R371, R374, R392). -/

namespace Sys2Proof.Machine

/-! ### Launch packets (R28) -/

/-- A field of a packet: word, lowest bit, bits. -/
def pkF (ws : List DWord) (w lo n : Nat) : Nat := wfld (ws.getD w 0) lo n

def pkLine (ws : List DWord) : Nat := pkF ws 0 6 46
def pkEntry (ws : List DWord) : II := iiOf (pkLine ws * 5 + pkF ws 0 0 3)
def pkArgw (ws : List DWord) : Nat := pkF ws 1 52 7
def pkArg (ws : List DWord) : Nat := pkF ws 1 0 52
def pkX (ws : List DWord) : Nat := pkF ws 2 0 32
def pkY (ws : List DWord) : Nat := pkF ws 2 32 16
def pkZ (ws : List DWord) : Nat := pkF ws 2 48 16
def pkUnits (ws : List DWord) : Nat := pkX ws * pkY ws * pkZ ws
def pkCnt (ws : List DWord) : Nat := pkF ws 3 53 8
def pkScr (ws : List DWord) : Nat := pkF ws 3 25 10 * 1024
def pkNbar (ws : List DWord) : Nat := pkF ws 3 16 9
def pkMx (ws : List DWord) : Bool := pkF ws 3 14 1 == 1
def pkRec (ws : List DWord) : Bool := pkF ws 3 13 1 == 1
def pkPair (ws : List DWord) : Bool := pkF ws 3 12 1 == 1
def pkCor (ws : List DWord) : Bool := pkF ws 3 11 1 == 1
def pkPrio (ws : List DWord) : Nat := pkF ws 3 8 3
def pkWcode (ws : List DWord) : BitVec 2 := (ws.getD 3 0).extractLsb' 5 2
def pkGroups (ws : List DWord) : Nat := pkF ws 3 0 5 + 1
def pkW (ws : List DWord) : Nat := 8 * 2 ^ (pkWcode ws).toNat
def pkPriv (ws : List DWord) : Nat := pkF ws 4 0 52
def pkGran (ws : List DWord) : Nat := pkF ws 5 0 52
def pkPslots (ws : List DWord) : Nat := pkF ws 6 32 16
def pkGransz (ws : List DWord) : Nat := pkF ws 6 16 16
def pkPrivsz (ws : List DWord) : Nat := pkF ws 6 0 16

/-- The bytes of scratchpad that a unit reserves (R41). -/
def pkSpan (ws : List DWord) : Nat := alignUp (pkScr ws + 16 * pkNbar ws) 4096

/-- The predecessors' job-table entries (R28). -/
def pkDeps (ws : List DWord) : List Nat :=
  (if pkF ws 3 35 1 = 1 then [pkF ws 3 36 8] else []) ++ (if pkF ws 3 44 1 = 1 then [pkF ws 3 45 8] else [])

/-- Bytes of scratchpad of a core. -/
def scrBytes : Nat := 524288

/-- Units of a packet that an empty core holds at once (R27, R41). -/
def pkPerCore (ws : List DWord) : Nat :=
  min (min (128 / pkGroups ws) (2048 / (pkGroups ws * pkW ws))) (if pkSpan ws = 0 then 128 else scrBytes / pkSpan ws)

/-- The packet is rejected (R29, R75). -/
def pkBad (s : State) (ws : List DWord) : Bool :=
  pkF ws 0 52 12 != 0 || pkF ws 0 3 3 != 0 || decide (pkF ws 0 0 3 > 4) || decide (pkLine ws ≥ 2 ^ 45)
    || pkF ws 1 59 5 != 0 || decide (pkArgw ws > 96) || pkArg ws % 8 != 0
    || pkX ws == 0 || pkY ws == 0 || pkZ ws == 0 || decide (pkUnits ws > 2 ^ 40 - 1)
    || pkF ws 3 61 3 != 0 || pkF ws 3 15 1 != 0 || pkF ws 3 7 1 != 0 || decide (pkF ws 3 25 10 > 512)
    || decide (pkNbar ws > 256) || pkF ws 4 52 12 != 0 || pkPriv ws % 64 != 0 || pkF ws 5 52 12 != 0
    || pkGran ws % 4096 != 0 || pkF ws 6 48 16 != 0 || pkPslots ws == 0 || pkGransz ws == 0 || decide (pkPrivsz ws < 8)
    || pkF ws 7 8 56 != 0 || pkF ws 7 0 8 != 1
    || pkPerCore ws == 0 || (pkPair ws && !feature s 6) || decide (pkPslots ws < pkGroups ws)
    || (pkCor ws && (decide (pkUnits ws > (if pkPair ws then Config.cores / 2 else pkPerCore ws * Config.cores))
        || decide (pkUnits ws * pkGroups ws > pkPslots ws)))

/-! ### Slots (R27, R30) -/

/-- An engine command of a group slot that has been taken has not finished. -/
def engRuns (s : State) (core gslot : Nat) : Bool :=
  let k := getCore s core
  (k.mx.run.any fun r => r.gslot == gslot) || (k.chans.any fun kv => kv.2.gslot == gslot)
    || s.decs.any fun kv => kv.2.core == core && kv.2.gslot == gslot

/-- An engine command of the group is queued or executes. -/
def engBusy (s : State) (core gslot : Nat) (g : Group) : Bool :=
  !g.e0.isEmpty || !g.e2.isEmpty || !g.e4.isEmpty || engRuns s core gslot

/-- A group that has ended and left nothing behind: its slot is free (R362). -/
def groupGone (s : State) (core gslot : Nat) (g : Group) : Bool :=
  g.ended && g.sq.isEmpty && g.lq.isEmpty && g.hold.isEmpty && !engBusy s core gslot g

/-- The groups that hold a slot of a core. -/
def liveGroups (s : State) (core : Nat) : List (Nat × Group) :=
  (getCore s core).groups.filter fun kv => !groupGone s core kv.1 kv.2

/-- The free group slots of a core, lowest first. -/
def freeSlots (s : State) (core : Nat) : List Nat :=
  (List.range Config.groupSlots).filter fun i => !(liveGroups s core).any fun kv => kv.1 == i

/-- Lane-slots in use on a core. -/
def lanesUsed (s : State) (core : Nat) : Nat := ((liveGroups s core).map fun kv => kv.2.w).foldl (· + ·) 0

/-- Private slots of a launch in use: those of groups that a save took off their core, and those of resident groups whose
stores are not all complete (R30, R362). -/
def privUsed (s : State) (lid : Nat) (l : Launch) : List Nat :=
  l.privs ++ (s.cores.map fun kc => (kc.2.groups.filter fun kv =>
    kv.2.launch == lid && !(kv.2.ended && kv.2.sq.isEmpty)).map fun kv => kv.2.priv).flatten

/-- The `n` lowest free private slots, none when there are not so many. -/
def privFree (s : State) (lid : Nat) (l : Launch) (n : Nat) : Option (List Nat) :=
  let used := privUsed s lid l
  let free := (List.range (pkPslots l.packet)).filter fun p => !used.contains p
  if free.length < n then none else some (free.take n)

/-! ### A group at its first issue (R51, R254) -/

/-- A core that a pair reservation holds as a follower (R51). -/
def isFollower (s : State) (core : Nat) : Bool := (getCore s core).pairUnit.isSome

/-- A new group; its argument words are not yet loaded. -/
def newGroup (s : State) (core lid unit : Nat) (l : Launch) (u : Unit) (gidx priv : Nat) (ii : II) (mask : Mask) : Group :=
  let ws := l.packet
  let w := pkW ws
  let k102 := dw (pkPriv ws + priv * pkPrivsz ws * 64 * w)
  let k103 := dw (pkGran ws + priv * pkGransz ws * 4096)
  let ks : List DWord := [dw u.x, dw (u.y + u.z * 2 ^ 32), dw gidx, dw (pkCnt ws + l.serial * 2 ^ 8), dw core,
    dw (b2n (isFollower s core)), k102, k103]
  { ctx := l.ctx, launch := lid, unit := unit, gidx := gidx, wcode := pkWcode ws, priv := priv,
    pathA := some { ii := ii, mask := mask, fresh := true }, pathB := none,
    recb := pkRec ws && feature s 0, k := mputs 0 [] 96 ks,
    hbase := k103, hsp := k103, hlim := k103 + dw (pkGransz ws * 4096), privbase := k102, argWait := true }

/-! ### The job table (R45 to R47) -/

def jobAddr (s : State) (ctx i j : Nat) : Nat := ((mfind s.ctxs ctx).map (·.jobtab)).getD 0 + 16 * (i % 256) + 8 * j

def jobRead (s : State) (ctx i j : Nat) : DWord := dw (natOf (devRead s (jobAddr s ctx i j) 8))

/-- An entry lies on a stack that retrains: its accesses wait (R341). -/
def jobHeld (s : State) (ctx i : Nat) : Bool := homeHeld s (domeOf s (jobAddr s ctx i 0))

/-- So does some entry of the table. -/
def jobsHeld (s : State) (ctx : Nat) : Bool := !s.retrain.isEmpty && (List.range 256).any (jobHeld s ctx)

/-- The dome serves a read of an entry: the windows that it hits reload their counters (R303). -/
def jobHit (s : State) (ctx i : Nat) : State := if s.pins.isEmpty then s else pinHit s (jobAddr s ctx i 0)

/-- The distributor writes word 0 of an entry; its RSVD bits are written as zero (R4). -/
def jobWrite (s : State) (ctx i : Nat) (v : DWord) : State :=
  engWrite s none 0 ctx .dev (jobAddr s ctx i 0) (bytesOf 8 (v &&& 0xC000_00FF_FFFF_FFFF).toNat)

def jDONE : DWord := (1 : DWord) <<< 63
def jCANC : DWord := (1 : DWord) <<< 62

def jobDone (s : State) (ctx i : Nat) : Bool := (jobRead s ctx i 0).getLsbD 63
def jobCanc (s : State) (ctx i : Nat) : Bool := (jobRead s ctx i 0).getLsbD 62
def jobKind (s : State) (ctx i : Nat) : Nat := wfld (jobRead s ctx i 1) 48 2
def jobParent (s : State) (ctx i : Nat) : Nat := wfld (jobRead s ctx i 1) 40 8
def jobExpect (s : State) (ctx i : Nat) : Nat := wfld (jobRead s ctx i 1) 0 40

/-- The address of packet `i` of a queue (R391). -/
def ringAt (q : LQueue) (i : Nat) : Nat := q.base * 4096 + 64 * (i % 2 ^ q.logn)

/-- The eight words of a packet at a device address. -/
def packetAt (s : State) (a : Nat) : List DWord := (List.range 8).map fun i => dw (natOf (devRead s (a + 8 * i) 8))

def setLq (s : State) (ctx q : Nat) (x : LQueue) : State := { s with lqs := mset s.lqs (ctx * 16 + q) x }

/-- Packets held for a launch are released in append order, or discarded when the launch is cancelled (R393): the state, and
the entries that the discarded packets name. -/
def releaseHeld (s : State) (ctx lid : Nat) (canc : Bool) : State × List Nat :=
  s.lqs.foldl (fun acc kv =>
    if kv.1 / 16 ≠ ctx then acc
    else
      let mine (p : LPacket) : Bool := p.held == some lid
      let free (p : LPacket) : LPacket := if mine p then { p with held := none, stamp := s.tick } else p
      if canc then
        ({ acc.1 with lqs := mset acc.1.lqs kv.1 { kv.2 with packets := kv.2.packets.filter fun p => !mine p } },
         acc.2 ++ (kv.2.packets.filter mine).map fun p => pkCnt (packetAt s (ringAt kv.2 p.idx)))
      else
        ({ acc.1 with lqs := mset acc.1.lqs kv.1 { kv.2 with packets := kv.2.packets.map free } }, acc.2)) (s, [])

/-- The launches that an entry counts become DONE with it. -/
def launchesDone (s : State) (ctx i : Nat) (canc : Bool) : State × List Nat :=
  s.launches.foldl (fun acc kv =>
    if kv.2.ctx == ctx && pkCnt kv.2.packet == i && !kv.2.done then
      let r := releaseHeld acc.1 ctx kv.1 canc
      ({ r.1 with launches := mmod r.1.launches kv.1 fun l => { l with done := true } }, acc.2 ++ r.2)
    else acc) (s, [])

/-- Counts children of entries and sets flags, with what follows: DONE at EXPECT, the parent's count, and the packets that
the entry's launch held (R46, R393). Each piece of work is an entry, a count and flags. -/
def jobRun (ctx : Nat) : Nat → List (Nat × Nat × DWord) → State → State
  | 0, _, s => s
  | _, [], s => s
  | k + 1, (i, n, fl) :: rest, s =>
    let w0 := jobRead s ctx i 0
    let was := w0.getLsbD 63
    let cnt := (wfld w0 0 40 + n) % 2 ^ 40
    let w := dw (w0.toNat / 2 ^ 40 * 2 ^ 40 + cnt) ||| (if was then 0 else fl)
    let w := if !was && decide (n > 0) && decide (cnt ≥ jobExpect s ctx i) then w ||| jDONE else w
    let s := jobWrite s ctx i w
    if was || !w.getLsbD 63 then jobRun ctx k rest s
    else
      let r := launchesDone s ctx i (w.getLsbD 62)
      let up := if jobParent s ctx i = i then [] else [(jobParent s ctx i, 1, (0 : DWord))]
      jobRun ctx k (rest ++ up ++ r.2.map fun c => (c, 0, jDONE ||| jCANC)) r.1

/-- Work enough for every entry to become DONE once, and every held packet to be discarded. -/
def jobFuel (s : State) : Nat := 2048 + (s.lqs.map fun kv => kv.2.packets.length).foldl (· + ·) 0

def jobCount (s : State) (ctx i n : Nat) (fl : DWord) : State := jobRun ctx (jobFuel s) [(i, n, fl)] s

/-- Whether entry `j` is `i` or lies under it: its parents, at most 256 of them, reach `i`. -/
def jobUnder (s : State) (ctx i : Nat) : Nat → Nat → Bool
  | 0, _ => false
  | k + 1, j => j == i || (jobParent s ctx j != j && jobUnder s ctx i k (jobParent s ctx j))

/-- A unit of a launch under the entry is placed and has not ended. -/
def jobActive (s : State) (ctx i : Nat) : Bool :=
  s.launches.any fun kv => kv.2.ctx == ctx && decide (kv.2.ended < kv.2.nextUnit)
    && jobUnder s ctx i 256 (pkCnt kv.2.packet)

/-- Cancelled entries under which no unit runs become DONE (R47). -/
def cancelSettle (s : State) (ctx : Nat) : State :=
  (List.range 256).foldl (fun s i =>
    if jobKind s ctx i != 0 && jobCanc s ctx i && !jobDone s ctx i && !jobActive s ctx i then jobCount s ctx i 0 jDONE else s) s

/-- CANCEL of an entry (R47): the entry and every descendant that is not DONE are cancelled; no further unit of their
launches is placed, and a unit never placed counts as complete. -/
def jobCancel (s : State) (ctx i : Nat) : State :=
  let hit := (List.range 256).filter fun j => jobKind s ctx j != 0 && !jobDone s ctx j && jobUnder s ctx i 256 j
  let s := (List.range 256).foldl (jobHit · ctx ·) s
  let s := hit.foldl (fun s j => jobWrite s ctx j (jobRead s ctx j 0 ||| jCANC)) s
  let s := s.launches.foldl (fun (acc : State) kv =>
    let l := kv.2
    if l.ctx == ctx && hit.contains (pkCnt l.packet) && !l.cancelled && !l.done then
      let acc := { acc with launches := mmod acc.launches kv.1 fun l => { l with cancelled := true } }
      jobCount acc ctx (pkCnt l.packet) (pkUnits l.packet - l.nextUnit) 0
    else acc) s
  cancelSettle s ctx

/-! ### The instructions -/

/-- The entry index of CANCEL and CCNT (R371). -/
def jobIdx (c : Cx) (us : List SrcUse) (imm : BitVec 8) : Nat :=
  ((opnd c us 0 (lowLane c.p.mask)).toNat % 256 + imm.toNat) % 256

/-- CCNT (R371, R48). -/
def execCcnt (g : Guard) (d : Dst) (a : Src) (imm : BitVec 8) (s : State) : Out :=
  let us : List SrcUse := [(a, true)]
  issue s g (fun _ => { srcs := us, dst := some (d, true), horizon := true }) fun c s =>
    let i := jobIdx c us imm
    if jobHeld s c.g.ctx i then .next s
    else
    let v := jobRead s c.g.ctx i 0
    let s := modGroup (jobHit s c.g.ctx i) c.core c.gslot (writeDst c d true fun _ => v)
    finish c .fall true (if v.getLsbD 63 then acquire s c.core else s)

/-- CANCEL (R371, R47). -/
def execCancel (g : Guard) (d : Dst) (a : Src) (imm : BitVec 8) (s : State) : Out :=
  let us : List SrcUse := [(a, true)]
  issue s g (fun _ => { srcs := us, dst := some (d, true), horizon := true }) fun c s =>
    let i := jobIdx c us imm
    let v := jobRead s c.g.ctx i 0
    let dead := jobKind s c.g.ctx i == 0 || v.getLsbD 63
    if (if dead then jobHeld s c.g.ctx i else jobsHeld s c.g.ctx) then .next s
    else
    let s := modGroup (jobHit s c.g.ctx i) c.core c.gslot (writeDst c d true fun _ => v)
    finish c .fall true (if dead then s else jobCancel s c.g.ctx i)

/-- DBGMB (R374): waits while the status ring is full. -/
def execDbgmb (g : Guard) (a : Src) (s : State) : Out :=
  let us : List SrcUse := [(a, true)]
  issue s g (fun _ => { srcs := us, horizon := true }) fun c s =>
    if stFull s || !s.stPending.isEmpty then .next s
    else
      let s := stGroup s 11 c.core c.gslot 0 c.g c.slot c.p.ii c.p.mask (opnd c us 0 (lowLane c.p.mask)) 0
      finish c .fall true s

/-- The packet is appended to the queue, held for the launch that issues it (R392). -/
def appendPacket (c : Cx) (q : Nat) (x : LQueue) (bs : List Byte) (s : State) : State :=
  let r := ringAt x x.append
  let s := engWrite (engWrite s none 0 c.g.ctx .dev r (bs.take 32)) none 0 c.g.ctx .dev (r + 32) (bs.drop 32)
  let held := match mfind s.launches c.g.launch with
    | some l => if l.done then none else some c.g.launch
    | none => none
  setLq s c.g.ctx q { x with append := x.append + 1,
                             packets := x.packets ++ [{ idx := x.append, held := held, stamp := s.tick }] }

/-- The place of the next packet lies on a stack that retrains: the append waits (R341). -/
def ringHeld (s : State) (x : LQueue) : Bool :=
  homeHeld s (domeOf s (ringAt x x.append)) || homeHeld s (domeOf s (ringAt x x.append + 32))

/-- LAUNCH (R392): the packet's two granules are read in a step each, and the path keeps the first until the second is read. -/
def execLaunch (g : Guard) (d : Dst) (k : BitVec 7) (q : BitVec 4) (s : State) : Out :=
  issue s g (fun _ => { uses := [.k k.toNat], dst := some (d, false), horizon := true }) fun c s =>
    let p := (c.g.kreg k.toNat).toNat
    if p % 64 ≠ 0 then trapAt c s tALIGN .reissue (dw p) 0
    else if walkHeld s c.g.ctx p then .next s
    else match xlate s c.g.ctx p .load false with
      | .page => trapAt c s tPAGE .reissue (dw p) 0
      | .prot => trapAt c s tPROT .reissue (dw p) 0
      | .ok t _ _ =>
        let x := mget {} s.lqs (c.g.ctx * 16 + q.toNat)
        if t ≠ .dev || !x.v then trapAt c s tPROT .reissue (dw p) 0
        else if !released c.g then .next s
        else if x.packets.length ≥ 2 ^ x.logn then
          if x.packets.all fun y => y.held == some c.g.launch then
            -- it has issued and counted; nothing is appended (R98, R392)
            finish c .fall true (modGroup s c.core c.gslot fun g =>
              { g with pend := some (mkTrap tENGINE c.slot c.p .next (dw (x.base * 4096)) 4) })
          else .next s
        else
          let first : Option (List Byte × Bool) := match c.p.half with
            | some (ii, bs, sub) => if ii = c.p.ii then some (bs, sub) else none
            | none => none
          if first.isSome && ringHeld s x then .next s
          else match coreRead s c.core c.g.ctx (if first.isSome then p + 32 else p) 32 with
          | .error .wait => .next s
          | .error (.trap code va) => trapAt c s code .reissue (dw va) 0
          | .ok (s, bs, sub) =>
            match first with
            | none =>
              .next (modGroup s c.core c.gslot fun g =>
                g.setPath c.slot ((g.path c.slot).map fun y => { y with half := some (c.p.ii, bs, sub) }))
            | some (bs0, sub0) =>
              let s := appendPacket c q.toNat x (bs0 ++ bs) (countSub s c.g.ctx (sub0 || sub))
              finish c .fall true (modGroup s c.core c.gslot (writeDst c d false fun _ => dw (x.append % 2 ^ 32)))

end Sys2Proof.Machine
end

