-- ==== Sys2Proof/Machine/EvLaunch.lean ====
section
/-! DEFINITION. The distributor: LAUNCH_PACKET_TAKE, UNIT_PLACE, GROUP_START and UNIT_END (R28, R29, R41 to R48, R51), and
what frame tiles do on their own: BIN_RESUME, SILO_MOVE, UNIT_FRAME_FLUSH and FRAMES_DISCARDED (R253 to R256). -/

namespace Sys2Proof.Machine

/-! ### Taking a packet (R29, R46) -/

/-- The packet at the head of a queue: its context, its address, whether the address is virtual, and when it arrived. -/
structure QHead where
  ctx   : Nat
  addr  : Nat
  virt  : Bool
  stamp : Nat
deriving DecidableEq, Repr

/-- The context exists and is not being killed. -/
def ctxLive (s : State) (ctx : Nat) : Bool :=
  match mfind s.ctxs ctx with
  | some c => !c.killing
  | none => false

/-- The head of a queue when it may be taken: the queue is not held on a PAGE, and the packet is not held for a launch
(R29, R49). -/
def queueHead (s : State) (q : QueueId) : Option QHead :=
  match q with
  | .host n _ =>
    if s.hostqHeld.contains n then none
    else match s.hostq.find? fun p => p.q == n with
      | some p => if ctxLive s p.ctx then some { ctx := p.ctx, addr := p.addr, virt := true, stamp := p.stamp } else none
      | none => none
  | .dev ctx q =>
    match mfind s.lqs (ctx * 16 + q) with
    | none => none
    | some x =>
      match x.packets with
      | [] => none
      | p :: _ =>
        if p.held.isSome || !ctxLive s ctx then none
        else some { ctx := ctx, addr := ringAt x p.idx, virt := false, stamp := p.stamp }

/-- Every queue that holds a packet. -/
def allQueues (s : State) : List QueueId :=
  (s.hostq.map fun p => QueueId.host p.q none) ++ s.lqs.map fun kv => QueueId.dev (kv.1 / 16) (kv.1 % 16)

/-- Why the distributor has no packet: it waits for a stack that retrains, or it meets a PAGE or another fault. -/
inductive PeekStop where
  | wait | page | fault
deriving DecidableEq, Repr

/-- The words of a packet, in the state after its read, which counts a substituted value (R164, R303, R341). -/
def peekPacket (s : State) (h : QHead) : Except PeekStop (State × List DWord) :=
  if h.virt then
    match homeReads s (fun s k => !homeHeld s k) h.ctx h.addr 64 with
    | .error .wait => .error .wait
    | .error (.trap code _) => .error (if code = tPAGE then .page else .fault)
    | .ok (s, bs, sub) =>
      .ok (countSub s h.ctx sub, (List.range 8).map fun i => dw (natOf ((bs.drop (8 * i)).take 8)))
  else if homeHeld s (domeOf s h.addr) || homeHeld s (domeOf s (h.addr + 32)) then .error .wait
  else if sectorBad s h.addr || sectorBad s (h.addr + 32) then .error .fault
  else .ok (pinHit (pinHit s h.addr) (h.addr + 32), packetAt s h.addr)

/-- Every valid predecessor is DONE (R46). -/
def depsDone (s : State) (ctx : Nat) (ws : List DWord) : Bool := (pkDeps ws).all fun i => jobDone s ctx i

/-- Another queue's head goes first: it may be taken, and its priority is higher, or equal with an earlier arrival (R41); one that cannot
be read yet keeps the order open. -/
def goesFirst (s : State) (h : QHead) (prio : Nat) : Bool :=
  (allQueues s).any fun q => match queueHead s q with
    | some x =>
      match peekPacket s x with
      | .ok (_, ws) => depsDone s x.ctx ws && (decide (pkPrio ws > prio) || (pkPrio ws == prio && decide (x.stamp < h.stamp)))
      | .error e => e == .wait
    | none => false

/-- Drops a queue's head: its place becomes free (R391). -/
def popQueueHead (s : State) (q : QueueId) : State :=
  match q with
  | .host n _ =>
    match s.hostq.findIdx? fun p => p.q == n with
    | some i => { s with hostq := dropAt s.hostq i }
    | none => s
  | .dev ctx q =>
    match mfind s.lqs (ctx * 16 + q) with
    | some x => setLq s ctx q { x with packets := x.packets.drop 1 }
    | none => s

/-- A rejected packet's record (R29). -/
def rejectPacket (s : State) (ctx addr : Nat) : State := postFault s (mkFault 2 0 ctx 0 0 false 0 (dw addr) 0)

/-- The driver's submission joins its host queue (R28). -/
def submitPacket (s : State) (q : QueueId) : State :=
  match q with
  | .host n (some (ctx, addr)) => { s with hostq := s.hostq ++ [{ q := n, ctx := ctx, addr := addr, stamp := s.tick }] }
  | _ => s

/-- LAUNCH_PACKET_TAKE: the head of a queue is taken, rejected or cancelled (R29, R46, R47). -/
def execLaunchPacketTake (q : QueueId) (s : State) : Out :=
  let s := submitPacket s q
  match queueHead s q with
  | none => .next s
  | some h =>
    match peekPacket s h with
    | .error .wait => .next s
    | .error .page =>
      let s := match q with
        | .host n _ => { s with hostqHeld := s.hostqHeld ++ [n] }
        | .dev .. => s
      .next (postFault s (mkFault 10 0x04 h.ctx 0 127 false 0 (dw h.addr) 0))
    | .error .fault => if frFull s then .next s else .next (rejectPacket (popQueueHead s q) h.ctx h.addr)
    | .ok (s', ws) =>
      if jobsHeld s h.ctx || !depsDone s h.ctx ws || goesFirst s h (pkPrio ws) || (pkBad s ws && frFull s) then .next s
      else
        let s := popQueueHead ((pkDeps ws).foldl (jobHit · h.ctx ·) s') q
        if pkBad s ws then
          .next (rejectPacket (jobCount s h.ctx (pkCnt ws) 0 (jDONE ||| jCANC)) h.ctx h.addr)
        else if ((pkDeps ws).any fun i => jobCanc s h.ctx i) || jobCanc s h.ctx (pkCnt ws) then
          .next (jobCount s h.ctx (pkCnt ws) (pkUnits ws) (jDONE ||| jCANC))
        else
          let serial := ((mfind s.ctxs h.ctx).map (·.serial)).getD 0 + 1
          let l : Launch := { ctx := h.ctx, packet := ws, addr := h.addr, serial := serial, stamp := h.stamp }
          let s := modCtx s h.ctx fun c => { c with serial := serial }
          .next { s with launches := mset s.launches s.launchCtr l, launchCtr := s.launchCtr + 1 }

/-! ### Placement (R41 to R44) -/

/-- The lowest 4 KiB-aligned offset of a core's scratchpad with room for a reservation (R41). -/
def findSpan (units : AMap Unit) (span : Nat) : Option Nat :=
  if span = 0 then some 0
  else ((List.range 128).map (4096 * ·)).find? fun o =>
    decide (o + span ≤ scrBytes) && units.all fun kv =>
      kv.2.resBytes == 0 || decide (o + span ≤ kv.2.resOff) || decide (kv.2.resOff + kv.2.resBytes ≤ o)

/-- A unit that uses the matrix engine is resident on a core, of one context or of any. -/
def mxResident (k : Core) (ctx : Option Nat) : Bool :=
  k.units.any fun kv => kv.2.mxuse && (ctx.isNone || ctx == some kv.2.ctx)

/-- The context whose pair reservation holds a core as leader or follower (R43). -/
def pairCtx (s : State) (core : Nat) : Option Nat :=
  let k := getCore s core
  match k.units.find? fun kv => kv.2.pair with
  | some kv => some kv.2.ctx
  | none => match k.pairUnit with
    | some (c, u) => (getUnit s c u).map (·.ctx)
    | none => none

/-- A core may take new units: it is neither isolated nor being saved. -/
def coreOpen (k : Core) : Bool := !k.isolated && !k.quiesced

/-- A pair reservation may be made on a leader (R43). -/
def pairRoom (s : State) (core : Nat) : Bool :=
  core % 2 == 0 && coreOpen (getCore s (core + 1)) && (getCore s (core + 1)).pairUnit.isNone
    && !mxResident (getCore s (core + 1)) none

/-- The matrix storage of a core may serve a context (R44). -/
def ownerRoom (s : State) (core ctx : Nat) : Bool :=
  match (getMx s core).owner with
  | none => true
  | some o => o == ctx || (!mxResident (getCore s core) (some o) && pairCtx s core != some o)

/-- The context becomes the owner of a core's matrix storage, which is zeroed for a new owner (R44). After a pair's reservation ends
the follower's storage stays the leader's context's until a placement or a reservation of another context zeroes it (DESIGN CHOICE,
assumption 73). -/
def ownStorage (s : State) (core ctx : Nat) : State :=
  let m := getMx s core
  if m.owner = some ctx then s else setMx s core { owner := some ctx, run := m.run }

/-- The unit's place in its grid: x fastest (R26). -/
def unitAt (ws : List DWord) (n : Nat) : Nat × Nat × Nat := (n % pkX ws, n / pkX ws % pkY ws, n / (pkX ws * pkY ws))

/-- Places the next unit of a launch on a core; none when the core has no room (R41, R43, R44). -/
def placeUnit (s : State) (core lid : Nat) : Option State :=
  match mfind s.launches lid with
  | none => none
  | some l =>
    let ws := l.packet
    let k := getCore s core
    let n := pkGroups ws
    let slots := (freeSlots s core).take n
    let room := decide (core < Config.cores) && coreOpen k && decide (slots.length = n)
      && decide (lanesUsed s core + n * pkW ws ≤ Config.laneSlots) && decide (k.units.length < 128)
      && (!pkPair ws || pairRoom s core) && !(pkMx ws && k.pairUnit.isSome)
      && (!pkMx ws || ownerRoom s core l.ctx)
    match (if room then some () else none), findSpan k.units (pkSpan ws), privFree s lid l n with
    | some _, some off, some privs =>
      let un := mfree k.units
      let (x, y, z) := unitAt ws l.nextUnit
      let u : Unit := { ctx := l.ctx, launch := lid, x := x, y := y, z := z, ngrp := n, nbar := pkNbar ws, mxuse := pkMx ws,
                        pair := pkPair ws, resOff := off, resBytes := pkSpan ws, tileBytes := pkScr ws }
      let s := setCore s core { k with
        units := mset k.units un u, gated := false
        scr := k.scr.filter fun b => decide (b.1 < off) || decide (off + pkSpan ws ≤ b.1) }
      let s := if pkMx ws then ownStorage s core l.ctx else s
      let s := if pkPair ws then
          let f := getCore s (core + 1)
          ownStorage (setCore s (core + 1) { f with pairUnit := some (core, un), gated := false }) (core + 1) l.ctx
        else s
      let s := ((slots.zip privs).zipIdx).foldl (fun s x =>
        setGroup s core x.1.1 (newGroup s core lid un l u x.2 x.1.2 (pkEntry ws) (fullMask (pkW ws)))) s
      some { s with launches := mmod s.launches lid fun l => { l with nextUnit := l.nextUnit + 1 } }
    | _, _, _ => none

/-- Places units of a launch on the cores of a list, in order. -/
def placeAll (lid : Nat) : List Nat → State → Option State
  | [], s => some s
  | c :: cs, s => match placeUnit s c lid with
    | some s => placeAll lid cs s
    | none => none

/-- The launches that have units to place, by priority and then by arrival (R41). -/
def placeOrder (s : State) : List (Nat × Launch) :=
  ((List.range 8).reverse.map fun p => s.launches.filter fun kv =>
    pkPrio kv.2.packet == p && !kv.2.cancelled && decide (kv.2.nextUnit < pkUnits kv.2.packet) && ctxLive s kv.2.ctx).flatten

/-- UNIT_PLACE: the first launch in order that fits the cores: one unit on one core, or a co-resident launch whole (R41, R42). -/
def execUnitPlace (cores : List Nat) (s : State) : Out :=
  .next ((firstSome (fun kv =>
    let n := if pkCor kv.2.packet then pkUnits kv.2.packet else 1
    if cores.length = n then placeAll kv.1 cores s else none) (placeOrder s)).getD s)

/-! ### First issue (R51) -/

/-- GROUP_START: a group's argument words are loaded and it is ready for its first issue; groups of a unit start in
group-index order (R51, R48). -/
def execGroupStart (core gslot : Nat) (s : State) : Out :=
  match getGroup s core gslot with
  | none => .next s
  | some g =>
    match getUnit s core g.unit, mfind s.launches g.launch with
    | some u, some l =>
      let first := decide (g.gidx < 0x100)
      if !g.argWait || u.argHeld || (first && g.gidx != u.started) || !ctxLive s g.ctx then
        .next s
      else
        let n := pkArgw l.packet
        let a := pkArg l.packet
        match coreRead s core g.ctx a (8 * n) with
          | .error .wait => .next s
          | .error (.trap _ va) =>
            if frFull s then .next s
            else
              let s := setUnit s core g.unit { u with argHeld := true }
              .next (postFault s (mkFault 3 0 g.ctx core gslot false 0 (dw va) 0))
          | .ok (s, bs, sub) =>
            let ks := (List.range n).map fun i => dw (natOf ((bs.drop (8 * i)).take 8))
            let s := setGroup (countSub s g.ctx sub) core gslot { g with k := mputs 0 g.k 0 ks, argWait := false }
            let s := if first then setUnit s core g.unit { u with started := u.started + 1 } else s
            .next (acquire s core)
    | _, _ => .next s

/-! ### The end of a unit (R45, R46) -/

/-- The groups of a unit that hold a slot. -/
def unitGroups (s : State) (core unit : Nat) : List (Nat × Group) :=
  (liveGroups s core).filter fun kv => kv.2.unit == unit

/-- No group of the unit is left, and no engine command. -/
def unitQuiet (s : State) (core unit : Nat) : Bool :=
  (unitGroups s core unit).isEmpty && !engineNames s core unit (fun _ => true) (fun _ => true) (fun _ => true)

def unitFrames (s : State) (core unit : Nat) : List (Nat × Tile) :=
  (getCore s core).tiles.filter fun kv => kv.2.unit == unit && kv.2.kind == .frame

/-- Frames that a unit's tiles hold. -/
def frameCount (s : State) (core unit : Nat) : Nat :=
  ((unitFrames s core unit).map fun kv => (filledRows s core kv.2).length + kv.2.bin.held).foldl (· + ·) 0

/-- Takes a unit off its core with its groups, tiles and pair reservation. -/
def dropUnit (s : State) (core unit : Nat) : State :=
  let k := getCore s core
  let s := setCore s core { k with
    groups := k.groups.filter (fun kv => kv.2.unit != unit)
    units := mdel k.units unit
    tiles := k.tiles.filter (fun kv => kv.2.unit != unit) }
  let f := getCore s (core + 1)
  if f.pairUnit = some (core, unit) then setCore s (core + 1) { f with pairUnit := none } else s

/-- A unit ends: it leaves its core and its launch counts it (R46, R47). The launch stays known by its name, so that an area that
holds a unit of it can be restored again (R331, R347). -/
def endUnit (s : State) (core unit : Nat) (u : Unit) : State :=
  let s := dropUnit s core unit
  let s := { s with launches := mmod s.launches u.launch fun l => { l with ended := l.ended + 1 } }
  match mfind s.launches u.launch with
  | some l => cancelSettle (jobCount s u.ctx (pkCnt l.packet) 1 0) u.ctx
  | none => s

/-- UNIT_END (R45, R46, R256). -/
def execUnitEnd (core unit : Nat) (s : State) : Out :=
  match getUnit s core unit with
  | none => .next s
  | some u =>
    if unitQuiet s core unit && frameCount s core unit == 0 && !(getCore s core).quiesced && !jobsHeld s u.ctx then .next (endUnit s core unit u)
    else .next s

/-! ### Frame tiles on their own (R253 to R256) -/

/-- Clears FLSH when no frame is awake (R253): while a held frame cannot be read, FLSH stays. -/
def flushDone (s : State) (core ctx ix : Nat) : State :=
  match mfind (getCore s core).tiles ix with
  | some t => if t.bin.flsh && awakeCount s core ctx t == some 0 then setTile s core ix { t with bin := { t.bin with flsh := false } }
    else s
  | none => s

/-- Loads awake rows into a new group (R253, R254). -/
def resumeRows (s : State) (core unit lid ix gslot priv : Nat) (l : Launch) (u : Unit) (t : Tile) (d : List Byte) : State :=
  let w := pkW l.packet
  let rows := (awakeRows s core t).take w
  let g := newGroup s core lid unit l u (0x100 + spNumber d) priv (spResume d) (fullMask rows.length)
  let g := rows.zipIdx.foldl (fun (g : Group) r =>
    (spCarries d).zipIdx.foldl (fun (g : Group) x =>
      g.setN x.1 r.2 (w32 (natOf (scrReads s core (t.at_ r.1 (4 + 4 * x.2)) 4)))) g) g
  let s := rows.foldl (fun s r => scrWrites s core (t.at_ r 0) (bytesOf 4 (hdrClear (rowHdr s core t r)))) s
  let s := setGroup s core gslot g
  -- a placement on a gated core is a wake (R343)
  let s := setCore s core { getCore s core with gated := false }
  flushDone (acquire s core) core u.ctx ix

/-- BIN_RESUME: a ready bin starts a new group, or a finished flush ends (R253, R254). -/
def execBinResume (core unit th : Nat) (s : State) : Out :=
  let k := getCore s core
  match getUnit s core unit, findTile s core unit th with
  | some u, some (ix, t) =>
    match mfind s.launches u.launch with
    | none => .next s
    | some l =>
      let w := pkW l.packet
      let awake := (awakeRows s core t).length
      if t.kind ≠ .frame || k.quiesced || !ctxLive s u.ctx then .next s
      else if !(decide (awake ≥ w) || (t.bin.flsh && decide (awake ≥ 1))) then .next (flushDone s core u.ctx ix)
      else
        let colop := k.groups.any fun kv => kv.2.unit == unit && (kv.2.colop.any fun r => r.th == th)
        match t.bin.desc, freeSlots s core, privFree s u.launch l 1 with
        | some d, gs :: _, some (p :: _) =>
          if lanesUsed s core + w > Config.laneSlots || (unitGroups s core unit).length ≥ 32 || tileNamed s core unit th
              || colop then .next s
          else .next (resumeRows s core unit u.launch ix gs p l u t d)
        | _, _, _ => .next s
  | _, _ => .next s

/-- SILO_MOVE: the oldest silo frame moves into the lowest free row; a PAGE holds the move (R255). -/
def execSiloMove (core unit th : Nat) (s : State) : Out :=
  match getUnit s core unit, findTile s core unit th with
  | some u, some (ix, t) =>
    match t.bin.desc, freeRows s core t with
    | some d, r :: _ =>
      if t.kind ≠ .frame || t.bin.held = 0 || t.bin.paged || (getCore s core).quiesced || !ctxLive s u.ctx then .next s
      else match coreRead s core u.ctx (siloAt t t.bin.tail) (spBytes d) with
        | .ok (s, bs, sub) =>
          let s := scrWrites (countSub s u.ctx sub) core (t.at_ r 0) bs
          .next (flushDone (setTile s core ix { t with bin := { t.bin with tail := (t.bin.tail + 1) % 2 ^ 32 } }) core u.ctx ix)
        | .error (.trap code va) =>
          if code = tPAGE then
            .next (engPage (setTile s core ix { t with bin := { t.bin with paged := true } }) core u.ctx 127 va)
          else .next s
        | .error .wait => .next s
    | _, _ => .next s
  | _, _ => .next s

/-- UNIT_FRAME_FLUSH: the core flushes the frame tiles of a unit that has no group and no engine command left (R256). -/
def execUnitFrameFlush (core unit : Nat) (s : State) : Out :=
  match getUnit s core unit with
  | none => .next s
  | some u =>
    if !unitQuiet s core unit || (getCore s core).quiesced then .next s
    else .next ((unitFrames s core unit).foldl (fun s kv =>
      if awakeSome s core u.ctx kv.2 then setTile s core kv.1 { kv.2 with bin := { kv.2.bin with flsh := true } }
      else s) s)

/-- FRAMES_DISCARDED: a unit with only asleep frames left ends, and the driver receives a KIND 8 record (R256). -/
def execFramesDiscarded (core unit : Nat) (s : State) : Out :=
  match getUnit s core unit with
  | none => .next s
  | some u =>
    let n := frameCount s core unit
    let awake := (unitFrames s core unit).any fun kv => awakeCount s core u.ctx kv.2 != some 0
    if !unitQuiet s core unit || n = 0 || awake || (getCore s core).quiesced || frFull s
        || jobsHeld s u.ctx then .next s
    else
      let name := match mfind s.launches u.launch with
        | some l => dw (pkCnt l.packet + l.serial * 2 ^ 8)
        | none => 0
      .next (postFault (endUnit s core unit u) (mkFault 8 0 u.ctx core unit false 0 (dw n) name))

end Sys2Proof.Machine
end

