-- ==== Sys2Proof/Machine/InPlace.lean ====
section
/-! DEFINITION. The in-place updates (R353, R354, R382, R406, R407, R430). -/

namespace Sys2Proof.Machine

/-- A source field names a register. -/
def namesN (a : Src) (d : BitVec 6) : Bool := a == .n d

/-- NREG records of the updated registers, DST's first (R353). -/
def nregOf (c : Cx) (ds : List (BitVec 6)) (g : Group) : Group :=
  if c.g.recording then ds.foldl (fun g d => histPush g c.ic kNREG (nregWords g d.toNat 1)) g else g

/-- History words of those records. -/
def nregOfWords (c : Cx) (n : Nat) : Nat := if c.g.recording then n * recWords (c.w / 2) else 0

/-- An in-place update of one register. `may` says whether the issue may push NREG, `does` whether it does. -/
def inPlace1 (s : State) (gd : Guard) (d : BitVec 6) (srcs : List Src) (may : Bool) (does : Cx → Bool)
    (f : Cx → Nat → Word) (post : Cx → Group → Group) : Out :=
  issue s gd (fun c => { srcs := u32 srcs, uses := [.n d.toNat 1], words := if may then nregOfWords c 1 else 0 })
    fun c s =>
      let s := consume c (u32 srcs) s
      let s := modGroup s c.core c.gslot fun g =>
        let g := if does c then nregOf c [d] g else g
        post c (g.setNs d.toNat c.p.mask (f c))
      finish c .fall (isHorizon { srcs := u32 srcs }) s

/-- An update with one source: it records when the source names the updated register (R353). -/
def inPlaceSrc (s : State) (gd : Guard) (d : BitVec 6) (a : Src) (f : Word → Word → Word) : Out :=
  inPlace1 s gd d [a] (namesN a d) (fun _ => namesN a d)
    (fun c l => f (c.g.nreg d.toNat l) (opnd32 c (u32 [a]) 0 l)) fun _ g => g

/-- ADDIN (R354). -/
def execAddin (g : Guard) (d : BitVec 6) (a : Src) (s : State) : Out := inPlaceSrc s g d a fun x y => x + y

/-- SUBIN (R430). -/
def execSubin (g : Guard) (d : BitVec 6) (a : Src) (s : State) : Out := inPlaceSrc s g d a fun x y => x - y

/-- XORIN (R430). -/
def execXorin (g : Guard) (d : BitVec 6) (a : Src) (s : State) : Out := inPlaceSrc s g d a fun x y => x ^^^ y

/-- ROLIN (R406). -/
def execRolin (g : Guard) (d : BitVec 6) (a : Src) (s : State) : Out := inPlaceSrc s g d a rolWord

/-- NEGIN (R406). -/
def execNegin (g : Guard) (d : BitVec 6) (s : State) : Out :=
  inPlace1 s g d [] false (fun _ => false) (fun c l => 0 - c.g.nreg d.toNat l) fun _ g => g

/-- NOTIN (R406). -/
def execNotin (g : Guard) (d : BitVec 6) (s : State) : Out :=
  inPlace1 s g d [] false (fun _ => false) (fun c l => ~~~(c.g.nreg d.toNat l)) fun _ g => g

/-- An even multiplier in an active lane (R407). -/
def evenMul (c : Cx) (a : Src) : Bool := (lanes c.p.mask).any fun l => (opnd32 c (u32 [a]) 0 l).toNat % 2 == 0

/-- MULIN: records when SA names the register or is even in an active lane (R129, R407). -/
def execMulin (g : Guard) (d : BitVec 6) (a : Src) (s : State) : Out :=
  inPlace1 s g d [a] true (fun c => namesN a d || evenMul c a)
    (fun c l => c.g.nreg d.toNat l * opnd32 c (u32 [a]) 0 l) fun _ g => g

/-- The exchange of two registers in the lanes of a mask. -/
def swapRegs (d a : BitVec 6) (m : Mask) (g : Group) : Group :=
  (lanes m).foldl (fun g l =>
    let x := g.nreg d.toNat l
    let y := g.nreg a.toNat l
    (g.setN d.toNat l y).setN a.toNat l x) g

/-- SWAP: one register named twice changes nothing (R353, R430). -/
def execSwap (g : Guard) (d a : BitVec 6) (s : State) : Out :=
  issue s g (fun _ => { uses := [.n d.toNat 1, .n a.toNat 1] }) fun c s =>
    finish c .fall false (modGroup s c.core c.gslot (swapRegs d a c.p.mask))

/-- CSWAP: records both registers when SB names one of them (R353, R354). -/
def execCswap (g : Guard) (d a : BitVec 6) (b : Src) (s : State) : Out :=
  let self := d != a && (namesN b d || namesN b a)
  issue s g (fun c => { srcs := u32 [b], uses := [.n d.toNat 1, .n a.toNat 1],
                        words := if self then nregOfWords c 2 else 0 }) fun c s =>
    let s := consume c (u32 [b]) s
    let m := c.p.mask &&& maskOf fun l => opnd32 c (u32 [b]) 0 l != 0
    let s := modGroup s c.core c.gslot fun g =>
      swapRegs d a m (if self then nregOf c [d, a] g else g)
    finish c .fall (isHorizon { srcs := u32 [b] }) s

end Sys2Proof.Machine
end

