-- ==== Sys2Proof/Machine/Reverse.lean ====
section
/-! DEFINITION. Reverse execution: HistPop (R102), the inverses of path placement (R128) and of instructions (R129), the
reverse step (R130), and REVERSE_STEP (R134, R135). A reverse step is atomic: one that takes a trap leaves the group as it
stood. -/

namespace Sys2Proof.Machine

/-- Why a reverse step does not happen: a wait, or a trap with TRAPINFO2 and TRAPINFO3. -/
inductive RevStop where
  | wait
  | trap (code : BitVec 8) (i2 i3 : DWord)
deriving DecidableEq, Repr

/-- HORIZON: 0 at an empty stack or a HORIZON record, 1 at any other mismatch (R102). -/
def revHz (n : Nat) : RevStop := .trap tHORIZON (dw n) 0

/-! ### The top of the stack (R102, R121) -/

/-- A record's header: kind, CONT, IC and payload words. -/
structure RecHead where
  kind : Nat
  cont : Bool
  ic   : BitVec 48
  len  : Nat
deriving DecidableEq, Repr

def headOf (w : DWord) : RecHead :=
  { kind := wfld w 0 7, cont := w.getLsbD 7, ic := w.extractLsb' 16 48, len := wfld w 8 8 }

/-- The word `i` below the top lies in a sector that cannot be corrected (R309). -/
def histBad (s : State) (g : Group) (i : Nat) : Bool :=
  decide (i ≥ g.hist.length) && match xlate s g.ctx (g.hsp.toNat - 8 * (i + 1)) .load false with
    | .ok t a _ => homeBad s t a 8
    | _ => false

/-- The header of the record that lies `i` words below the top; none at the bottom. -/
def histHeadAt (s : State) (g : Group) (i : Nat) : Option RecHead :=
  if g.hsp.toNat ≤ g.hbase.toNat + 8 * i then none else some (headOf (histWord s g i))

def histTop (s : State) (g : Group) : Option RecHead := histHeadAt s g 0

/-- The top record's payload, lowest word first. -/
def histPayload (s : State) (g : Group) (n : Nat) : List DWord := (List.range n).map fun i => histWord s g (n - i)

/-- The pieces below a continuation (R102). -/
def popPieces (s : State) : Nat → Group → Nat → BitVec 48 → List DWord → Except RevStop (List DWord × Group)
  | 0, _, _, _, _ => .error (revHz 1)
  | k + 1, g, kind, c, acc =>
    match histTop s g with
    | none => .error (revHz 0)
    | some h =>
      if histBad s g 0 then .error (revHz 1)
      else if h.kind = kHORIZON then .error (revHz 0)
      else if h.kind ≠ kind ∨ h.ic ≠ c ∨ (List.range (h.len + 1)).any (histBad s g) then .error (revHz 1)
      else
        let acc := histPayload s g h.len ++ acc
        let g := histDrop g (h.len + 1)
        if h.cont then popPieces s k g kind c acc else .ok (acc, g)

/-- HistPop (R102); an optional pop that finds no match gives none. -/
def histPopOpt (s : State) (g : Group) (kind : Nat) (c : BitVec 48) (opt : Bool) :
    Except RevStop (Option (List DWord) × Group) :=
  match histTop s g with
  | none => .error (revHz 0)
  | some h =>
    if histBad s g 0 then .error (revHz 1)
    else if h.kind = kHORIZON then .error (revHz 0)
    else if h.kind ≠ kind ∨ h.ic ≠ c then (if opt then .ok (none, g) else .error (revHz 1))
    else match popPieces s 4096 g kind c [] with
      | .ok (ws, g) => .ok (some ws, g)
      | .error e => .error e

def histPop (s : State) (g : Group) (kind : Nat) (c : BitVec 48) : Except RevStop (List DWord × Group) :=
  match histPopOpt s g kind c false with
  | .ok (ws, g) => .ok (ws.getD [], g)
  | .error e => .error e

/-! ### Placement words (R126) -/

structure Place where
  count : Nat
  ev    : Nat
  slot  : Slot
  pk    : Bool
  ppos  : Nat
  fpos  : Nat
  fser  : BitVec 16
deriving DecidableEq, Repr

def placeOf (w : DWord) : Place :=
  { count := wfld w 0 6, ev := wfld w 6 2, slot := if w.getLsbD 8 then .b else .a, pk := w.getLsbD 9,
    ppos := wfld w 16 7, fpos := wfld w 23 7, fser := w.extractLsb' 30 16 }

/-- Pops a placement word of an event among those given. -/
def popPlace (s : State) (g : Group) (c : BitVec 48) (evs : List Nat) : Except RevStop (Place × Group) :=
  match histPop s g kSLOTS c with
  | .error e => .error e
  | .ok (ws, g) =>
    let p := placeOf (ws.getD 0 0)
    if p.count = 0 ∧ evs.contains p.ev then .ok (p, g) else .error (revHz 1)

/-- The inverse of a merge (R128). -/
def undoMerge (s : State) (g : Group) (c : BitVec 48) : Except RevStop Group :=
  match histPop s g kJOINR c with
  | .error e => .error e
  | .ok (ws, g) =>
    match popPlace s g c [3] with
    | .error e => .error e
    | .ok (w, g) =>
      let m := ws.getD 0 0
      match g.path w.slot with
      | none => .error (revHz 1)
      | some p =>
        if p.mask &&& m ≠ m ∨ w.fpos > g.stack.length ∨ (w.pk ∧ w.ppos > g.stack.length + 1)
            ∨ (¬w.pk ∧ (g.path (otherSlot w.slot)).isSome) then .error (revHz 1)
        else
          let other : Path := { ii := p.ii, mask := m, cf := ws.getD 1 0, frame := some w.fser, wait := true,
                                since := g.waitCtr }
          let keep : Path := { p with mask := p.mask &&& ~~~m, frame := some w.fser, wait := true,
                                      since := g.waitCtr + 1 }
          let fr : StackEntry := .frame (some p.ii) p.mask w.fser p.frame
          let g := { g with waitCtr := g.waitCtr + 2 }
          if !w.pk then
            let g := { g with stack := putAt g.stack w.fpos fr }
            .ok ((g.setPath w.slot (some keep)).setPath (otherSlot w.slot) (some other))
          else
            let st := if w.fpos < w.ppos then putAt (putAt g.stack w.fpos fr) w.ppos (.path other)
              else putAt (putAt g.stack w.ppos (.path other)) w.fpos fr
            .ok ({ g with stack := st }.setPath w.slot (some keep))

/-- The inverse of a reload or of an exchange (R128). -/
def undoPlace (s : State) (g : Group) (c : BitVec 48) : Except RevStop Group :=
  match popPlace s g c [1, 2] with
  | .error e => .error e
  | .ok (w, g) =>
    match g.path w.slot with
    | none => .error (revHz 1)
    | some p =>
      if w.ppos > g.stack.length then .error (revHz 1)
      else if w.ev = 1 then .ok ({ g with stack := putAt g.stack w.ppos (.path p) }.setPath w.slot none)
      else match g.stack.getLast? with
        | some (.path q) =>
          if w.ppos + 1 > g.stack.length then .error (revHz 1)
          else .ok ({ g with stack := putAt g.stack.dropLast w.ppos (.path p) }.setPath w.slot
            (some { q with dem := false, exch := false }))
        | _ => .error (revHz 1)

/-- The events that followed issue `c` are undone, newest first (R130). -/
def undoEvents (s : State) (c : BitVec 48) : Nat → Group → Except RevStop Group
  | 0, _ => .error (revHz 1)
  | k + 1, g =>
    match histTop s g with
    | none => .ok g
    | some h =>
      if histBad s g 0 then .error (revHz 1)
      else if h.ic ≠ c then .ok g
      else if h.kind = kJOINR then
        match undoMerge s g c with
        | .ok g => undoEvents s c k g
        | .error e => .error e
      else if h.kind = kSLOTS then
        match wfld (histWord s g 1) 0 6 with
        | 0 =>
          match undoPlace s g c with
          | .ok g => undoEvents s c k g
          | .error e => .error e
        | 63 => .error (revHz 1)
        | _ => .ok g
      else .ok g

/-! ### Reverse traces (R130) -/

/-- The entries of a trace word, oldest first (R126). -/
def traceOf (w : DWord) : List Slot :=
  (List.range (wfld w 0 6)).map fun i => if w.getLsbD (6 + i) then .b else .a

/-- The slot whose issue is undone next, and the group with that entry taken. Where another record lies above the trace, as the CF of a
REV that a later step passes, the step takes HORIZON with cause 1 by R130's order, though R134 says that it passes the REV (DESIGN
CHOICE, assumption 73). -/
def popTrace (s : State) (g : Group) (c : BitVec 48) : Except RevStop (Slot × Group) :=
  if !g.both then (if g.pathA.isSome then .ok (.a, g) else if g.pathB.isSome then .ok (.b, g) else .error (revHz 0))
  else
    let loaded : Except RevStop Group :=
      if !g.rtrace.isEmpty then .ok g
      else match histPop s g kSLOTS c with
        | .error e => .error e
        | .ok (ws, g) =>
          let n := wfld (ws.getD 0 0) 0 6
          if n = 0 ∨ n > 58 then .error (revHz 1) else .ok { g with rtrace := traceOf (ws.getD 0 0) }
    match loaded with
    | .error e => .error e
    | .ok g => match g.rtrace.getLast? with
      | some sl => .ok (sl, { g with rtrace := g.rtrace.dropLast })
      | none => .error (revHz 1)

/-- What is left of the reverse trace goes back to the stack as one record, when a reversal stops (R130). -/
def returnTrace (g : Group) : Group :=
  { flushTrace { g with ptrace := g.rtrace, ptraceIc := g.lastIc } with rtrace := [] }

/-! ### Operands of an issue that is undone (R129) -/

/-- Destinations with the number of registers, or of pushes, that they take. -/
def revDst : Instr → Option (Dst × Nat)
  | .call _ d _ | .mov _ _ d _ | .add _ _ _ d _ _ | .sub _ _ _ d _ _ | .mul _ _ _ d _ _ | .mulhi _ _ d _ _
  | .mad _ _ _ d _ _ _ | .div _ _ d _ _ | .rem _ _ d _ _ | .min _ _ d _ _ | .max _ _ d _ _ | .abs _ _ _ d _
  | .cmp _ _ _ d _ _ | .sel _ _ d _ _ _ | .addi _ _ _ d _ _ | .and _ d _ _ | .or _ d _ _ | .xor _ d _ _
  | .andn _ d _ _ | .shl _ d _ _ | .shr _ d _ _ | .sar _ d _ _ | .rol _ d _ _ | .clz _ d _ | .popc _ d _ | .brev _ d _
  | .bfe _ _ d _ _ | .bfi _ d _ _ _ | .shfl _ _ d _ _ | .redu _ _ d _ | .scan _ _ _ d _ | .fadd _ _ _ d _ _
  | .fsub _ _ _ d _ _ | .fmul _ _ _ d _ _ | .fma _ _ _ d _ _ _ | .fmin _ _ d _ _ | .fmax _ _ d _ _
  | .fcmp _ _ _ d _ _ | .fdiv _ _ _ d _ _ | .fsqrt _ _ _ d _ | .fexp2 _ _ _ d _ | .flog2 _ _ _ d _
  | .fma2 _ _ _ _ d _ _ _ | .cvt _ _ _ _ _ _ d _ | .trd _ _ d | .txch _ _ d _ | .bwait _ d _ _ | .btest _ d _
  | .cpstat _ d | .vdstat _ d | .binstat _ _ d _ | .gtest _ d _ | .hstat _ d | .srd _ d _ => some (d, 1)
  | .vote _ m d _ => some (d, if m = .ballot then 2 else 1)
  | .ld _ _ m d | .xst _ m d _ | .ldpoll _ m d | .ldlo _ m d => some (d, loadRegs m.size.toNat)
  | _ => none

/-- Lane sources, whose final-use marks and pops act. -/
def revSrcs : Instr → List SrcUse
  | .bra _ c _ _ => u32 (condSrcs c)
  | .addin _ _ a | .subin _ _ a | .xorin _ _ a | .rolin _ _ a | .mulin _ _ a | .faddin _ _ _ _ a | .fmulin _ _ _ _ a
  | .abs _ _ _ _ a | .addi _ _ _ _ a _ | .clz _ _ a | .popc _ _ a | .brev _ _ a | .vote _ _ _ a | .redu _ _ _ a
  | .scan _ _ _ _ a | .fsqrt _ _ _ _ a | .fexp2 _ _ _ _ a | .flog2 _ _ _ _ a | .cvt _ _ _ _ _ _ _ a | .twr _ _ a
  | .txch _ _ _ a | .mov _ _ _ (.src a) => u32 [a]
  | .cswap _ _ _ b => u32 [b]
  | .add _ _ _ _ a b | .sub _ _ _ _ a b | .mul _ _ _ _ a b | .mulhi _ _ _ a b | .div _ _ _ a b | .rem _ _ _ a b
  | .min _ _ _ a b | .max _ _ _ a b | .cmp _ _ _ _ a b | .and _ _ a b | .or _ _ a b | .xor _ _ a b | .andn _ _ a b
  | .shl _ _ a b | .shr _ _ a b | .sar _ _ a b | .rol _ _ a b | .bfe _ _ _ a b | .shfl _ _ _ a b | .fadd _ _ _ _ a b
  | .fsub _ _ _ _ a b | .fmul _ _ _ _ a b | .fmin _ _ _ a b | .fmax _ _ _ a b | .fcmp _ _ _ _ a b
  | .fdiv _ _ _ _ a b => u32 [a, b]
  | .mad _ _ _ _ a b c | .sel _ _ _ a b c | .bfi _ _ a b c | .fma _ _ _ _ a b c | .fma2 _ _ _ _ _ a b c =>
    u32 [a, b, c]
  | .ld _ _ m _ | .ldpoll _ m _ | .ldlo _ m _ | .pref _ _ m => [(m.sa, false)]
  | .st _ m b | .xst _ m _ b => [(m.sa, false), (b, m.size.toNat == 3)]
  | .stlo _ _ m b => [(m.sa, false), (b, false)]
  | .enq _ _ a b => [(a, true), (b, true)]
  | _ => []

/-- The horizons of R132 by their instruction, with the two that commit (R250, R373). -/
def revHorizon : Instr → Bool
  | .st _ m _ | .xst _ m _ _ => m.space != .priv
  | .stlo .. | .atom .. | .enq .. | .deq .. | .cpstart .. | .vdsub .. | .mxlds .. | .mxswap .. | .mxstr .. | .mxdrain ..
  | .mxzero .. | .launch .. | .cancel .. | .ccnt .. | .qtick .. | .pub .. | .pin .. | .unpin .. | .discard .. | .talloc ..
  | .tfree .. | .tring .. | .tcolop .. | .tld .. | .tst .. | .binit .. | .barv .. | .barm .. | .susp .. | .wake ..
  | .binflush .. | .gset .. | .swr .. | .dbgmb .. | .exit .. | .commit .. => true
  | i => isHorizon { srcs := revSrcs i, dst := (revDst i).map fun d => (d.1, false) }

/-- The engine commands (R82). -/
def isEngineCmd : Instr → Bool
  | .enq .. | .cpstart .. | .vdsub .. | .mxlds .. | .mxswap .. | .mxstr .. | .mxdrain .. | .mxzero .. => true
  | _ => false

/-- The guard field of an instruction (R81). -/
def instrGuard (i : Instr) : Guard :=
  match encode i with
  | some w => wG w
  | none => none

/-- An engine command guarded on the open speculation's slot: it was pushed without a record (R129, R137). -/
def specPushed (c : Cx) (i : Instr) : Bool :=
  isEngineCmd i && enginePass c (match i with
    | .enq _ e _ _ => if e = 0 then entGuard (enqBits c (revSrcs i) e) else instrGuard i
    | i => instrGuard i)

/-! ### Inverses (R129) -/

/-- The result queue shifts back by one entry in the active lanes; q16 is left dead. -/
def popQ (m : Mask) (g : Group) : Group :=
  let g := ((List.range 15).map fun i => i + 1).foldl (fun g a =>
    let g := (lanes m).foldl (fun g l => g.setQ a l (g.qval (a + 1) l)) g
    g.setLive a ((g.qlive a &&& ~~~m) ||| (g.qlive (a + 1) &&& m))) g
  let g := (lanes m).foldl (fun g l => g.setQ 16 l 0) g
  g.setLive 16 (g.qlive 16 &&& ~~~m)

/-- Undoes one push with its optional QEVICT. -/
def undoPush (s : State) (c : Cx) (g : Group) : Except RevStop Group :=
  match histPopOpt s g kQEVICT c.ic true with
  | .error e => .error e
  | .ok (none, g) => .ok (popQ c.p.mask g)
  | .ok (some ws, g) =>
    let g := popQ c.p.mask g
    let g := (List.range g.w).foldl (fun g l => g.setQ 16 l (laneOfWords ws l)) g
    .ok (g.setLive 16 (ws.getD (g.w / 2) 0))

/-- Restores `n` registers from an NREG payload, in every lane. -/
def restoreRegs (g : Group) (i n : Nat) (ws : List DWord) : Group :=
  (List.range n).foldl (fun g j =>
    (List.range g.w).foldl (fun g l => g.setN (i + j) l (laneOfWords (ws.drop (j * (g.w / 2))) l)) g) g

def undoNreg (s : State) (c : Cx) (i n : Nat) (g : Group) : Except RevStop Group :=
  match histPop s g kNREG c.ic with
  | .ok (ws, g) => .ok (restoreRegs g i n ws)
  | .error e => .error e

/-- Undoes a destination of `n` registers or pushes. -/
def undoDst (s : State) (c : Cx) (d : Dst) (n : Nat) (g : Group) : Except RevStop Group :=
  match d with
  | .push => foldE (fun g _ => undoPush s c g) g (List.range n)
  | .recd i => undoNreg s c i.toNat n g
  | .dead i => .ok ((List.range n).foldl (fun g j =>
      (List.range g.w).foldl (fun g l => g.setN (i.toNat + j) l 0) g) g)
  | .uni i =>
    match histPop s g kKREG c.ic with
    | .ok (ws, g) => .ok (g.setK i.toNat (ws.getD 0 0))
    | .error e => .error e
  | .discard | .eng _ => .ok g

/-- Final-use marks are taken back in the active lanes. -/
def relive (us : List SrcUse) (m : Mask) (g : Group) : Group :=
  us.foldl (fun g u =>
    match u.1 with
    | .q _ true => (useAges u).foldl (fun g a => g.setLive a (g.qlive a ||| m)) g
    | _ => g) g

/-- The inverse of an odd number modulo 2^32 (R407). -/
def modInv (a : Word) : Word := (List.range 5).foldl (fun x _ => x * (2 - a * x)) a

/-- The inverse of an in-place update without a record, none when its forward issue pushed NREG. -/
def invInPlace (c : Cx) : Instr → Option (BitVec 6 × (Nat → Word))
  | .addin _ d a => if namesN a d then none else some (d, fun l => c.g.nreg d.toNat l - opnd32 c (u32 [a]) 0 l)
  | .subin _ d a => if namesN a d then none else some (d, fun l => c.g.nreg d.toNat l + opnd32 c (u32 [a]) 0 l)
  | .xorin _ d a => if namesN a d then none else some (d, fun l => c.g.nreg d.toNat l ^^^ opnd32 c (u32 [a]) 0 l)
  | .rolin _ d a =>
    if namesN a d then none
    else some (d, fun l => (c.g.nreg d.toNat l).rotateRight ((opnd32 c (u32 [a]) 0 l).toNat % 32))
  | .mulin _ d a =>
    if namesN a d || evenMul c a then none
    else some (d, fun l => c.g.nreg d.toNat l * modInv (opnd32 c (u32 [a]) 0 l))
  | .negin _ d => some (d, fun l => 0 - c.g.nreg d.toNat l)
  | .notin _ d => some (d, fun l => ~~~(c.g.nreg d.toNat l))
  | _ => none

/-- The destination of an in-place update. -/
def inPlaceDst : Instr → Option (BitVec 6)
  | .addin _ d _ | .subin _ d _ | .xorin _ d _ | .rolin _ d _ | .mulin _ d _ | .negin _ d | .notin _ d
  | .faddin _ _ _ d _ | .fmulin _ _ _ d _ => some d
  | _ => none

/-- Old bytes from a MEMOLD payload: those of a lane. -/
def oldBytes (ws : List DWord) (size l : Nat) : List Byte :=
  (((ws.map fun w => bytesOf 8 w.toNat).flatten).drop (l * size)).take size

/-- The bytes of a lane's current destination value (R55, R129). -/
def dstBytes (g : Group) (d : Dst) (size l : Nat) : List Byte :=
  match d with
  | .push =>
    if size > 4 then bytesOf 4 (g.qval 2 l).toNat ++ bytesOf 4 (g.qval 1 l).toNat else bytesOf size (g.qval 1 l).toNat
  | .recd i | .dead i =>
    if size > 4 then ((List.range (size / 4)).map fun j => bytesOf 4 (g.nreg (i.toNat + j) l).toNat).flatten
    else bytesOf size (g.nreg i.toNat l).toNat
  | .uni i => bytesOf size (g.kreg i.toNat).toNat
  | _ => List.replicate size 0

/-- Private memory is rewritten by a new store at the step (R281). -/
def restorePriv (s : State) (c : Cx) (us : List SrcUse) (m : MemOp) (data : Nat → List Byte) (g : Group) :
    Except RevStop State :=
  let size := 2 ^ m.size.toNat
  let c' := { c with g := g }
  match accesses s g .priv size (accAlign .priv size) .store c.p.mask (memAddr c' us m) with
  | .error (code, _, a) => .error (if code = tWAIT then .wait else .trap code (dw a) 1)
  | .ok ps =>
    .ok (setGroup s c.core c.gslot (pushStore c' .st false m.size.toNat (storePieces ps data) false g))

/-- A slice is rewritten. -/
def restoreSlice (s : State) (c : Cx) (sl : Slice) (data : Nat → List Byte) (g : Group) : Except RevStop State :=
  match sliceOffs s { c with g := g } sl with
  | none => .error (revHz 1)
  | some (t, offs) =>
    .ok (setGroup (sliceWrite s c.core t offs fun l => w32 (natOf (data l))) c.core c.gslot g)

/-- Bytes of an element of the tile that a slice names. -/
def sliceBytes (s : State) (c : Cx) (sl : Slice) : Nat :=
  match findTile s c.core c.g.unit sl.th.toNat with
  | some (_, t) => fmtBytes t.fmt
  | none => 0

/-- Pops the MEMOLD of an issue. -/
def withMemold (s : State) (c : Cx) (k : List DWord → Group → Except RevStop State) : Except RevStop State :=
  match histPop s c.g kMEMOLD c.ic with
  | .ok (ws, g) => k ws g
  | .error e => .error e

/-- Undoes a destination and goes on. -/
def withDst (s : State) (c : Cx) (d : Dst) (n : Nat) (g : Group) (k : Group → Except RevStop State) :
    Except RevStop State :=
  match undoDst s c d n g with
  | .ok g => k g
  | .error e => .error e

/-- The inverse of an instruction (R129), its records popped newest first. `c` holds the group and the path as the
instruction found them, save for what it wrote. -/
def invert (s : State) (c : Cx) (i : Instr) : Except RevStop State :=
  let m := c.p.mask
  let us := revSrcs i
  let done (g : Group) : Except RevStop State := .ok (setGroup s c.core c.gslot (relive us m g))
  match i with
  | .mark _ =>
    match histPop s c.g kMARK c.ic with
    | .ok (_, g) => done g
    | .error e => .error e
  | .spec .. =>
    -- left without effect after TRUE, gone after FALSE (R138, R139)
    match histTop s c.g with
    | some h =>
      if h.kind = kSPECOPEN ∧ h.ic = c.ic then done (histDrop c.g (h.len + 1)) else done c.g
    | none => done c.g
  | .loop _ n _ => done (c.g.setNs n.toNat m fun l => c.g.nreg n.toNat l + 1)
  | .swap _ d a => done (swapRegs d a m c.g)
  | .cswap _ d a b =>
    if d != a && (namesN b d || namesN b a) then
      match undoNreg s c a.toNat 1 c.g with
      | .error e => .error e
      | .ok g => match undoNreg s c d.toNat 1 g with
        | .ok g => done g
        | .error e => .error e
    else done (swapRegs d a (m &&& maskOf fun l => opnd32 c us 0 l != 0) c.g)
  | .st _ mo _ =>
    if c.g.spec.isSome && mo.space != .priv then done c.g
    else withMemold s c fun ws g => restorePriv s c us mo (oldBytes ws (2 ^ mo.size.toNat)) (relive us m g)
  | .stlo .. => done c.g
  | .xst _ mo d _ =>
    let size := 2 ^ mo.size.toNat
    if xstMemold d then
      withMemold s c fun ws g => withDst s c d (loadRegs mo.size.toNat) g fun g =>
        restorePriv s c us mo (oldBytes ws size) (relive us m g)
    else
      withDst s c d (loadRegs mo.size.toNat) c.g fun g =>
        restorePriv s c us mo (dstBytes c.g d size) (relive us m g)
  | .twr _ sl _ =>
    withMemold s c fun ws g => restoreSlice s c sl (oldBytes ws (sliceBytes s c sl)) (relive us m g)
  | .txch _ sl d _ =>
    let e := sliceBytes s c sl
    match d with
    | .dead _ => withDst s c d 1 c.g fun g =>
        withMemold s { c with g := g } fun ws g => restoreSlice s c sl (oldBytes ws e) (relive us m g)
    | d => withDst s c d 1 c.g fun g => restoreSlice s c sl (dstBytes c.g d e) (relive us m g)
  | i =>
    match inPlaceDst i with
    | some d =>
      match invInPlace c i with
      | some (d, f) => done (c.g.setNs d.toNat m f)
      | none => match undoNreg s c d.toNat 1 c.g with
        | .ok g => done g
        | .error e => .error e
    | none =>
      match revDst i with
      | some (d, n) => withDst s c d n c.g done
      | none => done c.g

/-- Whether an issue was a no-op by its guard (R53, R129). -/
def guardedOff (g : Group) (i : Instr) : Bool :=
  !isEngineCmd i && match instrGuard i with
    | some gs => g.guard gs.toNat == .false
    | none => false

/-- The stop at a horizon's own record (R102, R131). -/
def horizonStop (s : State) (g : Group) : RevStop :=
  match histTop s g with
  | none => revHz 0
  | some h => if h.kind = kHORIZON then revHz 0 else revHz 1

/-- Undoes one issue: no effect, an engine command or a store of the open speculation, a horizon, or the inverse. -/
def undoIssue (s : State) (c : Cx) (i : Instr) : Except RevStop State :=
  let back : Except RevStop State := .ok (setGroup s c.core c.gslot (relive (revSrcs i) c.p.mask c.g))
  if guardedOff c.g i then .ok (setGroup s c.core c.gslot c.g)
  else if specPushed c i then back
  else
    let held := c.g.spec.isSome && match i with
      | .st _ m _ => m.space != .priv
      | .stlo .. => true
      | _ => false
    if held then back
    else if revHorizon i then .error (horizonStop s c.g)
    else invert s c i

/-! ### The reverse step (R130) -/

/-- Reads a line for a reverse fetch (R77, R78, R130). -/
def revLine (s : State) (core : Nat) (g : Group) (ii : II) : Except RevStop (BitVec 512) :=
  let a := dw (iiLine ii * 64)
  if lineHeld s core g.ctx g.launch (iiLine ii) then .error .wait
  else match readLine s core g.ctx g.launch (iiLine ii) with
  | .ok b => if lineRsvdOk b then .ok b else .error (.trap tILLEGAL 0 0)
  | .page => .error (.trap tPAGE a 2)
  | .prot => .error (.trap tPROT a 2)
  | .par => .error (.trap tFETCHPAR 0 0)

/-- The instruction at an II; bits that no instruction has match no issue. -/
def revFetch (s : State) (core : Nat) (g : Group) (ii : II) : Except RevStop Instr :=
  match revLine s core g ii with
  | .error e => .error e
  | .ok b => match decode (lineSlot b (iiSlot ii)) with
    | .ok i => .ok i
    | .error _ => .error (revHz 1)

/-- The instruction from which a path came to its II, past every REV that reversed nothing: its II, the path's cf there, and
the group without the CF records popped (R130). -/
def revPred (s : State) (core : Nat) (c : BitVec 48) : Nat → Group → II → DWord → Except RevStop (II × Instr × DWord × Group)
  | 0, _, _, _ => .error (revHz 1)
  | k + 1, g, ii, cf =>
    match revLine s core g ii with
    | .error e => .error e
    | .ok b =>
      let here : Except RevStop (II × DWord × Group) :=
        if lineMark b (iiSlot ii) then
          match histPop s g kCF c with
          | .error e => .error e
          | .ok (ws, g) => .ok (if cf = fallthru then ii - 1 else cf.setWidth 48, ws.getD 0 0, g)
        else .ok (ii - 1, cf, g)
      match here with
      | .error e => .error e
      | .ok (pred, cf, g) =>
        match revFetch s core g pred with
        | .error e => .error e
        | .ok (.rev ..) => revPred s core c k g pred cf
        | .ok i => .ok (pred, i, cf, g)

/-- Issue `c` divided its path: CF records of `c` lie over its SPLIT (R123). -/
def isSplit (s : State) (g : Group) (c : BitVec 48) : Bool :=
  let at_ (i : Nat) (k : Nat) : Bool := match histHeadAt s g i with
    | some h => h.ic == c && h.kind == k
    | none => false
  at_ 0 kCF && (at_ 2 kSPLIT || (at_ 2 kCF && at_ 4 kSPLIT))

/-- The inverse of a division (R128, R130): the group, the slot of the branching path, and the branch. -/
def undoSplit (s : State) (core : Nat) (g : Group) (c : BitVec 48) : Except RevStop (Group × Slot × Path × Instr) :=
  match g.pathA, g.pathB with
  | some a, some b =>
    let ii : II := b.cf.setWidth 48
    match revFetch s core g ii, revLine s core g (ii + 1), histPop s g kCF c with
    | .error e, _, _ | _, .error e, _ | _, _, .error e => .error e
    | .ok i, .ok ln, .ok (ws, g) =>
      match (if lineMark ln (iiSlot (ii + 1)) then (histPop s g kCF c).map (·.2) else .ok g) with
      | .error e => .error e
      | .ok g =>
        match histPop s g kSPLIT c with
        | .error e => .error e
        | .ok (tk, g) =>
          match popPlace s g c [0] with
          | .error e => .error e
          | .ok (w, g) =>
            match g.stack.getLast? with
            | some (.frame _ _ ser par) =>
              if a.frame ≠ some ser ∨ b.frame ≠ some ser ∨ tk.getD 0 0 ≠ b.mask then .error (revHz 1)
              else
                let p : Path := { ii := ii, mask := a.mask ||| b.mask, cf := ws.getD 0 0, frame := par }
                let g := { g with pathA := none, pathB := none, stack := g.stack.dropLast }.setPath w.slot (some p)
                if !w.pk then .ok (g, w.slot, p, i)
                else match g.stack.getLast? with
                  | some (.path q) =>
                    .ok ({ g with stack := g.stack.dropLast }.setPath (otherSlot w.slot) (some q), w.slot, p, i)
                  | _ => .error (revHz 1)
            | _ => .error (revHz 1)
  | _, _ => .error (revHz 1)

/-- One reverse step of a group (R130): the state after it, and the slot whose issue was undone. -/
def revStep (s : State) (core gslot : Nat) : Except RevStop (State × Slot) :=
  match getGroup s core gslot with
  | none => .error .wait
  | some g0 =>
    if g0.ic = 0 then .error (revHz 0)
    else
      let c := g0.ic - 1
      match undoEvents s c 4096 g0 with
      | .error e => .error e
      | .ok g =>
        -- an event's own HORIZON stands over issue c (R120, R131)
        if (histTop s g).any fun h => h.kind == kHORIZON && h.ic == c then .error (revHz 0)
        else match popTrace s g c with
        | .error e => .error e
        | .ok (sl, g) =>
          let stepTo (g : Group) (sl : Slot) (p : Path) (i : Instr) : Except RevStop (State × Slot) :=
            let p := { p.moved p.ii with wait := false, bp := [] }
            let g := { g.setPath sl (some p) with ic := c, last := sl }
            let cx : Cx := { core := core, gslot := gslot, slot := sl, g := g, p := p }
            (undoIssue s cx i).map fun s => (backAux 130 s core gslot, sl)
          if g.both && isSplit s g c then
            match undoSplit s core g c with
            | .error e => .error e
            | .ok (g, sl, p, i) =>
              -- the records are popped: what is left of the branch is its counter and its final-use reads
              stepTo g sl p i
          else match g.path sl with
            | none => .error (revHz 1)
            | some p =>
              match revPred s core c 4096 g p.ii p.cf with
              | .error e => .error e
              | .ok (pred, i, cf, g) => stepTo g sl { p with ii := pred, cf := cf } i

/-! ### Reversals -/

/-- The group's registers must stand still: every load that writes one is bound (R40). -/
def revBusy (g : Group) : Bool := (liveLq g).any fun e => match e.dst with
  | .lanes _ => true
  | .tile .. => false

/-- The words that lie in the granary and that a step may read: a fault of the read, or a wait for the core's own writes of
them (R119). At most 256 words below the window are looked at. -/
def granaryStop (s : State) (core : Nat) (g : Group) : Option RevStop :=
  let top := g.hsp.toNat - 8 * g.hist.length
  let n := min (top - g.hbase.toNat) 2048
  let lo := top - n
  if n = 0 then none
  else if rangeBusy s core g.ctx lo n .load then some .wait
  else match rangeFault s g.ctx lo n .load false with
    | some (true, a) => some (.trap tPAGE (dw a) 0)
    | some (false, a) => some (.trap tPROT (dw a) 0)
    | none => none

/-- The domes that served the words which a step has taken from the granary: those at and above the new HSP, below the old window
(R303). -/
def granaryHits (core gslot : Nat) (old : Group) (s : State) : State :=
  let top := old.hsp.toNat - 8 * old.hist.length
  match getGroup s core gslot with
  | some g => if g.hsp.toNat < top then ctxHits s g.ctx g.hsp.toNat (top - g.hsp.toNat) else s
  | none => s

/-- A reverse step with the checks that precede it. -/
def revTry (s : State) (core gslot : Nat) : Except RevStop (State × Slot) :=
  match getGroup s core gslot with
  | none => .error .wait
  | some g =>
    if revBusy g then .error .wait
    else match granaryStop s core g with
      | some e => .error e
      | none => (revStep s core gslot).map fun r => (granaryHits core gslot g r.1, r.2)

/-- The slot that a report or a trap of a reversal names: the REV's own while it holds a path. -/
def heldSlot (g : Group) (sl : Slot) : Slot := if (g.path sl).isSome then sl else otherSlot sl

/-- A trap of a reversal. -/
def revTrap (s : State) (core gslot : Nat) (sl : Slot) (code : BitVec 8) (i2 i3 : DWord) : State :=
  match getGroup s core gslot with
  | none => s
  | some g =>
    let sl := heldSlot g sl
    match g.path sl with
    | none => s
    | some p => takeTrap s core gslot (mkTrap code sl p .reissue i2 i3)

/-- A reversal stops: DIR is cleared and the reverse trace goes back to the stack (R130, R135). -/
def revEnd (s : State) (core gslot : Nat) : State :=
  backAux 130 (modGroup s core gslot fun g => returnTrace { g with dir := false, rev := none }) core gslot

/-- The mode of a REV acts at the point reached (R134, R421). -/
def revMode (s : State) (core gslot : Nat) (m : RevMode) (sl : Slot) : State :=
  match getGroup s core gslot with
  | none => s
  | some g =>
    match m with
    | .c => settle s core gslot
    | .x => setGroup s core gslot { g with pathA := none, pathB := none, stack := [], causes := [], ended := true }
    | .h =>
      let sl := heldSlot g sl
      let s := match g.path sl with
        | some p => stGroup s 8 core gslot 0 g sl p.ii p.mask 0 0
        | none => s
      settle (modGroup s core gslot fun g => { g with halted := true }) core gslot

/-- Whether a group that reverses may step. -/
def revReady (s : State) (core gslot : Nat) : Option (Group × RevState) :=
  let k := getCore s core
  match mfind k.groups gslot with
  | none => none
  | some g =>
    let killing := ctxKilled s g.ctx
    if g.halted || g.ended || g.held != .none || k.quiesced || k.gated || killing || s.thermalStop then none
    else g.rev.map fun r => (g, r)

/-- REVERSE_STEP: one reverse step of a REV in progress (R130, R134, R135). A PAGE holds the group in the middle of its
reversal until REPLAY. -/
def execReverseStep (core gslot : Nat) (s : State) : Out :=
  match revReady s core gslot with
  | none => .next s
  | some (_, r) =>
    match revTry s core gslot with
    | .error .wait => .next s
    | .error (.trap code i2 i3) =>
      if trapIsC code then
        .next (revTrap (revEnd s core gslot) core gslot r.slot code i2 (r.target.setWidth 64))
      else .next (revTrap s core gslot r.slot code i2 i3)
    | .ok (s, _) =>
      match getGroup s core gslot with
      | some g => if g.ic = r.target then .next (revMode (revEnd s core gslot) core gslot r.mode r.slot) else .next s
      | none => .next s

end Sys2Proof.Machine
end

