-- ==== Sys2Proof/Machine/History.lean ====
section
/-! DEFINITION. The history and guard instructions: MARK, COMMIT, REV, SPEC, GSET, GTEST and HSTAT (R118, R133 to R139, R373,
R385 to R389, R419 to R421, R431). -/

namespace Sys2Proof.Machine

/-- Feature bit 0 is not accepted: a history instruction is ILLEGAL (R22). -/
def histOff (s : State) : Bool := !feature s 0

/-- The GUARD trap of an instruction that an open speculation does not admit (R135, R136). -/
def specTrap (c : Cx) : Option DWord := c.g.spec.map fun sp => dw sp.guard.toNat

/-- The issuing path's group with another REC, as the end of the issue sees it. -/
def Cx.withRec (c : Cx) (r : Bool) : Cx := { c with g := { c.g with recb := r } }

/-- MARK: inside a handler it sets REC and pushes nothing (R419). -/
def execMark (g : Guard) (s : State) : Out :=
  issue s g (fun _ => { illegal := histOff s, setsRec := true, flushes := true, words := 1 }) fun c s =>
    finish (c.withRec true) .fall false (modGroup s c.core c.gslot fun g =>
      if c.g.counting then { histPush (flushTrace g) c.ic kMARK [] with recb := true } else { g with recb := true })

/-- The group as a COMMIT leaves it before its records (R373). -/
def commitTo (off : Bool) (g : Group) : Group := { g with ptrace := [], hist := [], hsp := g.hbase, recb := !off }

/-- The issue as its records see it. -/
def Cx.commit (c : Cx) (off : Bool) : Cx := { c with g := commitTo off c.g }

/-- COMMIT (R373): its records, and those of the scheduler events that follow, are checked on the emptied stack (R101). -/
def execCommit (g : Guard) (off : Bool) (s : State) : Out :=
  issue s g (fun c => { illegal := histOff s, commits := true, guardTrap := specTrap c }) fun c s =>
    let after := eventsAll s c.core 260 (finishG s (c.commit off) .fall false (commitTo off c.g))
    if after.hsp ≠ c.g.hbase ∧ after.hsp.toNat > c.g.hlim.toNat then
      trapAt c s tHISTFULL .reissue (after.hsp - c.g.hbase) c.g.hsp
    else finish (c.commit off) .fall false (modGroup s c.core c.gslot (commitTo off))

/-! ### REV -/

/-- The target of a REV (R420). -/
def revTarget (c : Cx) : RevTarget → BitVec 48
  | .imm v => v.setWidth 48
  | .k i => (c.g.kreg i.toNat).setWidth 48

/-- The group as a REV that reverses nothing leaves it: its path stands at the next II (R134). -/
def revPass (s : State) (c : Cx) (g : Group) : Group :=
  let (g, p) := arriveCf s c.core (flushTrace g) g.lastIc g.recording (c.p.moved (c.p.ii + 1)) fallthru
  { g.setPath c.slot (some p) with last := c.slot }

/-- Words that a REV may push: the pending trace, the CF record of an arrival, and those of the events that follow (R101, R134). -/
def revNeed (s : State) (c : Cx) : Nat := ((eventsAll s c.core 260 (revPass s c c.g)).hsp.toNat - c.g.hsp.toNat) / 8

/-- REV: the reversal itself is made by REVERSE_STEP (R134, R420, R421). -/
def execRev (m : RevMode) (t : RevTarget) (s : State) : Out :=
  issue s none (fun c => { illegal := histOff s || !c.g.counting, commits := true, guardTrap := specTrap c,
                           uses := match t with | .k i => [.k i.toNat] | .imm _ => [] }) fun c s =>
    match histFault s c (revNeed s c) with
    | some (code, ret, i2, i3) => trapAt c s code ret i2 i3
    | none =>
      if histBusy s c (revNeed s c) then .next s
      else
        let tg := revTarget c t
        if tg < c.ic then
          .next (backAux 130 (modGroup s c.core c.gslot fun g =>
            { flushTrace g with dir := true, rtrace := [], last := c.slot,
                                rev := some { target := tg, mode := m, slot := c.slot } }) c.core c.gslot)
        else .next (revMode (modGroup s c.core c.gslot (revPass s c)) c.core c.gslot m c.slot)

/-! ### SPEC -/

/-- SPEC (R136, R431). -/
def execSpec (slot : BitVec 3) (off : BitVec 32) (s : State) : Out :=
  issue s none (fun c => { illegal := histOff s || !c.g.counting, target := some (iiAdd c.p.ii off), falls := true,
                           setsRec := true, flushes := true, words := 2,
                           guardTrap := if c.g.guard slot.toNat != .pending || c.g.spec.isSome
                             then some (dw slot.toNat) else none }) fun c s =>
    let alt := iiAdd c.p.ii off
    finish (c.withRec true) .fall false (modGroup s c.core c.gslot fun g =>
      let g := histPush (flushTrace g) c.ic kSPECOPEN [dw (alt.toNat + b2n c.g.recb * 2 ^ 63)]
      { g with recb := true,
               spec := some { guard := slot, pos := g.hsp, ic := c.ic, oldRec := c.g.recb, alt := alt } })

/-- Everything that the group made before a slot resolves TRUE comes before every queued command that the slot lets run (R239). -/
def raiseSeq (slot : BitVec 3) (g : Group) : Group :=
  let up (q : List QEntry) : List QEntry := q.map fun e => if e.guard = some slot then { e with seq := g.seq } else e
  { g with e0 := up g.e0, e2 := up g.e2, e4 := up g.e4 }

/-- What a GSET does at once to a path whose instruction waits for the slot: .set releases it by the value set, and .clear makes it take
GUARD where it stands, whatever the slot becomes meanwhile (R386). -/
def guardNote (slot : Nat) (v : GState) (p : Path) : Path :=
  match p.gwait with
  | some (ii, k, none) => if ii ≠ p.ii ∨ k ≠ slot ∨ v = .pending then p else { p with gwait := some (ii, k, some v) }
  | _ => p

/-- The same for every path of a group but the one in a slot: the path of the other slot, and those that are parked (R33, R386). -/
def guardEvent (sl : Slot) (slot : Nat) (v : GState) (g : Group) : Group :=
  { g.setPath sl ((g.path sl).map (guardNote slot v)) with
    stack := g.stack.map fun e => match e with
      | .path p => .path (guardNote slot v p)
      | e => e }

/-- A guard slot takes a state: the group's other paths and the commands at the heads of its subqueues see it at once (R210, R239,
R386). -/
def guardTo (c : Cx) (slot : BitVec 3) (v : GState) (s : State) : State :=
  syncQueues (modGroup s c.core c.gslot fun g =>
    let g := guardEvent (otherSlot c.slot) slot.toNat v (g.setGuard slot.toNat v)
    if v = .true then raiseSeq slot g else g) c.core c.gslot

/-- A speculation resolves TRUE: the held stores enter SQ in order, and REC takes its old value or the stack is emptied
(R138). The resolving GSET pushes HORIZON and, like every issue that is recorded, the CF record of its fall-through to a marked slot
(R125; DEDUCED, assumption 49). -/
def specTrue (c : Cx) (sp : SpecState) (s : State) : Out :=
  let s := modGroup s c.core c.gslot fun g =>
    let g := { g.hold.foldl (enterSq c.gslot) g with hold := [], spec := none, cthGset := g.cthGset || g.cth }
    if sp.oldRec then g
    else { g with hsp := g.hbase, hist := [], ptrace := [], recb := false, recCt := false }
  let s := guardTo c sp.guard .true s
  if sp.oldRec then finish c .fall true s
  else finish { c with g := { c.g with recb := false, hsp := c.g.hbase, ptrace := [] } } .fall false s

/-- The group as its reversal begins: queued commands and held stores are discarded, and a handler that resolves the
speculation ends at its return point (R139; DEDUCED, assumption 29). -/
def specDrop (sp : SpecState) (g : Group) : Group :=
  let drop (q : List QEntry) : List QEntry :=
    q.map fun e => if e.guard = some sp.guard then { e with eval := some .drop } else e
  let g := { g.setGuard sp.guard.toNat .false with e0 := drop g.e0, e2 := drop g.e2, e4 := drop g.e4, hold := [] }
  match g.ctret with
  | some r =>
    let g := { g with cth := false, recb := g.recCt, ctret := none,
                      lq := liveLq g, uncorr := none }
    flushTrace (g.setPath g.hSlot ((g.path g.hSlot).map fun p => p.moved r.ii))
  | none => flushTrace g

/-- Reverse steps until every issue after the SPEC, and the SPEC, are undone (R139). -/
def specWalk (core gslot : Nat) : Nat → State → Slot → State × Slot × Option RevStop
  | 0, s, sl => (s, sl, none)
  | k + 1, s, sl =>
    match revTry s core gslot with
    | .error e => (s, sl, some e)
    | .ok (s, sl) => specWalk core gslot k s sl

/-- The speculation closes with REC as it was before SPEC. -/
def specClose (sp : SpecState) (g : Group) : Group := { returnTrace g with spec := none, recb := sp.oldRec }

/-- The path of the SPEC arrives at the alternate (R125, R139). -/
def specAlt (s : State) (core : Nat) (sp : SpecState) (sl : Slot) (g : Group) : Group :=
  let g := specClose sp g
  match g.path sl with
  | none => g
  | some p =>
    let (g, p) := arriveCf s core g sp.ic g.recording (p.moved sp.alt) (dw p.ii.toNat)
    let g := { g.setPath sl (some p) with ic := sp.ic + 1, last := sl }
    if g.recording && g.both then flushTrace { g with ptrace := [sl], ptraceIc := sp.ic } else g

/-- A speculation resolves FALSE, as one event (R139). A HORIZON on the way leaves the group at the point reached, with the
speculation closed; any other stop leaves the GSET to issue again. -/
def specFalse (c : Cx) (sp : SpecState) (s : State) : Out :=
  let s0 := modGroup s c.core c.gslot (specDrop sp)
  -- the pending trace that the reversal pushes first must fit also where the issue itself records nothing (R101)
  let need := if c.g.ptrace.isEmpty then 0 else 2
  match histFault s c need with
  | some (code, ret, i2, i3) => trapAt c s code ret i2 i3
  | none =>
  if histBusy s c need then .next s
  else match specWalk c.core c.gslot (c.g.ic - sp.ic).toNat s0 c.slot with
  | (_, _, some .wait) => .next s
  | (s1, sl, none) =>
    .next (settle (syncQueues (modGroup s1 c.core c.gslot (specAlt s1 c.core sp sl)) c.core c.gslot) c.core c.gslot)
  | (s1, _, some (.trap code i2 i3)) =>
    if trapIsC code then
      let s1 := syncQueues (modGroup s1 c.core c.gslot (specClose sp)) c.core c.gslot
      .next (revTrap (backAux 130 s1 c.core c.gslot) c.core c.gslot c.slot code i2 0)
    else trapAt c s code .reissue i2 i3

/-! ### Guards -/

/-- The slot is that of the open speculation. -/
def isSpecSlot (g : Group) (slot : BitVec 3) : Bool := (g.spec.map (·.guard)) == some slot

/-- A queued engine command of the group names a guard slot (R210). -/
def slotQueued (g : Group) (slot : BitVec 3) : Bool :=
  (g.e0 ++ g.e2 ++ g.e4).any fun e => e.guard == some slot && e.eval != some .drop

/-- GSET's own GUARD trap: .set from FREE, and .pend or .clear of the speculation's slot (R385, R386). -/
def gsetTrap (g : Group) (act : GAct) (slot : BitVec 3) : Option DWord :=
  let bad : Bool := match act with
    | .set _ => g.guard slot.toNat == .free
    | .pend | .clear => isSpecSlot g slot
  if bad then some (dw slot.toNat) else none

/-- A guard slot takes a state; a handler's GSET is kept on record (R120). -/
def gsetTo (c : Cx) (slot : BitVec 3) (v : GState) (s : State) : Out :=
  finish c .fall true (guardTo c slot v (modGroup s c.core c.gslot fun g => { g with cthGset := g.cthGset || g.cth }))

/-- GSET (R385, R386). -/
def execGset (g : Guard) (act : GAct) (slot : BitVec 3) (s : State) : Out :=
  let us : List SrcUse := match act with
    | .set a => u32 [a]
    | .pend | .clear => []
  issue s g (fun c => { srcs := us, horizon := true, specPass := isSpecSlot c.g slot,
                        words := if isSpecSlot c.g slot then 1 else 0, guardTrap := gsetTrap c.g act slot }) fun c s =>
    match act with
    | .pend => gsetTo c slot .pending s
    | .clear =>
      if c.g.guard slot.toNat != .free && slotQueued c.g slot then .next s else gsetTo c slot .free s
    | .set _ =>
      let v : Bool := opnd32 c us 0 (lowLane c.p.mask) != 0
      match c.g.spec with
      | some sp =>
        if v then specTrue c sp s else specFalse c sp s
      | none => gsetTo c slot (if v then .true else .false) s

/-- A guard slot's code (R63). -/
def guardCode : GState → Nat
  | .free => 0
  | .pending => 1
  | .true => 2
  | .false => 3

/-- GTEST (R387). -/
def execGtest (g : Guard) (d : Dst) (slot : BitVec 3) (s : State) : Out :=
  laneOp0 s g [] d fun c _ => dw (guardCode (c.g.guard slot.toNat))

/-! ### HSTAT -/

/-- The value of HSTAT (R389). -/
def hstatValue (s : State) (g : Group) : DWord :=
  let n := min ((g.hsp.toNat - g.hbase.toNat) / 8) (2 ^ 24 - 1)
  let top := if g.hsp.toNat ≤ g.hbase.toNat then 0 else histWord s g 0
  dw (n + wfld top 0 8 * 2 ^ 24 + wfld top 16 32 * 2 ^ 32)

/-- A read of the history stack's state: the pending trace is pushed first, then the value is written (R127, R389, R432). -/
def histRead (s : State) (g : Guard) (d : Dst) (illegal : Bool) (v : State → Group → DWord) : Out :=
  issue s g (fun _ => { dst := some (d, false), illegal := illegal, flushes := true }) fun c s =>
    let s := if c.g.recording then modGroup s c.core c.gslot flushTrace else s
    let g := (getGroup s c.core c.gslot).getD c.g
    finish { c with g := g } .fall d.isEng (modGroup s c.core c.gslot (writeDst c d false fun _ => v s g))

/-- HSTAT (R389). -/
def execHstat (g : Guard) (d : Dst) (s : State) : Out := histRead s g d (histOff s) hstatValue

end Sys2Proof.Machine
end

