-- ==== Sys2Proof/Machine/Special.lean ====
section
/-! DEFINITION. Special registers: SRD and SWR (R65 to R71, R432). -/

namespace Sys2Proof.Machine

/-- GSTAT (R67). -/
def gstat (g : Group) : DWord :=
  dw (b2n g.dir + b2n g.recb * 2 + b2n g.spec.isSome * 2 ^ 2 + b2n g.pathA.isSome * 2 ^ 3 + b2n g.pathB.isSome * 2 ^ 4
    + parked g.stack * 2 ^ 8 + g.wcode.toNat * 2 ^ 16 + b2n g.uih * 2 ^ 20 + b2n g.cth * 2 ^ 21)

/-- cf of a slot; FALLTHRU without a path (R124). -/
def cfOf (g : Group) (sl : Slot) : DWord := ((g.path sl).map (·.cf)).getD fallthru

/-- CAP (R68). -/
def capWord : DWord := dw (24 * 2 ^ 32 + 6 * 2 ^ 24 + 3 * 2 ^ 16 + 5 * 2 ^ 8 + 6)

/-- The context of a group. -/
def ctxOf (s : State) (g : Group) (f : Ctx → DWord) : DWord := ((mfind s.ctxs g.ctx).map f).getD 0

/-- The value of a special register (R65). -/
def specialRead (s : State) (num : BitVec 8) (g : Group) : DWord :=
  match num.toNat with
  | 0x00 => gstat g
  | 0x01 => dw g.ic.toNat
  | 0x02 => cfOf g .a
  | 0x03 => cfOf g .b
  | 0x04 => g.hbase
  | 0x05 => g.hlim
  | 0x06 => g.hsp
  | 0x08 => g.fctl.setWidth 64
  | 0x09 => g.fstat.setWidth 64
  | 0x0A => g.uvec
  | 0x0B => g.uicause
  | 0x0C => g.uiretpc
  | 0x10 => g.trapinfo0
  | 0x11 => g.trapinfo1
  | 0x12 => g.trapinfo2
  | 0x13 => g.trapinfo3
  | 0x14 => g.replval
  | 0x18 => capWord
  | 0x19 => featWord s 0
  | 0x1A => featWord s 1
  | 0x1B => featWord s 2
  | 0x1C => featWord s 3
  | 0x20 => s.clk
  | 0x21 => ctxOf s g (·.pfdrop)
  | 0x22 => ctxOf s g (·.uecnt)
  | 0x23 => g.privbase
  | _ => 0

/-- SRD: a read of HSP first pushes the pending trace (R432). -/
def execSrd (g : Guard) (d : Dst) (num : BitVec 8) (s : State) : Out :=
  if num = 0x06 then histRead s g d false fun _ g => g.hsp
  else laneOp0 s g [] d fun c _ => specialRead s num c.g

/-- The three low bits of an address register are ignored (R66). -/
def addrBits (v : DWord) : DWord := dw (v.toNat / 8 * 8)

/-- An SWR that is ILLEGAL by its value: HLIM below HSP (R66). -/
def swrBadValue (g : Group) (num : BitVec 8) (v : DWord) : Bool := num == 0x05 && (addrBits v).ult g.hsp

/-- A special register of the group written (R65, R66, R69, R71). -/
def specialWrite (s : State) (num : BitVec 8) (v : DWord) (g : Group) : Group :=
  match num.toNat with
  | 0x04 => { g with hbase := addrBits v, hsp := addrBits v }
  | 0x05 => { g with hlim := addrBits v }
  | 0x08 => if feature s 7 then { g with fctl := v.setWidth 1 } else g
  | 0x09 => { g with fstat := v.setWidth 6 }
  | 0x0A => { g with uvec := addrBits v }
  | 0x0C => { g with uiretpc := dw (v.toNat % 2 ^ 49), uirw := true }
  | 0x14 => { g with replval := v }
  | _ => g

/-- A counter of the context written (R66). -/
def counterWrite (s : State) (num : BitVec 8) (ctx : Nat) (v : DWord) : State :=
  match num.toNat with
  | 0x21 => modCtx s ctx fun x => { x with pfdrop := v }
  | 0x22 => modCtx s ctx fun x => { x with uecnt := v }
  | _ => s

/-- SWR (R66, R432). -/
def execSwr (g : Guard) (num : BitVec 8) (a : Src) (s : State) : Out :=
  let us : List SrcUse := [(a, true)]
  issue s g (fun c => { srcs := us, horizon := true, illegal := num == 0x04 && c.g.hsp != c.g.hbase,
                        badValue := swrBadValue c.g num (opnd c us 0 (lowLane c.p.mask)) }) fun c s =>
    let v := opnd c us 0 (lowLane c.p.mask)
    finish c .fall true (modGroup (counterWrite s num c.g.ctx v) c.core c.gslot (specialWrite s num v))

end Sys2Proof.Machine
end

