-- ==== Sys2Proof/Machine/SaveArea.lean ====
section
/-! DEFINITION. The image of a save area, version 1 (R326 to R330, R169, R211, R226, R237, R247): how a core's part of a save
is written as bytes. -/

namespace Sys2Proof.Machine

/-! ### Layout (R326, R327) -/

def saMagic : Nat := 0x4C5A5356
def saGroups : Nat := 0x45000
def saMsideBytes : Nat := 0x6C900

/-- A piece of an image: an offset and bytes. -/
abbrev Seg := Nat × List Byte

/-- A field of an image. -/
def seg (off n v : Nat) : Seg := (off, bytesOf n v)

/-- Pieces moved by an offset. -/
def segsAt (off : Nat) (l : List Seg) : List Seg := l.map fun x => (off + x.1, x.2)

/-- An image of `n` bytes, zero but for its pieces. -/
def imageOf (n : Nat) (l : List Seg) : List Byte := l.foldl (fun bs x => overlay bs x.1 x.2) (List.replicate n 0)

/-- A number of an image. -/
def imgN (b : List Byte) (off n : Nat) : Nat := natOf ((b.drop off).take n)
def imgW (b : List Byte) (off : Nat) : DWord := dw (imgN b off 8)

def slotOf (b : Bool) : Slot := if b then .b else .a

/-! ### Group records (R330) -/

/-- A return kind's code: the order of R318. DESIGN CHOICE (assumption 30). -/
def retCode : RetKind → Nat
  | .reissue => 0
  | .next => 1
  | .load => 2

def revCode : RevMode → Nat
  | .h => 0
  | .c => 1
  | .x => 2

/-- The guard word (R63). -/
def guardWord (g : Group) : Nat := ((List.range 8).map fun i => guardCode (g.guard i) * 4 ^ i).foldl (· + ·) 0

def pcWord (p : Option Path) : Nat :=
  match p with
  | some p => p.ii.toNat + 2 ^ 63
  | none => 0

def serWord (p : Option Path) : Nat := ((p.bind (·.frame)).getD 0xFFFF).toNat
def demWord (p : Option Path) : Nat := b2n ((p.map (·.dem)).getD false)
def pathMask (p : Option Path) : Nat := (match p with | some p => p.mask | none => 0).toNat

/-- A trap that has fallen due at a path, or that went to the driver as a C trap and stays there (R319). -/
def pendOwn (g : Group) : Option TrapBlock :=
  match g.held with
  | .driver _ (some t) => some t
  | _ => g.pend

/-- The trap that the pending trap block holds: the first that has fallen due (R330). -/
def pendOf (g : Group) : Option TrapBlock :=
  let sl := heldSlot g (otherSlot g.last)
  match pendOwn g, g.path sl with
  | some t, _ => some t
  | none, none => none
  | none, some p =>
    match g.mxnan with
    | some (i2, i3) => some (lateTrap tFIRSTNAN sl p i2 i3)
    | none => match g.engPend with
      | (i2, i3) :: _ => some (lateTrap tENGINE sl p i2 i3)
      | [] => none

/-- A matrix FIRSTNAN has fallen due for a group and its pending trap block holds another trap (R211). A vector event takes its place
(R155). -/
def nanBeside (g : Group) : Bool :=
  g.mxnan.isSome && match pendOwn g with
    | some t => t.code != tFIRSTNAN
    | none => false

/-- The opcode byte of a held entry, and the kind of a held FENCE (R330). -/
def holdOp : SKind → Nat × Nat
  | .stlo _ => (0x82, 0)
  | .fenceRel => (0x76, 2)
  | .fenceAr => (0x76, 3)
  | _ => (0x71, 0)

/-- A hold entry's bytes. -/
def holdBytes (w : Nat) (e : SEntry) : List Byte :=
  let (op, fk) := holdOp e.kind
  let md := match e.kind with
    | .stlo md => md
    | _ => false
  let blk := max 8 (2 ^ e.size)
  let fence := op == 0x76
  let hdr := op + (if fence then 0 else e.size * 2 ^ 8 + b2n e.rel * 2 ^ 11 + b2n md * 2 ^ 12) + fk * 2 ^ 13
  let lane (l : Nat) : List SPiece := e.pieces.filter fun p => p.lane == l
  let va (l : Nat) : Nat := ((lane l).head?.map (·.va)).getD 0
  let data (l : Nat) : List Byte := ((lane l).map (·.data)).flatten
  bytesOf 8 hdr ++ bytesOf 8 e.mask.toNat
    ++ (if fence then [] else
      ((List.range w).map fun l => bytesOf 8 (va l)).flatten
        ++ ((List.range w).map fun l => (data l ++ List.replicate blk 0).take blk).flatten)

def holdLen (g : Group) : Nat := ((g.hold.map fun e => (holdBytes g.w e).length).foldl (· + ·) 0)

/-- RECLEN (R330). -/
def recLen (g : Group) : Nat := alignUp (0xE40 + 320 * g.w + holdLen g) 4096

/-- The status block (R330). -/
def statusSegs (gslot : Nat) (g : Group) : List Seg :=
  let halted := g.halted
  let st := b2n g.recUi + b2n g.recCt * 2 + b2n halted * 4 + b2n g.spec.isSome * 8 + g.causes.length * 2 ^ 8
    + g.hold.length * 2 ^ 16 + (match g.spec with | some x => x.guard | none => 0).toNat * 2 ^ 24 + b2n g.uirw * 2 ^ 27
    + b2n (pendOf g).isSome * 2 ^ 28
  let rev := match g.rev with
    | some r => r.target.toNat + revCode r.mode * 2 ^ 48 + 2 ^ 50
    | none => 0
  let ct := match g.ctret with
    | some r => r.ii.toNat + slotBit r.slot * 2 ^ 48 + retCode r.kind * 2 ^ 49 + 2 ^ 51
    | none => 0
  let words : List Nat :=
    [pcWord g.pathA, pcWord g.pathB, pathMask g.pathA, pathMask g.pathB, (cfOf g .a).toNat, (cfOf g .b).toNat, g.ic.toNat,
     (gstat g).toNat, g.hbase.toNat, g.hlim.toNat, g.hsp.toNat, guardWord g, g.fctl.toNat, g.fstat.toNat, g.uvec.toNat,
     g.stack.length, g.uicause.toNat, g.uiretpc.toNat, g.trapinfo0.toNat, g.trapinfo1.toNat, g.trapinfo2.toNat,
     g.trapinfo3.toNat, g.replval.toNat, rev, 0, ct, g.priv + g.gidx * 2 ^ 16 + g.unit * 2 ^ 25 + gslot * 2 ^ 32, st,
     (match g.spec with | some x => x.pos | none => 0).toNat, holdLen g, recLen g,
     serWord g.pathA + serWord g.pathB * 2 ^ 16 + demWord g.pathA * 2 ^ 32 + demWord g.pathB * 2 ^ 33]
  words.zipIdx.map fun x => seg (8 * x.2) 8 x.1

/-- The pending trap block (R330). -/
def pendSegs (t : TrapBlock) : List Seg :=
  [seg 0 8 (t.code.toNat + retCode t.ret * 2 ^ 8 + slotBit t.slot * 2 ^ 10), seg 8 8 t.rii.toNat, seg 0x10 8 t.i0.toNat,
   seg 0x18 8 t.i1.toNat, seg 0x20 8 t.i2.toNat, seg 0x28 8 t.i3.toNat]

/-- The words of the top 2 KiB of the history stack, newest first (R330). -/
def histWindow (s : State) (g : Group) : List DWord :=
  (List.range (min 256 ((g.hsp.toNat - g.hbase.toNat) / 8))).map fun i => histWord s g i

/-- A group record (R330). -/
def groupSegs (s : State) (gslot : Nat) (g : Group) : List Seg :=
  let w := g.w
  let rows (off n : Nat) (f : Nat → Nat → Word) : List Seg :=
    (List.range n).map fun i => (off + 4 * i * w, ((List.range w).map fun l => bytesOf 4 (f i l).toNat).flatten)
  statusSegs gslot g
    ++ ((List.range 128).map fun i => seg (0x100 + 8 * i) 8 (g.kreg i).toNat)
    ++ rows 0x500 64 g.nreg
    ++ rows (0x500 + 256 * w) 16 (fun i l => g.qval (i + 1) l)
    ++ ((List.range 16).map fun i => seg (0x500 + 320 * w + 8 * i) 8 (g.qlive (i + 1)).toNat)
    ++ (g.causes.zipIdx.map fun x => seg (0x580 + 320 * w + 8 * x.2) 8 x.1.toNat)
    ++ ((histWindow s g).zipIdx.map fun x => seg (0x600 + 320 * w + 8 * (255 - x.2)) 8 x.1.toNat)
    ++ segsAt (0xE00 + 320 * w) (match pendOf g with
      | some t => pendSegs t
      | none => [])
    ++ [(0xE40 + 320 * w, (g.hold.map (holdBytes w)).flatten)]

/-! ### Engine queue blocks (R328) -/

/-- The guard of an entry in its image: a head whose guard has let it run carries no guard any more, for what its slot does afterwards changes
nothing (R210; assumption 31). -/
def savedGuard (e : QEntry) : Guard :=
  if e.eval = some .run then none else e.guard

/-- The bits of an e0 entry in its image: those of a head that runs have G and GS clear (R93). -/
def savedBits (e : QEntry) : Nat :=
  if e.eval = some .run then (e.bits &&& ~~~(0xF00 : BitVec 128)).toNat else e.bits.toNat

/-- G and GS of an entry's guard. -/
def guardBits (e : QEntry) : Nat :=
  match savedGuard e with
  | some g => 8 + g.toNat
  | none => 0

def queueSegs (g : Group) : List Seg :=
  (g.e0.zipIdx.map fun x => seg (16 * x.2) 16 (savedBits x.1))
    ++ (g.e2.zipIdx.map fun x => seg (0x100 + 16 * x.2) 16 (x.1.bits.toNat % 2 ^ 96 + guardBits x.1 * 2 ^ 96
      + x.1.bits.toNat / 2 ^ 100 * 2 ^ 100))
    ++ (g.e4.zipIdx.map fun x => seg (0x200 + 8 * x.2) 8 (x.1.bits.toNat % 2 ^ 52 + guardBits x.1 * 2 ^ 52))
    ++ (g.e1.zipIdx.map fun x => seg (0x280 + 8 * x.2) 8 x.1.bits.toNat)
    ++ (g.e3.zipIdx.map fun x => seg (0x300 + 8 * x.2) 8 x.1.bits.toNat)
    ++ (g.e5.zipIdx.map fun x => seg (0x380 + 8 * x.2) 8 x.1.bits.toNat)
    ++ ([g.e0.length, g.e2.length, g.e4.length, g.e1.length, g.e3.length, g.e5.length].zipIdx.map fun x =>
      seg (0x400 + x.2) 1 x.1)
    ++ [seg 0x408 2 g.tmx.t, seg 0x40A 2 g.tcp.t, seg 0x40C 2 g.tvd.t, seg 0x410 8 g.tmx.pass.toNat,
        seg 0x418 8 g.tcp.pass.toNat, seg 0x420 8 g.tvd.pass.toNat, seg 0x428 1 g.mxseq.toNat]

/-! ### Tiles, units and barriers (R169, R177, R247, R329) -/

def tileKindCode : TileKind → Nat
  | .plain => 0
  | .ring => 1
  | .frame => 2

def tileSegs (t : Tile) : List Seg :=
  let w0 := 2 ^ 63 + tileKindCode t.kind * 2 ^ 61 + t.unit * 2 ^ 54 + t.th * 2 ^ 48 + t.fmt.code.toNat * 2 ^ 44
    + (t.rows - 1) * 2 ^ 34 + (t.rowBytes / 4 - 1) * 2 ^ 24 + t.base / 128 * 2 ^ 12
  let r := t.ring
  let b := t.bin
  let ws : List Nat := match t.kind with
    | .plain => [0, 0, 0]
    | .ring => [r.logs * 2 ^ 16 + r.eos.toNat * 2 ^ 8 + r.preg.toNat, r.cmt.toNat * 2 ^ 32 + r.res.toNat,
                r.rls.toNat * 2 ^ 32 + r.acq.toNat]
    | .frame => [(if b.desc.isSome then b.descAddr else 0) + b2n b.flsh, b.scap * 2 ^ 52 + b.sbase * 2 ^ 12,
                 b.head * 2 ^ 32 + b.tail]
  (w0 :: ws).zipIdx.map fun x => seg (8 * x.2) 8 x.1

/-- The barrier object (R177). -/
def barrierBytes (b : Barrier) : List Byte :=
  bytesOf 16 (b.armgrp * 2 ^ 96 + b.sectors.toNat * 2 ^ 64 + b.reload * 2 ^ 40 + b.pending * 2 ^ 16 + b.uiv * 2 ^ 8
    + b2n b.uie * 2 ^ 5 + b2n b.poison * 2 ^ 4 + b.phase)

/-- k99 of a launch (R51). -/
def launchName (l : Launch) : Nat := pkCnt l.packet + l.serial * 2 ^ 8

/-- The core group slots that hold a group of a unit, ended groups whose engine commands go on included. -/
def unitSlots (s : State) (core unit : Nat) : List Nat :=
  ((liveGroups s core).filter fun kv => kv.2.unit == unit).map (·.1)

def unitSegs (s : State) (core un : Nat) (u : Unit) : List Seg :=
  match mfind s.launches u.launch with
  | none => []
  | some l =>
    [seg 0 8 (launchName l), seg 8 8 l.addr, seg 0x10 8 u.x, seg 0x18 8 (u.y + u.z * 2 ^ 32), seg 0x20 4 u.resOff,
     seg 0x24 4 u.resBytes, seg 0x28 4 (u.resOff + u.tileBytes), seg 0x2C 2 u.nbar,
     seg 0x2E 2 (1 + b2n u.pair * 2 + b2n u.mxuse * 4 + b2n (pkCor l.packet) * 8 + pkPrio l.packet * 16),
     seg 0x30 16 (((unitSlots s core un).map fun i => 2 ^ i).foldl (· + ·) 0)]

/-! ### Engines (R211, R226, R237) -/

/-- The matrix progress block: `run` is the command in progress with NANPEND and GONE, `nan` the group slot of a FIRSTNAN that has fallen
due and that no pending trap block holds, and `half` marks a follower. A command in progress whose own event an earlier restore made due
there notes it again (R211); GSLOT names one group, and no other group's event can stand beside a command (R155). -/
def matrixSegs (m : Mx) (run : Option (MxRun × Bool × Bool)) (nan : Option Nat) (half : Bool) : List Seg :=
  let cmd : List Seg := match run with
    | some (r, own, gone) =>
      [seg 0x100 16 r.ent.bits.toNat, seg 0x110 4 r.rowsDone,
       seg 0x124 4 (1 + b2n half * 2 + b2n (own || nan == some r.gslot) * 4 + b2n r.sat * 8 + r.gslot * 2 ^ 8 + b2n gone * 2 ^ 15)]
    | none => [seg 0x124 4 (b2n half * 2 + match nan with
      | some gs => 4 + gs * 2 ^ 8
      | none => 0)]
  let plane (p : Plane) : Nat := p.fmt.code.toNat + b2n p.sparse * 16 + b2n p.nan * 32 + b2n p.poison * 64
  cmd ++ ((List.range 4).map fun a => seg (0x114 + 4 * a) 4 (mget 0 m.ksteps a).toNat)
    ++ ((List.range 4).map fun a => seg (0x128 + 8 * a) 8 (mget 0 m.flags a).toNat)
    ++ ((List.range 4).map fun a => seg (0x148 + 8 * a) 8 (mget 0 m.marks a).toNat)
    ++ [seg 0x168 4 (plane m.active + plane m.shadow * 2 ^ 8)]

/-- The record that a channel writes, or is to read next. -/
def chanAddr (c : Chan) : Nat := ((c.recs.head?.map (·.addr)).orElse fun _ => c.next).getD 0

def chanFault (c : Chan) : Option Nat := (c.fault.orElse fun _ => c.recs.head?.bind (·.fault))

/-- A copy channel's block (R226). -/
def chanSegs (c : Chan) : List Seg :=
  let tuple := match c.recs with
    | r :: _ => cpSaved (cpCnt r.bytes) c.index
    | [] => c.tuple.getD []
  let f := if c.fault.isSome || (c.fstep ≠ 0 && (chanFault c).isSome) then chanFault c else none
  [seg 0 8 (chanAddr c)] ++ (tuple.zipIdx.map fun x => seg (8 + 4 * x.2) 4 x.1)
    ++ [seg 0x24 4 (1 + b2n c.ringIdx.isSome * 2 + c.fstep * 4 + b2n f.isSome * 32 + c.gslot * 2 ^ 8
          + f.getD 0 * 2 ^ 16),
        seg 0x28 4 c.subtracted, seg 0x2C 4 (c.ringIdx.getD 0).toNat, seg 0x30 4 c.valid.toNat]

/-- Decoder frames in flight (R237). -/
def frameSegs (fs : List (Frame × List Byte)) : List Seg :=
  seg 0x300 4 fs.length :: (fs.zipIdx.map fun x =>
    segsAt (0x310 + 96 * x.2) [(0, (x.1.2 ++ List.replicate 64 0).take 64), seg 0x40 8 x.1.1.subtracted,
      seg 0x48 8 x.1.1.gslot]).flatten

/-- Operand buffers, tags, planes and accumulators (R327). -/
def msideSegs (m : Mx) : List Seg :=
  let plane (off : Nat) (p : Plane) : List Seg := [(off, mgets 0 p.data 0 9216)]
  [(0, mgets 0 m.ob 0 0x40000)]
    ++ ((List.range 8).map fun b => seg (0x40000 + 32 * b) 32
      (((List.range 256).map fun r => b2n (mget false m.tags (b * 256 + r)) * 2 ^ r).foldl (· + ·) 0))
    ++ plane 0x40100 m.active ++ plane 0x42500 m.shadow
    ++ ((List.range 4).map fun a => (0x44900 + 40960 * a,
      ((List.range 4096).map fun i => bytesOf 10 (mget 0 m.acc (a * 4096 + i)).toNat).flatten))

/-! ### A core's part of a save -/

/-- The groups of a part, in slot order. -/
def partGroups (s : State) (p : SavePart) : List (Nat × Group) :=
  (getCore s p.core).groups.filter fun kv => p.units.contains kv.2.unit

/-- The groups whose records are saved: those that have not ended. -/
def partRecords (s : State) (p : SavePart) : List (Nat × Group) := (partGroups s p).filter fun kv => !kv.2.ended

/-- Offsets of the group records. -/
def recOffs : Nat → List (Nat × Group) → List (Nat × Nat × Group)
  | _, [] => []
  | o, (gs, g) :: l => (o, gs, g) :: recOffs (o + recLen g) l

def groupsEnd (l : List (Nat × Group)) : Nat := saGroups + (l.map fun kv => recLen kv.2).foldl (· + ·) 0

def scrOff (s : State) (p : SavePart) : Nat := alignUp (groupsEnd (partRecords s p)) 4096
def partBytes (s : State) (p : SavePart) : Nat := scrOff s p + 0x90000 + saMsideBytes

/-- The context of an area that holds no unit and no half: the owner of the core's matrix storage, else the first context whose space
takes the area (assumption 12). -/
def blankCtx (s : State) (p : SavePart) : Nat :=
  let live := s.ctxs.filter fun kv => (getMx s p.core).owner == some kv.1
  let takes := s.ctxs.filter fun kv => (rangeFault s kv.1 p.area 4096 .store false).isNone
  ((live ++ takes ++ s.ctxs).head?.map (·.1)).getD 0

/-- The context that an area names: that of its lowest-numbered unit, or of the half that it holds (assumption 12). -/
def partCtx (s : State) (p : SavePart) : Nat :=
  let own := p.units.head?.bind fun u => (getUnit s p.core u).map (·.ctx)
  match own with
  | some c => c
  | none => (pairCtxOf s p.core).getD (blankCtx s p)
where
  pairCtxOf (s : State) (core : Nat) : Option Nat :=
    match (getCore s core).pairUnit with
    | some (c, u) => (getUnit s c u).map (·.ctx)
    | none => none

/-- The part holds the state of a pair: its leader's unit, or the follower's half. -/
def partPair (s : State) (p : SavePart) (sv : Save) : Bool :=
  (p.units.any fun u => ((getUnit s p.core u).map (·.pair)).getD false)
    || (match (getCore s p.core).pairUnit with
      | some (c, u) => sv.parts.any fun q => q.core == c && q.units.contains u
      | none => false)

def partFollower (s : State) (p : SavePart) (sv : Save) : Bool :=
  match (getCore s p.core).pairUnit with
  | some (c, u) => sv.parts.any fun q => q.core == c && q.units.contains u
  | none => false

/-- The command in progress that a part holds: its own, or on a follower the leader's pair command (R211). -/
def partRun (s : State) (p : SavePart) (sv : Save) : Option (MxRun × Bool × Bool) :=
  let of_ (core : Nat) (units : List Nat) : Option (MxRun × Bool × Bool) :=
    match (getMx s core).run with
    | r :: _ =>
      if units.contains r.unit then
        let g := getGroup s core r.gslot
        some (r, r.nan.isSome && !r.told && (g.map fun g => g.fctl == 1).getD false, (g.map (·.ended)).getD true)
      else none
    | [] => none
  match of_ p.core p.units with
  | some x => some x
  | none =>
    if partFollower s p sv then
      match (getCore s p.core).pairUnit with
      | some (c, u) => match of_ c [u] with
        | some x => if (mxCmd x.1.ent.bits).pair then some x else none
        | none => none
      | none => none
    else none

/-- The group of a part with a matrix FIRSTNAN beside another due trap; a core holds one such event at a time (R155). -/
def partNan (s : State) (p : SavePart) : Option Nat :=
  ((partRecords s p).find? fun kv => nanBeside kv.2).map (·.1)

/-- The frames of a part, each with its record. -/
def partFrames (s : State) (p : SavePart) : List (Frame × List Byte) :=
  (s.decs.filter fun kv => kv.2.core == p.core && p.units.contains kv.2.unit).map fun kv =>
    (kv.2, if kv.2.record.isEmpty then ctxReads s (partCtx s p) (fld kv.2.entry.bits.toNat 0 52) 64 else kv.2.record)

/-- FLAGS of a part but for COMPLETE (R326). -/
def partFlags (s : State) (sv : Save) (p : SavePart) : Nat := b2n sv.late * 2 + b2n (partPair s p sv) * 4

/-- The whole image of a part. -/
def partImage (s : State) (sv : Save) (p : SavePart) : List Byte :=
  let k := getCore s p.core
  let rs := partRecords s p
  let so := scrOff s p
  let total := partBytes s p
  let units := p.units.filterMap fun u => (getUnit s p.core u).map fun x => (u, x)
  let header : List Seg :=
    [seg 0 4 saMagic, seg 4 4 1, seg 8 4 p.core, seg 0xC 4 (b2n (partFollower s p sv)), seg 0x10 4 rs.length,
     seg 0x14 4 units.length, seg 0x18 8 s.clk.toNat, seg 0x20 8 (1 + partFlags s sv p),
     seg 0x28 4 (partCtx s p), seg 0x30 8 total, seg 0x40 8 saGroups, seg 0x48 8 so, seg 0x50 8 (so + 0x90000)]
  imageOf total
    (header ++ matrixSegs k.mx (partRun s p sv) (partNan s p) (partFollower s p sv)
      ++ ((k.chans.filter fun kv => p.units.contains kv.2.unit).map fun kv =>
        segsAt (0x200 + 0x40 * kv.1) (chanSegs kv.2)).flatten
      ++ frameSegs (partFrames s p)
      ++ ((k.tiles.filter fun kv => p.units.contains kv.2.unit).map fun kv =>
        segsAt (0x1000 + 32 * kv.1) (tileSegs kv.2)).flatten
      ++ ((partGroups s p).map fun kv => segsAt (0x3000 + 0x800 * kv.1) (queueSegs kv.2)).flatten
      ++ (units.map fun x => segsAt (0x43000 + 64 * x.1) (unitSegs s p.core x.1 x.2)).flatten
      ++ ((recOffs saGroups rs).map fun x => segsAt x.1 (groupSegs s x.2.1 x.2.2)).flatten
      ++ [(so, mgets 0 k.scr 0 scrBytes)]
      ++ (units.map fun x => (List.range x.2.nbar).map fun i =>
        ((so + x.2.resOff + x.2.tileBytes + 16 * i, barrierBytes (x.2.bar i)) : Seg)).flatten
      ++ (units.map fun x => (List.range 256).map fun i =>
        seg (so + 0x80000 + 2 * (256 * x.1 + i)) 2 (mget 0 x.2.phist i).toNat).flatten
      ++ segsAt (so + 0x90000) (msideSegs k.mx))

end Sys2Proof.Machine
end

