-- ==== Sys2Proof/Machine/Restore.lean ====
section
/-! DEFINITION. How a restore reads a save area back into a core (R331, R212, R226, R237, R257). What the layout has no field
for is named in assumption 31. -/

namespace Sys2Proof.Machine

def retOf : Nat → RetKind
  | 0 => .reissue
  | 1 => .next
  | _ => .load

def modeOf : Nat → RevMode
  | 0 => .h
  | 1 => .c
  | _ => .x

def gstateOf : Nat → GState
  | 0 => .free
  | 1 => .pending
  | 2 => .true
  | _ => .false

/-- A 16-bit serial, none at 0xFFFF (R35). -/
def serOf (n : Nat) : Option (BitVec 16) := if n % 2 ^ 16 = 0xFFFF then none else some (BitVec.ofNat 16 n)

/-- A divergence-stack entry from its 32 bytes (R35). -/
def entryOf (b : List Byte) : StackEntry :=
  let w (i : Nat) : DWord := imgW b (8 * i)
  if wfld (w 0) 48 8 = 2 then
    let j : II := (w 0).setWidth 48
    .frame (if j = 0xFFFF_FFFF_FFFF then none else some j) (w 1) ((w 2).setWidth 16) (serOf (w 3).toNat)
  else
    .path { ii := (w 0).setWidth 48, mask := w 1, cf := w 2, frame := serOf (w 3).toNat, wait := (w 0).getLsbD 56,
            dem := (w 0).getLsbD 57 }

/-! ### Hold entries (R330) -/

/-- The pieces of a held store, translated again. -/
def holdPieces (s : State) (ctx size : Nat) (lo : Bool) (l va : Nat) (data : List Byte) : List SPiece :=
  let nd : Need := if lo then .loStore else .store
  match xlPieces s ctx l 0 va (2 ^ size) nd false with
  | .ok ps => storePieces ps fun _ => data
  | .error _ => match xlPieces s ctx l 0 va (2 ^ size) nd true with
    | .ok ps => storePieces ps fun _ => data
    | .error _ => []

/-- The hold queue from its bytes. -/
def holdOf (s : State) (ctx w : Nat) (b : List Byte) : Nat → Nat → Nat → List SEntry
  | 0, _, _ => []
  | k + 1, off, seq =>
    let h := imgW b off
    let size := wfld h 8 3
    let mask := imgW b (off + 8)
    let e (kind : SKind) (ps : List SPiece) : SEntry :=
      { seq := seq, kind := kind, rel := h.getLsbD 11, size := size, mask := mask, pieces := ps, wait := 0 }
    if wfld h 0 8 = 0x76 then
      e (if wfld h 13 2 = 3 then .fenceAr else .fenceRel) [] :: holdOf s ctx w b k (off + 16) (seq + 1)
    else
      let blk := max 8 (2 ^ size)
      let lo := wfld h 0 8 == 0x82
      let ps := ((lanes mask).map fun l =>
        holdPieces s ctx size lo l (imgN b (off + 16 + 8 * l) 8)
          ((b.drop (off + 16 + 8 * w + blk * l)).take (2 ^ size))).flatten
      e (if lo then .stlo (h.getLsbD 12) else .st) ps :: holdOf s ctx w b k (off + 16 + 8 * w + blk * w) (seq + 1)

/-! ### Group records (R330) -/

/-- The defined bits of UICAUSE, UIRETPC and TRAPINFO0: their reserved bits read 0 (R4, R71). -/
def causeBits (v : DWord) : DWord := dw (wfld v 0 20)
def retpcBits (v : DWord) : DWord := dw (wfld v 0 49)
def info0Bits (v : DWord) : DWord := v &&& ~~~(0xFF00 : DWord)

/-- The group's engine queues from their block (R328). -/
def queuesOf (q : List Byte) (g : Group) : Group :=
  let cnt (i : Nat) : Nat := imgN q (0x400 + i) 1
  let e (bits : Nat) (gd : Guard) (enq : Bool) : QEntry :=
    { bits := BitVec.ofNat 128 bits, guard := gd, enq := enq, seq := 0 }
  -- a head that was eligible was backlogged: it keeps its pass (R208, R212)
  let back (g : Group) : Group :=
    { g with tmx := { g.tmx with backlogged := headElig (evalHead g g.e0) }
             tcp := { g.tcp with backlogged := headElig (evalHead g g.e2) } }
  let gd (v : Nat) : Guard := if bit v 3 then some (BitVec.ofNat 3 v) else none
  let st (off n : Nat) (ends : Nat → DWord → Bool) : List StatusEntry := (List.range n).map fun i =>
    let w := imgW q (off + 8 * i)
    { bits := w, ends := ends i w }
  back { g with
    e0 := (List.range (cnt 0)).map fun i =>
      let b := imgN q (16 * i) 16
      e b (entGuard (BitVec.ofNat 128 b)) true
    e2 := (List.range (cnt 1)).map fun i =>
      let b := imgN q (0x100 + 16 * i) 16
      e (b - fld b 96 4 * 2 ^ 96) (gd (fld b 96 4)) true
    e4 := (List.range (cnt 2)).map fun i =>
      let b := imgN q (0x200 + 8 * i) 8
      e (b % 2 ^ 52) (gd (fld b 52 4)) true
    e1 := st 0x280 (cnt 3) fun _ _ => true
    e3 := st 0x300 (cnt 4) fun _ w => w.getLsbD 0
    e5 := st 0x380 (cnt 5) fun i _ => (cnt 5 - 1 - i) % 2 == 0
    tmx := { t := imgN q 0x408 2, pass := imgW q 0x410 }
    tcp := { t := imgN q 0x40A 2, pass := imgW q 0x418 }
    tvd := { t := imgN q 0x40C 2, pass := imgW q 0x420 }
    mxseq := BitVec.ofNat 8 (imgN q 0x428 1) }

/-- A path of the status block. -/
def pathOf (b : List Byte) (i : Nat) : Option Path :=
  let pc := imgW b (8 * i)
  let ps := imgW b 0xF8
  if pc.getLsbD 63 then
    some { ii := pc.setWidth 48, mask := imgW b (0x10 + 8 * i), cf := imgW b (0x20 + 8 * i),
           frame := serOf (wfld ps (16 * i) 16), dem := ps.getLsbD (32 + i), since := i }
  else none

/-- The named registers, the result queue and the uniform registers of a record. -/
def regsOf (b : List Byte) (w : Nat) (g : Group) : Group :=
  let word (off : Nat) : Word := w32 (imgN b off 4)
  let g := (List.range 64).foldl (fun g i =>
    (List.range w).foldl (fun g l => g.setN i l (word (0x500 + 4 * (i * w + l)))) g) g
  let g := (List.range 16).foldl (fun g a =>
    ((List.range w).foldl (fun g l => g.setQ (a + 1) l (word (0x500 + 256 * w + 4 * (a * w + l)))) g).setLive (a + 1)
      (imgW b (0x500 + 320 * w + 8 * a))) g
  (List.range 128).foldl (fun g i => g.setK i (imgW b (0x100 + 8 * i))) g

/-- The open speculation, from its SPECOPEN record (R122, R330). -/
def specOf (s : State) (b : List Byte) (g : Group) : Option SpecState :=
  let st := imgW b 0xD8
  let pos := imgW b 0xE0
  let below := (g.hsp.toNat - pos.toNat) / 8
  let h := headOf (histWord s g below)
  let w := histWord s g (below + 1)
  if st.getLsbD 3 then
    -- a speculation that closes restores REC: without feature 0 REC reads 0 (R22)
    some { guard := st.extractLsb' 24 3, pos := pos, ic := h.ic, oldRec := w.getLsbD 63 && feature s 0, alt := w.setWidth 48 }
  else none

/-- The pending trap block. -/
def pendBlock (b : List Byte) : TrapBlock :=
  let h := imgW b 0
  { code := h.setWidth 8, slot := slotOf (h.getLsbD 10), ret := retOf (wfld h 8 2), rii := (imgW b 8).setWidth 48,
    i0 := info0Bits (imgW b 0x10), i1 := imgW b 0x18, i2 := imgW b 0x20, i3 := imgW b 0x28 }

/-- The pending trap of a record; without feature 7 no FIRSTNAN is ever raised (R22). -/
def pendFrom (s : State) (b : List Byte) : Option TrapBlock :=
  let t := pendBlock b
  if t.code == tFIRSTNAN && !feature s 7 then none else some t

/-- A group from its record, before its stack is read (R330). -/
def groupOf (s : State) (ctx lid : Nat) (l : Launch) (b q : List Byte) : Group :=
  let gs := imgW b 0x38
  let w := 8 * 2 ^ wfld gs 16 2
  let st := imgW b 0xD8
  let id := imgW b 0xD0
  let rev := imgW b 0xB8
  let ct := imgW b 0xC8
  let hsp := imgW b 0x50
  let hbase := imgW b 0x40
  let uir := imgW b 0x88
  let ctret : Option CtRet :=
    if ct.getLsbD 51 then some { slot := slotOf (ct.getLsbD 48), ii := ct.setWidth 48, kind := retOf (wfld ct 49 2) }
    else none
  let pathA := pathOf b 0
  let pathB := pathOf b 1
  let hs : Slot := match ctret with
    | some r => r.slot
    | none => if pathB.isSome && (uir.getLsbD 48 || pathA.isNone) then .b else .a
  let priv := wfld id 0 16
  -- a feature that is not accepted behaves as absent (R22)
  let on := feature s 0
  let g : Group :=
    { ctx := ctx, launch := lid, unit := wfld id 25 7, gidx := wfld id 16 9, wcode := gs.extractLsb' 16 2, priv := priv,
      pathA := pathA, pathB := pathB, waitCtr := 2, ic := (imgW b 0x30).setWidth 48,
      recb := gs.getLsbD 1 && on, dir := gs.getLsbD 0, uih := gs.getLsbD 20, cth := gs.getLsbD 21,
      recUi := st.getLsbD 0 && on, recCt := st.getLsbD 1 && on, ctret := ctret, cthGset := gs.getLsbD 21, hSlot := hs,
      hbase := hbase, hlim := imgW b 0x48, hsp := hsp,
      hist := (List.range (min 256 ((hsp.toNat - hbase.toNat) / 8))).map fun i =>
        imgW b (0x600 + 320 * w + 8 * (255 - i)),
      rev := if rev.getLsbD 50 then some { target := rev.setWidth 48, mode := modeOf (wfld rev 48 2), slot := .a } else none,
      fctl := if feature s 7 then (imgW b 0x60).setWidth 1 else 0, fstat := (imgW b 0x68).setWidth 6, uvec := imgW b 0x70,
      uicause := causeBits (imgW b 0x80), uiretpc := retpcBits uir, uirw := st.getLsbD 27,
      trapinfo0 := info0Bits (imgW b 0x90), trapinfo1 := imgW b 0x98,
      trapinfo2 := imgW b 0xA0, trapinfo3 := imgW b 0xA8, replval := imgW b 0xB0,
      privbase := dw (pkPriv l.packet + priv * pkPrivsz l.packet * 64 * w),
      causes := (List.range (wfld st 8 5)).map fun i => causeBits (imgW b (0x580 + 320 * w + 8 * i)),
      pend := if st.getLsbD 28 then pendFrom s (b.drop (0xE00 + 320 * w)) else none,
      halted := st.getLsbD 2, seq := wfld st 16 6,
      hold := holdOf s ctx w (b.drop (0xE40 + 320 * w)) (wfld st 16 6) 0 1 }
  let g := (List.range 8).foldl (fun g i => g.setGuard i (gstateOf (wfld (imgW b 0x58) (2 * i) 2))) g
  queuesOf q (regsOf b w g)

/-- The divergence stack is read from private memory, and frame serials go on above those in use (R35). -/
def groupStack (s : State) (b : List Byte) (g : Group) : Group :=
  let st := (List.range (wfld (imgW b 0x78) 0 7)).map fun e => entryOf (ctxReads s g.ctx (stackAddr s g e) 32)
  let top := st.foldl (fun m e => match e with
    | .frame _ _ ser _ => max m (ser.toNat + 1)
    | .path _ => m) 0
  { g with stack := st, deep := st.take (st.length - 4), fserial := if top ≥ 0xFFFF then 0 else BitVec.ofNat 16 top }

/-! ### Units and tiles (R169, R247, R329) -/

/-- The launch that a unit-table entry names: by its packet's address and its name, in the area's context first. -/
def launchOf (s : State) (ctx : Nat) (b : List Byte) : Option (Nat × Launch) :=
  let hit (l : Launch) : Bool := l.addr == imgN b 8 8 && dw (launchName l) == imgW b 0
  (s.launches.find? fun kv => hit kv.2 && kv.2.ctx == ctx).orElse fun _ => s.launches.find? fun kv => hit kv.2

/-- A barrier object (R177). -/
def barrierOf (b : List Byte) : Barrier :=
  let v := natOf (b.take 16)
  { armgrp := fld v 96 8, sectors := BitVec.ofNat 32 (fld v 64 32), reload := fld v 40 24, pending := fld v 16 24,
    uiv := fld v 8 8, uie := bit v 5, poison := bit v 4, phase := fld v 0 4 }

/-- A unit from its table entry, with its barriers from the scratchpad image. -/
def unitOf (lid : Nat) (l : Launch) (un : Nat) (b scr phist : List Byte) : Unit :=
  let ws := l.packet
  let off := imgN b 0x20 4
  let bt := imgN b 0x28 4
  let nbar := imgN b 0x2C 2
  { ctx := l.ctx, launch := lid, x := imgN b 0x10 8, y := imgN b 0x18 4, z := imgN b 0x1C 4, ngrp := pkGroups ws,
    nbar := nbar, mxuse := bit (imgN b 0x2E 2) 2, pair := bit (imgN b 0x2E 2) 1, resOff := off,
    resBytes := imgN b 0x24 4, tileBytes := bt - off, started := pkGroups ws,
    bars := (List.range nbar).foldl (fun m i => mput {} m i (barrierOf (scr.drop (bt + 16 * i)))) [],
    phist := (List.range 256).foldl (fun m i =>
      mput 0 m i (BitVec.ofNat 16 (imgN phist (2 * (256 * un + i)) 2))) [] }

/-- A tile from its table entry, none for an entry that is not in use; a bound descriptor is read again (R257). -/
def tileOf (s : State) (ctx : Nat) (b : List Byte) : Option Tile :=
  let w (i : Nat) : DWord := imgW b (8 * i)
  let spd := wfld (w 1) 6 46 * 64
  let kind : TileKind := match wfld (w 0) 61 2 with
    | 0 => .plain
    | 1 => .ring
    | _ => .frame
  if !(w 0).getLsbD 63 then none
  else some
    { kind := kind, unit := wfld (w 0) 54 7, th := wfld (w 0) 48 6, fmt := (decFmt ((w 0).extractLsb' 44 4)).getD .s8,
      rows := wfld (w 0) 34 10 + 1, rowBytes := (wfld (w 0) 24 10 + 1) * 4, base := wfld (w 0) 12 12 * 128,
      ring := if kind = .ring then
          { inited := true, logs := wfld (w 1) 16 3, eos := (w 1).extractLsb' 8 8, preg := (w 1).setWidth 8,
            res := (w 2).setWidth 32, cmt := (w 2).extractLsb' 32 32, acq := (w 3).setWidth 32,
            rls := (w 3).extractLsb' 32 32 }
        else {},
      bin := if kind = .frame then
          { flsh := (w 1).getLsbD 0, scap := wfld (w 2) 52 12, sbase := wfld (w 2) 12 40,
            desc := if spd = 0 then none else some (ctxReads s ctx spd 64), descAddr := spd, head := wfld (w 3) 32 32,
            tail := wfld (w 3) 0 32 }
        else {} }

/-! ### The matrix storage (R211, R327) -/

def planeOf (code : Nat) (b : List Byte) : Plane :=
  { fmt := (decFmt (BitVec.ofNat 4 code)).getD .bf16, sparse := bit code 4, nan := bit code 5, poison := bit code 6,
    data := mputs 0 [] 0 (b.take 9216) }

/-- The matrix storage of an image, owned by the area's context (R44, R331). -/
def mxOf (ctx : Nat) (b ms : List Byte) : Mx :=
  let pl := imgN b 0x168 4
  { owner := some ctx
    ob := mputs 0 [] 0 (ms.take 0x40000)
    tags := (List.range 2048).foldl (fun m i =>
      mput false m i (bit (imgN ms (0x40000 + 32 * (i / 256)) 32) (i % 256))) []
    active := planeOf (fld pl 0 7) (ms.drop 0x40100)
    shadow := planeOf (fld pl 8 7) (ms.drop 0x42500)
    acc := (List.range 16384).foldl (fun m i => mput 0 m i (BitVec.ofNat 80 (imgN ms (0x44900 + 10 * i) 10))) []
    flags := (List.range 4).foldl (fun m a => mput 0 m a (BitVec.ofNat 64 (imgN b (0x128 + 8 * a) 8))) []
    marks := (List.range 4).foldl (fun m a => mput 0 m a (BitVec.ofNat 64 (imgN b (0x148 + 8 * a) 8))) []
    ksteps := (List.range 4).foldl (fun m a => mput 0 m a (BitVec.ofNat 32 (imgN b (0x114 + 4 * a) 4))) [] }


/-- The event that the first `n` rows of an MXSTR made: its row and column (R154, R156). -/
def strNan (s : State) (core unit : Nat) (c : MxCmd) (n : Nat) : Option (Nat × Nat) :=
  firstSome (fun m =>
    let (_, tag, special) := strOperand s core unit c m
    firstSome (fun h : Nat × Nat => strEvent (getMx s h.1).active h.2 m tag special) (mxHalves core c.pair).zipIdx)
    (List.range n)

/-- A FIRSTNAN that a save noted falls due in its group (R211, R331); without feature 7 none is raised (R22). -/
def nanDue (s : State) (core gslot row col acc : Nat) (step : DWord) : State :=
  if feature s 7 then
    postStatus s core gslot fun g => { g with mxnan := some (dw (col * 2 ^ 32 + row * 2 ^ 16 + acc * 2 ^ 8 + 1), step) }
  else s

/-- A FIRSTNAN whose row and column the image does not give: they are free (assumption 31). -/
def nanFree (s : State) (core gslot acc : Nat) (step : DWord) : State :=
  let c := Config.choice s.free
  nanDue { s with free := s.free + 1 } core gslot (c / 256 % 64) (c % 256) acc step

/-- The FIRSTNAN of a command that has retired: which accumulator it was is free too; its k-step counts the command's pass already, and
no later command has started (R155, R156; assumption 31). -/
def nanRetired (s : State) (core gslot : Nat) : State :=
  let a := Config.choice s.free % 4
  nanFree { s with free := s.free + 1 } core gslot a (dw (mget 0 (getMx s core).ksteps a).toNat)

/-- The command in progress, on a core whose image and groups are loaded: PSN and FLG so far are those of the rows done, for an MXLDS
the shadow plane's mark (R206, R212). A FIRSTNAN that was noted falls due in its group, with the row and the column that the operands
of the rows done give, and with the accumulator and the k-step of the command. -/
def runOf (s : State) (core : Nat) (b : List Byte) : State :=
  let fl := imgN b 0x124 4
  let gs := fld fl 8 7
  if bit fl 1 then s
  else if !bit fl 0 then (if bit fl 2 then nanRetired s core gs else s)
  else
    match getGroup s core gs with
    | none => s
    | some g =>
      let e : QEntry := { bits := BitVec.ofNat 128 (imgN b 0x100 16), guard := none, enq := false, seq := 0 }
      let c := mxCmd e.bits
      let n := imgN b 0x110 4
      let a := (if c.op = 0xB3 then c.src else c.dsel) - 72
      let halves := (mxHalves core c.pair).map (getMx s)
      let any (f : Mx → AMap (BitVec 64)) (i : Nat) : Bool := halves.any fun m => rowIs (f m) a i
      let acc := c.op == 0xB2 || c.op == 0xB3
      let r : MxRun :=
        { gslot := gs, unit := g.unit, ent := e, seq := g.mxseq - BitVec.ofNat 8 (g.e0.length + 1), rowsDone := n,
          sat := bit fl 3, told := bit fl 2,
          psn := if acc then (List.range n).any (any (·.marks)) else c.op == 0xB0 && n != 0 && halves.any fun m => m.shadow.poison,
          flg := acc && (List.range n).any (any (·.flags)) }
      let m := getMx s core
      let s := setMx s core { m with run := [r] }
      if !bit fl 2 then s
      else
        let step := dw (if c.md0 then 1 else (mget 0 m.ksteps a).toNat + 1)
        match strNan s core g.unit c n with
        | some (row, col) => nanDue s core gs row col a step
        | none => nanFree s core gs a step

/-! ### Channels and frames (R226, R237) -/

/-- A channel's chain from its block: it reads its record again and goes on at the saved index. -/
def chanOf (s : State) (core : Nat) (b : List Byte) : Option Chan :=
  let f := imgN b 0x24 4
  if !bit f 0 then none
  else match getGroup s core (fld f 8 8) with
    | none => none
    | some g =>
      let a := imgN b 0 8
      let valid := imgN b 0x30 4
      some { gslot := fld f 8 8, unit := g.unit,
             entry := { bits := BitVec.ofNat 128 (a + valid * 2 ^ 64), guard := none, enq := false, seq := 0 },
             valid := BitVec.ofNat 32 valid, next := some a,
             tuple := some ((List.range 7).map fun i => imgN b (8 + 4 * i) 4), subtracted := imgN b 0x28 4,
             ringIdx := if bit f 1 then some (BitVec.ofNat 32 (imgN b 0x2C 4)) else none, fstep := fld f 2 3,
             fault := if bit f 5 then some (fld f 16 3) else none }

/-- The lowest entry from 16 on that no frame holds. -/
def freeWait (s : State) : Nat :=
  ((List.range (s.decs.length + 1)).find? fun i => (mfind s.decs (16 + i)).isNone).getD 0 + 16

def framesOf (core : Nat) (b : List Byte) (s : State) : State :=
  (List.range (min 16 (imgN b 0x300 4))).foldl (fun s i =>
    let o := 0x310 + 96 * i
    let gs := imgN b (o + 0x48) 8
    match getGroup s core gs with
    | none => s
    | some g =>
      setDec s (freeWait s)
        { core := core, gslot := gs, unit := g.unit, entry := { bits := 0, guard := none, enq := false, seq := 0 },
          record := (b.drop o).take 64, subtracted := imgN b (o + 0x40) 8 }) s

/-! ### A core's image -/

/-- A group that has ended and whose engine commands go on: it stands in its slot without a path. -/
def endedGroup (ctx lid un : Nat) (l : Launch) : Group :=
  { ctx := ctx, launch := lid, unit := un, gidx := 0, wcode := pkWcode l.packet, priv := 0, pathA := none, pathB := none,
    ended := true }

/-- The group records of an image: offsets by group slot. -/
def recordsOf (b : List Byte) : Nat → Nat → List (Nat × Nat)
  | 0, _ => []
  | k + 1, off => (wfld (imgW b (off + 0xD0)) 32 7, off) :: recordsOf b k (off + imgN b (off + 0xF0) 8)

/-- Loads the units of an image with their groups (R331). -/
def loadUnits (s : State) (core ctx : Nat) (b : List Byte) : State :=
  let so := imgN b 0x48 8
  let scr := (b.drop so).take scrBytes
  let recs := recordsOf b (imgN b 0x10 4) (imgN b 0x40 8)
  (List.range 128).foldl (fun s un =>
    let e := (b.drop (0x43000 + 64 * un)).take 64
    if !bit (imgN e 0x2E 2) 0 then s
    else match launchOf s ctx e with
      | none => s
      | some (lid, l) =>
        let s := setUnit s core un (unitOf lid l un e scr (b.drop (so + 0x80000)))
        let mask := imgN e 0x30 16
        ((List.range 128).filter fun i => bit mask i).foldl (fun s gs =>
          let q := (b.drop (0x3000 + 0x800 * gs)).take 0x800
          match recs.find? fun r => r.1 == gs with
          | none => setGroup s core gs (queuesOf q (endedGroup l.ctx lid un l))
          | some (_, off) =>
            let rb := (b.drop off).take (imgN b (off + 0xF0) 8)
            let g := groupStack s rb (groupOf s l.ctx lid l rb q)
            let g := { g with spec := specOf s rb g }
            let s := { s with launches := mmod s.launches lid fun l => { l with privs := l.privs.erase g.priv } }
            let g := (g.setK 100 (dw core)).setK 101 (dw (b2n (isFollower s core)))
            setGroup s core gs g) s) s

/-- Loads an image into a core: its storage, its tiles and scratchpad when it holds units, and its groups. -/
def loadImage (s : State) (core ctx : Nat) (b : List Byte) : State :=
  let so := imgN b 0x48 8
  let k := getCore s core
  let s := setCore s core { k with mx := mxOf ctx b (b.drop (imgN b 0x50 8)), gated := false }
  if imgN b 0x14 4 = 0 then s
  else
    let k := getCore s core
    let tiles := (List.range 256).filterMap fun i => (tileOf s ctx (b.drop (0x1000 + 32 * i))).map fun t => (i, t)
    loadUnits (setCore s core { k with scr := mputs 0 [] 0 ((b.drop so).take scrBytes), tiles := tiles }) core ctx b

/-- The engines of a loaded core continue, and each group resumes as an acquire (R282, R331). -/
def loadEngines (s : State) (core : Nat) (b : List Byte) : State :=
  let s := runOf s core b
  let s := (List.range 4).foldl (fun s i =>
    match chanOf s core (b.drop (0x200 + 0x40 * i)) with
    | some c => setChan s core i c
    | none => s) s
  let s := framesOf core b s
  let s := (getCore s core).groups.foldl (fun s kv => syncQueues s core kv.1) s
  (getCore s core).groups.foldl (fun s kv => if kv.2.ended then s else settle s core kv.1) (acquire s core)

end Sys2Proof.Machine
end

