-- ==== Sys2Proof/Machine/EvSave.lean ====
section
/-! DEFINITION. Saves and restores of cores: PREEMPT, SAVECMD_SAVE, SAVE_COMPLETE and SAVECMD_RESTORE (R42, R211, R282, R324,
R325, R331). -/

namespace Sys2Proof.Machine

/-! ### Beginning a save (R324, R325) -/

/-- The registered area of a core; 0 when there is none. -/
def areaReg (s : State) (core : Nat) : Nat := (ctlR s (0x3000 + 8 * core)).toNat % 2 ^ 52 / 4096 * 4096

def useArea (s : State) (core : Nat) : State := ctlW s (0x3000 + 8 * core) 0

/-- A host access to a core's state is a wake (R343). -/
def powerOn (s : State) (core : Nat) : State :=
  if core < Config.cores then setCore s core { getCore s core with gated := false } else s

def unitKeys (s : State) (core : Nat) : List Nat := (getCore s core).units.map (·.1)

/-- The other core of a pair whose unit, or half, a core holds, with the pair unit. -/
def pairOther (s : State) (core : Nat) : Option (Nat × Nat) :=
  match (getCore s core).units.find? fun kv => kv.2.pair with
  | some kv => some (core + 1, kv.1)
  | none => (getCore s core).pairUnit

/-- The units that a save of a core takes from the other core of its pair (R324). -/
def otherUnits (s : State) (core : Nat) (o : Nat × Nat) (whole : Bool) : List Nat :=
  if whole then unitKeys s o.1 else if o.1 = core + 1 ∧ (getCore s core).pairUnit.isNone then [] else [o.2]

/-- SAVEST (R324). -/
def setSavest (s : State) (busy : Bool) (result : Nat) : State := ctlW s 0x0808 (dw (b2n busy + result * 2))

def savestBusy (s : State) : Bool := (ctlR s 0x0808).getLsbD 0

/-- The matrix engine of a core stops: after some row of a streaming command, which is a free choice and may be the last, and after
the whole of an MXSWAP or MXZERO (R211; assumption 11). A command that has processed every row retires after the restore (R347). -/
def stopMatrix (s : State) (core : Nat) : State :=
  match (getMx s core).run with
  | [] => s
  | r :: _ =>
    let c := mxCmd r.ent.bits
    let left := c.work - r.rowsDone
    if left = 0 then s
    else if c.op = 0xB1 ∨ c.op = 0xB4 then
      let x := mxRows s core r left
      mxEnd x.1 core x.2
    else
      let x := mxRows { s with free := s.free + 1 } core r (Config.choice s.free % (left + 1))
      setMx x.1 core { getMx x.1 core with run := [x.2] }

/-- A core stops issuing and its engines stop; one that is stopped already stays as it is. -/
def quiesce (s : State) (core : Nat) : State :=
  if (getCore s core).quiesced then s
  else
    let s := stopMatrix s core
    setCore s core { getCore s core with quiesced := true }

/-- A save begins: its cores are quiesced, its registered areas are used, and it is kept at the core that it names. -/
def beginSave (s : State) (core : Nat) (sv : Save) : State :=
  let s := sv.parts.foldl (fun s p => if sv.cause = .cmd ∧ p.core = core then s else useArea s p.core) s
  -- the leader's engine runs a pair's command: it stops first
  let s := (sv.parts.map fun p => p.core).mergeSort.foldl quiesce s
  setCore s core { getCore s core with saving := some sv }

/-- The core is being saved, by itself or as another core's partner. -/
def inSave (s : State) (core : Nat) : Bool :=
  s.cores.any fun kv => match kv.2.saving with
    | some sv => sv.parts.any fun p => p.core == core
    | none => false

/-- The parts of a save of a whole core into an area; none when the other core of its pair has no area (R324). -/
def wholeParts (s : State) (core area : Nat) (whole : Bool) : Option (List SavePart) :=
  let own : SavePart := { core := core, area := area, units := unitKeys s core }
  match pairOther s core with
  | none => some [own]
  | some o =>
    if areaReg s o.1 = 0 then none
    else some [own, { core := o.1, area := areaReg s o.1, units := otherUnits s core o whole }]

/-- SAVECMD_SAVE (R324). -/
def execSavecmdSave (v : DWord) (s : State) : Out :=
  let core := wfld v 0 8
  let area := wfld v 12 40 * 4096
  if wfld v 8 2 ≠ 0 then .next s
  else if savestBusy s || inSave s core then .next (setSavest s (savestBusy s) 5)
  else if core ≥ Config.cores then .next (setSavest s false 2)
  else match wholeParts s core area false with
    | none => .next (setSavest s false 7)
    | some ps => .next (setSavest (beginSave (powerOn s core) core { parts := ps, cause := .cmd }) true 0)

/-- The launch that waits first and has no room on a core (R41, R42). -/
def waitingLaunch (s : State) (core : Nat) : Option Launch :=
  match placeOrder s with
  | [] => none
  | (lid, l) :: _ => if (placeUnit s core lid).isSome then none else some l

/-- The units of a core of strictly lower priority than a launch. -/
def lowerUnits (s : State) (core prio : Nat) : List Nat :=
  ((getCore s core).units.filter fun kv => match mfind s.launches kv.2.launch with
    | some l => decide (pkPrio l.packet < prio)
    | none => false).map (·.1)

/-- PREEMPT: the distributor saves the units of lower priority of a core, for a launch that waits (R42, R324). -/
def execPreempt (core : Nat) (s : State) : Out :=
  let k := getCore s core
  if core ≥ Config.cores || k.quiesced || k.isolated || k.gated || areaReg s core = 0 then .next s
  else match waitingLaunch s core with
    | none => .next s
    | some l =>
      let us := lowerUnits s core (pkPrio l.packet)
      let pair := us.any fun u => ((getUnit s core u).map (·.pair)).getD false
      if us.isEmpty || (pair && (areaReg s (core + 1) = 0 || (getCore s (core + 1)).quiesced)) then .next s
      else
        let own : SavePart := { core := core, area := areaReg s core, units := us }
        let ps := if pair then [own, { core := core + 1, area := areaReg s (core + 1), units := [] }] else [own]
        .next (beginSave s core { parts := ps, cause := .preempt })

/-! ### Completing a save (R282, R325) -/

/-- A write that the core made for one of its engines or for itself is not complete. -/
def coreWrites (s : State) (core : Nat) : Bool :=
  ((getCore s core).resp.any fun r => match r with
    | .wrote .. => true
    | _ => false)
    || s.paths.any fun kv => kv.1 / 128 == core && kv.2.any fun r => match r.kind with
      | .eng .. => true
      | _ => false

/-- A frame of the part has written its control block and can take its last steps (R234, R237). -/
def partEnding (s : State) (p : SavePart) : Bool :=
  s.decs.any fun kv => kv.2.core == p.core && p.units.contains kv.2.unit && kv.2.ending && !ctxKilled s (partCtx s p)
    && (kv.2.fin.map fun e => (vdPost s kv.1 kv.2 e).isSome).getD false

/-- Every group of a part has drained and completed its stores and bound its loads, none is in the middle of a TCOLOP or of its
start, the writes of the core's engines are complete, and no frame is about to end. The groups of a context that is being killed stay
where they stand: the kill discards the area's units (R344). -/
def partDrained (s : State) (p : SavePart) : Bool :=
  !coreWrites s p.core && !partEnding s p && (partGroups s p).all fun kv =>
    let g := kv.2
    g.sq.isEmpty && (ctxKilled s g.ctx || g.colop.isNone && (!g.argWait || g.ended)) &&
      g.lq.all fun e => e.pieces.all fun q => q.val.isSome

/-- A load that has bound uncorrectable data writes its other lanes and leaves LQ (R282). -/
def dropLoad (core gslot : Nat) (s : State) (e : LEntry) : State :=
  let bad := badLanes e
  let e' := { e with pieces := e.pieces.filter fun p => !bad.getLsbD p.lane }
  let s := modGroup s core gslot fun g => { g with lq := g.lq.filter fun x => x.seq != e.seq, uncorr := none }
  match e.dst with
  | .lanes d => modGroup s core gslot (writeLoad e' d)
  | .tile _ _ el => (el.filter fun x => !bad.getLsbD x.1).foldl (fun s x => scrWrites s core x.2 (laneBytes e' x.1)) s

/-- The e0 entries that a save discards, counted from the oldest: those that their guards have discarded, where no command that runs
stands before them, so that the numbers of the others stand (R199), or where the guard slot has changed since (R210; assumption 31). -/
def goneMx (g : Group) (es : List QEntry) : List Nat :=
  let lead := (es.takeWhile fun e => e.eval == some .drop).length
  (es.zipIdx.filter fun x => x.1.eval == some .drop &&
    (decide (x.2 < lead) || x.1.guard.any fun gs => g.guard gs.toNat != .false)).map (·.2)

/-- Commands that a guard or a FALSE speculation has discarded leave the subqueues, with the status entries of R210 (R139, R199,
R216, R228): an image has no field that says so (assumption 31). -/
def dropDiscarded (g : Group) : Group :=
  let gone := goneMx g g.e0
  let first := g.mxseq - BitVec.ofNat 8 g.e0.length
  let drop (e : QEntry) : Bool := e.eval == some .drop
  let g :=
    if g.ended then g
    else
      { g with
        e1 := (g.e0.zipIdx.filter fun x => gone.contains x.2).foldl (fun q x =>
          postQ q 7 (mxStatus (first + BitVec.ofNat 8 x.2) (entOp x.1.bits) 0 false true false false false)) g.e1
        e3 := (g.e2.filter drop).foldl (fun q e => postQ q 3 (cpStatus (fld e.bits.toNat 0 52) 0 true false true)) g.e3
        e5 := (g.e4.filter drop).foldl (fun q _ => postWords q 0x400 0xFFFF_FFFF_0000_0000) g.e5 }
  { g with
    e0 := (g.e0.zipIdx.filter fun x => !gone.contains x.2).map (·.1)
    e2 := g.e2.filter fun e => !drop e
    e4 := g.e4.filter fun e => !drop e }

/-- A group as its record is written: loads written, a watchpoint's halt made, traces pushed (R127, R130, R325, R337). The pending trace
is pushed also where it passes HLIM: R325 says that none is pending after a save, and no issue is there to take HISTFULL (DESIGN
CHOICE, assumption 73). -/
def settleGroup (core : Nat) (s : State) (kv : Nat × Group) : State :=
  let g := kv.2
  let s := g.lq.foldl (dropLoad core kv.1) s
  let sl := heldSlot g (otherSlot g.last)
  let s := match g.path sl with
    | some p => (watchHalt s core kv.1 g sl p).getD s
    | none => s
  modGroup s core kv.1 fun g => returnTrace (flushTrace g)

/-- The groups of a part as the save writes them. -/
def settlePart (s : State) (p : SavePart) : State :=
  let s := (partRecords s p).foldl (settleGroup p.core) s
  (partGroups s p).foldl (fun s kv => modGroup s p.core kv.1 dropDiscarded) s

/-- A write of a save. -/
structure SaveWrite where
  core  : Nat
  ctx   : Nat
  va    : Nat
  bytes : List Byte
deriving DecidableEq, Repr

/-- A group's last writes: the divergence stack's four topmost entries with those below that private memory does not hold yet, and
the history words that the core holds (R35, R119, R325). -/
def groupWrites (s : State) (core : Nat) (g : Group) : List SaveWrite :=
  ((g.stack.zipIdx.filter fun x => decide (x.2 + 4 ≥ g.stack.length) || g.deep[x.2]? != some x.1).map fun x =>
    { core := core, ctx := g.ctx, va := stackAddr s g x.2, bytes := entryBytes x.1 })
    ++ [{ core := core, ctx := g.ctx, va := g.hsp.toNat - 8 * g.hist.length,
          bytes := (g.hist.reverse.map fun w => bytesOf 8 w.toNat).flatten }]

/-- The last writes of every group of a save. -/
def flushWrites (s : State) (sv : Save) : List SaveWrite :=
  (sv.parts.map fun p => ((partRecords s p).map fun kv => groupWrites s p.core kv.2).flatten).flatten

/-- A part's area, with FLAGS.COMPLETE clear. -/
def areaWrite (s : State) (sv : Save) (p : SavePart) : SaveWrite :=
  { core := p.core, ctx := partCtx s p, va := p.area, bytes := overlay (partImage s sv p) 0x20 (bytesOf 8 (partFlags s sv p)) }

/-- CLK at COMPLETE and FLAGS with COMPLETE, the last writes of a part (R325, R326). -/
def flagsWrite (s : State) (sv : Save) (p : SavePart) : SaveWrite :=
  { core := p.core, ctx := partCtx s p, va := p.area + 0x18,
    bytes := bytesOf 8 s.clk.toNat ++ bytesOf 8 (1 + partFlags s sv p) }

/-- The granules of a write. -/
def SaveWrite.granules (w : SaveWrite) : List SaveWrite :=
  (piecesOf 32 w.va w.bytes.length).map fun p => { w with va := w.va + p.1, bytes := (w.bytes.drop p.1).take p.2 }

/-- The writes of a save but for its last ones, in granules and in their order, and the last ones. -/
def saveBody (s : State) (sv : Save) : List SaveWrite :=
  ((flushWrites s sv ++ sv.parts.map (areaWrite s sv)).map (·.granules)).flatten

def saveLast (s : State) (sv : Save) : List SaveWrite := ((sv.parts.map (flagsWrite s sv)).map (·.granules)).flatten

/-- What keeps a save from a write: the home, a PAGE or a PROT. -/
inductive SaveStop where
  | wait | page | prot
deriving DecidableEq, Repr

/-- One write of a save. -/
def saveWrite (s : State) (w : SaveWrite) : Except SaveStop State :=
  match xlate s w.ctx w.va .store false with
  | .ok t a _ => if pathClear s w.core (homeOf s t a) then .ok (engWrite s (some w.core) 0 w.ctx t a w.bytes) else .error .wait
  | .page => .error .page
  | .prot => .error .prot

/-- Writes in order: the number that are done, and the write that could not be made. -/
def saveGo : List SaveWrite → Nat → State → State × Nat × Option (SaveWrite × SaveStop)
  | [], n, s => (s, n, none)
  | w :: ws, n, s => match saveWrite s w with
    | .ok s => saveGo ws (n + 1) s
    | .error r => (s, n, some (w, r))

/-- The ranges that a save writes: pairs of a context and an address with a length. -/
def saveRanges (s : State) (sv : Save) : List (Nat × Nat × Nat) :=
  ((flushWrites s sv).map fun w => (w.ctx, w.va, w.bytes.length))
    ++ sv.parts.map fun p => (partCtx s p, p.area, partBytes s p)

/-- STKCTL of a stack (R341). -/
def stkReg (k : Nat) : Nat := 0x0B00 + 8 * k

/-- A save writes to a stack: a granule of one of its ranges lies there. -/
def saveOnStack (s : State) (k : Nat) : Bool :=
  s.cores.any fun kc => match kc.2.saving with
    | none => false
    | some sv => (saveRanges s sv).any fun r => (piecesOf 4096 r.2.1 r.2.2).any fun p =>
        match xlate s r.1 (r.2.1 + p.1) .store false with
        | .ok .dev a _ => domeOf s a / 10 == k
        | _ => false

/-- A requested retrain begins unless a save writes to its stack. -/
def startRetrain (s : State) (k : Nat) : State :=
  let v := ctlR s (stkReg k)
  if v.getLsbD 0 && (mfind s.retrain k).isNone && !saveOnStack s k then
    { s with retrain := mset s.retrain k (wfld v 4 4) } else s

/-- Retrains that a save deferred begin (R341, R344). -/
def startRetrains (s : State) : State := (List.range 8).foldl startRetrain s

/-- A part's core is freed of the units that were saved (R30, R325). -/
def freePart (s : State) (p : SavePart) : State :=
  let s := (partRecords s p).foldl (fun s kv =>
    { s with launches := mmod s.launches kv.2.launch fun l => { l with privs := l.privs ++ [kv.2.priv] } }) s
  let s := engQuit s p.core p.units
  let k := getCore s p.core
  let s := { s with decs := s.decs.filter fun kv => !(kv.2.core == p.core && p.units.contains kv.2.unit) }
  let s := setCore s p.core { k with
    chans := k.chans.filter fun kv => !p.units.contains kv.2.unit
    mx := { k.mx with run := k.mx.run.filter fun r => !p.units.contains r.unit }
    quiesced := false, saving := none }
  p.units.foldl (fun s u => dropUnit s p.core u) s

/-- The areas are complete: the driver is told and the cores are freed. -/
def endSave (s : State) (sv : Save) : State :=
  let s := sv.parts.foldl (fun s p => postFault s (mkFault 5 0 (partCtx s p) p.core 0 false 0 (dw p.area) 0)) s
  let s := sv.parts.foldl freePart s
  if sv.cause = .cmd then setSavest s false 0 else s

/-- SAVE_COMPLETE: the save that a core keeps goes on: to the end of its areas and then, as a step of its own, to COMPLETE and the
record, or to a fault on one of its writes (R325). It waits for room for a record (R320). -/
def execSaveComplete (core : Nat) (s : State) : Out :=
  match (getCore s core).saving with
  | none => .next s
  | some sv =>
    if sv.held.isSome || !sv.parts.all (partDrained s) || !frHas s sv.parts.length then .next s
    else
      let s := sv.parts.foldl settlePart s
      let body := saveBody s sv
      let ws := body ++ saveLast s sv
      let (s, n, r) := saveGo ((if sv.done < body.length then body else ws).drop sv.done) sv.done s
      let keep (sv : Save) : State := setCore s core { getCore s core with saving := some { sv with done := n } }
      let record (w : SaveWrite) (code : Nat) (s : State) : Out :=
        .next (postFault s (mkFault 11 code w.ctx w.core 0 false 0 (dw w.va) 0))
      match r with
      | none => .next (if n < ws.length then keep sv else startRetrains (endSave s sv))
      | some (_, .wait) => .next (keep sv)
      | some (w, .page) => record w 0x04 (keep { sv with late := true, held := some w.ctx })
      | some (w, .prot) =>
        -- abandoned: the core stays quiesced with its units
        let s := startRetrains (setCore s core { getCore s core with saving := none })
        record w 0x05 (if sv.cause = .cmd then setSavest s false 4 else s)

/-! ### Restoring (R331) -/

/-- An area, as one context or another has it, lies on a stack that retrains: a restore waits (R341). -/
def areaHeld (s : State) (a n : Nat) : Bool := s.ctxs.any fun kv => rangeHeld s kv.1 a n .load

/-- What the domes do as they serve the reads of a restore (R303). -/
def areaHits (s : State) (imgs : List (Nat × Nat × List Byte)) (areas : List Nat) : State :=
  (imgs.zip areas).foldl (fun u x => ctxHits u x.1.2.1 x.2 x.1.2.2.length) s

/-- The bytes of an area in a context, none when they cannot be read. -/
def areaRead (s : State) (ctx a n : Nat) : Option (List Byte) :=
  if (rangeFault s ctx a n .load false).isSome then none else some (ctxReads s ctx a n)

/-- The context whose address space holds an area that names it (assumption 12). -/
def areaCtx (s : State) (a : Nat) : Option Nat :=
  (s.ctxs.find? fun kv => match areaRead s kv.1 a 256 with
    | some b => imgN b 0x28 4 == kv.1 && imgN b 0 4 == saMagic
    | none => false).map (·.1)

/-- The result of a header's checks for a pair role: an area that a save has not completed gives 6, whatever it holds (R324, R331,
R347; assumption 31). -/
def headerCheck (b : List Byte) (role : Nat) : Nat :=
  if !bit (imgN b 0x20 8) 0 then 6
  else if imgN b 0 4 ≠ saMagic ∨ imgN b 4 4 ≠ 1 then 1
  else if imgN b 0xC 4 ≠ role then 2
  else 0

/-- An area's header with its context, or a result. -/
def areaHeader (s : State) (a role : Nat) : Except Nat (Nat × List Byte) :=
  match areaCtx s a with
  | some c => match areaRead s c a 256 with
    | some b => if headerCheck b role = 0 then .ok (c, b) else .error (headerCheck b role)
    | none => .error 4
  | none =>
    -- no context's space holds an area of its own there: the contents are judged as the first space has them that holds any
    match s.ctxs.findSome? fun kv => areaRead s kv.1 a 256 with
    | some b => .error (if bit (imgN b 0x20 8) 0 then 1 else 6)
    | none => .error 4

/-- A whole image, or a result; the launches of its units must be known. -/
def areaImage (s : State) (ctx a : Nat) (hd : List Byte) : Except Nat (List Byte) :=
  match areaRead s ctx a (imgN hd 0x30 8) with
  | none => .error 4
  | some b =>
    if (List.range 128).all fun u =>
      let e := (b.drop (0x43000 + 64 * u)).take 64
      !bit (imgN e 0x2E 2) 0 || (launchOf s ctx e).isSome then .ok b else .error 1

/-- A core may take a restored image (R331). -/
def coreEmpty (s : State) (core : Nat) : Bool :=
  (getCore s core).units.isEmpty && (getCore s core).pairUnit.isNone && !inSave s core

/-- The follower of a restore of pair work is free (R43, R331). -/
def followerFree (s : State) (core : Nat) (b : List Byte) : Bool :=
  let k := getCore s core
  k.pairUnit.isNone && !mxResident k none && !inSave s core && (imgN b 0x14 4 == 0 || k.units.isEmpty)

/-- The images to load: the target's, and for pair work the follower's. -/
def restorePlan (s : State) (core area fol : Nat) : Except Nat (List (Nat × Nat × List Byte)) :=
  match areaHeader s area 0 with
  | .error r => .error r
  | .ok (ctx, hd) =>
    let pair := bit (imgN hd 0x20 8) 2
    if core ≥ Config.cores || (pair && core % 2 == 1) then .error 2
    else if !pair then
      if !coreEmpty s core then .error 3
      else (areaImage s ctx area hd).map fun b => [(core, ctx, b)]
    else match areaHeader s fol 1 with
      | .error r => .error r
      | .ok (fc, fh) =>
        if !coreEmpty s core || !followerFree s (core + 1) fh then .error 3
        else match areaImage s ctx area hd, areaImage s fc fol fh with
          | .ok b, .ok f => .ok [(core, ctx, b), (core + 1, fc, f)]
          | .error r, _ | _, .error r => .error r

/-- The follower is reserved for the pair unit of a leader's image (R43). -/
def reservePair (s : State) (core : Nat) (b : List Byte) : State :=
  match (List.range 128).find? fun u => imgN b (0x43000 + 64 * u + 0x2E) 2 % 4 == 3 with
  | some u => setCore s (core + 1) { getCore s (core + 1) with pairUnit := some (core, u), gated := false }
  | none => s

/-- SAVECMD_RESTORE: the areas are loaded and KIND 6 is posted, or a result says why not (R324, R331). The command waits while an area
lies on a stack that retrains (R341), or for room for its record (R320). -/
def execSavecmdRestore (v : DWord) (s : State) : Out :=
  let core := wfld v 0 8
  let area := wfld v 12 40 * 4096
  let fol := wfld (ctlR s 0x0810) 12 40 * 4096
  if wfld v 8 2 ≠ 1 then .next s
  else if savestBusy s then .next (setSavest s true 5)
  else if areaHeld s area 4096 || areaHeld s fol 4096 then .next s
  else match restorePlan s core area fol with
    | .error r => .next (setSavest s false r)
    | .ok imgs =>
      if frFull s || (imgs.zip [area, fol]).any fun x => rangeHeld s x.1.2.1 x.2 x.1.2.2.length .load then .next s else
      let s := areaHits s imgs [area, fol]
      let s := match imgs with
        | [(c, _, b), _] => reservePair s c b
        | _ => s
      let s := imgs.foldl (fun s x => loadImage s x.1 x.2.1 x.2.2) s
      let s := imgs.foldl (fun s x => loadEngines s x.1 x.2.2) s
      let ctx := (imgs.head?.map (·.2.1)).getD 0
      .next (postFault (setSavest s false 0) (mkFault 6 0 ctx core 0 false 0 (dw area) 0))

end Sys2Proof.Machine
end

