-- ==== Sys2Proof/Machine/EvService.lean ====
section
/-! DEFINITION. The steps of live service: the end of a kill (R332), of an invalidation (R296), of a firmware load (R339) and
of a retrain (R341), power gating (R343), power and heat (R23 to R25), and function reset. -/

namespace Sys2Proof.Machine

/-! ### Killing a context (R332) -/

/-- The groups of a context: core, group slot and group. -/
def ctxGroups (s : State) (c : Nat) : List (Nat × Nat × Group) :=
  (s.cores.map fun kc => (kc.2.groups.filter fun kv => kv.2.ctx == c).map fun kv => (kc.1, kv.1, kv.2)).flatten

/-- A group has nothing on its way: its drained stores are complete and its sent loads are bound. -/
def groupStill (g : Group) : Bool :=
  g.sq.all (fun x => !x.drained) && g.lq.all fun e => e.pieces.all fun p => !p.sent || p.val.isSome

/-- A request of a group is in a path. -/
def inPath (s : State) (core gslot : Nat) : Bool :=
  s.paths.any fun kv => kv.1 / 128 == core && kv.2.any fun r => r.gslot == gslot

/-- A write or a read of an engine of the context is on its way (R270). -/
def engInPath (s : State) (c : Nat) : Bool :=
  s.paths.any fun kv => kv.2.any fun r => match r.kind with
    | .eng _ ctx | .eread _ ctx => ctx == c
    | _ => false

/-- Every request that the context has in a path has been delivered, and no save that holds its units is open. -/
def killReady (s : State) (c : Nat) : Bool :=
  (ctxGroups s c).all (fun x => groupStill x.2.2 && !inPath s x.1 x.2.1) && !engInPath s c
    && s.cores.all fun kc => kc.2.units.all (fun kv => kv.2.ctx != c) || !inSave s kc.1

/-- The context's units leave a core with everything of theirs: groups, tiles with their frames, chains and commands. A core
that is left empty issues again. -/
def killCore (c : Nat) (s : State) (core : Nat) : State :=
  let k := getCore s core
  let us := (k.units.filter fun kv => kv.2.ctx == c).map (·.1)
  let s := engQuit s core us
  let k := getCore s core
  let s := setCore s core { k with
    chans := k.chans.filter fun kv => !us.contains kv.2.unit
    mx := { k.mx with run := k.mx.run.filter fun r => !us.contains r.unit } }
  let s := { s with decs := s.decs.filter fun kv => !(kv.2.core == core && us.contains kv.2.unit) }
  us.foldl (fun s u => dropUnit s core u) s

/-- A core that holds nothing and takes part in no save issues again. -/
def wakeCore (s : State) (core : Nat) : State :=
  let k := getCore s core
  if k.quiesced && k.units.isEmpty && k.pairUnit.isNone && !inSave s core then setCore s core { k with quiesced := false } else s

/-- What a context holds on the device: windows, buffered host-window writes, queues and launches. -/
def killDevice (s : State) (c : Nat) : State :=
  { s with
    pins := s.pins.filter fun kv => kv.2.ctx != c
    pubs := (s.pubs.map fun kv => (kv.1, kv.2.filter fun w => w.ctx != c)).filter fun kv => !kv.2.isEmpty
    lqs := s.lqs.filter fun kv => kv.1 / 16 != c
    hostq := s.hostq.filter fun q => q.ctx != c
    launches := s.launches.filter fun kv => kv.2.ctx != c
    pageRecs := s.pageRecs.filter fun r => r.2.1 != c }

/-- Every entry of the context's job table that is not DONE is set DONE and CANC. -/
def killJobs (s : State) (c : Nat) : State :=
  (List.range 256).foldl (fun s i =>
    let w := jobRead s c i 0
    let s := jobHit s c i
    if w.getLsbD 63 then s else jobWrite s c i (w ||| jDONE ||| jCANC)) s

/-- The context that is being killed. -/
def killing (s : State) : Option Nat := (s.ctxs.find? fun kv => kv.2.killing).map (·.1)

/-- KILL_DONE: every write of the context has retired; what it holds is released, its jobs are cancelled, KIND 7 is posted
and BUSY clears. The context is no more (R332). -/
def execKillDone (s : State) : Out :=
  match killing s with
  | none => .next s
  | some c =>
    if !killReady s c || frFull s || jobsHeld s c then .next s
    else
      let cores := s.cores.map (·.1)
      let s := cores.foldl (killCore c) s
      let s := cores.foldl wakeCore s
      let s := killJobs (killDevice s c) c
      let s := ctlW (ctlW { s with ctxs := mdel s.ctxs c } 0x0820 0) (0x4000 + 0x40 * c) 0
      .next (postFault s (mkFault 7 0 c 0 0 false 0 0 0))

/-! ### Translation invalidation (R296) -/

/-- Whether an invalidation's scope covers a context. -/
def invCtx (v : DWord) (c : Nat) : Bool := wfld v 0 2 == 2 || wfld v 52 6 == c

/-- Whether it covers a cached translation. -/
def invEntry (v : DWord) (e : TlbEntry) : Bool :=
  invCtx v e.ctx &&
    (wfld v 0 2 != 0 || (decide (e.vpn ≤ wfld v 12 40) && decide (wfld v 12 40 < e.vpn + e.npg)))

/-- Whether an access at a virtual address may have used a translation that it covers: pages reach 1 GiB. -/
def invVa (v : DWord) (va : Nat) : Bool := wfld v 0 2 != 0 || va / 2 ^ 30 == wfld v 12 40 * 4096 / 2 ^ 30

/-- An access of the group that used an old translation is not complete. -/
def groupOld (v : DWord) (g : Group) : Bool :=
  invCtx v g.ctx &&
    (g.lq.any (fun e => e.pieces.any fun p => p.val.isNone && invVa v p.va)
      || (g.sq ++ g.hold).any fun x => x.pieces.any fun p => invVa v p.va)

/-- A hint or an engine's store that used an old translation is on its way. -/
def pathOld (v : DWord) (r : Req) : Bool :=
  invVa v r.va && match r.kind with
    | .eng _ ctx | .eread _ ctx => invCtx v ctx
    | _ => r.seq == 0

/-- TLB_INVALIDATION_DONE: the translations that match are dropped once no access that used one is left, hints and the engines' accesses
among them, and BUSY clears (R296). -/
def execTlbInvalidationDone (s : State) : Out :=
  match s.tlbBusy with
  | none => .next s
  | some v =>
    if s.cores.any (fun kc => kc.2.groups.any fun kv => groupOld v kv.2)
        || s.paths.any (fun kv => kv.2.any (pathOld v)) || s.cores.any (fun kc => coreWrites s kc.1) then .next s
    else
      let s := { s with tlb := s.tlb.filter (fun e => !invEntry v e), tlbBusy := none }
      .next (ctlW s 0x0208 (dw ((ctlR s 0x0208).toNat / 2 * 2)))

/-! ### Firmware (R339) -/

/-- The engines of a quadrant have finished the commands that they have taken. -/
def quadIdle (s : State) (q : Nat) : Bool :=
  ((List.range 24).all fun i =>
    let k := getCore s (24 * q + i)
    k.mx.run.isEmpty && k.chans.isEmpty)
    && (mfind s.decs (2 * q)).isNone && (mfind s.decs (2 * q + 1)).isNone

def qfwReg (q : Nat) : Nat := 0x0C00 + 8 * q

/-- FIRMWARE_LOAD_DONE: the engines restart with the new image, and bit 0 reads 0 (R339). -/
def execFirmwareLoadDone (quadrant : Nat) (s : State) : Out :=
  if !quadBusy s quadrant || !quadIdle s quadrant then .next s
  else
    let v := ctlR s (qfwReg quadrant)
    let s := ctlW s (qfwReg quadrant) (v &&& ~~~(1 : DWord))
    .next { s with firmware := mset s.firmware quadrant (wfld v 12 40 * 4096) }

/-! ### Stack retraining (R341) -/

/-- A rate that a stack takes. -/
def rateOk (r : Nat) : Bool := r == 6 || r == 8 || r == 10

/-- RETRAIN_DONE: the stack runs at its new rate, and its domes release what they held (R341). -/
def execRetrainDone (stack : Nat) (s : State) : Out :=
  match mfind s.retrain stack with
  | none => .next s
  | some r => .next (ctlW { s with retrain := mdel s.retrain stack } (stkReg stack) (dw (r * 16)))

/-! ### Power and heat -/

/-- A core has no resident group and no engine work (R343). -/
def coreIdle (s : State) (core : Nat) : Bool :=
  let k := getCore s core
  (liveGroups s core).isEmpty && k.mx.run.isEmpty && k.chans.isEmpty && k.pairUnit.isNone && !k.quiesced && !inSave s core
    && !s.decs.any fun kv => kv.2.core == core

/-- CORE_POWER_GATE: an idle core gates its power, unless a wake arrives in the same cycle (R343). -/
def execCorePowerGate (core : Nat) (wake : Bool) (s : State) : Out :=
  if wake || core ≥ Config.cores || !coreIdle s core then .next s
  else .next (setCore s core { getCore s core with gated := true })

/-- POWER_LIMIT_EXCEEDED: the arithmetic clock is lowered; no value and no order changes (R24). -/
def execPowerLimitExceeded (s : State) : Out := .next { s with clkLimited := true }

/-- THERMAL_THROTTLE: the arithmetic clock is lowered (R24). -/
def execThermalThrottle (s : State) : Out := .next { s with clkLimited := true }

/-- CLOCK_NOT_LIMITED: the arithmetic clock returns to 1.9 GHz (R23, R24). -/
def execClockNotLimited (s : State) : Out := .next { s with clkLimited := false }

/-- THERMAL_SHUTDOWN: issue stops on every core and the driver receives a machine check (R25). -/
def execThermalShutdown (s : State) : Out :=
  .next (if s.thermalStop then s else postFault { s with thermalStop := true } (mkFault 4 0 0 0 0 false 0 0 0))

/-- FUNCTION_RESET: the device's state is that of reset. The bytes of memory, the sectors that cannot be corrected and the links
outlast it (assumption 32). -/
def execFunctionReset (s : State) : Out :=
  .next { State.reset with
    mem := s.mem, host := s.host, peers := s.peers, uncorr := s.uncorr, rowsBad := s.rowsBad, dead := s.dead
    portsDown := s.portsDown, hostDown := s.hostDown, hostReply := s.hostReply
    cur := s.cur, agenda := s.agenda, tick := s.tick, free := s.free }

end Sys2Proof.Machine
end

