-- ==== Sys2Proof/Machine/EvHost.lean ====
section
/-! DEFINITION. The driver's writes to the control window (R19, R42, R162, R163, R296, R299, R312, R319 to R321, R324, R332,
R339, R341, R342, R391), and what its registers read. -/

namespace Sys2Proof.Machine

/-! ### Features (R18 to R20) -/

/-- FEAT0 to FEAT3: the supported set. -/
def featSupported (i : Nat) : DWord := if i = 0 then 0x1FF else 0

/-- FACC_STAGE_WRITE: a value is staged; after the commit the write is ignored and sets REWRITE. -/
def execFaccStageWrite (i : Nat) (v : DWord) (s : State) : Out :=
  if i ≥ 3 then .next s
  else if s.faccDone then .next { s with faccRewrite := true }
  else .next { s with faccStage := mput 0 s.faccStage i v }

/-- FACC_COMMIT: a write of FACC3 commits all four registers, once. -/
def execFaccCommit (v : DWord) (s : State) : Out :=
  if s.faccDone then .next { s with faccRewrite := true }
  else
    let st := mput 0 s.faccStage 3 v
    let acc := (List.range 4).foldl (fun m i => mput 0 m i (mget 0 st i &&& featSupported i)) ([] : AMap DWord)
    .next { s with faccStage := st, facc := acc, faccDone := true }

/-! ### Format ranges (R162, R163) -/

def fmtReg (i w : Nat) : Nat := 0x1000 + 0x40 * i + 8 * w

/-- The writable bits of a format-range word. -/
def fmtMask (w : Nat) : DWord :=
  match w with
  | 0 => 0x000F_FFFF_FFFF_FCF1
  | 1 => 0x000F_FFFF_FFFF_0000
  | 2 | 3 => 0x000F_FFFF_FFFF_FFC0
  | 4 => 0x000F_FFFF_FFFF_F800
  | _ => 0

/-- The base and the length of a range, in bytes. -/
def fmtSpan (w0 w1 : DWord) : Nat × Nat := (wfld w0 16 36 * 65536, wfld w1 16 36 * 65536)

/-- A commit is refused (R163). -/
def fmtRefused (s : State) (i : Nat) (w0 w1 : DWord) : Bool :=
  let (b, n) := fmtSpan w0 w1
  (wfld w0 4 4 != 7 && wfld w0 4 4 != 9) || n == 0 || decide (b + n > 2 ^ 52)
    || s.ranges.any fun kv =>
      let (b', n') := fmtSpan (kv.2.getD 0 0) (kv.2.getD 1 0)
      kv.1 != i && wfld (kv.2.getD 0 0) 10 6 == wfld w0 10 6 && decide (b < b' + n') && decide (b' < b + n)

/-- A decoded line lies in a range. -/
def DecLine.inRange (l : DecLine) (ws : List DWord) : Bool :=
  let (b, n) := fmtSpan (ws.getD 0 0) (ws.getD 1 0)
  l.ctx == wfld (ws.getD 0 0) 10 6 && decide (b ≤ l.va) && decide (l.va < b + n)

/-- FORMAT_RANGE_COMMIT: a write of w0 commits, retires or refuses the range, and invalidates the decoded lines of the old and of the
new range in every dome (R163). -/
def execFormatRangeCommit (i : Nat) (v : DWord) (s : State) : Out :=
  if i ≥ 16 || !feature s 4 then .next s
  else
    let w0 := v &&& fmtMask 0
    let ws := w0 :: (List.range 4).map fun j => ctlR s (fmtReg i (j + 1))
    let old := mget [] s.ranges i
    let s := { s with ranges := mdel s.ranges i, declines := s.declines.filter fun l => !l.inRange old && !l.inRange ws }
    if !w0.getLsbD 0 then .next (ctlW (ctlW s (fmtReg i 0) w0) (fmtReg i 7) 0)
    else if fmtRefused s i w0 (ctlR s (fmtReg i 1)) then
      .next (ctlW (ctlW s (fmtReg i 0) (w0 &&& ~~~(1 : DWord))) (fmtReg i 7) 1)
    else .next (ctlW (ctlW { s with ranges := mset s.ranges i ws } (fmtReg i 0) w0) (fmtReg i 7) 0)

/-! ### Translation and striping (R296, R299) -/

/-- TLBINV_WRITE: an invalidation begins; while one runs, and for SCOPE 3, the write is ignored and sets OVR. -/
def execTlbinvWrite (v : DWord) (s : State) : Out :=
  if s.tlbBusy.isSome || wfld v 0 2 = 3 then .next (ctlW s 0x0208 (ctlR s 0x0208 ||| 2))
  else .next (ctlW (ctlW { s with tlbBusy := some v } 0x0200 (v &&& 0x03FF_FFFF_FFFF_F003)) 0x0208 (ctlR s 0x0208 ||| 1))

/-- The live regions: first unit and length. -/
def liveRegions (s : State) : List (Nat × Nat) := (List.range 8).filterMap (region s)

/-- Two live regions overlap, or one passes 640 GiB. -/
def regionsBad (s : State) : Bool :=
  (liveRegions s).any (fun r => decide ((r.1 + r.2) * 4096 > Config.devBytes))
    || (List.range 8).any fun i => (List.range i).any fun j => match region s i, region s j with
      | some a, some b => decide (a.1 < b.1 + b.2) && decide (b.1 < a.1 + a.2)
      | _, _ => false

/-- INTERLEAVE_REGION_WRITE: only while no context exists; regions that do not fit are refused as a group. -/
def execInterleaveRegionWrite (i w : Nat) (v : DWord) (s : State) : Out :=
  if !s.ctxs.isEmpty || i ≥ 8 || w ≥ 2 then .next s
  else
    let m : DWord := if w = 0 then 0x000F_FFFF_FFFF_F001 else 0xFFFF_FFFF
    let s := ctlW s (0x0600 + 16 * i + 8 * w) (v &&& m)
    if regionsBad s then
      .next ((List.range 8).foldl (fun s j => ctlW s (0x0600 + 16 * j) (ctlR s (0x0600 + 16 * j) &&& ~~~(1 : DWord))) s)
    else .next s

/-! ### Launch queues and contexts (R321, R391) -/

/-- LAUNCH_QUEUE_CONFIG_WRITE: ignored while the queue holds a packet; a bad value leaves V at 0. -/
def execLaunchQueueConfigWrite (ctx q w : Nat) (v : DWord) (s : State) : Out :=
  let x := mget {} s.lqs (ctx * 16 + q)
  if ctx ≥ 64 || q ≥ 16 || w ≥ 2 || !x.packets.isEmpty then .next s
  else if w = 0 then
    let bad := wfld v 52 12 != 0 || wfld v 1 11 != 0 || decide (x.logn > 16)
    .next (setLq s ctx q { x with base := wfld v 12 40, v := v.getLsbD 0 && !bad })
  else
    let bad := wfld v 5 59 != 0 || decide (wfld v 0 5 > 16)
    .next (setLq s ctx q { x with logn := wfld v 0 5, v := x.v && !bad })

def ctxReg (c w : Nat) : Nat := 0x4000 + 0x40 * c + 8 * w

/-- CONTEXT_CREATE: a write of w0 with V = 1 creates the context; it is refused, and V reads 0, until the features are
committed. A context that exists is not written over (R19, R321). -/
def execContextCreate (ctx : Nat) (v : DWord) (s : State) : Out :=
  if ctx ≥ 64 || (mfind s.ctxs ctx).isSome then .next s
  else
    let w0 := v &&& 0x000F_FFFF_FFFF_0001
    if !w0.getLsbD 0 then .next (ctlW s (ctxReg ctx 0) w0)
    else if !s.faccDone then .next (ctlW s (ctxReg ctx 0) (w0 &&& ~~~(1 : DWord)))
    else
      let c : Ctx := { root := wfld w0 16 36 * 65536, cthii := (ctlR s (ctxReg ctx 1)).setWidth 48,
                       jobtab := wfld (ctlR s (ctxReg ctx 2)) 0 52 }
      .next { ctlW s (ctxReg ctx 0) w0 with ctxs := mset s.ctxs ctx c }

/-! ### REPLAY (R319, R320) -/

/-- A group that a PAGE holds retries. -/
def replayGroup (c : Nat) (g : Group) : Group :=
  match g.held with
  | .driver true _ => if g.ctx = c then { g with held := .none } else g
  | _ => g

/-- The agents of a core that a PAGE holds: groups, channels, argument fetches and silo moves. -/
def replayCore (s : State) (c core : Nat) : State :=
  let k := getCore s core
  let mine (u : Nat) : Bool := ((getUnit s core u).map (·.ctx)) == some c
  setCore s core { k with
    groups := k.groups.map fun kv => (kv.1, replayGroup c kv.2)
    units := k.units.map fun kv => (kv.1, if kv.2.ctx = c then { kv.2 with argHeld := false } else kv.2)
    chans := k.chans.map fun kv => (kv.1, if mine kv.2.unit then { kv.2 with held := false } else kv.2)
    tiles := k.tiles.map fun kv =>
      (kv.1, if mine kv.2.unit then { kv.2 with bin := { kv.2.bin with paged := false } } else kv.2) }

/-- A save that a PAGE holds goes on. -/
def replaySave (s : State) (c core : Nat) : State :=
  match (getCore s core).saving with
  | some sv =>
    if sv.held = some c then setCore s core { getCore s core with saving := some { sv with held := none } } else s
  | none => s

/-- REPLAY: every agent of the record's context that a PAGE holds is released to retry. The register reads as it was last written, its
reserved bits 0: R320 gives only its writes (DESIGN CHOICE, assumption 73). -/
def execReplay (v : DWord) (s : State) : Out :=
  let c := wfld v 58 6
  let s := ctlW s 0x0920 (v &&& 0xFFFF_FC00_0000_0000)
  let cores := s.cores.map (·.1)
  let s := cores.foldl (fun s k => replayCore s c k) s
  let s := cores.foldl (fun s k => replaySave s c k) s
  let mineQ (n : Nat) : Bool := match s.hostq.find? fun p => p.q == n with
    | some p => p.ctx == c
    | none => true
  .next { s with
    pageRecs := s.pageRecs.filter fun r => r.2.1 != c
    decs := s.decs.map fun kv =>
      (kv.1, if ((getUnit s kv.2.core kv.2.unit).map (·.ctx)) == some c then { kv.2 with held := false } else kv.2)
    hostqHeld := s.hostqHeld.filter fun n => !mineQ n }

/-! ### KILLCMD (R332) -/

/-- A group of a killed context: its unissued stores, its hold queue and its queued commands are discarded. -/
def killGroup (c : Nat) (g : Group) : Group :=
  if g.ctx = c then { g with sq := g.sq.filter (·.drained), hold := [], e0 := [], e2 := [], e4 := [], colop := none } else g

/-- The first steps of a kill on a core; the matrix engine stops at a row. -/
def killStop (c : Nat) (s : State) (core : Nat) : State :=
  let k := getCore s core
  let mine := match k.mx.run with
    | r :: _ => ((getUnit s core r.unit).map (·.ctx)) == some c
    | [] => false
  let s := if mine && !k.quiesced then stopMatrix s core else s
  if inSave s core then s
  else setCore s core { getCore s core with groups := (getCore s core).groups.map fun kv => (kv.1, killGroup c kv.2) }

/-- KILLCMD: issue and placement of the context stop, and what has not issued is discarded. A save that is open is completed
first (R332, R344). A write while KILLST reads BUSY is ignored. The register reads as it was last written: R332 gives only its writes
(DESIGN CHOICE, assumption 73). -/
def execKillcmd (v : DWord) (s : State) : Out :=
  let c := wfld v 0 6
  if (ctlR s 0x0820).getLsbD 0 || (mfind s.ctxs c).isNone then .next s
  else
    let s := ctlW (ctlW s 0x0818 (dw c)) 0x0820 1
    let s := (s.cores.map (·.1)).foldl (killStop c) s
    .next { s with ctxs := mmod s.ctxs c fun x => { x with killing := true } }

/-! ### Domes, firmware and stacks (R312, R339, R341) -/

/-- RETQ_WRITE: a write of 1 to RETQ asks for the dome's retirement; the last live dome of a base die is refused. -/
def execRetqWrite (d : Nat) (s : State) : Out :=
  if d ≥ Config.domes || (getDome s d).ret || (liveOthers s d).isEmpty then .next s
  else .next (setDome s d { getDome s d with retq := true })

/-- QFW_WRITE: a write of 1 begins a firmware load (R339). -/
def execQfwWrite (quadrant : Nat) (v : DWord) (s : State) : Out :=
  if quadrant ≥ 8 || quadBusy s quadrant || !v.getLsbD 0 then .next s
  else .next (ctlW s (qfwReg quadrant) (v &&& 0x000F_FFFF_FFFF_F001))

/-- STKCTL_RETRAIN: a retrain to a rate that the stack takes; one that a save stands in the way of waits for it (R341). -/
def execStkctlRetrain (stack : Nat) (v : DWord) (s : State) : Out :=
  if stack ≥ 8 || (ctlR s (stkReg stack)).getLsbD 0 || !v.getLsbD 0 || !rateOk (wfld v 4 4) then .next s
  else .next (startRetrain (ctlW s (stkReg stack) (v &&& 0xF1)) stack)

/-! ### Isolation (R342) -/

def coreCtl (core : Nat) : Nat := 0x9000 + 8 * core

/-- The cores that an isolation takes: a core, and the other of its pair. -/
def isolated (s : State) (core : Nat) : List Nat :=
  core :: ((pairOther s core).map (·.1)).toList

/-- Takes cores out of placement. -/
def markIsolated (s : State) (cs : List Nat) : State :=
  cs.foldl (fun s c => ctlW (setCore s c { getCore s c with isolated := true }) (coreCtl c) 1) s


/-- CORE_ISOLATE: the core, and the other core of its pair, is saved whole into its registered area and leaves placement. With an
area missing, or a save of the core open, the request is refused and ISOLATE clears (R324, R342). While no context exists there is no
space that holds an image: the core only leaves placement (assumption 12). -/
def execCoreIsolate (core : Nat) (s : State) : Out :=
  let s := powerOn s core
  if core ≥ Config.cores || (getCore s core).isolated then .next s
  else
    let cs := isolated s core
    let clear : State := cs.foldl (fun s c => ctlW s (coreCtl c) 0) s
    if areaReg s core = 0 || cs.any (inSave s) then .next clear
    else if s.ctxs.isEmpty then .next (markIsolated s cs)
    else match wholeParts s core (areaReg s core) true with
      | none => .next clear
      | some ps => .next (beginSave (markIsolated s cs) core { parts := ps, cause := .isolate })

/-- CORE_UNISOLATE: ISOLATE is written 0, and the core takes part in placement again (R342). -/
def execCoreUnisolate (core : Nat) (s : State) : Out :=
  if core ≥ Config.cores then .next s
  else .next (ctlW (setCore s core { getCore s core with isolated := false, gated := false }) (coreCtl core) 0)

/-! ### Registers without behaviour of their own (R4) -/

/-- An offset is the register at a base with a stride and a count. -/
def regIn (off base stride n : Nat) : Bool := decide (base ≤ off) && decide (off < base + stride * n)

/-- The writable bits of a debug-mailbox word (R333, R336, R337). The status ring and the device's indices are not written. -/
def mboxMask (off : Nat) : DWord :=
  if off = 0x0000 then 63
  else if off = 0x0018 then 255
  else if regIn off 0x0040 8 8 then 0x803F_FFFF_FFFF_FFFF
  else if regIn off 0x0080 32 4 then
    match (off - 0x80) % 32 / 8 with
    | 0 => 0xFFFF_FFFF_FFFF_C000
    | 1 => 0xFF_FFFF
    | _ => 0
  else if regIn off 0x1000 64 64 then 0xFFFF_FFFF_FFFF_FFFF
  else 0

/-- The writable bits of a register without behaviour of its own; 0 for any other offset. -/
def plainMask (s : State) (off : Nat) : DWord :=
  if off % 8 ≠ 0 then 0
  else if off = 0x0300 then 0xFFFF_FFFF
  else if regIn off 0x0400 0x20 16 then (if (off - 0x0400) % 0x20 = 0 then 0xFFFF_FFFF_FFFF_FFF9 else 0)
  else if regIn off 0x0680 8 8 then 15
  else if off = 0x0810 then 0x000F_FFFF_FFFF_F000
  else if off = 0x0900 then 0x000F_FFFF_FFFF_F000
  else if off = 0x0908 || off = 0x0918 then 0x1_FFFF
  else if regIn off 0x1000 0x40 16 then
    (if feature s 4 && (off - 0x1000) % 0x40 != 0 then fmtMask ((off - 0x1000) % 0x40 / 8) else 0)
  else if regIn off 0x3000 8 192 then 0x000F_FFFF_FFFF_F000
  else if regIn off 0x4000 0x40 64 then
    match (off - 0x4000) % 0x40 / 8 with
    | 1 => 0xFFFF_FFFF_FFFF
    | 2 => 0x000F_FFFF_FFFF_F000
    | _ => 0
  else if off ≥ mbox then mboxMask (off - mbox)
  else 0

/-- FRSIZE takes a power of two from 16 to 65,536 (R320). -/
def frSizeOk (v : DWord) : Bool := (List.range 13).any fun i => v.toNat == 2 ^ (i + 4)

/-- CONTROL_REGISTER_WRITE: the writable bits are stored; RSVD bits and read-only bits are not. A write of TLBINVST clears OVR.
Room in the fault ring or the status ring lets waiting entries in (R4, R296, R320, R333). -/
def execControlRegisterWrite (off : Nat) (v : DWord) (s : State) : Out :=
  if off = 0x0208 then .next (ctlW s off (ctlR s off &&& 1))
  else if off = 0x0908 && !frSizeOk v then .next s
  else if plainMask s off = 0 then .next s
  else
    let s := ctlW s off (v &&& plainMask s off)
    let s := if regIn off 0x3000 8 192 then powerOn s ((off - 0x3000) / 8) else s
    .next (if off = 0x0900 || off = 0x0908 || off = 0x0918 then frDrain s
      else if off = mbox + 0x18 then stDrain s else s)

/-! ### Reading the control window -/

/-- What a register reads, where it is not kept in `ctl` as it reads. Words w1 to w4 of a format range read the staged values while a
write of them waits for w0. DESIGN CHOICE (assumption 70). -/
def ctlRead (s : State) (off : Nat) : DWord :=
  if regIn off 0x0100 8 4 then featSupported ((off - 0x0100) / 8)
  else if regIn off 0x0120 8 4 then
    let i := (off - 0x0120) / 8
    if s.faccDone then mget 0 s.facc i else mget 0 s.faccStage i
  else if off = 0x0140 then dw (b2n s.faccDone + b2n s.faccRewrite * 2)
  else if regIn off 0x0400 0x20 16 && (off - 0x0400) % 0x20 == 8 then
    dw (pubBytes (mget [] s.pubs ((off - 0x0400) / 0x20)))
  else if regIn off 0x2000 8 80 then
    let x := getDome s ((off - 0x2000) / 8)
    dw (b2n x.ret * 2 ^ 63 + b2n x.retq * 2 ^ 62 + x.cecnt)
  else if regIn off 0x5000 16 1024 then
    let x := mget {} s.lqs ((off - 0x5000) / 16)
    if (off - 0x5000) % 16 = 0 then dw (x.base * 4096 + b2n x.v) else dw x.logn
  else if regIn off 0x9000 8 192 then
    let c := (off - 0x9000) / 8
    let k := getCore s c
    dw (b2n k.isolated + b2n (k.isolated && !k.quiesced) * 2)
  else ctlR s off

end Sys2Proof.Machine
end

