-- ==== Sys2Proof/Machine/EvMailbox.lean ====
section
/-! DEFINITION. The commands of the debug mailbox (R333 to R335, R338). Each event executes the oldest command of the ring when
it is of its kind; a command that cannot be done is answered with KIND 2. -/

namespace Sys2Proof.Machine

/-! ### The command ring (R333, R334) -/

/-- A command: its eight words. -/
abbrev Cmd := List DWord

def Cmd.w (c : Cmd) (i : Nat) : DWord := List.getD c i 0
def Cmd.op (c : Cmd) : Nat := wfld (c.w 0) 0 8
def Cmd.ctx (c : Cmd) : Nat := wfld (c.w 0) 8 6
def Cmd.core (c : Cmd) : Nat := wfld (c.w 0) 14 8
def Cmd.slot (c : Cmd) : Nat := wfld (c.w 0) 22 7
def Cmd.token (c : Cmd) : Nat := wfld (c.w 0) 32 32
/-- ARG0 of a read or a write: class, index and lane. -/
def Cmd.cls (c : Cmd) : Nat := wfld (c.w 1) 0 4
def Cmd.idx (c : Cmd) : Nat := wfld (c.w 1) 8 8
def Cmd.lane (c : Cmd) : Nat := wfld (c.w 1) 16 6

/-- The oldest command of the ring; none when the ring is empty, or while the status ring is full (R333). -/
def cmdNext (s : State) : Option Cmd :=
  let h := (ctlR s mbox).toNat % 64
  let t := (ctlR s (mbox + 0x08)).toNat % 64
  if h = t || stFull s || !s.stPending.isEmpty then none
  else some ((List.range 8).map fun i => ctlR s (mbox + 0x1000 + 64 * t + 8 * i))

/-- The command is refused whatever the state: an unknown OP, or a nonzero RSVD word (R334). -/
def cmdBad (c : Cmd) : Bool :=
  c.op == 0 || decide (c.op > 8) || (List.range 4).any fun i => c.w (i + 4) != 0

/-- Answers a command about no path: KIND, the command's names and its TOKEN. -/
def cmdPost (s : State) (c : Cmd) (kind : Nat) : State :=
  stPost (cmdDone s) (stW0 kind c.ctx c.core c.slot c.token) 0 0 0 0 0

def cmdRefuse (s : State) (c : Cmd) : State := cmdPost s c 2

/-- The path that stands for a group in a report: of the slot that would issue. -/
def nextSlot (g : Group) : Slot := heldSlot g (otherSlot g.last)

/-- Reports about a group. -/
def groupPost (s : State) (c : Cmd) (kind gslot : Nat) (g : Group) (v d : DWord) : State :=
  let sl := nextSlot g
  match g.path sl with
  | some p => stGroup s kind c.core gslot c.token g sl p.ii p.mask v d
  | none => stGroup s kind c.core gslot c.token g sl 0 0 v d

/-- The command's group: resident, of its context, and not ended. -/
def cmdGroup (s : State) (c : Cmd) : Option Group :=
  match getGroup s c.core c.slot with
  | some g => if g.ctx = c.ctx && !g.ended then some g else none
  | none => none

/-- The group slots of the command's unit. -/
def cmdUnit (s : State) (c : Cmd) : Option (List Nat) :=
  match getUnit s c.core c.slot with
  | some u =>
    if u.ctx = c.ctx then
      some (((getCore s c.core).groups.filter fun kv => kv.2.unit == c.slot && !kv.2.ended).map (·.1))
    else none
  | none => none

/-- Runs a command when the oldest one has its OP. A command is a wake of its core (R343). -/
def command (op : Nat) (s : State) (f : Cmd → State → State) : Out :=
  match cmdNext s with
  | none => .next s
  | some c =>
    if cmdBad c || c.op != op then .next s
    else .next (f c (powerOn s c.core))

/-! ### Halt and resume (R335) -/

/-- Halts a group; one that halted now reports KIND 10. In the middle of a reversal the reverse trace goes back to the stack at once
(R130). -/
def haltOne (c : Cmd) (s : State) (gslot : Nat) : State :=
  match getGroup s c.core gslot with
  | some g =>
    if g.halted then s
    else
      let s := backAux 130 (modGroup s c.core gslot fun g =>
        { (if g.rev.isSome then returnTrace g else g) with halted := true }) c.core gslot
      groupPost s c 10 gslot g 0 0
  | none => s

/-- Resumes a group; a path that halted at its breakpoint passes it once (R336). -/
def resumeOne (c : Cmd) (s : State) (gslot : Nat) : State :=
  modGroup s c.core gslot fun g => { g with halted := false }

/-- HALT_GROUP. -/
def execHaltGroup (s : State) : Out :=
  command 1 s fun c s => match cmdGroup s c with
    | some _ => cmdPost (haltOne c s c.slot) c 1
    | none => cmdRefuse s c

/-- HALT_UNIT: every group of the unit. -/
def execHaltUnit (s : State) : Out :=
  command 2 s fun c s => match cmdUnit s c with
    | some gs => cmdPost (gs.foldl (haltOne c) s) c 1
    | none => cmdRefuse s c

/-- RESUME_GROUP. -/
def execResumeGroup (s : State) : Out :=
  command 3 s fun c s => match cmdGroup s c with
    | some _ => cmdPost (resumeOne c s c.slot) c 1
    | none => cmdRefuse s c

/-- RESUME_UNIT: every halted group of the unit. -/
def execResumeUnit (s : State) : Out :=
  command 4 s fun c s => match cmdUnit s c with
    | some gs => cmdPost (gs.foldl (resumeOne c) s) c 1
    | none => cmdRefuse s c

/-! ### Step and back-step (R335) -/

/-- The group is held for good: only a kill ends a D trap other than PAGE (R319). -/
def heldDead (g : Group) : Bool :=
  match g.held with
  | .driver page _ => !page
  | .none => false

/-- A slot that a step may issue: its group is halted and held by nothing else, and the slot's path does not wait. -/
def stepOk (g : Group) (sl : Slot) : Bool :=
  g.halted && g.held == .none && g.rev.isNone && g.colop.isNone && !((g.cth || g.uih) && g.hSlot != sl) &&
    match g.path sl with
    | some p => !p.wait
    | none => false

/-- STEP: the slot may issue one instruction; the command is done when that has issued or trapped (see `noteStep`). -/
def execStep (s : State) : Out :=
  command 5 s fun c s => match cmdGroup s c with
    | some g =>
      let sl : Slot := if (c.w 1).getLsbD 0 then .b else .a
      if g.step.isSome then s
      else if !stepOk g sl then cmdRefuse s c
      else
        let s := match g.path sl with
          | some p => (watchHalt s c.core c.slot g sl p).getD s
          | none => s
        modGroup s c.core c.slot fun g => { g with step := some (sl, c.token) }
    | none => cmdRefuse s c

/-- The pending trace is pushed when it fits below HLIM (R101, R127). -/
def traceFits (g : Group) : Bool := g.ptrace.isEmpty || decide (g.hsp.toNat + 16 ≤ g.hlim.toNat)

/-- BACK_STEP: one reverse step of a halted group (R130, R335). The pending trace is pushed first, as before a REV, when it fits (R127;
DESIGN CHOICE, assumption 73). At a HORIZON the group stands as it was, and no handler runs. -/
def execBackStep (s : State) : Out :=
  command 6 s fun c s => match cmdGroup s c with
    | some g =>
      if !feature s 0 || g.spec.isSome || g.rev.isSome || !g.halted || heldDead g || g.colop.isSome || !g.counting then
        cmdRefuse s c
      else if g.held != .none || (getCore s c.core).quiesced then s
      else match revTry (if g.recording && traceFits g then modGroup s c.core c.slot flushTrace else s) c.core c.slot with
        | .error .wait => s
        | .error (.trap code i2 i3) =>
          if code == tHORIZON then groupPost (cmdDone s) c 7 c.slot g 0 0
          else revTrap s c.core c.slot (nextSlot g) code i2 i3
        | .ok (s, _) =>
          let s := revEnd s c.core c.slot
          match getGroup s c.core c.slot with
          | some g => groupPost (cmdDone s) c 6 c.slot g 0 0
          | none => s
    | none => cmdRefuse s c

/-! ### Reads and writes (R334, R335) -/

/-- A guard slot's state from its code. -/
def guardOf (n : Nat) : GState :=
  match n % 4 with
  | 0 => .free
  | 1 => .pending
  | 2 => .true
  | _ => .false

/-- What a read finds; none where the class has no such item. A queue value and live bits are indexed by age, and a
divergence entry's eight words by lane (R35). -/
def mboxGet (s : State) (g : Group) (c : Cmd) : Option DWord :=
  let i := c.idx
  let l := c.lane
  match c.cls with
  | 0 => if i < 64 ∧ l < g.w then some (zx (g.nreg i l)) else none
  | 1 => if 1 ≤ i ∧ i ≤ 16 ∧ l < g.w then some (zx (g.qval i l)) else none
  | 2 => if i < 128 then some (g.kreg i) else none
  | 3 => if srdOk (BitVec.ofNat 8 i) then some (specialRead s (BitVec.ofNat 8 i) g) else none
  | 4 => some (dw (guardWord g))
  | 5 => if 1 ≤ i ∧ i ≤ 16 then some (g.qlive i) else none
  | 6 => match g.stack[i]? with
    | some e => if l < 8 then some (dw (natOf (((entryBytes e).drop (4 * l)).take 4))) else none
    | none => none
  | _ => none

/-- The group and the state as a read finds them: a read of HSP comes after the push of the pending trace (R127); none when that does
not fit below HLIM. -/
def mboxSees (s : State) (c : Cmd) (g : Group) : Option (State × Group) :=
  if c.cls = 3 ∧ c.idx = 6 ∧ g.recording then
    if traceFits g then
      let s := backAux 130 (modGroup s c.core c.slot flushTrace) c.core c.slot
      (getGroup s c.core c.slot).map fun g => (s, g)
    else none
  else some (s, g)

/-- MAILBOX_READ: acts on a halted group; the value stands in w4. -/
def execMailboxRead (s : State) : Out :=
  command 7 s fun c s => match cmdGroup s c with
    | some g =>
      match (if g.halted then mboxSees s c g else none) with
      | none => cmdRefuse s c
      | some (s', g') =>
        match mboxGet s' g' c with
        | some v => groupPost (cmdDone s') c 1 c.slot g' v 0
        | none => cmdRefuse s c
    | none => cmdRefuse s c

/-- A write of the guard word: with REC 1 it pushes a HORIZON record, behind the pending trace (R101, R335). -/
def guardWrite (g : Group) (v : DWord) : Group :=
  let g := if g.recb then histPush (flushTrace g) g.lastIc kHORIZON [] else g
  (List.range 8).foldl (fun g i => g.setGuard i (guardOf (wfld v (2 * i) 2))) g

/-- The records of a write of the guard word have no room below HLIM. -/
def guardFull (g : Group) : Bool :=
  g.recb && decide (g.hsp.toNat + 8 * (1 + (if g.ptrace.isEmpty then 0 else 2)) > g.hlim.toNat)

/-- What a write does; none where it is refused. A special register is written as SWR writes it (R66). -/
def mboxSet (s : State) (c : Cmd) (g : Group) (v : DWord) : Option State :=
  let i := c.idx
  let l := c.lane
  let put (f : Group → Group) : Option State := some (modGroup s c.core c.slot f)
  match c.cls with
  | 0 => if i < 64 ∧ l < g.w then put fun g => g.setN i l (v.setWidth 32) else none
  | 1 => if 1 ≤ i ∧ i ≤ 16 ∧ l < g.w then put fun g => g.setQ i l (v.setWidth 32) else none
  | 2 => if i < 128 then put fun g => g.setK i v else none
  | 3 =>
    let n := BitVec.ofNat 8 i
    if swrOk n && !(n == 0x04 && g.hsp != g.hbase) && !swrBadValue g n v then
      some (modGroup (counterWrite s n g.ctx v) c.core c.slot (specialWrite s n v)) else none
  | 4 => if guardFull g then none else 
    some (backAux 130 (syncQueues (modGroup s c.core c.slot fun g => guardWrite g v) c.core c.slot) c.core c.slot)
  | _ => none

/-- MAILBOX_WRITE: acts on a halted group. -/
def execMailboxWrite (s : State) : Out :=
  command 8 s fun c s => match cmdGroup s c with
    | some g =>
      match (if g.halted then mboxSet s c g (c.w 2) else none) with
      | some s => groupPost (cmdDone s) c 1 c.slot g 0 0
      | none => cmdRefuse s c
    | none => cmdRefuse s c

/-- MAILBOX_REFUSED: a command with an unknown OP or a nonzero RSVD word is refused. -/
def execMailboxRefused (s : State) : Out :=
  match cmdNext s with
  | some c => .next (if cmdBad c then cmdRefuse s c else s)
  | none => .next s

end Sys2Proof.Machine
end

