-- ==== Sys2Proof/Machine/Float.lean ====
section
/-! DEFINITION. The floating-point instructions (R149 to R156, R355, R378 to R383). -/

namespace Sys2Proof.Machine

/-- A vector FIRSTNAN falls due: it is delivered before the group's next issue (R154, R155). -/
def firstNan (c : Cx) (made : Mask) (g : Group) : Group :=
  if c.g.fctl = 1 && made != 0 && g.pend.isNone then
    { g with pend := some { code := tFIRSTNAN, slot := c.slot, ret := .next, rii := c.p.ii + 1,
                            i0 := info0 c.p.ii tFIRSTNAN, i1 := c.p.mask, i2 := 0, i3 := made } }
  else g

/-- The flags of every active lane, and FIRSTNAN (R70). -/
def fPost (r : Cx → Nat → FRes) (c : Cx) (g : Group) : Group :=
  let g := g.flag ((lanes c.p.mask).foldl (fun f l => f ||| (r c l).fl) 0)
  firstNan c (c.p.mask &&& maskOf fun l => (r c l).made) g

/-- A floating-point lane instruction. -/
def floatOp (s : State) (gd : Guard) (us : List Src) (d : Dst) (r : Cx → Nat → FRes) : Out :=
  laneOp s gd (u32 us) d false (fun c l => dw (r c l).v) (fPost r)

/-- An FP32 operand, read under .ftz (R150). -/
def f32In (ftz : Bool) (c : Cx) (us : List Src) (i l : Nat) : FVal := fIn fp32 ftz (opnd32 c (u32 us) i l).toNat

/-- FADD (R378, R379). -/
def execFadd (g : Guard) (rm : Rm) (ftz : Bool) (d : Dst) (a b : Src) (s : State) : Out :=
  floatOp s g [a, b] d fun c l => fAdd fp32 rm ftz (f32In ftz c [a, b] 0 l) (f32In ftz c [a, b] 1 l)

/-- FSUB: a + (-b) (R378). -/
def execFsub (g : Guard) (rm : Rm) (ftz : Bool) (d : Dst) (a b : Src) (s : State) : Out :=
  floatOp s g [a, b] d fun c l => fAdd fp32 rm ftz (f32In ftz c [a, b] 0 l) (fNeg (f32In ftz c [a, b] 1 l))

/-- FMUL (R378). -/
def execFmul (g : Guard) (rm : Rm) (ftz : Bool) (d : Dst) (a b : Src) (s : State) : Out :=
  floatOp s g [a, b] d fun c l => fMul fp32 rm ftz (f32In ftz c [a, b] 0 l) (f32In ftz c [a, b] 1 l)

/-- FMA (R378). -/
def execFma (g : Guard) (rm : Rm) (ftz : Bool) (d : Dst) (a b e : Src) (s : State) : Out :=
  floatOp s g [a, b, e] d fun c l =>
    fFma fp32 rm ftz (f32In ftz c [a, b, e] 0 l) (f32In ftz c [a, b, e] 1 l) (f32In ftz c [a, b, e] 2 l)

/-- FMIN and FMAX of patterns. -/
def minMaxOp (s : State) (g : Guard) (ftz wantMax : Bool) (d : Dst) (a b : Src) : Out :=
  floatOp s g [a, b] d fun c l =>
    fMinMax fp32 wantMax (ftzPat fp32 ftz (opnd32 c (u32 [a, b]) 0 l).toNat)
      (ftzPat fp32 ftz (opnd32 c (u32 [a, b]) 1 l).toNat) (f32In ftz c [a, b] 0 l) (f32In ftz c [a, b] 1 l)

/-- FMIN (R151, R378). -/
def execFmin (g : Guard) (ftz : Bool) (d : Dst) (a b : Src) (s : State) : Out := minMaxOp s g ftz false d a b

/-- FMAX (R151, R378). -/
def execFmax (g : Guard) (ftz : Bool) (d : Dst) (a b : Src) (s : State) : Out := minMaxOp s g ftz true d a b

/-- FCMP: 1 or 0, and never a FIRSTNAN event (R381). -/
def execFcmp (g : Guard) (ftz : Bool) (cc : FCc) (d : Dst) (a b : Src) (s : State) : Out :=
  floatOp s g [a, b] d fun c l =>
    let r := fCmp cc (f32In ftz c [a, b] 0 l) (f32In ftz c [a, b] 1 l)
    { v := b2n r.1, fl := r.2 }

/-- FDIV (R378). -/
def execFdiv (g : Guard) (rm : Rm) (ftz : Bool) (d : Dst) (a b : Src) (s : State) : Out :=
  floatOp s g [a, b] d fun c l => fDiv fp32 rm ftz (f32In ftz c [a, b] 0 l) (f32In ftz c [a, b] 1 l)

/-- FSQRT (R378). -/
def execFsqrt (g : Guard) (rm : Rm) (ftz : Bool) (d : Dst) (a : Src) (s : State) : Out :=
  floatOp s g [a] d fun c l => fSqrt fp32 rm ftz (f32In ftz c [a] 0 l)

/-- FEXP2 (R378, R379). -/
def execFexp2 (g : Guard) (rm : Rm) (ftz : Bool) (d : Dst) (a : Src) (s : State) : Out :=
  floatOp s g [a] d fun c l => fExp2 fp32 rm ftz (f32In ftz c [a] 0 l)

/-- FLOG2 (R378, R379). -/
def execFlog2 (g : Guard) (rm : Rm) (ftz : Bool) (d : Dst) (a : Src) (s : State) : Out :=
  floatOp s g [a] d fun c l => fLog2 fp32 rm ftz (f32In ftz c [a] 0 l)

/-- FADDIN and FMULIN always record (R129, R382). -/
def floatIn (s : State) (g : Guard) (d : BitVec 6) (a : Src) (r : Cx → Nat → FRes) : Out :=
  inPlace1 s g d [a] true (fun _ => true) (fun c l => w32 (r c l).v) (fPost r)

/-- FADDIN (R382). -/
def execFaddin (g : Guard) (rm : Rm) (ftz : Bool) (d : BitVec 6) (a : Src) (s : State) : Out :=
  floatIn s g d a fun c l => fAdd fp32 rm ftz (fIn fp32 ftz (c.g.nreg d.toNat l).toNat) (f32In ftz c [a] 0 l)

/-- FMULIN (R382). -/
def execFmulin (g : Guard) (rm : Rm) (ftz : Bool) (d : BitVec 6) (a : Src) (s : State) : Out :=
  floatIn s g d a fun c l => fMul fp32 rm ftz (fIn fp32 ftz (c.g.nreg d.toNat l).toNat) (f32In ftz c [a] 0 l)

/-- Element `e` of an FMA2 operand (R153). -/
def halfIn (p : FParams) (ftz : Bool) (w : Word) (e : Nat) : FVal := fIn p ftz (fld w.toNat (16 * e) 16)

/-- FMA2: two 16-bit elements, each rounded by itself (R153, R383). -/
def execFma2 (g : Guard) (rm : Rm) (ftz f16 : Bool) (d : Dst) (a b e : Src) (s : State) : Out :=
  let p := if f16 then fp16 else fpB16
  floatOp s g [a, b, e] d fun c l =>
    let el (i : Nat) : FRes := fFma p rm ftz (halfIn p ftz (opnd32 c (u32 [a, b, e]) 0 l) i)
      (halfIn p ftz (opnd32 c (u32 [a, b, e]) 1 l) i) (halfIn p ftz (opnd32 c (u32 [a, b, e]) 2 l) i)
    { v := (el 0).v + (el 1).v * 2 ^ 16, fl := (el 0).fl ||| (el 1).fl, made := (el 0).made || (el 1).made }

/-- CVT of one value: the result extended to 64 bits, and its flags (R152, R355). -/
def cvtWord (rm : Rm) (sat ftz : Bool) (t src : Fmt) (v : Word) : DWord × Flags :=
  let x := fmtValue src v.toNat
  let x := match fmtParams src with
    | some p => ftzIn p ftz x
    | none => x
  let r := fmtConvert t rm sat ftz x
  let fl := r.2 ||| (if isSnan x then fINV else 0)
  (dw (if fmtSigned t then wrapNat 64 (sInt (8 * fmtBytes t) r.1) else r.1), fl)

/-- CVT (R355). It makes a NaN only from a NaN, so it raises no FIRSTNAN. -/
def execCvt (g : Guard) (rm : Rm) (sat ftz : Bool) (t src : Fmt) (d : Dst) (a : Src) (s : State) : Out :=
  laneOp s g (u32 [a]) d false (fun c l => (cvtWord rm sat ftz t src (opnd32 c (u32 [a]) 0 l)).1) fun c g =>
    g.flag ((lanes c.p.mask).foldl (fun f l => f ||| (cvtWord rm sat ftz t src (opnd32 c (u32 [a]) 0 l)).2) 0)

end Sys2Proof.Machine
end

