-- ==== Sys2Proof/Machine/Int.lean ====
section
/-! DEFINITION. The type-coded integer instructions (R144, R145, R350, R403, R404, R425). -/

namespace Sys2Proof.Machine

/-- A type-coded instruction of two operands with exact result `f` (R350). -/
def intOp2 (s : State) (g : Guard) (t : IType) (sat : Bool) (d : Dst) (a b : Src) (f : Int → Int → Int) : Out :=
  laneOp0 s g (u32 [a, b]) d fun c l =>
    itResult t sat (f (itVal t (opnd32 c (u32 [a, b]) 0 l)) (itVal t (opnd32 c (u32 [a, b]) 1 l)))

/-- ADD (R350). -/
def execAdd (g : Guard) (t : IType) (sat : Bool) (d : Dst) (a b : Src) (s : State) : Out :=
  intOp2 s g t sat d a b fun x y => x + y

/-- SUB (R425). -/
def execSub (g : Guard) (t : IType) (sat : Bool) (d : Dst) (a b : Src) (s : State) : Out :=
  intOp2 s g t sat d a b fun x y => x - y

/-- MUL (R403). -/
def execMul (g : Guard) (t : IType) (sat : Bool) (d : Dst) (a b : Src) (s : State) : Out :=
  intOp2 s g t sat d a b fun x y => x * y

/-- MULHI: bits [2w-1:w] of the exact product (R145, R403). -/
def execMulhi (g : Guard) (t : IType) (d : Dst) (a b : Src) (s : State) : Out :=
  intOp2 s g t false d a b fun x y => Int.fdiv (x * y) (2 ^ itWidth t : Nat)

/-- MAD (R403). -/
def execMad (g : Guard) (t : IType) (sat : Bool) (d : Dst) (a b e : Src) (s : State) : Out :=
  laneOp0 s g (u32 [a, b, e]) d fun c l =>
    itResult t sat (itVal t (opnd32 c (u32 [a, b, e]) 0 l) * itVal t (opnd32 c (u32 [a, b, e]) 1 l)
      + itVal t (opnd32 c (u32 [a, b, e]) 2 l))

/-- DIV (R145, R350). -/
def execDiv (g : Guard) (t : IType) (d : Dst) (a b : Src) (s : State) : Out :=
  intOp2 s g t false d a b fun x y => itDiv t x y

/-- REM (R145, R403). -/
def execRem (g : Guard) (t : IType) (d : Dst) (a b : Src) (s : State) : Out :=
  intOp2 s g t false d a b fun x y => itRem x y

/-- MIN (R403). -/
def execMin (g : Guard) (t : IType) (d : Dst) (a b : Src) (s : State) : Out :=
  intOp2 s g t false d a b fun x y => if x ≤ y then x else y

/-- MAX (R403). -/
def execMax (g : Guard) (t : IType) (d : Dst) (a b : Src) (s : State) : Out :=
  intOp2 s g t false d a b fun x y => if x ≤ y then y else x

/-- ABS (R145, R350). -/
def execAbs (g : Guard) (t : IType) (sat : Bool) (d : Dst) (a : Src) (s : State) : Out :=
  laneOp0 s g (u32 [a]) d fun c l => itResult t sat (itVal t (opnd32 c (u32 [a]) 0 l)).natAbs

/-- CMP: 1 or 0 as a .b32 value (R350). -/
def execCmp (g : Guard) (t : IType) (cc : Cc) (d : Dst) (a b : Src) (s : State) : Out :=
  laneOp0 s g (u32 [a, b]) d fun c l =>
    dw (b2n (ccHolds cc (itVal t (opnd32 c (u32 [a, b]) 0 l)) (itVal t (opnd32 c (u32 [a, b]) 1 l))))

/-- SEL (R425). -/
def execSel (g : Guard) (t : IType) (d : Dst) (a b e : Src) (s : State) : Out :=
  laneOp0 s g (u32 [a, b, e]) d fun c l =>
    itResult t false (itVal t (if opnd32 c (u32 [a, b, e]) 2 l != 0 then opnd32 c (u32 [a, b, e]) 0 l
      else opnd32 c (u32 [a, b, e]) 1 l))

/-- ADDI: the immediate keeps its low w bits (R350). -/
def execAddi (g : Guard) (t : IType) (sat : Bool) (d : Dst) (a : Src) (imm : BitVec 32) (s : State) : Out :=
  laneOp0 s g (u32 [a]) d fun c l => itResult t sat (itVal t (opnd32 c (u32 [a]) 0 l) + itVal t imm)

/-- A 64-bit destination of MOV (R404). -/
def movWide : Dst → Bool
  | .uni _ | .eng _ => true
  | _ => false

/-- MOV (R404). -/
def execMov (g : Guard) (t : IType) (d : Dst) (v : MovSrc) (s : State) : Out :=
  match v with
  | .imm x => laneOp0 s g [] d fun _ _ => itResult t false (itVal t x)
  | .src a =>
    laneOp0 s g (u32 [a]) d fun c l =>
      match a with
      | .k i => if movWide d && t == .b32 then c.g.kreg i.toNat
                else itResult t false (itVal t (opnd32 c (u32 [a]) 0 l))
      | _ => itResult t false (itVal t (opnd32 c (u32 [a]) 0 l))

end Sys2Proof.Machine
end

