-- ==== Sys2Proof/Machine/Lane.lean ====
section
/-! DEFINITION. The lane operations SHFL, VOTE, REDU and SCAN (R402, R408, R427 to R429). -/

namespace Sys2Proof.Machine

/-- The lane that SHFL reads for lane l, as an exact integer (R427). -/
def shflFrom (m : ShflMode) (l b : Nat) : Int :=
  match m with
  | .idx => b
  | .up => (l : Int) - b
  | .down => (l : Int) + b
  | .xor => (l ^^^ b : Nat)

/-- SHFL (R427). -/
def execShfl (g : Guard) (m : ShflMode) (d : Dst) (a b : Src) (s : State) : Out :=
  laneOp0 s g (u32 [a, b]) d fun c l =>
    let j := shflFrom m l (opnd32 c (u32 [a, b]) 1 l).toNat
    zx (opnd32 c (u32 [a, b]) 0 (if 0 ≤ j ∧ j < c.w ∧ c.p.mask.getLsbD j.toNat then j.toNat else l))

/-- The lanes whose predicate holds. -/
def votes (c : Cx) (a : Src) : Mask := c.p.mask &&& maskOf fun l => opnd32 c (u32 [a]) 0 l != 0

/-- VOTE (R429). -/
def execVote (g : Guard) (m : VoteMode) (d : Dst) (a : Src) (s : State) : Out :=
  match m with
  | .any => laneOp0 s g (u32 [a]) d fun c _ => dw (b2n (votes c a != 0))
  | .all => laneOp0 s g (u32 [a]) d fun c _ => dw (b2n (votes c a == c.p.mask))
  | .ballot => laneOp s g (u32 [a]) d true (fun c _ => votes c a) fun _ g => g

/-- One pairwise combination (R408). -/
def combine (op : RedOp) (x y : Nat) : FRes :=
  let sx := sInt 32 x
  let sy := sInt 32 y
  match op with
  | .add => { v := (x + y) % 2 ^ 32 }
  | .minS => { v := if sx ≤ sy then x else y }
  | .maxS => { v := if sx ≤ sy then y else x }
  | .minB => { v := min x y }
  | .maxB => { v := max x y }
  | .and => { v := x &&& y }
  | .or => { v := x ||| y }
  | .xor => { v := x ^^^ y }
  | .fadd => fAdd fp32 .rne false (unpack fp32 x) (unpack fp32 y)
  | .fmin => fMinMax fp32 false x y (unpack fp32 x) (unpack fp32 y)
  | .fmax => fMinMax fp32 true x y (unpack fp32 x) (unpack fp32 y)

def isFloatOp : RedOp → Bool
  | .fadd | .fmin | .fmax => true
  | _ => false

/-- A value alone: a NaN becomes canonical under a floating-point operation (R408). -/
def combineOne (op : RedOp) (x : Nat) : FRes :=
  if isFloatOp op then
    match unpack fp32 x with
    | .nan sg => { v := fp32.canon, fl := if sg then fINV else 0 }
    | _ => { v := x }
  else { v := x }

/-- Combines values two at a time, in an order that free values pick, until one is left (R166, R408). `made` counts
only for .fadd (R154). -/
def combineAll (op : RedOp) : Nat → Nat → List Nat → Flags → Bool → FRes
  | 0, _, vs, fl, made => { v := vs.headD 0, fl := fl, made := made }
  | k + 1, ctr, vs, fl, made =>
    if vs.length ≤ 1 then { v := vs.headD 0, fl := fl, made := made }
    else
      let i := Config.choice ctr % vs.length
      let x := vs.getD i 0
      let rest := dropAt vs i
      let j := Config.choice (ctr + 1) % rest.length
      let r := combine op x (rest.getD j 0)
      combineAll op k (ctr + 2) (r.v :: dropAt rest j) (fl ||| r.fl) (made || (op == .fadd && r.made))

/-- Integer operations combine in lane order: the order does not matter. -/
def reduce (op : RedOp) (ctr : Nat) (vs : List Nat) : FRes :=
  match vs with
  | [] => { v := 0 }
  | [x] => combineOne op x
  | x :: xs =>
    if isFloatOp op then combineAll op xs.length ctr vs 0 false
    else { v := xs.foldl (fun a b => (combine op a b).v) x }

/-- The identity of an operation (R428). -/
def redIdentity : RedOp → Nat
  | .add | .or | .xor | .maxB => 0
  | .minS => 0x7FFFFFFF
  | .maxS => 0x80000000
  | .minB | .and => 0xFFFFFFFF
  | .fadd => 0x80000000
  | .fmin => 0x7F800000
  | .fmax => 0xFF800000

/-- The values of the active lanes that satisfy a test, in lane order. -/
def laneVals (c : Cx) (a : Src) (p : Nat → Bool) : List Nat :=
  ((lanes c.p.mask).filter p).map fun l => (opnd32 c (u32 [a]) 0 l).toNat

/-- Uses up the free values that a lane operation took. -/
def useFree (n : Nat) : Out → Out
  | .next s => .next { s with free := s.free + n }
  | o => o

/-- REDU (R408). -/
def execRedu (g : Guard) (op : RedOp) (d : Dst) (a : Src) (s : State) : Out :=
  let r (c : Cx) : FRes := reduce op s.free (laneVals c a fun _ => true)
  useFree (if isFloatOp op then 128 else 0)
    (laneOp s g (u32 [a]) d false (fun c _ => dw (r c).v) (fPost fun c _ => r c))

/-- The prefix of lane l (R428). -/
def scanAt (op : RedOp) (excl : Bool) (a : Src) (free : Nat) (c : Cx) (l : Nat) : FRes :=
  if excl && l == lowLane c.p.mask then { v := redIdentity op }
  else reduce op (free + 128 * l) (laneVals c a fun i => decide (i < l) || (!excl && i == l))

/-- SCAN (R428). -/
def execScan (g : Guard) (op : RedOp) (excl : Bool) (d : Dst) (a : Src) (s : State) : Out :=
  useFree (if isFloatOp op then 8192 else 0)
    (laneOp s g (u32 [a]) d false (fun c l => dw (scanAt op excl a s.free c l).v) (fPost (scanAt op excl a s.free)))

end Sys2Proof.Machine
end

