-- ==== Sys2Proof/Machine/Return.lean ====
section
/-! DEFINITION. The return from a handler: UIRET (R185, R310, R323, R443). -/

namespace Sys2Proof.Machine

/-- The lanes of a load that a save took out of LQ: the failing lanes of the load that TRAPINFO0 names receive REPLVAL (R282,
R310, R330; DEDUCED, assumption 31). -/
def replSaved (s : State) (c : Cx) (g : Group) : State :=
  let ii : II := g.trapinfo0.extractLsb' 16 48
  let m : Mask := g.trapinfo1
  let s := setGroup s c.core c.gslot g
  let lane (kind : LKind) (d : Dst) (size : Nat) : State :=
    let e : LEntry :=
      { seq := 0, kind := kind, dst := .lanes d, size := size, mask := m, slot := c.slot, ii := ii, acq := false,
        lanes := (lanes m).map fun l => (l, l),
        pieces := (lanes m).map fun l =>
          { lane := l, off := 0, tgt := .dev, addr := 0, len := 2 ^ size, va := 0, tol := false,
            val := some (replBytes g.replval (2 ^ size)) } }
    modGroup s c.core c.gslot (writeLoad e d)
  match readLine s c.core g.ctx g.launch (iiLine ii) with
  | .ok b =>
    match decode (lineSlot b (iiSlot ii)) with
    | .ok (.ld _ sx mo d) => lane (.ld sx) d mo.size.toNat
    | .ok (.ldpoll _ mo d) => lane .poll d mo.size.toNat
    | .ok (.ldlo _ mo d) => lane .lo d mo.size.toNat
    | .ok (.xst _ mo d _) => lane .xst d mo.size.toNat
    | .ok (.atom _ op mo d _) => lane (.atom op) d mo.size.toNat
    | .ok (.tld _ sl _ _ _ _) =>
      match sliceOffs s { c with p := { c.p with mask := m } } sl with
      | some (t, offs) => offs.foldl (fun s x => scrWrites s c.core x.2 (replBytes g.replval (fmtBytes t.fmt))) s
      | none => s
    | _ => s
  | _ => s

/-- UIRET pushes HORIZON when REC is 1 after the return, but after a HISTFULL handler that changed no guard slot (R120). -/
def uiretHorizon (g : Group) : Group :=
  if g.recording && !(g.cthHist && !g.cthGset) then histPush (flushTrace g) g.lastIc kHORIZON [] else g

/-- The return is made when the records that it pushes, and those of the scheduler events that follow, fit below HLIM (R98, R101):
`g` is the group after it. -/
def uiretGo (s : State) (c : Cx) (g : Group) (k : State → State) : Out :=
  let need := ((eventsAll s c.core 260 g).hsp.toNat - c.g.hsp.toNat) / 8
  match histFault s c need with
  | some (code, ret, i2, i3) => trapAt c s code ret i2 i3
  | none =>
    if histBusy s c need then .next s
    else .next (settle (k (setGroup s c.core c.gslot { g with last := c.slot })) c.core c.gslot)

/-- A path that a UIRET has returned: what it had noted where it was interrupted stands, and the rest goes once no handler is left (R125,
R336). -/
def Path.back (p : Path) (inside : Bool) : Path :=
  if inside then p else { p with bp := p.bp.filter (· == p.ii), arr := p.arr.filter fun x => x.1 == p.ii }

/-- UIRET: returns from the innermost handler, and does not count in ic (R443, R323, R185). cf stays as the arrivals in the handler have
left it: a return to the saved point is no arrival, and no rule restores cf (R125; DEDUCED, assumption 21). -/
def execUiret (s : State) : Out :=
  match enter s with
  | none => .fault .noIssuingPath
  | some c =>
    if !issueOpen c.g then .next s
    else if c.g.cth then
      match c.g.ctret with
      | none => trapAt c s tILLEGAL .reissue 0 0
      | some r =>
        -- under a user-level interrupt the handler that goes on is that of its own slot (R185, R322)
        let g := uiretHorizon { c.g with cth := false, recb := c.g.recCt, ctret := none
                                         hSlot := if c.g.uih then c.g.uiSlot else c.g.hSlot }
        let g := g.setPath c.slot (some ((c.p.moved r.ii).back c.g.uih))
        match r.kind, g.uncorr with
        | .load, some (seq, m) => uiretGo s c (replLoad g seq m) fun s => finishLoad s c.core c.gslot seq
        | .load, none => uiretGo s c g fun s => replSaved s c ((getGroup s c.core c.gslot).getD g)
        | _, _ => uiretGo s c g id
    else if c.g.uih then
      let g := c.g
      let t : II := (g.uiretpc.setWidth 48)
      -- an unmarked rewritten return point is reported against the UIRET; other faults are the group's own fetch's (R79)
      if g.uirw && (match targetFault s c t with | some (code, _, _) => code == tILLEGAL | none => false) then
        trapAt c s tILLEGAL .reissue 0 0
      else
      let g := { g with uih := false, recb := g.recUi }
      let sl : Slot := if g.uiretpc.getLsbD 48 then .b else .a
      let g := g.setPath c.slot none
      let p := { (c.p.moved t).back false with fresh := c.g.uirw }
      let (g, p) := if g.uirw then arriveCf s c.core g g.lastIc g.recording p (dw c.p.ii.toNat) else (g, p)
      -- a rewritten SLOT bit moves the path only when that slot is free (assumption 23)
      let sl := if (g.path sl).isSome then c.slot else sl
      uiretGo s c { g.setPath sl (some p) with uirw := false } id
    else trapAt c s tILLEGAL .reissue 0 0

end Sys2Proof.Machine
end

