-- ==== Sys2Proof/Machine/Dispatch.lean ====
section
/-! DEFINITION. The meaning of each row of the opcode table: one arm per constructor, each one call of a meaning. -/

namespace Sys2Proof.Machine

def exec (i : Instr) (s : State) : Host.Outcome State Fault Refusal :=
  match i with
  | .nop g => Sys2Proof.Machine.execNop g s
  | .bra g c joff off => Sys2Proof.Machine.execBra g c joff off s
  | .jmp g t => Sys2Proof.Machine.execJmp g t s
  | .call g link t => Sys2Proof.Machine.execCall g link t s
  | .ret g k => Sys2Proof.Machine.execRet g k s
  | .loop g c off => Sys2Proof.Machine.execLoop g c off s
  | .exit g => Sys2Proof.Machine.execExit g s
  | .brk g imm => Sys2Proof.Machine.execBrk g imm s
  | .trap g imm => Sys2Proof.Machine.execTrap g imm s
  | .uiret => Sys2Proof.Machine.execUiret s
  | .addin g d a => Sys2Proof.Machine.execAddin g d a s
  | .subin g d a => Sys2Proof.Machine.execSubin g d a s
  | .xorin g d a => Sys2Proof.Machine.execXorin g d a s
  | .rolin g d a => Sys2Proof.Machine.execRolin g d a s
  | .negin g d => Sys2Proof.Machine.execNegin g d s
  | .notin g d => Sys2Proof.Machine.execNotin g d s
  | .mulin g d a => Sys2Proof.Machine.execMulin g d a s
  | .swap g d a => Sys2Proof.Machine.execSwap g d a s
  | .cswap g d a b => Sys2Proof.Machine.execCswap g d a b s
  | .mov g t d v => Sys2Proof.Machine.execMov g t d v s
  | .add g t sat d a b => Sys2Proof.Machine.execAdd g t sat d a b s
  | .sub g t sat d a b => Sys2Proof.Machine.execSub g t sat d a b s
  | .mul g t sat d a b => Sys2Proof.Machine.execMul g t sat d a b s
  | .mulhi g t d a b => Sys2Proof.Machine.execMulhi g t d a b s
  | .mad g t sat d a b c => Sys2Proof.Machine.execMad g t sat d a b c s
  | .div g t d a b => Sys2Proof.Machine.execDiv g t d a b s
  | .rem g t d a b => Sys2Proof.Machine.execRem g t d a b s
  | .min g t d a b => Sys2Proof.Machine.execMin g t d a b s
  | .max g t d a b => Sys2Proof.Machine.execMax g t d a b s
  | .abs g t sat d a => Sys2Proof.Machine.execAbs g t sat d a s
  | .cmp g t cc d a b => Sys2Proof.Machine.execCmp g t cc d a b s
  | .sel g t d a b c => Sys2Proof.Machine.execSel g t d a b c s
  | .addi g t sat d a imm => Sys2Proof.Machine.execAddi g t sat d a imm s
  | .and g d a b => Sys2Proof.Machine.execAnd g d a b s
  | .or g d a b => Sys2Proof.Machine.execOr g d a b s
  | .xor g d a b => Sys2Proof.Machine.execXor g d a b s
  | .andn g d a b => Sys2Proof.Machine.execAndn g d a b s
  | .shl g d a b => Sys2Proof.Machine.execShl g d a b s
  | .shr g d a b => Sys2Proof.Machine.execShr g d a b s
  | .sar g d a b => Sys2Proof.Machine.execSar g d a b s
  | .rol g d a b => Sys2Proof.Machine.execRol g d a b s
  | .clz g d a => Sys2Proof.Machine.execClz g d a s
  | .popc g d a => Sys2Proof.Machine.execPopc g d a s
  | .brev g d a => Sys2Proof.Machine.execBrev g d a s
  | .bfe g sx d a b => Sys2Proof.Machine.execBfe g sx d a b s
  | .bfi g d a b c => Sys2Proof.Machine.execBfi g d a b c s
  | .shfl g m d a b => Sys2Proof.Machine.execShfl g m d a b s
  | .vote g m d a => Sys2Proof.Machine.execVote g m d a s
  | .redu g op d a => Sys2Proof.Machine.execRedu g op d a s
  | .scan g op excl d a => Sys2Proof.Machine.execScan g op excl d a s
  | .fadd g rm ftz d a b => Sys2Proof.Machine.execFadd g rm ftz d a b s
  | .fsub g rm ftz d a b => Sys2Proof.Machine.execFsub g rm ftz d a b s
  | .fmul g rm ftz d a b => Sys2Proof.Machine.execFmul g rm ftz d a b s
  | .fma g rm ftz d a b c => Sys2Proof.Machine.execFma g rm ftz d a b c s
  | .fmin g ftz d a b => Sys2Proof.Machine.execFmin g ftz d a b s
  | .fmax g ftz d a b => Sys2Proof.Machine.execFmax g ftz d a b s
  | .fcmp g ftz cc d a b => Sys2Proof.Machine.execFcmp g ftz cc d a b s
  | .fdiv g rm ftz d a b => Sys2Proof.Machine.execFdiv g rm ftz d a b s
  | .faddin g rm ftz d a => Sys2Proof.Machine.execFaddin g rm ftz d a s
  | .fmulin g rm ftz d a => Sys2Proof.Machine.execFmulin g rm ftz d a s
  | .fsqrt g rm ftz d a => Sys2Proof.Machine.execFsqrt g rm ftz d a s
  | .fexp2 g rm ftz d a => Sys2Proof.Machine.execFexp2 g rm ftz d a s
  | .flog2 g rm ftz d a => Sys2Proof.Machine.execFlog2 g rm ftz d a s
  | .fma2 g rm ftz f16 d a b c => Sys2Proof.Machine.execFma2 g rm ftz f16 d a b c s
  | .cvt g rm sat ftz tgt src d a => Sys2Proof.Machine.execCvt g rm sat ftz tgt src d a s
  | .ld g sx m d => Sys2Proof.Machine.execLd g sx m d s
  | .st g m b => Sys2Proof.Machine.execSt g m b s
  | .xst g m d b => Sys2Proof.Machine.execXst g m d b s
  | .ldpoll g m d => Sys2Proof.Machine.execLdpoll g m d s
  | .pref g dome m => Sys2Proof.Machine.execPref g dome m s
  | .fence g k => Sys2Proof.Machine.execFence g k s
  | .atom g op m d b => Sys2Proof.Machine.execAtom g op m d b s
  | .ldlo g m d => Sys2Proof.Machine.execLdlo g m d s
  | .stlo g md m b => Sys2Proof.Machine.execStlo g md m b s
  | .pub g w => Sys2Proof.Machine.execPub g w s
  | .pin g d k imm => Sys2Proof.Machine.execPin g d k imm s
  | .unpin g d imm => Sys2Proof.Machine.execUnpin g d imm s
  | .discard g d k imm => Sys2Proof.Machine.execDiscard g d k imm s
  | .talloc g kind d a shape => Sys2Proof.Machine.execTalloc g kind d a shape s
  | .tfree g h => Sys2Proof.Machine.execTfree g h s
  | .tring g op d a th logs p => Sys2Proof.Machine.execTring g op d a th logs p s
  | .trd g sl d => Sys2Proof.Machine.execTrd g sl d s
  | .twr g sl a => Sys2Proof.Machine.execTwr g sl a s
  | .txch g sl d a => Sys2Proof.Machine.execTxch g sl d a s
  | .tcolop g op sl n fmt a => Sys2Proof.Machine.execTcolop g op sl n fmt a s
  | .tld g sl acq host kb a => Sys2Proof.Machine.execTld g sl acq host kb a s
  | .tst g sl rel host kb a => Sys2Proof.Machine.execTst g sl rel host kb a s
  | .binit g bar ka => Sys2Proof.Machine.execBinit g bar ka s
  | .barv g bar ka => Sys2Proof.Machine.execBarv g bar ka s
  | .bwait g d bar ka => Sys2Proof.Machine.execBwait g d bar ka s
  | .btest g d bar => Sys2Proof.Machine.execBtest g d bar s
  | .barm g bar ka => Sys2Proof.Machine.execBarm g bar ka s
  | .mxlds g sp src rbase fmt x => Sys2Proof.Machine.execMxlds g sp src rbase fmt x s
  | .mxswap g x => Sys2Proof.Machine.execMxswap g x s
  | .mxstr g z src dsel rbase rows kve kv fmt ka x => Sys2Proof.Machine.execMxstr g z src dsel rbase rows kve kv fmt ka x s
  | .mxdrain g sat src dsel rbase rows kve kv fmt ka x => Sys2Proof.Machine.execMxdrain g sat src dsel rbase rows kve kv fmt ka x s
  | .mxzero g dsel x => Sys2Proof.Machine.execMxzero g dsel x s
  | .enq g e a b => Sys2Proof.Machine.execEnq g e a b s
  | .deq g d e => Sys2Proof.Machine.execDeq g d e s
  | .cpstart g kve kv ka => Sys2Proof.Machine.execCpstart g kve kv ka s
  | .cpstat g d => Sys2Proof.Machine.execCpstat g d s
  | .vdsub g ka => Sys2Proof.Machine.execVdsub g ka s
  | .vdstat g d => Sys2Proof.Machine.execVdstat g d s
  | .qtick g e t => Sys2Proof.Machine.execQtick g e t s
  | .susp g w ka => Sys2Proof.Machine.execSusp g w ka s
  | .wake g all d th ka => Sys2Proof.Machine.execWake g all d th ka s
  | .binflush g d th => Sys2Proof.Machine.execBinflush g d th s
  | .binstat g silo d th => Sys2Proof.Machine.execBinstat g silo d th s
  | .mark g => Sys2Proof.Machine.execMark g s
  | .commit g off => Sys2Proof.Machine.execCommit g off s
  | .rev m t => Sys2Proof.Machine.execRev m t s
  | .spec slot off => Sys2Proof.Machine.execSpec slot off s
  | .gset g act slot => Sys2Proof.Machine.execGset g act slot s
  | .gtest g d slot => Sys2Proof.Machine.execGtest g d slot s
  | .hstat g d => Sys2Proof.Machine.execHstat g d s
  | .srd g d num => Sys2Proof.Machine.execSrd g d num s
  | .swr g num a => Sys2Proof.Machine.execSwr g num a s
  | .launch g d k q => Sys2Proof.Machine.execLaunch g d k q s
  | .cancel g d a imm => Sys2Proof.Machine.execCancel g d a imm s
  | .ccnt g d a imm => Sys2Proof.Machine.execCcnt g d a imm s
  | .dbgmb g a => Sys2Proof.Machine.execDbgmb g a s
  | .instructionLineFetch core gslot sl => Sys2Proof.Machine.execInstructionLineFetch core gslot sl s
  | .joinMerge core gslot => Sys2Proof.Machine.execJoinMerge core gslot s
  | .pathReload core gslot => Sys2Proof.Machine.execPathReload core gslot s
  | .reverseStep core gslot => Sys2Proof.Machine.execReverseStep core gslot s
  | .breakpointHalt core gslot sl => Sys2Proof.Machine.execBreakpointHalt core gslot sl s
  | .contextTrapDelivery core gslot sl => Sys2Proof.Machine.execContextTrapDelivery core gslot sl s
  | .uiDelivery core gslot sl => Sys2Proof.Machine.execUiDelivery core gslot sl s
  | .deferredArrive core idx => Sys2Proof.Machine.execDeferredArrive core idx s
  | .loadBind core gslot entry piece => Sys2Proof.Machine.execLoadBind core gslot entry piece s
  | .sqDrain core gslot => Sys2Proof.Machine.execSqDrain core gslot s
  | .pubPublish core gslot => Sys2Proof.Machine.execPubPublish core gslot s
  | .homeDeliver core home err => Sys2Proof.Machine.execHomeDeliver core home err s
  | .demotionApply core idx => Sys2Proof.Machine.execDemotionApply core idx s
  | .ackApply core idx => Sys2Proof.Machine.execAckApply core idx s
  | .publicationEvict w n => Sys2Proof.Machine.execPublicationEvict w n s
  | .hostAccess x => Sys2Proof.Machine.execHostAccess x s
  | .peerAccess peer x => Sys2Proof.Machine.execPeerAccess peer x s
  | .linkDown l => Sys2Proof.Machine.execLinkDown l s
  | .pageWalk w va => Sys2Proof.Machine.execPageWalk w va s
  | .launchPacketTake q => Sys2Proof.Machine.execLaunchPacketTake q s
  | .unitPlace cores => Sys2Proof.Machine.execUnitPlace cores s
  | .preempt core => Sys2Proof.Machine.execPreempt core s
  | .groupStart core gslot => Sys2Proof.Machine.execGroupStart core gslot s
  | .unitEnd core unit => Sys2Proof.Machine.execUnitEnd core unit s
  | .matrixTake core => Sys2Proof.Machine.execMatrixTake core s
  | .matrixRetire core => Sys2Proof.Machine.execMatrixRetire core s
  | .chainTake core chan => Sys2Proof.Machine.execChainTake core chan s
  | .copyRecordRead core chan => Sys2Proof.Machine.execCopyRecordRead core chan s
  | .copySectorWrite core chan n => Sys2Proof.Machine.execCopySectorWrite core chan n s
  | .copyRecordFinish core chan => Sys2Proof.Machine.execCopyRecordFinish core chan s
  | .ringSlotReserve core chan => Sys2Proof.Machine.execRingSlotReserve core chan s
  | .decodeTake dec => Sys2Proof.Machine.execDecodeTake dec s
  | .decodeErrorStop dec => Sys2Proof.Machine.execDecodeErrorStop dec s
  | .decodeFrameFinish dec => Sys2Proof.Machine.execDecodeFrameFinish dec s
  | .binResume core unit th => Sys2Proof.Machine.execBinResume core unit th s
  | .siloMove core unit th => Sys2Proof.Machine.execSiloMove core unit th s
  | .unitFrameFlush core unit => Sys2Proof.Machine.execUnitFrameFlush core unit s
  | .framesDiscarded core unit => Sys2Proof.Machine.execFramesDiscarded core unit s
  | .pinFill w => Sys2Proof.Machine.execPinFill w s
  | .referenceTick => Sys2Proof.Machine.execReferenceTick s
  | .pinFadeOut w => Sys2Proof.Machine.execPinFadeOut w s
  | .domeRetirement d => Sys2Proof.Machine.execDomeRetirement d s
  | .saveComplete core => Sys2Proof.Machine.execSaveComplete core s
  | .killDone => Sys2Proof.Machine.execKillDone s
  | .tlbInvalidationDone => Sys2Proof.Machine.execTlbInvalidationDone s
  | .firmwareLoadDone quadrant => Sys2Proof.Machine.execFirmwareLoadDone quadrant s
  | .retrainDone stack => Sys2Proof.Machine.execRetrainDone stack s
  | .corePowerGate core wake => Sys2Proof.Machine.execCorePowerGate core wake s
  | .powerLimitExceeded => Sys2Proof.Machine.execPowerLimitExceeded s
  | .thermalThrottle => Sys2Proof.Machine.execThermalThrottle s
  | .thermalShutdown => Sys2Proof.Machine.execThermalShutdown s
  | .functionReset => Sys2Proof.Machine.execFunctionReset s
  | .faccStageWrite n v => Sys2Proof.Machine.execFaccStageWrite n v s
  | .faccCommit v => Sys2Proof.Machine.execFaccCommit v s
  | .formatRangeCommit n v => Sys2Proof.Machine.execFormatRangeCommit n v s
  | .tlbinvWrite v => Sys2Proof.Machine.execTlbinvWrite v s
  | .interleaveRegionWrite n w v => Sys2Proof.Machine.execInterleaveRegionWrite n w v s
  | .launchQueueConfigWrite ctx q w v => Sys2Proof.Machine.execLaunchQueueConfigWrite ctx q w v s
  | .contextCreate ctx v => Sys2Proof.Machine.execContextCreate ctx v s
  | .savecmdSave v => Sys2Proof.Machine.execSavecmdSave v s
  | .savecmdRestore v => Sys2Proof.Machine.execSavecmdRestore v s
  | .replay v => Sys2Proof.Machine.execReplay v s
  | .killcmd v => Sys2Proof.Machine.execKillcmd v s
  | .retqWrite d => Sys2Proof.Machine.execRetqWrite d s
  | .qfwWrite quadrant v => Sys2Proof.Machine.execQfwWrite quadrant v s
  | .stkctlRetrain stack v => Sys2Proof.Machine.execStkctlRetrain stack v s
  | .coreIsolate core => Sys2Proof.Machine.execCoreIsolate core s
  | .coreUnisolate core => Sys2Proof.Machine.execCoreUnisolate core s
  | .haltGroup => Sys2Proof.Machine.execHaltGroup s
  | .haltUnit => Sys2Proof.Machine.execHaltUnit s
  | .resumeGroup => Sys2Proof.Machine.execResumeGroup s
  | .resumeUnit => Sys2Proof.Machine.execResumeUnit s
  | .step => Sys2Proof.Machine.execStep s
  | .backStep => Sys2Proof.Machine.execBackStep s
  | .mailboxRead => Sys2Proof.Machine.execMailboxRead s
  | .mailboxWrite => Sys2Proof.Machine.execMailboxWrite s
  | .mailboxRefused => Sys2Proof.Machine.execMailboxRefused s
  | .controlRegisterWrite off v => Sys2Proof.Machine.execControlRegisterWrite off v s
  | .clockNotLimited => Sys2Proof.Machine.execClockNotLimited s

end Sys2Proof.Machine
end

