-- ==== Sys2Proof/Machine/Turn.lean ====
section
/-! DEFINITION. Whose turn it is in a group of two paths (R32, R36, R37), and what a path does with its turn. -/

namespace Sys2Proof.Machine

/-- A path's boundary, then the instruction that it fetches. -/
def pathStep (core gslot : Nat) (sl : Slot) (s : State) : Out :=
  match boundary s core gslot sl with
  | .stop (.next t) => .next (noteStep core gslot sl s t)
  | .stop o => o
  | .tidy t => .next t
  | .run t i =>
    match exec i { t with cur := (core, gslot, sl) } with
    | .next t' => .next (noteStep core gslot sl s t')
    | o => o

/-- A path is ready: its turn would do more than wait. -/
def slotReady (s : State) (core gslot : Nat) (sl : Slot) : Bool :=
  match pathStep core gslot sl s with
  | .next t => groupActs core gslot s t
  | _ => false

/-- The path gives its turn to the other one when that is ready: a demoted path to one that is not, and else the path that issued
last (R32, R36, R37). -/
def yields (s : State) (core gslot : Nat) (sl : Slot) : Bool :=
  match getGroup s core gslot with
  | none => false
  | some g =>
    match g.path sl, g.path (otherSlot sl) with
    | some p, some q => (if p.dem = q.dem then g.last == sl else p.dem) && slotReady s core gslot (otherSlot sl)
    | _, _ => false

/-- The line that a path needs cannot be read. -/
def fetchFails (s : State) (core gslot : Nat) (sl : Slot) : Bool :=
  match pathReady s core gslot sl with
  | some (g, p) => !lineOk s core g p
  | none => false

/-- The traps, the interrupts and the breakpoints of a boundary, and the trap of a fetch, belong to the path that would issue there
(R155, R184, R336): such an event acts for no path that gives its turn away. -/
def eventMove (i : Instr) (s : State) : Out :=
  match i with
  | .uiDelivery core gslot sl | .contextTrapDelivery core gslot sl | .breakpointHalt core gslot sl =>
    if yields s core gslot sl then .next s else exec i s
  | .instructionLineFetch core gslot sl =>
    if fetchFails s core gslot sl && yields s core gslot sl then .next s else exec i s
  | _ => exec i s

/-- A path's turn. -/
def issueStep (core gslot : Nat) (sl : Slot) (s : State) : Out :=
  if yields s core gslot sl then .next s else pathStep core gslot sl s

end Sys2Proof.Machine
end

