-- ==== Sys2Proof/Machine/Step.lean ====
section
/-! DEFINITION. One step of the machine: the next move of the agenda, or of the free schedule, acts. -/

namespace Sys2Proof.Machine

/-- The move that comes next, and the state with it taken: `tick` and CLK advance by one (assumptions 2, 14). -/
def takeMove (s : State) : Move × State :=
  let s' := { s with tick := s.tick + 1, clk := s.clk + 1 }
  match s.agenda with
  | m :: ms => (m, { s' with agenda := ms })
  | [] => (Config.schedule s.tick, s')

/-- One step. -/
def step (s : State) : Host.Outcome State Fault Refusal :=
  match takeMove s with
  | (.issue core gslot sl, s) => issueStep core gslot sl s
  | (.event i, s) => if i.isEvent then eventMove i s else .next s

/-- The state in which the next step runs the instruction whose bits are `w`. -/
def State.withFetchWord (s : State) (nbits w : Nat) : State :=
  placeWord1 s (BitVec.ofNat 96 (w % 2 ^ nbits))

end Sys2Proof.Machine
end

