-- ==== Sys2Proof/Safety.lean ====
section
/-! DEFINITION. The terms in which claims speak of a run: when an issue passes every check of R98, what a destination
holds after it, and what the end of an issue leaves as it is. -/

namespace Sys2Proof.Machine

/-- The machine goes on. -/
def Runs (o : Out) : Prop := ∃ t, o = .next t

/-- Every memory of the machine is in canonical form. -/
def MemoriesOk (s : State) : Prop :=
  Memory.wf s.mem = true ∧ Memory.wf s.host = true ∧ ∀ p, Memory.wf (mget [] s.peers p) = true

/-- The path `c` stands at `State.cur`, and an instruction that says `f` of itself passes every check of R98 there: no
older acquire is open (R262), the lines that it looks at can be fetched (R341), it is legal, its target is marked and readable (R79),
its guard lets it run (R82, R386), it does not wait under a speculation (R137), the scoreboard holds none of its registers (R40), its
operands are legal values, the history has room (R98 step 5), its queue entries are live (R56), its status queues hold what it pops
(R62), and its engine queue has room (R61). -/
def Clears (s : State) (c : Cx) (gd : Guard) (f : Pre) : Prop :=
  enter s = some c ∧ issueOpen c.g = true ∧ preHeld s c f = false
  ∧ f.illegal = false ∧ ((usePops f.srcs).contains 5 = true → feature s 3 = true)
  ∧ busy c.g f.early = false
  ∧ preTarget s c f = none
  ∧ (∀ gs, gd = some gs → guardSeen c gs.toNat = .true ∨ (f.engine = true ∧ guardSeen c gs.toNat ≠ .free))
  ∧ f.guardTrap = none
  ∧ (isHorizon f = true → f.specPass = false → c.g.spec = none)
  ∧ busy c.g (preUses f) = false ∧ f.badValue = false
  ∧ histFault s c (histNeed s c f) = none ∧ histBusy s c (histNeed s c f) = false
  ∧ firstDead c f.srcs = none ∧ emptyPop c f.srcs = none
  ∧ (preEng f = true → c.g.e2.length < 16)

/-- A destination after a result `v` per active lane (R86, R100), from the group `g` to the group `g'`. Of all the group
holds, only what the destination names changes, and under REC the history. -/
def DstHolds (c : Cx) (d : Dst) (wide : Bool) (v : Nat → DWord) (g g' : Group) : Prop :=
  match d with
  | .recd i | .dead i =>
    (∀ l, l < 64 → g'.nreg i.toNat l = if c.p.mask.getLsbD l then (v l).setWidth 32 else g.nreg i.toNat l)
    ∧ (∀ l, l < 64 → wide = true →
        g'.nreg (i.toNat + 1) l = if c.p.mask.getLsbD l then (v l).extractLsb' 32 32 else g.nreg (i.toNat + 1) l)
    ∧ (∀ j l, l < 64 → j ≠ i.toNat → (wide = true → j ≠ i.toNat + 1) → g'.nreg j l = g.nreg j l)
    ∧ g' = { g with n := g'.n, hist := g'.hist, hsp := g'.hsp }
    ∧ ((∃ k, d = .dead k) → g' = { g with n := g'.n })
  | .uni i =>
    g'.kreg i.toNat = v (lowLane c.p.mask) ∧ (∀ j, j ≠ i.toNat → g'.kreg j = g.kreg j)
    ∧ g' = { g with k := g'.k, hist := g'.hist, hsp := g'.hsp }
  | .push =>
    (∀ l, l < 64 → c.p.mask.getLsbD l = false → ∀ a, 1 ≤ a → a ≤ 16 → g'.qval a l = g.qval a l)
    ∧ (∀ l, l < 64 → c.p.mask.getLsbD l = true →
        if wide then
          g'.qval 2 l = (v l).setWidth 32 ∧ g'.qval 1 l = (v l).extractLsb' 32 32
          ∧ ∀ a, 1 ≤ a → a ≤ 14 → g'.qval (a + 2) l = g.qval a l
        else g'.qval 1 l = (v l).setWidth 32 ∧ ∀ a, 1 ≤ a → a ≤ 15 → g'.qval (a + 1) l = g.qval a l)
    ∧ (∀ a, 1 ≤ a → a ≤ 16 → g'.qlive a = (g.qlive a &&& ~~~c.p.mask) |||
        (c.p.mask &&& (if wide then (if a ≤ 2 then c.p.mask else g.qlive (a - 2))
                       else (if a ≤ 1 then c.p.mask else g.qlive (a - 1)))))
    ∧ g' = { g with q := g'.q, live := g'.live, hist := g'.hist, hsp := g'.hsp }
  | .discard => g' = g
  | .eng _ =>
    g' = { g with e2 := g.e2 ++ [{ bits := BitVec.ofNat 128 ((v (lowLane c.p.mask)).toNat + 0xFFFFFFFF * 2 ^ 64),
                                   guard := none, enq := false, seq := g.seq }] }

/-- The group records no history, and its divergence stack and its history lie on the core, so that the end of an issue
touches nothing but the group itself. -/
def Plain (c : Cx) : Prop := c.g.recording = false ∧ c.g.stack.length ≤ 4 ∧ c.g.hist.length ≤ 256

/-- An issue whose effect gave `s1` ends (R98, R33, R123): a subqueue that it pushed to has its head evaluated and its share of the
engine (R208, R210), `ic` advances outside handlers (R120), and of the group only the places of its paths, the divergence stack and
the history change; while REC is 0, nothing else of the machine does, but that windows which its table walks hit reload their counters
(R303). -/
def Completes (c : Cx) (o : Out) (s1 : State) : Prop :=
  ∃ t g1 g', o = .next t ∧ getGroup (pushed c s1) c.core c.gslot = some g1 ∧ getGroup t c.core c.gslot = some g'
    ∧ g' = { g1 with
        pathA := g'.pathA, pathB := g'.pathB, stack := g'.stack, deep := g'.deep, waitCtr := g'.waitCtr
        ic := if c.g.counting then c.g.ic + 1 else g1.ic
        last := c.slot
        hist := g'.hist, hsp := g'.hsp, ptrace := g'.ptrace, ptraceIc := g'.ptraceIc }
    ∧ (Plain c → t = setGroup (issueHits c (pushed c s1)) c.core c.gslot g')

/-- A lane instruction that passes the checks of R98 reads its operands, with their final-use marks and pops (R52, R61),
writes the result `v` to its destination, changes nothing else, and completes. -/
def LaneResult (i : Instr) (gd : Guard) (us : List SrcUse) (d : Dst) (wide : Bool) (v : Cx → Nat → DWord) : Prop :=
  ∀ s c, Clears s c gd { srcs := us, dst := some (d, wide) } →
    ∃ g0 g1, getGroup (consume c us s) c.core c.gslot = some g0 ∧ DstHolds c d wide (v c) g0 g1
      ∧ Completes c (exec i s) (setGroup (consume c us s) c.core c.gslot g1)

/-- FSTAT and FIRSTNAN after a vector floating-point instruction with results `r` (R70, R154, R155): a flag is set when
its condition holds in an active lane; and where FCTL.NANTRAP is 1 and an active lane made a NaN, FIRSTNAN falls due, unless
an event is due already. -/
def FlagsHold (c : Cx) (r : Nat → FRes) (g g' : Group) : Prop :=
  (∀ i, i < 6 → g'.fstat.getLsbD i = (g.fstat.getLsbD i || (lanes c.p.mask).any fun l => (r l).fl.getLsbD i))
  ∧ g'.pend = (if c.g.fctl = 1 ∧ g.pend = none ∧ (∃ l, l ∈ lanes c.p.mask ∧ (r l).made = true) then
      some { code := tFIRSTNAN, slot := c.slot, ret := .next, rii := c.p.ii + 1, i0 := info0 c.p.ii tFIRSTNAN
             i1 := c.p.mask, i2 := 0, i3 := c.p.mask &&& maskOf fun l => (r l).made }
    else g.pend)
  ∧ g' = { g with fstat := g'.fstat, pend := g'.pend }

/-- A vector floating-point instruction that passes the checks of R98 writes the results `r` to its destination, sets their
flags, and completes; `n` free values are used up. -/
def FloatResult (i : Instr) (gd : Guard) (us : List SrcUse) (d : Dst) (n : Nat) (r : State → Cx → Nat → FRes) : Prop :=
  ∀ s c, Clears s c gd { srcs := us, dst := some (d, false) } →
    ∃ g0 g1 g2, getGroup (consume c us s) c.core c.gslot = some g0
      ∧ DstHolds c d false (fun l => dw (r s c l).v) g0 g1 ∧ FlagsHold c (r s c) g1 g2
      ∧ Completes c (exec i s)
          { setGroup (consume c us s) c.core c.gslot g2 with free := s.free + n }

/-- Values combined two at a time in some order, with the flags of every combination, and whether one of them made a NaN from
operands that held none (R166, R408). -/
inductive CombinesTo (op : RedOp) : List Nat → Nat → Flags → Bool → Prop where
  | one (x : Nat) : CombinesTo op [x] x 0 false
  | two (xs rest : List Nat) (x y v : Nat) (fl : Flags) (made : Bool) (h : List.Perm xs (x :: y :: rest))
      (k : CombinesTo op ((combine op x y).v :: rest) v fl made) :
      CombinesTo op xs v (fl ||| (combine op x y).fl) (made || (op == .fadd && (combine op x y).made))

/-- The result of a reduction over the values of lanes (R408): one value alone is itself, but for a NaN, which becomes
canonical under a floating-point operation; more are combined. -/
def ReducesTo (op : RedOp) (vs : List Nat) (r : FRes) : Prop :=
  match vs with
  | [] => r = { v := 0 }
  | [x] => r = combineOne op x
  | _ => if isFloatOp op then CombinesTo op vs r.v r.fl r.made
         else r = { v := vs.tail.foldl (fun a b => (combine op a b).v) (vs.headD 0) }

/-- Of a group, an update of named registers changes their values and, under REC, the history. -/
def RegsHold (v : Nat → Nat → Word) (g g' : Group) : Prop :=
  (∀ j l, l < 64 → g'.nreg j l = v j l) ∧ g' = { g with n := g'.n, hist := g'.hist, hsp := g'.hsp }

/-- The NREG records of the registers `ds`, in that order, lie on top of the history (R101, R123). -/
def Recorded (c : Cx) (ds : List (BitVec 6)) (g g' : Group) : Prop :=
  let h := if c.g.recording then ds.foldl (fun h d => histPush h c.ic kNREG (nregWords c.g d.toNat 1)) g else g
  g'.hist = h.hist ∧ g'.hsp = h.hsp

/-- An in-place update that passes the checks of R98 leaves the registers as `v` says, with the old values of the registers
`ds` recorded under REC, sets the flags of the results `r`, and completes. -/
def UpdateResult (i : Instr) (gd : Guard) (us : List SrcUse) (f : Cx → Pre) (ds : Cx → List (BitVec 6))
    (v : Cx → Nat → Nat → Word) (r : Cx → Nat → FRes) : Prop :=
  ∀ s c, Clears s c gd (f c) →
    ∃ g0 g1 g2, getGroup (consume c us s) c.core c.gslot = some g0
      ∧ RegsHold (v c) g0 g1 ∧ Recorded c (ds c) g0 g1 ∧ FlagsHold c (r c) g1 g2
      ∧ Completes c (exec i s) (setGroup (consume c us s) c.core c.gslot g2)

/-- A path that has come to its II by a move along `src` (R125): where the place is marked its cf becomes `src`; an arrival at a line
that cannot be read is kept until it can (assumption 20). -/
def arrivedAt (s : State) (c : Cx) (p : Path) (src : DWord) : Path :=
  match readLine s c.core c.g.ctx c.g.launch (iiLine p.ii) with
  | .ok b => if lineMark b (iiSlot p.ii) then { p with cf := src } else p
  | _ => { p with arr := some (p.ii, src, c.g.recording, c.g.ic) }

/-- An issue whose effect gave `s1` ends with its path at `t`, a move along `src` (R98, R125): the path keeps its lanes and arrives
there; the scheduler events that have fallen due follow (R33). -/
def Arrives (c : Cx) (o : Out) (s1 : State) (t : II) (src : DWord) : Prop :=
  Completes c o s1
  ∧ ∃ u g1 g', getGroup s1 c.core c.gslot = some g1 ∧ o = .next (settle u c.core c.gslot)
      ∧ getGroup u c.core c.gslot = some g' ∧ g'.stack = g1.stack
      ∧ g'.path (otherSlot c.slot) = g1.path (otherSlot c.slot)
      ∧ g'.path c.slot = some (arrivedAt s1 c (c.p.moved t) src)

/-- An issue divides its path (R33, R35, R123): the other slot's path is parked above the frames, a frame with the join `j` goes
on top, the lanes outside `taken` fall through in slot A, and the lanes of `taken` go to `t` in slot B. -/
def Divides (c : Cx) (o : Out) (s1 : State) (taken : Mask) (t : II) (j : Option II) : Prop :=
  ∃ u g1 g', getGroup s1 c.core c.gslot = some g1 ∧ o = .next (settle u c.core c.gslot)
    ∧ getGroup u c.core c.gslot = some g'
    ∧ g'.stack = g1.stack ++ (match g1.path (otherSlot c.slot) with | some q => [.path q] | none => [])
        ++ [.frame j c.p.mask (nextSerial g1) c.p.frame]
    ∧ g'.pathA = some (arrivedAt s1 c
        { c.p.moved (c.p.ii + 1) with mask := c.p.mask &&& ~~~taken, frame := some (nextSerial g1) } fallthru)
    ∧ g'.pathB = some (arrivedAt s1 c { c.p.moved t with mask := taken, frame := some (nextSerial g1) } (dw c.p.ii.toNat))
    ∧ g' = { g1 with
        pathA := g'.pathA, pathB := g'.pathB, stack := g'.stack, fserial := nextSerial g1 + 1, ic := c.g.ic + 1
        last := c.slot
        hist := g'.hist, hsp := g'.hsp, ptrace := g'.ptrace, ptraceIc := g'.ptraceIc }

/-- A guarded instruction that the guard alone decides about (R53, R82, R98): FREE traps with the slot in TRAPINFO2 and the return
point behind the instruction, PENDING waits and notes the slot that the path waits for, and FALSE completes with no effect, where the
history has room. The slot counts as a GSET left it while the path waited (R386). -/
def GuardDecides (i : Instr) (gs : BitVec 3) (f : State → Cx → Pre) : Prop :=
  ∀ s c, enter s = some c → issueOpen c.g = true → preHeld s c (f s c) = false → (f s c).illegal = false →
    ((usePops (f s c).srcs).contains 5 = true → feature s 3 = true) → busy c.g (f s c).early = false →
    preTarget s c (f s c) = none →
    (guardSeen c gs.toNat = .free → exec i s = .next (takeTrap s c.core c.gslot
        { code := 0x10, slot := c.slot, ret := .next, rii := c.p.ii + 1, i0 := dw (c.p.ii.toNat * 2 ^ 16 + 0x10)
          i1 := c.p.mask, i2 := dw gs.toNat, i3 := 0 }))
    ∧ (guardSeen c gs.toNat = .pending → (f s c).guardTrap = none → exec i s = .next (modGroup s c.core c.gslot fun g =>
        g.setPath c.slot (some { c.p with gwait := some (c.p.ii, gs.toNat, none) })))
    ∧ (guardSeen c gs.toNat = .false → (f s c).guardTrap = none →
        histFault s c (histNeed s c {}) = none → histBusy s c (histNeed s c {}) = false →
        Arrives c (exec i s) s (c.p.ii + 1) fallthru)

/-! ### Memory instructions -/

/-- A load of size 2^`size` that passes the checks of R98 (R262, R394 to R398): its lanes' accesses enter LQ unbound under the group's next
number, a queue destination takes its place, and nothing else of the group changes but the history under REC; an address that
fails its check traps with the lowest failing lane's address in TRAPINFO2 and the active lanes in TRAPINFO1 (R71, R318), and a
record of it names the lanes that fail (R98); an address whose walk reads a stack that retrains waits (R341). -/
def LoadIssues (i : Instr) (gd : Guard) (m : MemOp) (d : Dst) (kind : LKind) (size : Nat) (nd : Need) (align : Nat)
    (acq : Bool) (ok : State → Prop) : Prop :=
  ∀ s c, ok s →
    let us : List SrcUse := [(m.sa, false)]
    let lm : Mask := if d.isUni then 1 <<< lowLane c.p.mask else c.p.mask
    Clears s c gd (loadPre c us m.kb d size) →
    (∀ ps, accesses s c.g m.space (2 ^ size) align nd lm (memAddr c us m) = .ok ps →
      ∃ g0 g1, getGroup (consume c us s) c.core c.gslot = some g0
        ∧ g1.lq = g0.lq ++ [{ seq := g0.seq + 1, kind := kind, dst := .lanes d, size := size, mask := c.p.mask, slot := c.slot
                              ii := c.p.ii, acq := acq, lanes := (lanes lm).map fun l => (l, memAddr c us m l), pieces := ps }]
        ∧ g1 = { g0 with seq := g0.seq + 1, lq := g1.lq, q := g1.q, live := g1.live, hist := g1.hist, hsp := g1.hsp }
        ∧ (if d = .push then DstHolds c .push (decide (size = 3)) (fun _ => 0) g0 { g1 with seq := g0.seq, lq := g0.lq }
           else g1.q = g0.q ∧ g1.live = g0.live)
        ∧ Completes c (exec i s) (setGroup (consume c us s) c.core c.gslot g1))
    ∧ ∀ f, accesses s c.g m.space (2 ^ size) align nd lm (memAddr c us m) = .error f →
      exec i s = .next (if f.1 = tWAIT then s else takeTrap s c.core c.gslot
        { code := f.1, slot := c.slot, ret := .reissue, rii := c.p.ii, i0 := dw (c.p.ii.toNat * 2 ^ 16 + f.1.toNat)
          i1 := c.p.mask, i2 := dw f.2.2, i3 := 0 } f.2.1)

/-- An entry for SQ after an issue (R137, R262, R274): it enters SQ behind all others, or the hold queue under an open speculation;
the thirty-third in the hold queue waits. An STLO without .md keeps of its lanes to one cell the highest SEQ alone, and may
displace older ones. -/
def StoreEnters (s : State) (c : Cx) (o : Out) (us : List SrcUse) (kind : SKind) (rel : Bool) (size : Nat)
    (ps : List SPiece) : Prop :=
  (c.g.spec.isSome = true → c.g.hold.length ≥ 32 → o = .next s)
  ∧ (¬(c.g.spec.isSome = true ∧ c.g.hold.length ≥ 32) →
    ∃ g0 g1, getGroup (consume c us s) c.core c.gslot = some g0
      ∧ g1 = { g0 with seq := g0.seq + 1, sq := g1.sq, hold := g1.hold }
      ∧ (c.g.spec.isSome = true → g1.sq = g0.sq
          ∧ g1.hold = g0.hold ++ [{ seq := g0.seq + 1, kind := kind, rel := rel, size := size, mask := c.p.mask, pieces := ps
                                    wait := 0 }])
      ∧ (c.g.spec.isSome = false → g1.hold = g0.hold
          ∧ ∃ front ps', g1.sq = front ++ [{ seq := g0.seq + 1, kind := kind, rel := rel, size := size, mask := c.p.mask
                                             pieces := ps', wait := ps'.length }]
            ∧ front.map (fun e => (e.seq, e.kind, e.drained)) = g0.sq.map (fun e => (e.seq, e.kind, e.drained))
            ∧ (kind ≠ .stlo false → front = g0.sq ∧ ps' = ps)
            ∧ (kind = .stlo false → ps'.map (fun p => (p.lane, p.addr, p.data))
                = (keepHighest ps).map (fun p => (p.lane, p.addr, p.data))))
      ∧ Completes c o (setGroup (consume c us s) c.core c.gslot g1))

/-- An exchange after an issue (R262, R434, R356): its store part enters SQ and its load part LQ under one number, for the same
accesses; `data` gives a lane's operand bytes. -/
def ExchangeEnters (s : State) (c : Cx) (o : Out) (us : List SrcUse) (d : Dst) (size : Nat) (sk : SKind) (lk : LKind)
    (rel acq : Bool) (m : MemOp) (ps : List LPiece) (data : Nat → List Byte) : Prop :=
  ∃ g0 g1, getGroup (consume c us s) c.core c.gslot = some g0
    ∧ g1.lq = g0.lq ++ [{ seq := g0.seq + 1, kind := lk, dst := .lanes d, size := size, mask := c.p.mask, slot := c.slot
                          ii := c.p.ii, acq := acq, lanes := (lanes c.p.mask).map fun l => (l, memAddr c us m l)
                          pieces := ps }]
    ∧ (∃ e, g1.sq = g0.sq ++ [e] ∧ e.seq = g0.seq + 1 ∧ e.kind = sk ∧ e.rel = rel ∧ e.mask = c.p.mask
        ∧ e.wait = ps.length
        ∧ e.pieces.map (fun p => (p.lane, p.off, p.tgt, p.addr)) = ps.map (fun p => (p.lane, p.off, p.tgt, p.addr))
        ∧ e.pieces.map (·.data) = ps.map fun p => match sk with
            | .atom _ => data p.lane
            | _ => ((data p.lane).drop p.off).take p.len)
    ∧ g1 = { g0 with seq := g0.seq + 1, lq := g1.lq, sq := g1.sq, q := g1.q, live := g1.live, hist := g1.hist, hsp := g1.hsp }
    ∧ (if d = .push then
        DstHolds c .push (decide (size = 3)) (fun _ => 0) g0 { g1 with seq := g0.seq, lq := g0.lq, sq := g0.sq }
       else g1.q = g0.q ∧ g1.live = g0.live)
    ∧ Completes c o (setGroup (consume c us s) c.core c.gslot g1)

/-! ### Engine commands -/

/-- A matrix command (R93, R191 to R197, R201, R416, R417), in a launch that uses the engine, with its pair, barrier and range in
order: it pushes its entry to e0, or waits while e0 is full; a pair command outside a pair's leader traps with PAIR, and a
barrier at or above NBAR or a range outside its storage with BOUNDS. -/
def MatrixEnters (i : Instr) (gd : Guard) (x : MxCommon) (sp : Bool) (uses : List Use) (bounds : State → Cx → Option (Nat × Nat))
    (entry : Cx → MxFields) : Prop :=
  ∀ s c, mxUses s c.core c.g.unit = true → (x.pair = true → feature s 6 = true) → (sp = true → feature s 5 = true) →
    Clears s c gd (enginePre c gd { uses := uses }) →
    let tr (code : BitVec 8) (i2 : DWord) : Out := .next (takeTrap s c.core c.gslot (mkTrap code c.slot c.p .next i2 0))
    let pairBad : Prop := x.pair = true ∧ pairOk s c.core c.g.unit = false
    let barBad : Prop := mxBarBad s c.core c.g.unit x = true
    (pairBad → exec i s = tr 0x11 0)
    ∧ (¬pairBad → barBad → exec i s = tr 0x12 (dw (x.bar.toNat * 2 ^ 16)))
    ∧ (¬pairBad → ¬barBad →
      (∀ th n, bounds s c = some (th, n) → exec i s = tr 0x12 (dw (th + n % 1024 * 2 ^ 16)))
      ∧ (bounds s c = none → 16 ≤ c.g.e0.length → exec i s = .next s)
      ∧ (bounds s c = none → c.g.e0.length < 16 → Completes c (exec i s) (setGroup s c.core c.gslot
          { c.g with e0 := c.g.e0 ++ [{ bits := mxEntry (entry c) x gd, guard := gd, enq := false, seq := c.g.seq }]
                     mxseq := c.g.mxseq + 1 })))

end Sys2Proof.Machine
end

