-- ==== Sys2Proof/Certificates/Slice0/Obligations.lean ====
section
/-! DEFINITION. The statements for the provers: what the rules R<n> of the specification say of the words, of an issue, of each
row of the opcode table, and of the machine as a whole. -/

open Sys2Proof Sys2Proof.Machine

/-! ### Words and steps -/

/-- Decoding and encoding agree: a well-formed instruction is read back from its words with every operand (R81 to R97). -/
def Obligations.DecodeOfEncode : Prop := ∀ (i : Instr) (w : IWord), i.wf = true → encode i = some w → decode w = .ok i

/-- A word has one meaning: what the decoder reads is written back as the same word, and it is well formed (R87, R97). -/
def Obligations.EncodeOfDecode : Prop :=
  ∀ (w : IWord) (i : Instr), decode w = .ok i → encode i = some w ∧ i.wf = true
    ∧ ∀ j, j.wf = true → encode j = some w → j = i

/-- Words that the instruction reference writes out decode to the instructions that they stand for. -/
def Obligations.WordsOfTheReference : Prop :=
  decodeBytes (bytesOfWord 0x00000000000000004004200200005021) = .ok (.add none .b32 false .push (.q 2 true) (.n 4))
  ∧ decode 0x000000070000000040030085 = .ok (.unpin none (.recd 3) 7)
  ∧ decode 0x0000000000000001C01400C4 = .ok (.vdsub none 1)
  ∧ decode 0x0000000000000000400600C5 = .ok (.vdstat none (.recd 6))
  ∧ decode 0x9 = .ok .uiret

/-- A step runs the decoded instruction. An issue stands at the head of the agenda; the path may issue and has its turn (R32), its line
is read, its reserved bits are 0 and its mark is as the arrival needs, and its slot decodes to `i`. Either the group goes on with a
TCOLOP that executes (R440), or nothing has fallen due at the boundary: no watchpoint, trap, arrival, scheduler event or write-back, and
no cause or breakpoint, before which an instruction takes the GUARD that it waited for (R386). Then the step is `exec i` at that path,
in the state in which the line is cached, `tick` and CLK have advanced and the move is taken. A group under a debug step then halts
(`noteStep`). A step whose move is a step of the device itself or of its surroundings runs that row of the table, but the traps,
interrupts and breakpoints of a boundary wait for the path whose turn it is (R155, R184, R336); a move that names an instruction of a
group as an event does nothing. The agenda, `tick`, and that CLK advances by one a step, are the model's choice (assumptions 2, 14). -/
def Obligations.StepRunsTheDecodedInstruction : Prop :=
  (∀ (s : State) (core gslot : Nat) (sl : Slot) (ms : List Move) (u : State) (i : Instr) (g : Group) (p : Path)
    (b : BitVec 512),
    s.agenda = .issue core gslot sl :: ms →
    u = { s with tick := s.tick + 1, clk := s.clk + 1, agenda := ms } →
    yields u core gslot sl = false → pathReady u core gslot sl = some (g, p) →
    (g.colop.isSome = true ∨
      (g.colop = none ∧ watchHalt u core gslot g sl p = none ∧ g.pend = none ∧ lateSlot g = none
        ∧ eventOnce u core g = none ∧ backOnce u core gslot g = .none ∧ dueTrap g sl p = none
        ∧ (guardCleared p = true ∨
          (uiDue g = false ∧ (p.ii ∈ p.bp ∨ g.step.isSome = true ∨ atBreakpoint u g p = false))))) →
    lineHeld u core g.ctx g.launch (iiLine p.ii) = false →
    readLine u core g.ctx g.launch (iiLine p.ii) = .ok b → lineRsvdOk b = true →
    (p.fresh = true ∨ joinOf g.stack p = some p.ii → lineMark b (iiSlot p.ii) = true) →
    decode (lineSlot b (iiSlot p.ii)) = .ok i →
    (g.step = none →
      step s = exec i { cacheLine u core g.ctx g.launch (iiLine p.ii) b with cur := (core, gslot, sl) })
    ∧ ∀ t, exec i { cacheLine u core g.ctx g.launch (iiLine p.ii) b with cur := (core, gslot, sl) } = .next t →
      step s = .next (noteStep core gslot sl u t))
  ∧ (∀ (s u : State) (i : Instr) (ms : List Move), s.agenda = .event i :: ms →
    u = { s with tick := s.tick + 1, clk := s.clk + 1, agenda := ms } →
    (i.isEvent = false → step s = .next u)
    ∧ (∀ core gslot sl, i ∈ [Instr.uiDelivery core gslot sl, .contextTrapDelivery core gslot sl, .breakpointHalt core gslot sl] →
        step s = if yields u core gslot sl then .next u else exec i u)
    ∧ (∀ core gslot sl, i = .instructionLineFetch core gslot sl →
        step s = if fetchFails u core gslot sl ∧ yields u core gslot sl then .next u else exec i u)
    ∧ (i.isEvent = true → (∀ core gslot sl, i ∉ [Instr.uiDelivery core gslot sl, .contextTrapDelivery core gslot sl,
          .breakpointHalt core gslot sl, .instructionLineFetch core gslot sl]) → step s = exec i u))

/-! ### Reset and the machine's invariant -/

/-- Function reset as the machine comes up (R21, R299, R312, R340): no feature is accepted, interleave region 0 is live and
holds all of device memory, no context, launch, unit or group exists, no dome is retired, every dome caches its own buckets,
and every granule of device memory is at version 0 with no owner; the memories list nothing, in canonical form. The versions
and owners, the bucket map and the empty memories are the model's choice (assumptions 4, 5). -/
def Obligations.ResetLeaves : Prop :=
  (∀ i, feature State.reset i = false) ∧ State.reset.faccDone = false
  ∧ region State.reset 0 = some (0, 167772160) ∧ (∀ i, 1 ≤ i → i < 8 → region State.reset i = none)
  ∧ State.reset.ctxs = [] ∧ State.reset.launches = [] ∧ (∀ c, getCore State.reset c = {})
  ∧ (∀ k, mget (k / 4096) State.reset.buckets k = k / 4096)
  ∧ (∀ a, granOf State.reset a = { ver := 0, owner := none })
  ∧ State.reset.pins = [] ∧ State.reset.tlb = [] ∧ MemoriesOk State.reset

/-- Every step keeps the memories in canonical form: strictly rising addresses and no entry equal to what an unlisted address
reads as. The form is the model's (assumption 4). -/
def Obligations.MemoriesStayCanonical : Prop := ∀ s t, MemoriesOk s → step s = .next t → MemoriesOk t

/-! ### Lane instructions -/

/-- The operand forms of a source (R61, R83 to R85, R99): a queue age, a named register, a uniform register, the special selectors,
the small immediates, and the pops of the status queues, each of which reads the entry behind those that earlier fields of the
instruction pop; as 32 bits, and as 64 bits with the upper half in the next register or in the next newer entry. And a typed value
lies in its type's range and is the one congruent to the exact result (R144): the wrapped and the saturated result of every type. -/
def Obligations.OperandsAndTypes : Prop :=
  (∀ (c : Cx) (us : List SrcUse) (i l : Nat), l < 64 →
    (∀ age last, us[i]? = some (.q age last, false) → opnd32 c us i l = c.g.qval (age.toNat + 1) l)
    ∧ (∀ n, us[i]? = some (.n n, false) → opnd32 c us i l = c.g.nreg n.toNat l)
    ∧ (∀ k, us[i]? = some (.k k, false) → opnd32 c us i l = (c.g.kreg k.toNat).setWidth 32)
    ∧ (us[i]? = some (.sel 0x00, false) → opnd32 c us i l = 0)
    ∧ (us[i]? = some (.sel 0x01, false) → opnd32 c us i l = BitVec.ofNat 32 l)
    ∧ (us[i]? = some (.sel 0x02, false) → opnd32 c us i l = BitVec.ofNat 32 c.g.w)
    ∧ (us[i]? = some (.sel 0x03, false) → opnd32 c us i l = BitVec.ofNat 32 (lanes c.p.mask).length)
    ∧ (us[i]? = some (.sel 0x04, false) → opnd32 c us i l = c.p.cf.setWidth 32)
    ∧ (us[i]? = some (.sel 0x05, false) → opnd32 c us i l = c.g.ic.setWidth 32)
    ∧ (∀ v : BitVec 8, 0x40 ≤ v.toNat → v.toNat ≤ 0x7F → us[i]? = some (.sel v, false) →
        opnd32 c us i l = BitVec.ofInt 32 ((v.toNat : Int) - 0x60))
    ∧ (∀ age last, us[i]? = some (.q age last, true) →
        opnd c us i l = c.g.qval (age.toNat + 1) l ++ c.g.qval (age.toNat + 2) l)
    ∧ (∀ n, us[i]? = some (.n n, true) → opnd c us i l = c.g.nreg (n.toNat + 1) l ++ c.g.nreg n.toNat l)
    ∧ (∀ k w, us[i]? = some (.k k, w) → opnd c us i l = c.g.kreg k.toNat)
    ∧ (∀ w, us[i]? = some (.sel 0x00, w) → opnd c us i l = 0)
    ∧ (∀ (v : BitVec 8) w, 0x40 ≤ v.toNat → v.toNat ≤ 0x7F → us[i]? = some (.sel v, w) →
        opnd c us i l = BitVec.ofInt 64 ((v.toNat : Int) - 0x60))
    ∧ (∀ (v : BitVec 8) w e (q : List StatusEntry), (v, q) ∈ [((0x11 : BitVec 8), c.g.e1), (0x13, c.g.e3), (0x15, c.g.e5)] →
        us[i]? = some (.sel v, w) → q[((us.take i).filter fun u => u.1 == .sel v).length]? = some e →
        opnd c us i l = e.bits))
  ∧ (∀ (t : IType) (x : Int),
    ∃ y : Int, itResult t false x = BitVec.ofInt 64 y ∧ itMin t ≤ y ∧ y ≤ itMax t ∧ (y - x) % 2 ^ itWidth t = 0
      ∧ itResult t true x = BitVec.ofInt 64 (if x < itMin t then itMin t else if x > itMax t then itMax t else x))

/-- The type-coded integer instructions (R144, R145, R350, R403, R404, R425): each computes the exact result of its operands,
taken by their type, and writes it wrapped, or saturated under .sat, and extended by the type. DIV by 0 gives all ones and
REM by 0 the dividend (R145). That a 32-bit result pushed into an engine queue is extended to 64 bits by its type too is the model's
choice (assumption 54). -/
def Obligations.IntegerResults : Prop :=
  (∀ g t sat d a b, LaneResult (.add g t sat d a b) g (u32 [a, b]) d false fun c l =>
    itResult t sat (itVal t (opnd32 c (u32 [a, b]) 0 l) + itVal t (opnd32 c (u32 [a, b]) 1 l)))
  ∧ (∀ g t sat d a b, LaneResult (.sub g t sat d a b) g (u32 [a, b]) d false fun c l =>
    itResult t sat (itVal t (opnd32 c (u32 [a, b]) 0 l) - itVal t (opnd32 c (u32 [a, b]) 1 l)))
  ∧ (∀ g t sat d a b, LaneResult (.mul g t sat d a b) g (u32 [a, b]) d false fun c l =>
    itResult t sat (itVal t (opnd32 c (u32 [a, b]) 0 l) * itVal t (opnd32 c (u32 [a, b]) 1 l)))
  ∧ (∀ g t d a b, LaneResult (.mulhi g t d a b) g (u32 [a, b]) d false fun c l =>
    itResult t false ((itVal t (opnd32 c (u32 [a, b]) 0 l) * itVal t (opnd32 c (u32 [a, b]) 1 l)) / 2 ^ itWidth t))
  ∧ (∀ g t sat d a b e, LaneResult (.mad g t sat d a b e) g (u32 [a, b, e]) d false fun c l =>
    itResult t sat (itVal t (opnd32 c (u32 [a, b, e]) 0 l) * itVal t (opnd32 c (u32 [a, b, e]) 1 l)
      + itVal t (opnd32 c (u32 [a, b, e]) 2 l)))
  ∧ (∀ g t d a b, LaneResult (.div g t d a b) g (u32 [a, b]) d false fun c l =>
    if itVal t (opnd32 c (u32 [a, b]) 1 l) = 0 then itResult t false (-1)
    else itResult t false ((itVal t (opnd32 c (u32 [a, b]) 0 l)).tdiv (itVal t (opnd32 c (u32 [a, b]) 1 l))))
  ∧ (∀ g t d a b, LaneResult (.rem g t d a b) g (u32 [a, b]) d false fun c l =>
    if itVal t (opnd32 c (u32 [a, b]) 1 l) = 0 then itResult t false (itVal t (opnd32 c (u32 [a, b]) 0 l))
    else itResult t false ((itVal t (opnd32 c (u32 [a, b]) 0 l)).tmod (itVal t (opnd32 c (u32 [a, b]) 1 l))))
  ∧ (∀ g t d a b, LaneResult (.min g t d a b) g (u32 [a, b]) d false fun c l =>
    itResult t false (min (itVal t (opnd32 c (u32 [a, b]) 0 l)) (itVal t (opnd32 c (u32 [a, b]) 1 l))))
  ∧ (∀ g t d a b, LaneResult (.max g t d a b) g (u32 [a, b]) d false fun c l =>
    itResult t false (max (itVal t (opnd32 c (u32 [a, b]) 0 l)) (itVal t (opnd32 c (u32 [a, b]) 1 l))))
  ∧ (∀ g t sat d a, LaneResult (.abs g t sat d a) g (u32 [a]) d false fun c l =>
    itResult t sat ((itVal t (opnd32 c (u32 [a]) 0 l)).natAbs : Int))
  ∧ (∀ g t cc d a b, LaneResult (.cmp g t cc d a b) g (u32 [a, b]) d false fun c l =>
    if ccHolds cc (itVal t (opnd32 c (u32 [a, b]) 0 l)) (itVal t (opnd32 c (u32 [a, b]) 1 l)) then 1 else 0)
  ∧ (∀ g t d a b e, LaneResult (.sel g t d a b e) g (u32 [a, b, e]) d false fun c l =>
    itResult t false (itVal t (if opnd32 c (u32 [a, b, e]) 2 l = 0 then opnd32 c (u32 [a, b, e]) 1 l
      else opnd32 c (u32 [a, b, e]) 0 l)))
  ∧ (∀ g t sat d a imm, LaneResult (.addi g t sat d a imm) g (u32 [a]) d false fun c l =>
    itResult t sat (itVal t (opnd32 c (u32 [a]) 0 l) + itVal t imm))
  ∧ (∀ g t d v, LaneResult (.mov g t d (.imm v)) g [] d false fun _ _ => itResult t false (itVal t v))
  ∧ (∀ g t d a, (∀ k, a ≠ .k k) → LaneResult (.mov g t d (.src a)) g (u32 [a]) d false fun c l =>
    itResult t false (itVal t (opnd32 c (u32 [a]) 0 l)))
  ∧ (∀ g t d k, LaneResult (.mov g t d (.src (.k k))) g (u32 [.k k]) d false fun c _ =>
    if (t = .b32 ∧ ((∃ i, d = .uni i) ∨ ∃ e, d = .eng e)) then c.g.kreg k.toNat
    else itResult t false (itVal t ((c.g.kreg k.toNat).setWidth 32)))

/-- The bit operations (R351, R352, R405, R426). That the result of SAR or of a signed BFE pushed into an engine queue is extended to 64
bits by its sign is the model's choice (assumption 54). -/
def Obligations.BitResults : Prop :=
  (∀ g d a b, LaneResult (.and g d a b) g (u32 [a, b]) d false fun c l =>
    zx (opnd32 c (u32 [a, b]) 0 l &&& opnd32 c (u32 [a, b]) 1 l))
  ∧ (∀ g d a b, LaneResult (.or g d a b) g (u32 [a, b]) d false fun c l =>
    zx (opnd32 c (u32 [a, b]) 0 l ||| opnd32 c (u32 [a, b]) 1 l))
  ∧ (∀ g d a b, LaneResult (.xor g d a b) g (u32 [a, b]) d false fun c l =>
    zx (opnd32 c (u32 [a, b]) 0 l ^^^ opnd32 c (u32 [a, b]) 1 l))
  ∧ (∀ g d a b, LaneResult (.andn g d a b) g (u32 [a, b]) d false fun c l =>
    zx (opnd32 c (u32 [a, b]) 0 l &&& ~~~opnd32 c (u32 [a, b]) 1 l))
  ∧ (∀ g d a b, LaneResult (.shl g d a b) g (u32 [a, b]) d false fun c l =>
    zx (opnd32 c (u32 [a, b]) 0 l <<< (opnd32 c (u32 [a, b]) 1 l).toNat))
  ∧ (∀ g d a b, LaneResult (.shr g d a b) g (u32 [a, b]) d false fun c l =>
    zx (opnd32 c (u32 [a, b]) 0 l >>> (opnd32 c (u32 [a, b]) 1 l).toNat))
  ∧ (∀ g d a b, LaneResult (.sar g d a b) g (u32 [a, b]) d false fun c l =>
    ((opnd32 c (u32 [a, b]) 0 l).sshiftRight (opnd32 c (u32 [a, b]) 1 l).toNat).signExtend 64)
  ∧ (∀ g d a b, LaneResult (.rol g d a b) g (u32 [a, b]) d false fun c l =>
    zx ((opnd32 c (u32 [a, b]) 0 l).rotateLeft (opnd32 c (u32 [a, b]) 1 l).toNat))
  ∧ (∀ g d a, ∃ v : Cx → Nat → Word, LaneResult (.clz g d a) g (u32 [a]) d false (fun c l => zx (v c l))
      ∧ ∀ c l, (opnd32 c (u32 [a]) 0 l = 0 → v c l = 32)
        ∧ (opnd32 c (u32 [a]) 0 l ≠ 0 → ∃ k, k < 32 ∧ v c l = BitVec.ofNat 32 (31 - k)
            ∧ (opnd32 c (u32 [a]) 0 l).getLsbD k = true ∧ ∀ j, k < j → (opnd32 c (u32 [a]) 0 l).getLsbD j = false))
  ∧ (∀ g d a, LaneResult (.popc g d a) g (u32 [a]) d false fun c l =>
    dw ((List.range 32).filter fun i => (opnd32 c (u32 [a]) 0 l).getLsbD i).length)
  ∧ (∀ g d a, ∃ v : Cx → Nat → Word, LaneResult (.brev g d a) g (u32 [a]) d false (fun c l => zx (v c l))
      ∧ ∀ c l i, i < 32 → (v c l).getLsbD i = (opnd32 c (u32 [a]) 0 l).getLsbD (31 - i))
  ∧ (∀ g sx d a b, ∃ v : Cx → Nat → Word,
      LaneResult (.bfe g sx d a b) g (u32 [a, b]) d false (fun c l => if sx then (v c l).signExtend 64 else zx (v c l))
      ∧ ∀ c l i, i < 32 →
        let x := opnd32 c (u32 [a, b]) 0 l
        let pos := fieldPos (opnd32 c (u32 [a, b]) 1 l)
        let len := fieldLen (opnd32 c (u32 [a, b]) 1 l)
        (v c l).getLsbD i = if i < len then x.getLsbD (pos + i)
          else decide (sx = true) && decide (0 < len) && x.getLsbD (pos + len - 1))
  ∧ (∀ g d a b e, ∃ v : Cx → Nat → Word, LaneResult (.bfi g d a b e) g (u32 [a, b, e]) d false (fun c l => zx (v c l))
      ∧ ∀ c l i, i < 32 →
        let pos := fieldPos (opnd32 c (u32 [a, b, e]) 2 l)
        let len := fieldLen (opnd32 c (u32 [a, b, e]) 2 l)
        (v c l).getLsbD i = if pos ≤ i ∧ i < pos + len then (opnd32 c (u32 [a, b, e]) 1 l).getLsbD (i - pos)
          else (opnd32 c (u32 [a, b, e]) 0 l).getLsbD i)

/-! ### Floating point, lane exchange and reduction -/

/-- Vector floating point (R149 to R151, R378, R379, R381, R383): each instruction writes the correctly rounded result of its
operands, sets FSTAT from every active lane, and raises FIRSTNAN where it makes a NaN; FCMP makes none. -/
def Obligations.FloatResults : Prop :=
  (∀ g rm z d a b, FloatResult (.fadd g rm z d a b) g (u32 [a, b]) d 0 fun _ c l =>
    fAdd fp32 rm z (f32In z c [a, b] 0 l) (f32In z c [a, b] 1 l))
  ∧ (∀ g rm z d a b, FloatResult (.fsub g rm z d a b) g (u32 [a, b]) d 0 fun _ c l =>
    fAdd fp32 rm z (f32In z c [a, b] 0 l) (fNeg (f32In z c [a, b] 1 l)))
  ∧ (∀ g rm z d a b, FloatResult (.fmul g rm z d a b) g (u32 [a, b]) d 0 fun _ c l =>
    fMul fp32 rm z (f32In z c [a, b] 0 l) (f32In z c [a, b] 1 l))
  ∧ (∀ g rm z d a b e, FloatResult (.fma g rm z d a b e) g (u32 [a, b, e]) d 0 fun _ c l =>
    fFma fp32 rm z (f32In z c [a, b, e] 0 l) (f32In z c [a, b, e] 1 l) (f32In z c [a, b, e] 2 l))
  ∧ (∀ g rm z d a b, FloatResult (.fdiv g rm z d a b) g (u32 [a, b]) d 0 fun _ c l =>
    fDiv fp32 rm z (f32In z c [a, b] 0 l) (f32In z c [a, b] 1 l))
  ∧ (∀ g rm z d a, FloatResult (.fsqrt g rm z d a) g (u32 [a]) d 0 fun _ c l => fSqrt fp32 rm z (f32In z c [a] 0 l))
  ∧ (∀ g rm z d a, FloatResult (.fexp2 g rm z d a) g (u32 [a]) d 0 fun _ c l => fExp2 fp32 rm z (f32In z c [a] 0 l))
  ∧ (∀ g rm z d a, FloatResult (.flog2 g rm z d a) g (u32 [a]) d 0 fun _ c l => fLog2 fp32 rm z (f32In z c [a] 0 l))
  ∧ (∀ g z d a b, FloatResult (.fmin g z d a b) g (u32 [a, b]) d 0 fun _ c l =>
    fMinMax fp32 false (ftzPat fp32 z (opnd32 c (u32 [a, b]) 0 l).toNat) (ftzPat fp32 z (opnd32 c (u32 [a, b]) 1 l).toNat)
      (f32In z c [a, b] 0 l) (f32In z c [a, b] 1 l))
  ∧ (∀ g z d a b, FloatResult (.fmax g z d a b) g (u32 [a, b]) d 0 fun _ c l =>
    fMinMax fp32 true (ftzPat fp32 z (opnd32 c (u32 [a, b]) 0 l).toNat) (ftzPat fp32 z (opnd32 c (u32 [a, b]) 1 l).toNat)
      (f32In z c [a, b] 0 l) (f32In z c [a, b] 1 l))
  ∧ (∀ g z cc d a b, FloatResult (.fcmp g z cc d a b) g (u32 [a, b]) d 0 fun _ c l =>
    { v := if (fCmp cc (f32In z c [a, b] 0 l) (f32In z c [a, b] 1 l)).1 then 1 else 0
      fl := (fCmp cc (f32In z c [a, b] 0 l) (f32In z c [a, b] 1 l)).2 })
  ∧ (∀ g rm z h d a b e, FloatResult (.fma2 g rm z h d a b e) g (u32 [a, b, e]) d 0 fun _ c l =>
    let p := if h then fp16 else fpB16
    let el (k : Nat) : FRes := fFma p rm z (fIn p z ((opnd32 c (u32 [a, b, e]) 0 l).toNat / 2 ^ (16 * k) % 2 ^ 16))
      (fIn p z ((opnd32 c (u32 [a, b, e]) 1 l).toNat / 2 ^ (16 * k) % 2 ^ 16))
      (fIn p z ((opnd32 c (u32 [a, b, e]) 2 l).toNat / 2 ^ (16 * k) % 2 ^ 16))
    { v := (el 1).v * 2 ^ 16 + (el 0).v, fl := (el 0).fl ||| (el 1).fl, made := (el 0).made || (el 1).made })
  ∧ (∀ g rm sat z t src d a, FloatResult (.cvt g rm sat z t src d a) g (u32 [a]) d 0 fun _ c l =>
    { v := (cvtWord rm sat z t src (opnd32 c (u32 [a]) 0 l)).1.toNat
      fl := (cvtWord rm sat z t src (opnd32 c (u32 [a]) 0 l)).2 })

/-- The exact part of the arithmetic (R149): sums and products of finite values are exact before the one rounding, a zero sum of
opposite signs is +0, or -0 under RDN, and a zero sum of equal signs keeps its sign. -/
def Obligations.FloatExact : Prop :=
  ∀ (rm : Rm) (x y : Dy) (e : Int), e ≤ x.e → e ≤ y.e →
    dyScaled (dyAdd rm x y) e = dyScaled x e + dyScaled y e
    ∧ dyScaled (dyMul x y) (e + e) = dyScaled x e * dyScaled y e
    ∧ (dyScaled x e + dyScaled y e = 0 →
        (dyAdd rm x y).neg = if x.neg = y.neg then x.neg else decide (rm = .rdn))

/-- RoundTo of a finite value that is no zero and does not overflow gives a value of the format next to it, the one that the
rounding mode selects among all the format's finite values: RNE the nearest, with ties to an even pattern, RTZ towards zero, RDN
towards minus infinity, RUP towards plus infinity; and INX is set exactly when the result differs (R103). -/
def Obligations.RoundToSelects : Prop :=
  ∀ (f : FParams) (rm : Rm) (sat : Bool) (d : Dy) (v : Nat) (fl : Flags),
    f ∈ [fp32, fp16, fpB16, fpE4, fpE5, fpA80] → d.m ≠ 0 → d.sticky = false →
    roundFin f rm sat false d = (v, fl) → fl.getLsbD 2 = false → fl.getLsbD 5 = false →
    ∃ r, unpack f v = .fin r ∧ r.neg = d.neg
      ∧ ∀ (y : Nat) (w : Dy), y < 2 ^ f.width → unpack f y = .fin w →
        let e := min d.e (min r.e w.e)
        let D := dyScaled d e
        let R := dyScaled r e
        let W := dyScaled w e
        (fl.getLsbD 4 = true ↔ R ≠ D)
        ∧ match rm with
          | .rne => (R - D).natAbs ≤ (W - D).natAbs
              ∧ ((R - D).natAbs = (W - D).natAbs → W ≠ R → v % 2 = 0)
          | .rtz => R.natAbs ≤ D.natAbs ∧ (W.natAbs ≤ D.natAbs → W.natAbs ≤ R.natAbs)
          | .rdn => R ≤ D ∧ (W ≤ D → W ≤ R)
          | .rup => D ≤ R ∧ (D ≤ W → R ≤ W)

/-- SHFL and VOTE (R402, R427, R429): SHFL reads the value of the lane that its mode names, where that lane exists and is
active, and of its own lane otherwise; VOTE gives whether any and whether all active lanes hold a value other than 0, or the
64-bit ballot. -/
def Obligations.ExchangeResults : Prop :=
  (∀ g m d a b, LaneResult (.shfl g m d a b) g (u32 [a, b]) d false fun c l =>
    let n := (opnd32 c (u32 [a, b]) 1 l).toNat
    let j : Int := match m with
      | .idx => n
      | .up => (l : Int) - n
      | .down => (l : Int) + n
      | .xor => (l ^^^ n : Nat)
    zx (opnd32 c (u32 [a, b]) 0 (if 0 ≤ j ∧ j < c.w ∧ c.p.mask.getLsbD j.toNat then j.toNat else l)))
  ∧ (∀ g d a, LaneResult (.vote g .any d a) g (u32 [a]) d false fun c _ =>
    if (lanes c.p.mask).any fun l => opnd32 c (u32 [a]) 0 l != 0 then 1 else 0)
  ∧ (∀ g d a, LaneResult (.vote g .all d a) g (u32 [a]) d false fun c _ =>
    if (lanes c.p.mask).all fun l => opnd32 c (u32 [a]) 0 l != 0 then 1 else 0)
  ∧ (∀ g d a, ∃ v : Cx → DWord, LaneResult (.vote g .ballot d a) g (u32 [a]) d true (fun c _ => v c)
      ∧ ∀ c l, l < 64 → (v c).getLsbD l = (c.p.mask.getLsbD l && opnd32 c (u32 [a]) 0 l != 0))

/-- REDU and SCAN (R408, R428): integer operations combine the values of the active lanes; floating-point operations combine
them two at a time in an order that the machine picks, so the statement holds for every order (assumption 9); one value alone is
itself, and an exclusive prefix of no value is the identity. -/
def Obligations.ReductionResults : Prop :=
  (∀ g op d a, ∃ r : State → Cx → FRes,
      FloatResult (.redu g op d a) g (u32 [a]) d (if isFloatOp op then 128 else 0) (fun s c _ => r s c)
      ∧ ∀ s c, ReducesTo op (laneVals c a fun _ => true) (r s c))
  ∧ (∀ g op ex d a, ∃ r : State → Cx → Nat → FRes,
      FloatResult (.scan g op ex d a) g (u32 [a]) d (if isFloatOp op then 8192 else 0) r
      ∧ ∀ s c l, l ∈ lanes c.p.mask →
        (ex = true ∧ l = lowLane c.p.mask ∧ r s c l = { v := redIdentity op })
        ∨ (¬(ex = true ∧ l = lowLane c.p.mask)
            ∧ ReducesTo op (laneVals c a fun i => if ex then decide (i < l) else decide (i ≤ l)) (r s c l)))

/-! ### In-place updates -/

/-- The in-place updates (R353, R354, R382, R406, R407, R430): each changes its own registers in the active lanes and nothing else.
Under REC, an update whose source names the updated register, an even multiplier, FADDIN and FMULIN record the old value, DST's
before SA's; the rest records nothing. -/
def Obligations.InPlaceResults : Prop :=
  let may (d : BitVec 6) (us : List Src) (n : Nat) (c : Cx) : Pre :=
    { srcs := u32 us, uses := [.n d.toNat 1], words := if c.g.recording then n * recWords (c.w / 2) else 0 }
  let one (d : BitVec 6) (x : Cx → Nat → Word) (c : Cx) (j l : Nat) : Word :=
    if j = d.toNat ∧ c.p.mask.getLsbD l = true then x c l else c.g.nreg j l
  let selfd (d : BitVec 6) (a : Src) (_ : Cx) : List (BitVec 6) := if a = .n d then [d] else []
  let none' (_ : Cx) (_ : Nat) : FRes := { v := 0 }
  let upd (i : Instr) (g : Guard) (d : BitVec 6) (a : Src) (f : Word → Word → Word) : Prop :=
    UpdateResult i g (u32 [a]) (may d [a] (if a = .n d then 1 else 0)) (selfd d a)
      (one d fun c l => f (c.g.nreg d.toNat l) (opnd32 c (u32 [a]) 0 l)) none'
  let swap (d a : BitVec 6) (on : Cx → Nat → Bool) (c : Cx) (j l : Nat) : Word :=
    if c.p.mask.getLsbD l = true ∧ on c l = true then
      (if j = d.toNat then c.g.nreg a.toNat l else if j = a.toNat then c.g.nreg d.toNat l else c.g.nreg j l)
    else c.g.nreg j l
  (∀ g d a, upd (.addin g d a) g d a fun x y => x + y)
  ∧ (∀ g d a, upd (.subin g d a) g d a fun x y => x - y)
  ∧ (∀ g d a, upd (.xorin g d a) g d a fun x y => x ^^^ y)
  ∧ (∀ g d a, upd (.rolin g d a) g d a fun x y => x.rotateLeft y.toNat)
  ∧ (∀ g d, UpdateResult (.negin g d) g [] (may d [] 0) (fun _ => []) (one d fun c l => -(c.g.nreg d.toNat l)) none')
  ∧ (∀ g d, UpdateResult (.notin g d) g [] (may d [] 0) (fun _ => []) (one d fun c l => ~~~(c.g.nreg d.toNat l)) none')
  ∧ (∀ g d a, UpdateResult (.mulin g d a) g (u32 [a]) (may d [a] 1)
      (fun c => if a = .n d ∨ (∃ l, l ∈ lanes c.p.mask ∧ (opnd32 c (u32 [a]) 0 l).toNat % 2 = 0) then [d] else [])
      (one d fun c l => c.g.nreg d.toNat l * opnd32 c (u32 [a]) 0 l) none')
  ∧ (∀ g d a, UpdateResult (.swap g d a) g [] (fun _ => { uses := [.n d.toNat 1, .n a.toNat 1] }) (fun _ => [])
      (swap d a fun _ _ => true) none')
  ∧ (∀ g d a b, UpdateResult (.cswap g d a b) g (u32 [b])
      (fun c => { srcs := u32 [b], uses := [.n d.toNat 1, .n a.toNat 1]
                  words := if d ≠ a ∧ (b = .n d ∨ b = .n a) ∧ c.g.recording = true then 2 * recWords (c.w / 2) else 0 })
      (fun _ => if d ≠ a ∧ (b = .n d ∨ b = .n a) then [d, a] else [])
      (swap d a fun c l => opnd32 c (u32 [b]) 0 l != 0) none')
  ∧ (∀ g rm z d a,
      let r (c : Cx) (l : Nat) : FRes := fAdd fp32 rm z (fIn fp32 z (c.g.nreg d.toNat l).toNat) (f32In z c [a] 0 l)
      UpdateResult (.faddin g rm z d a) g (u32 [a]) (may d [a] 1) (fun _ => [d])
        (one d fun c l => BitVec.ofNat 32 (r c l).v) r)
  ∧ (∀ g rm z d a,
      let r (c : Cx) (l : Nat) : FRes := fMul fp32 rm z (fIn fp32 z (c.g.nreg d.toNat l).toNat) (f32In z c [a] 0 l)
      UpdateResult (.fmulin g rm z d a) g (u32 [a]) (may d [a] 1) (fun _ => [d])
        (one d fun c l => BitVec.ofNat 32 (r c l).v) r)

/-! ### Transfers and ends of paths -/

/-- The transfers of a whole path (R359, R360, R390, R400, R409, R410): NOP falls through, JMP, CALL and RET go to their target, CALL
leaves II + 1 in LINK, and a BRA or LOOP whose active lanes agree takes its one way. -/
def Obligations.TransferResults : Prop :=
  (∀ g s c, Clears s c g {} → Arrives c (exec (.nop g) s) s (c.p.ii + 1) fallthru)
  ∧ (∀ g off s c, Clears s c g { target := some (c.p.ii + off.signExtend 48) } →
      Arrives c (exec (.jmp g (.rel off)) s) s (c.p.ii + off.signExtend 48) (dw c.p.ii.toNat))
  ∧ (∀ g k off s c,
      Clears s c g { target := some ((c.g.kreg k.toNat).setWidth 48 + off.signExtend 48), early := [.k k.toNat] } →
      Arrives c (exec (.jmp g (.abs k off)) s) s ((c.g.kreg k.toNat).setWidth 48 + off.signExtend 48) (dw c.p.ii.toNat))
  ∧ (∀ g k s c, Clears s c g { target := some ((c.g.kreg k.toNat).setWidth 48), early := [.k k.toNat] } →
      Arrives c (exec (.ret g k) s) s ((c.g.kreg k.toNat).setWidth 48) (dw c.p.ii.toNat))
  ∧ (∀ g d t s c, Clears s c g { target := some (targetOf c t), early := targetUses t, dst := some (d, false) } →
      ∃ g1, DstHolds c d false (fun _ => dw (c.p.ii + 1).toNat) c.g g1
        ∧ Arrives c (exec (.call g d t) s) (setGroup s c.core c.gslot g1) (targetOf c t) (dw c.p.ii.toNat))
  ∧ (∀ g cnd (joff : BitVec 16) (off : BitVec 32) s c,
      Clears s c g { target := some (c.p.ii + off.signExtend 48), srcs := u32 (condSrcs cnd), divides := !(cnd == .al),
                      join := if joff = 0 then none else some (c.p.ii + joff.signExtend 48) } →
      let go (l : Nat) : Bool := condHolds cnd (opnd32 c (u32 (condSrcs cnd)) 0 l) (opnd32 c (u32 (condSrcs cnd)) 1 l)
      ((∀ l, l ∈ lanes c.p.mask → go l = true) →
        Arrives c (exec (.bra g cnd joff off) s) (consume c (u32 (condSrcs cnd)) s) (c.p.ii + off.signExtend 48)
          (dw c.p.ii.toNat))
      ∧ ((∀ l, l ∈ lanes c.p.mask → go l = false) → c.p.mask ≠ 0 →
        Arrives c (exec (.bra g cnd joff off) s) (consume c (u32 (condSrcs cnd)) s) (c.p.ii + 1) fallthru))
  ∧ (∀ g n (off : BitVec 32) s c,
      Clears s c g { target := some (c.p.ii + off.signExtend 48), uses := [.n n.toNat 1], divides := true,
                      join := some (c.p.ii + 1) } →
      ∃ g1, RegsHold (fun j l => if j = n.toNat ∧ c.p.mask.getLsbD l = true then c.g.nreg j l - 1 else c.g.nreg j l) c.g g1
        ∧ ((∀ l, l ∈ lanes c.p.mask → c.g.nreg n.toNat l ≠ 1) →
            Arrives c (exec (.loop g n off) s) (setGroup s c.core c.gslot g1) (c.p.ii + off.signExtend 48)
              (dw c.p.ii.toNat))
        ∧ ((∀ l, l ∈ lanes c.p.mask → c.g.nreg n.toNat l = 1) → c.p.mask ≠ 0 →
            Arrives c (exec (.loop g n off) s) (setGroup s c.core c.gslot g1) (c.p.ii + 1) fallthru))

/-- A BRA or LOOP whose active lanes differ divides the path (R33, R359, R400), where the group is in no handler and the
divergence stack has room; inside a handler it is ILLEGAL (R185, R323). The join of a BRA is II + JOFF, or none; that of a LOOP
is the instruction behind it. -/
def Obligations.DivisionResults : Prop :=
  (∀ g cnd (joff : BitVec 16) (off : BitVec 32) s c,
      Clears s c g { target := some (c.p.ii + off.signExtend 48), srcs := u32 (condSrcs cnd), divides := !(cnd == .al),
                      join := if joff = 0 then none else some (c.p.ii + joff.signExtend 48) } →
      let go (l : Nat) : Bool := condHolds cnd (opnd32 c (u32 (condSrcs cnd)) 0 l) (opnd32 c (u32 (condSrcs cnd)) 1 l)
      (∃ l, l ∈ lanes c.p.mask ∧ go l = true) → (∃ l, l ∈ lanes c.p.mask ∧ go l = false) →
      (c.g.counting = true → divideFault s c = none →
        Divides c (exec (.bra g cnd joff off) s) (consume c (u32 (condSrcs cnd)) s) (c.p.mask &&& maskOf go)
          (c.p.ii + off.signExtend 48) (if joff = 0 then none else some (c.p.ii + joff.signExtend 48)))
      ∧ (c.g.counting = false → exec (.bra g cnd joff off) s
          = .next (takeTrap s c.core c.gslot (mkTrap tILLEGAL c.slot c.p .reissue 0 0))))
  ∧ (∀ g n (off : BitVec 32) s c,
      Clears s c g { target := some (c.p.ii + off.signExtend 48), uses := [.n n.toNat 1], divides := true,
                      join := some (c.p.ii + 1) } →
      (∃ l, l ∈ lanes c.p.mask ∧ c.g.nreg n.toNat l ≠ 1) → (∃ l, l ∈ lanes c.p.mask ∧ c.g.nreg n.toNat l = 1) →
      (c.g.counting = true → divideFault s c = none →
        ∃ g1, RegsHold (fun j l => if j = n.toNat ∧ c.p.mask.getLsbD l = true then c.g.nreg j l - 1 else c.g.nreg j l) c.g g1
          ∧ Divides c (exec (.loop g n off) s) (setGroup s c.core c.gslot g1)
              (c.p.mask &&& maskOf fun l => c.g.nreg n.toNat l != 1) (c.p.ii + off.signExtend 48) (some (c.p.ii + 1)))
      ∧ (c.g.counting = false → exec (.loop g n off) s
          = .next (takeTrap s c.core c.gslot (mkTrap tILLEGAL c.slot c.p .reissue 0 0))))

/-- The scheduler events (R33, R36). A path that reaches its frame's marked join waits there. Two paths of one frame that both wait in
the slots merge, with slot A's place and cf, the lanes of both and the frame's parent, and the frame is gone. A parked path that waits
for lanes that have all left goes on alone. A demoted path that is to be exchanged trades places with the most recently parked path
that does not wait; and a reload puts that path into a free slot, slot A first. -/
def Obligations.SchedulerEvents : Prop :=
  (∀ s core g a, g.moves = true → g.pathA = some a → a.wait = false → joinOf g.stack a = some a.ii →
      isMarked s core g a.ii = true →
      ∃ g', eventOnce s core g = some g' ∧ g'.pathA = some { a with wait := true, since := g.waitCtr })
  ∧ (∀ g a b ser fpos j m par, g.pathA = some a → g.pathB = some b →
      a.wait = true → b.wait = true → a.frame = some ser → b.frame = some ser →
      findFrame g.stack ser = some (fpos, j, m, par) →
      ∃ g', mergeOnce g = some g'
        ∧ g'.pathA = some { a with mask := a.mask ||| b.mask, frame := par, wait := false } ∧ g'.pathB = none
        ∧ g'.stack = dropAt g.stack fpos
        ∧ g' = { g with pathA := g'.pathA, pathB := none, stack := g'.stack
                        hist := g'.hist, hsp := g'.hsp, ptrace := g'.ptrace })
  ∧ (∀ g i p ser fpos j par, g.stack[i]? = some (.path p) → p.wait = true → p.frame = some ser →
      findFrame g.stack ser = some (fpos, j, p.mask, par) → (∀ k q, k < i → g.stack[k]? = some (.path q) → q.wait = false) →
      aloneOnce g = some { g with stack := dropAt (setAt g.stack i (.path { p with frame := par, wait := false })) fpos })
  ∧ (∀ g sl p q pos, g.path sl = some p → p.exch = true → p.wait = false → topReady g.stack = some (pos, q) →
      (sl = .b → ∀ a, g.pathA = some a → a.exch = false ∨ a.wait = true) →
      ∃ g', exchangeOnce g = some g' ∧ g'.path sl = some q ∧ g'.path (otherSlot sl) = g.path (otherSlot sl)
        ∧ g'.stack = dropAt g.stack pos ++ [.path { p with dem := true, exch := false }])
  ∧ (∀ g pos p, g.pathA = none ∨ g.pathB = none → topReady g.stack = some (pos, p) →
      ∃ g', reloadOnce g = some g'
        ∧ (g.pathA = none → g'.pathA = some p ∧ g'.pathB = g.pathB)
        ∧ (∀ a, g.pathA = some a → g'.pathA = some a ∧ g'.pathB = some p)
        ∧ g'.stack = dropAt g.stack pos)

/-- The ends of paths and the software traps (R361, R362, R442): EXIT ends the active lanes, takes them out of every frame, and ends the
group with its last path; BRK is counted, reports itself and halts the group behind it; TRAP completes, and SWTRAP with the return point behind it is due at
once. -/
def Obligations.EndResults : Prop :=
  (∀ g s c, Clears s c g { horizon := true, leaves := some [endLanes c.slot c.p.mask (endHandler c.g)] } →
    c.g.counting = true → ∃ g1, Completes c (exec (.exit g) s) (setGroup s c.core c.gslot g1)
      ∧ g1.path c.slot = none
      ∧ (g1.ended = true ↔ c.g.ended = true
          ∨ (c.g.path (otherSlot c.slot) = none ∧ ∀ q, StackEntry.path q ∉ dropFrames (leaveFrames c.p.mask c.g.stack)))
      ∧ (g1.stack = if noPaths (c.g.setPath c.slot none) then [] else dropFrames (leaveFrames c.p.mask c.g.stack))
      ∧ g1.path (otherSlot c.slot) = c.g.path (otherSlot c.slot)
      ∧ g1 = { c.g with pathA := g1.pathA, pathB := g1.pathB, stack := g1.stack, ended := g1.ended, causes := g1.causes })
  ∧ (∀ g s c, Clears s c g { horizon := true, leaves := some [endLanes c.slot c.p.mask (endHandler c.g)] } →
    c.g.counting = false → ∃ t g', exec (.exit g) s = .next t ∧ getGroup t c.core c.gslot = some g' ∧ g'.cth = false ∧ g'.uih = false
      ∧ g'.recb = if c.g.uih then c.g.recUi else c.g.recCt)
  ∧ (∀ g v s c, Clears s c g {} →
    Arrives c (exec (.brk g v) s)
      (setGroup (stGroup s 9 c.core c.gslot 0 (if c.g.counting then { c.g with ic := c.g.ic + 1 } else c.g) c.slot c.p.ii
          c.p.mask (zx v) 0) c.core c.gslot
        { c.g with halted := true, trapinfo0 := dw (c.p.ii.toNat * 2 ^ 16 + 0x0E), trapinfo1 := c.p.mask
                   trapinfo2 := zx v, trapinfo3 := 0 })
      (c.p.ii + 1) fallthru)
  ∧ (∀ g v s c, Clears s c g {} →
    Arrives c (exec (.trap g v) s)
      (setGroup s c.core c.gslot
        { c.g with pend := some { code := 0x0F, slot := c.slot, ret := .next, rii := c.p.ii + 1
                                  i0 := dw (c.p.ii.toNat * 2 ^ 16 + 0x0F), i1 := c.p.mask, i2 := v.setWidth 64, i3 := 0 } })
      (c.p.ii + 1) fallthru)

/-! ### Traps, handlers and guards -/

/-- A trap for the driver (R318, R319, R320), and a context trap that finds no handler or a handler that runs already (R322):
the group is held with TRAPINFO0 to 3 set, and a KIND 1 record is posted with the code, the II, the context, core and slot,
the address of an ALIGN, PAGE, PROT or UNCORR trap, and the lanes that the trap is reported for; DBL marks the second kind. The
PAGE of an access that joins a walk already reported posts the record again or not (R295; which is the model's free choice, assumption
71). A record that is posted while none waits, the ring has room and its place can be written is written at FRBASE + 32 * FRHEAD, word
by word, and FRHEAD goes on modulo FRSIZE; without room it waits (R320). That the ring lies at device physical addresses is the
model's reading (assumption 12). -/
def Obligations.TrapToTheDriver : Prop :=
  (∀ (s : State) (core gslot : Nat) (g : Group) (t : TrapBlock) (m : Mask), getGroup s core gslot = some g →
    (trapIsC t.code = false ∨ mfind s.ctxs g.ctx = none ∨ (∃ x, mfind s.ctxs g.ctx = some x ∧ (x.cthii = 0 ∨ g.cth = true))) →
    let rec' : FaultRec :=
      { w0 := dw ((trapII t).toNat * 2 ^ 16 + 1 * 2 ^ 8 + t.code.toNat)
        w1 := dw (g.ctx * 2 ^ 58 + core * 2 ^ 50 + gslot * 2 ^ 43 + (if trapIsC t.code then 2 ^ 42 else 0))
        w2 := if t.code = 0x03 ∨ t.code = 0x04 ∨ t.code = 0x05 ∨ t.code = 0x09 then t.i2 else 0
        w3 := m }
    let u := setGroup s core gslot
      { g with trapinfo0 := t.i0, trapinfo1 := t.i1, trapinfo2 := t.i2, trapinfo3 := t.i3
               held := .driver (t.code == 0x04) (if trapIsC t.code then some t else none) }
    (t.code ≠ 0x04 → takeTrap s core gslot t m = postFault u rec')
    ∧ (t.code = 0x04 →
        (s.pageRecs.contains (core / 24, g.ctx, t.i2.toNat / 4096) = false → takeTrap s core gslot t m
            = postFault { u with pageRecs := s.pageRecs ++ [(core / 24, g.ctx, t.i2.toNat / 4096)] } rec')
        ∧ (s.pageRecs.contains (core / 24, g.ctx, t.i2.toNat / 4096) = true →
            takeTrap s core gslot t m = { u with free := s.free + 1 }
            ∨ takeTrap s core gslot t m = postFault { u with free := s.free + 1 } rec')))
  ∧ (∀ (s : State) (r : FaultRec), s.frPending = [] → s.rowsBad = [] → (ctlR s 0x0900).toNat % 32 = 0 →
    let n := (ctlR s 0x0908).toNat
    let h := (ctlR s 0x0910).toNat
    let a := (ctlR s 0x0900).toNat + 32 * h
    let used := (h + n - (ctlR s 0x0918).toNat % n) % n
    n ≠ 0 → h < n → homeHeld s (domeOf s a) = false →
    (used + (if wfld r.w0 8 8 = 4 then 1 else 2) < n →
      (∀ k w, [r.w0, r.w1, r.w2, r.w3][k]? = some w → natOf (memReads (postFault s r).mem (a + 8 * k) 8) = w.toNat)
      ∧ (∀ x, x < a ∨ a + 32 ≤ x → memRead (postFault s r).mem x = memRead s.mem x)
      ∧ ctlR (postFault s r) 0x0910 = dw ((h + 1) % n) ∧ (postFault s r).frPending = [])
    ∧ (¬used + (if wfld r.w0 8 8 = 4 then 1 else 2) < n → postFault s r = { s with frPending := [r] }))

/-- A context trap enters the handler in one step (R318, R322): CTRET keeps the slot, the return point and its kind, REC is saved and
cleared, the trapping path goes to CTHII with its lanes and cf, and FIRSTNAN clears FCTL.NANTRAP (R155). -/
def Obligations.TrapToTheHandler : Prop :=
  ∀ (s : State) (core gslot : Nat) (g : Group) (p : Path) (t : TrapBlock) (m : Mask) (x : Ctx),
    getGroup s core gslot = some g → trapIsC t.code = true → mfind s.ctxs g.ctx = some x → x.cthii ≠ 0 → g.cth = false →
    g.path t.slot = some p →
    ∃ g', takeTrap s core gslot t m = setGroup s core gslot g'
      ∧ g'.path t.slot = some { p with ii := x.cthii, wait := false, fresh := true, half := none, gwait := none }
      ∧ g'.path (otherSlot t.slot) = g.path (otherSlot t.slot)
      ∧ g' = { g with
          pathA := g'.pathA, pathB := g'.pathB
          trapinfo0 := t.i0, trapinfo1 := t.i1, trapinfo2 := t.i2, trapinfo3 := t.i3
          ctret := some { slot := t.slot, ii := t.rii, kind := t.ret }, recCt := g.recb, recb := false, cth := true
          cthGset := false, cthHist := t.code == 0x06, hSlot := t.slot, fctl := if t.code = 0x08 then 0 else g.fctl }

/-- UIRET (R120, R185, R310, R323, R443). From a context trap handler it restores REC, goes to the return point that CTRET names, and
under REC pushes the pending trace and HORIZON, but after a HISTFULL handler that has changed no guard slot; the load of an UNCORR
binds REPLVAL in its failing lanes and completes, when LQ still holds it. From a user interrupt handler it restores REC and goes to
UIRETPC. HSP goes up by 8 for each word pushed. Its records must fit below HLIM (R98, R101), else it is HISTFULL. It does not count in
ic; outside a handler it is ILLEGAL. That its own words and those of the scheduler events behind it are checked together, and a
granary page that cannot be written, are the model's readings (assumptions 34, 46). -/
def Obligations.HandlerReturn : Prop :=
  ∀ (s : State) (c : Cx), enter s = some c → issueOpen c.g = true →
    let need (g : Group) : Nat := ((eventsAll s c.core 260 g).hsp.toNat - c.g.hsp.toNat) / 8
    let fits (g : Group) : Prop := histFault s c (need g) = none ∧ histBusy s c (need g) = false
    let back (g : Group) (k : State → State) : Prop :=
      (fits g → exec .uiret s = .next (settle (k (setGroup s c.core c.gslot { g with last := c.slot })) c.core c.gslot))
      ∧ (need g ≠ 0 → c.g.hsp.toNat + 8 * need g > c.g.hlim.toNat → exec .uiret s
          = .next (takeTrap s c.core c.gslot (mkTrap 0x06 c.slot c.p .reissue (dw (8 * need g)) c.g.hsp)))
    let trace : List DWord := if c.g.ptrace = [] then [] else
      [dw (c.g.ptraceIc.toNat * 2 ^ 16 + 1 * 2 ^ 8 + 0x04),
        dw (((c.g.ptrace.zipIdx.map fun x => slotBit x.1 * 2 ^ x.2).foldl (· + ·) 0) * 2 ^ 6 + c.g.ptrace.length)]
    (∀ r, c.g.cth = true → c.g.ctret = some r →
      let hz : Bool := c.g.recCt && !c.g.uih && (!c.g.cthHist || c.g.cthGset)
      let words : List DWord := if hz then dw ((if c.g.ic = 0 then 0 else c.g.ic - 1).toNat * 2 ^ 16 + 0x08) :: trace else []
      let p : Path := c.p.moved r.ii
      let g' : Group :=
        { c.g with
          cth := false, recb := c.g.recCt, ctret := none, hSlot := if c.g.uih then c.g.uiSlot else c.g.hSlot
          hist := words ++ c.g.hist, hsp := c.g.hsp + dw (8 * words.length), ptrace := if hz then [] else c.g.ptrace }.setPath
            c.slot (some (if c.g.uih then p else
              { p with bp := p.bp.filter (· == p.ii), arr := p.arr.filter fun x => x.1 == p.ii }))
      (r.kind ≠ .load → back g' id)
      ∧ ∀ seq m, r.kind = .load → c.g.uncorr = some (seq, m) →
        back { g' with
            uncorr := none
            lq := c.g.lq.map fun e => if e.seq = seq then
                { e with pieces := e.pieces.map fun q => if m.getLsbD q.lane then
                    { q with bad := false
                             val := some (((replBytes c.g.replval (q.off + q.len)).drop q.off).take q.len) } else q }
              else e }
          fun t => finishLoad t c.core c.gslot seq)
    ∧ (c.g.cth = false → c.g.uih = true → c.g.uirw = false → c.g.uiretpc.getLsbD 48 = decide (c.slot = .b) →
      let p : Path := c.p.moved (c.g.uiretpc.setWidth 48)
      back ({ c.g with uih := false, recb := c.g.recUi }.setPath c.slot (some
        { p with bp := p.bp.filter (· == p.ii), arr := p.arr.filter fun x => x.1 == p.ii, fresh := false })) id)
    ∧ (c.g.cth = false → c.g.uih = false →
      exec .uiret s = .next (takeTrap s c.core c.gslot (mkTrap 0x01 c.slot c.p .reissue 0 0)))

/-- The guard decides first (R53, R82, R98), for instructions of the families that are no engine commands: lane instructions, transfers
and ends, memory, tiles, barriers, jobs, frames, history and special registers. -/
def Obligations.GuardsDecide : Prop :=
  (∀ gs t sat d a b, GuardDecides (.add (some gs) t sat d a b) gs fun _ _ => { srcs := u32 [a, b], dst := some (d, false) })
  ∧ (∀ gs rm z d a b e, GuardDecides (.fma (some gs) rm z d a b e) gs fun _ _ =>
      { srcs := u32 [a, b, e], dst := some (d, false) })
  ∧ (∀ gs op d a, GuardDecides (.redu (some gs) op d a) gs fun _ _ => { srcs := u32 [a], dst := some (d, false) })
  ∧ (∀ gs d a, GuardDecides (.addin (some gs) d a) gs fun _ _ => { srcs := u32 [a] })
  ∧ (∀ gs cnd j off, GuardDecides (.bra (some gs) cnd j off) gs fun _ c =>
      { target := some (c.p.ii + off.signExtend 48), srcs := u32 (condSrcs cnd) })
  ∧ (∀ gs t, GuardDecides (.jmp (some gs) t) gs fun _ c => { target := some (targetOf c t), early := targetUses t })
  ∧ (∀ gs, GuardDecides (.exit (some gs)) gs fun _ _ => { horizon := true })
  ∧ (∀ gs v, GuardDecides (.trap (some gs) v) gs fun _ _ => {})
  ∧ (∀ gs, GuardDecides (.mark (some gs)) gs fun s _ => { illegal := !feature s 0 })
  ∧ (∀ gs num a, GuardDecides (.swr (some gs) num a) gs fun _ c =>
      { srcs := [(a, true)], illegal := num == 0x04 && c.g.hsp != c.g.hbase })
  ∧ (∀ gs sx m d, GuardDecides (.ld (some gs) sx m d) gs fun _ _ => { srcs := [(m.sa, false)] })
  ∧ (∀ gs m b, GuardDecides (.st (some gs) m b) gs fun _ _ => { srcs := [(m.sa, false), (b, m.size.toNat == 3)] })
  ∧ (∀ gs op m d b, GuardDecides (.atom (some gs) op m d b) gs fun _ _ =>
      { srcs := [(m.sa, false), (b, m.size.toNat == 3 && op != .cas)] })
  ∧ (∀ gs k, GuardDecides (.fence (some gs) k) gs fun _ _ => {})
  ∧ (∀ gs sl d, GuardDecides (.trd (some gs) sl d) gs fun _ _ => { dst := some (d, false) })
  ∧ (∀ gs bar ka, GuardDecides (.barv (some gs) bar ka) gs fun _ _ => {})
  ∧ (∀ gs d k q, GuardDecides (.launch (some gs) d k q) gs fun _ _ => { dst := some (d, false) })
  ∧ (∀ gs w ka, GuardDecides (.susp (some gs) w ka) gs fun s c => { illegal := !c.g.counting || !feature s 1 })

/-- The checks of R98 behind the guard, in their order, as an ADD meets them: the scoreboard holds the issue (R40); HISTFULL with the
bytes needed and HSP (R98 step 5); STALE with the age less one (R56); and ORPHAN with the selector when the queue can fill no more
(R62). -/
def Obligations.IssueFaults : Prop :=
  ∀ (s : State) (c : Cx) (g : Guard) (t : IType) (sat : Bool) (d : Dst) (a b : Src),
    let f : Pre := { srcs := u32 [a, b], dst := some (d, false) }
    let tr (code : BitVec 8) (i2 i3 : DWord) : Out := .next (takeTrap s c.core c.gslot (mkTrap code c.slot c.p .reissue i2 i3))
    enter s = some c → issueOpen c.g = true → preHeld s c f = false →
    ((usePops f.srcs).contains 5 = true → feature s 3 = true) →
    (∀ gs, g = some gs → guardSeen c gs.toNat = .true) → (isHorizon f = true → c.g.spec = none) →
    (busy c.g (preUses f) = true → exec (.add g t sat d a b) s = .next s)
    ∧ (busy c.g (preUses f) = false →
        histNeed s c f ≠ 0 → c.g.hsp.toNat + 8 * histNeed s c f > c.g.hlim.toNat →
        exec (.add g t sat d a b) s = tr 0x06 (dw (8 * histNeed s c f)) c.g.hsp)
    ∧ (busy c.g (preUses f) = false → histFault s c (histNeed s c f) = none → histBusy s c (histNeed s c f) = false →
        (∀ age, firstDead c f.srcs = some age → exec (.add g t sat d a b) s = tr 0x02 (dw (age - 1)) 0)
        ∧ (∀ q, firstDead c f.srcs = none → emptyPop c f.srcs = some q →
            exec (.add g t sat d a b) s = if producing s c q then .next s else tr 0x0B (dw (0x10 + q)) 0))

/-! ### History, guards and special registers -/

/-- The records of a destination under REC (R100, R101, R122), for 32-bit and 64-bit results: a recorded register pushes NREG with the
old lanes of the registers that it names, a uniform register KREG with its old value, and each queue push QEVICT with the oldest entry
and its live bits, only where an active lane of that entry is live; the other destinations push nothing. A header holds the IC, the
payload's length and the kind. -/
def Obligations.HistoryRecords : Prop :=
  ∀ (c : Cx) (v : Nat → DWord) (g : Group), c.g.recording = true →
    let evict (live : Mask) (x : Nat → Word) : List DWord :=
      dw (c.g.ic.toNat * 2 ^ 16 + (g.w / 2 + 1) * 2 ^ 8 + 0x02) :: live :: (laneWords g.w x).reverse
    (∀ i, let h := writeDst c (.recd i) false v g
      h.hist = dw (c.g.ic.toNat * 2 ^ 16 + g.w / 2 * 2 ^ 8 + 0x01)
          :: ((laneWords g.w fun l => g.nreg i.toNat l).reverse ++ g.hist)
      ∧ h.hsp = g.hsp + dw (8 * (g.w / 2 + 1)))
    ∧ (∀ i, let h := writeDst c (.recd i) true v g
      h.hist = dw (c.g.ic.toNat * 2 ^ 16 + g.w * 2 ^ 8 + 0x01)
          :: ((laneWords g.w fun l => g.nreg (i.toNat + 1) l).reverse ++ (laneWords g.w fun l => g.nreg i.toNat l).reverse
                ++ g.hist)
      ∧ h.hsp = g.hsp + dw (8 * (g.w + 1)))
    ∧ (∀ i wide, let h := writeDst c (.uni i) wide v g
      h.hist = dw (c.g.ic.toNat * 2 ^ 16 + 1 * 2 ^ 8 + 0x0B) :: g.kreg i.toNat :: g.hist ∧ h.hsp = g.hsp + 16)
    ∧ (let h := writeDst c .push false v g
      (g.qlive 16 &&& c.p.mask = 0 → h.hist = g.hist ∧ h.hsp = g.hsp)
      ∧ (g.qlive 16 &&& c.p.mask ≠ 0 →
        h.hist = evict (g.qlive 16) (fun l => g.qval 16 l) ++ g.hist ∧ h.hsp = g.hsp + dw (8 * (g.w / 2 + 2))))
    ∧ (let h := writeDst c .push true v g
      let first := if g.qlive 16 &&& c.p.mask = 0 then [] else evict (g.qlive 16) fun l => g.qval 16 l
      let second := if g.qlive 15 &&& c.p.mask = 0 then [] else
        evict ((g.qlive 16 &&& ~~~c.p.mask) ||| (g.qlive 15 &&& c.p.mask)) fun l =>
          if c.p.mask.getLsbD l then g.qval 15 l else g.qval 16 l
      h.hist = second ++ first ++ g.hist ∧ h.hsp = g.hsp + dw (8 * (first.length + second.length)))
    ∧ (∀ i wide, (writeDst c (.dead i) wide v g).hist = g.hist)
    ∧ (∀ wide, (writeDst c .discard wide v g).hist = g.hist)

/-- The history instructions (R118, R120, R133, R136, R139, R373, R387, R389, R419, R431): MARK sets REC and pushes a MARK record outside
handlers; COMMIT empties the stack, so that nothing can be taken from it, and sets or clears REC; SPEC pushes SPECOPEN, sets REC and
opens the speculation; HSTAT pushes the pending trace and reads the words in use, and the top record's kind and IC; GTEST reads a
slot's state. Without feature 0 each of them but GTEST, and REV, is ILLEGAL (R22). That COMMIT's own records are checked on the emptied
stack is the model's reading (assumption 46). -/
def Obligations.HistoryInstructions : Prop :=
  (∀ g s c, Clears s c g { setsRec := true, flushes := true, words := 1 } → feature s 0 = true →
    (c.g.counting = false →
      Completes c (exec (.mark g) s) (setGroup s c.core c.gslot { c.g with recb := true }))
    ∧ (c.g.counting = true → ∃ t g' older newer, exec (.mark g) s = .next t ∧ getGroup t c.core c.gslot = some g'
        ∧ g'.recb = true ∧ g'.ic = c.g.ic + 1
        ∧ (c.g.hist.length ≤ 128 → c.g.ptrace.length ≤ 58 → c.g.stack = [] →
            g'.hist = newer ++ dw (c.g.ic.toNat * 2 ^ 16 + 0x09) :: older ++ c.g.hist
            ∧ newer.length ≤ 4 ∧ older.length ≤ 2)))
  ∧ (∀ g off s c, Clears s c g { commits := true } → feature s 0 = true → c.g.spec = none →
      let after := eventsAll s c.core 260 (finishG s (c.commit off) .fall false (commitTo off c.g))
      (after.hsp = c.g.hbase ∨ after.hsp.toNat ≤ c.g.hlim.toNat →
        ∃ t g', exec (.commit g off) s = .next t ∧ getGroup t c.core c.gslot = some g'
          ∧ g'.recb = !off ∧ (g'.ic = if c.g.counting then c.g.ic + 1 else c.g.ic)
          ∧ (c.g.stack = [] → off = true ∨ (c.g.path (otherSlot c.slot) = none ∧ isMarked s c.core c.g (c.p.ii + 1) = false) →
              g'.hist = [] ∧ g'.hsp = c.g.hbase ∧ g'.hbase = c.g.hbase ∧ g'.ptrace = []))
      ∧ (after.hsp ≠ c.g.hbase → after.hsp.toNat > c.g.hlim.toNat → exec (.commit g off) s
          = .next (takeTrap s c.core c.gslot (mkTrap 0x06 c.slot c.p .reissue (after.hsp - c.g.hbase) c.g.hsp))))
  ∧ (∀ s (g : Group) kind ic, g.hsp = g.hbase → histPop s g kind ic = .error (.trap 0x07 0 0))
  ∧ (∀ sl off s c,
      Clears s c none { target := some (c.p.ii + off.signExtend 48), falls := true, setsRec := true, flushes := true, words := 2 } →
      feature s 0 = true → c.g.counting = true → c.g.guard sl.toNat = .pending → c.g.spec = none →
      ∃ t g' pos, exec (.spec sl off) s = .next t ∧ getGroup t c.core c.gslot = some g'
        ∧ g'.recb = true ∧ g'.ic = c.g.ic + 1
        ∧ g'.spec = some { guard := sl, pos := pos, ic := c.g.ic, oldRec := c.g.recb, alt := c.p.ii + off.signExtend 48 }
        ∧ pos = c.g.hsp + (if c.g.ptrace.isEmpty then 16 else 32))
  ∧ (∀ g d s c, Clears s c g { dst := some (d, false), flushes := true } → feature s 0 = true →
      let h := if c.g.recording then flushTrace c.g else c.g
      ∃ g1, DstHolds c d false (fun _ => hstatValue (setGroup s c.core c.gslot h) h) h g1
        ∧ Completes c (exec (.hstat g d) s) (setGroup s c.core c.gslot g1))
  ∧ (∀ g d sl, LaneResult (.gtest g d sl) g [] d false fun c _ =>
      match c.g.guard sl.toNat with
      | .free => 0
      | .pending => 1
      | .true => 2
      | .false => 3)
  ∧ (∀ s t sl off m tg d i, feature s 0 = false →
      i ∈ [Instr.mark none, .commit none t, .spec sl off, .rev m tg, .hstat none d] →
      ∀ c, enter s = some c → issueOpen c.g = true → (∀ l, lineHeld s c.core c.g.ctx c.g.launch l = false) →
      exec i s = .next (takeTrap s c.core c.gslot (mkTrap 0x01 c.slot c.p .reissue 0 0)))

/-- GSET, REV and the end of a speculation (R63, R120, R133, R134, R137, R138, R139, R210, R239, R385, R386, R421). Outside a speculation
.pend makes a slot PENDING, .clear makes it FREE once no queued engine command names it, and .set makes it TRUE or FALSE by its
operand; the other paths' instructions that wait for the slot, a parked path's too, and the heads of the subqueues, see it at once. REV
with an immediate or a uniform target to an older IC turns the group's direction and leaves the undoing to REVERSE_STEP; with a target that is not older its
path moves on; then its mode acts. A speculation that resolves TRUE puts its held stores into SQ in their order and takes the old REC
back, and empties the stack where that was 0; one that resolves FALSE discards its commands and held stores, and when the issues are
undone its path goes on at the alternate. -/
def Obligations.GuardsReversalAndSpeculation : Prop :=
  let after (g : Group) (c : Cx) (sl : BitVec 3) (v : GState) : Group :=
    guardEvent (otherSlot c.slot) sl.toNat v ({ g with cthGset := g.cthGset || g.cth }.setGuard sl.toNat v)
  let seen (s : State) (c : Cx) (g : Group) : State := syncQueues (setGroup s c.core c.gslot g) c.core c.gslot
  (∀ g sl s c, Clears s c g { horizon := true } → c.g.spec = none →
    Completes c (exec (.gset g .pend sl) s) (seen s c (after c.g c sl .pending)))
  ∧ (∀ g sl s c, Clears s c g { horizon := true } → c.g.spec = none →
    if c.g.guard sl.toNat ≠ .free ∧ slotQueued c.g sl = true then exec (.gset g .clear sl) s = .next s
    else Completes c (exec (.gset g .clear sl) s) (seen s c (after c.g c sl .free)))
  ∧ (∀ g sl a s c, Clears s c g { srcs := u32 [a], horizon := true } → c.g.spec = none → c.g.guard sl.toNat ≠ .free →
    (opnd32 c (u32 [a]) 0 (lowLane c.p.mask) = 0 →
      Completes c (exec (.gset g (.set a) sl) s) (seen s c (after c.g c sl .false)))
    ∧ (opnd32 c (u32 [a]) 0 (lowLane c.p.mask) ≠ 0 →
      Completes c (exec (.gset g (.set a) sl) s) (seen s c (raiseSeq sl (after c.g c sl .true)))))
  ∧ (∀ (g : Group) sl k v,
      let seen (p : Path) : Path :=
        if p.gwait = some (p.ii, k, none) ∧ v ≠ .pending then { p with gwait := some (p.ii, k, some v) } else p
      let g' := guardEvent sl k v g
      g'.path sl = (g.path sl).map seen ∧ g'.path (otherSlot sl) = g.path (otherSlot sl)
      ∧ g'.stack = g.stack.map (fun e => match e with
          | .path p => .path (seen p)
          | e => e)
      ∧ g' = { g with pathA := g'.pathA, pathB := g'.pathB, stack := g'.stack })
  ∧ (∀ m tg s c, Clears s c none { commits := true, uses := match tg with | .k i => [.k i.toNat] | .imm _ => [] } →
      feature s 0 = true → c.g.counting = true → c.g.spec = none →
      let target : BitVec 48 := match tg with
        | .k i => (c.g.kreg i.toNat).setWidth 48
        | .imm v => v.setWidth 48
      histFault s c (revNeed s c) = none → histBusy s c (revNeed s c) = false →
      (target < c.g.ic →
        exec (.rev m tg) s = .next (backAux 130 (setGroup s c.core c.gslot
          { flushTrace c.g with dir := true, rtrace := [], last := c.slot
                                rev := some { target := target, mode := m, slot := c.slot } }) c.core c.gslot))
      ∧ (¬target < c.g.ic → ∃ g', exec (.rev m tg) s = .next (revMode (setGroup s c.core c.gslot g') c.core c.gslot m c.slot)
          ∧ g'.path c.slot
              = some (arrivedAt s { c with g := { c.g with ic := c.g.lastIc } } (c.p.moved (c.p.ii + 1)) fallthru)
          ∧ g'.path (otherSlot c.slot) = c.g.path (otherSlot c.slot)
          ∧ g' = { c.g with pathA := g'.pathA, pathB := g'.pathB, last := c.slot
                            hist := g'.hist, hsp := g'.hsp, ptrace := [] }))
  ∧ (∀ s core gslot g sl p, getGroup s core gslot = some g → g.path sl = some p →
      revMode s core gslot .c sl = settle s core gslot
      ∧ revMode s core gslot .x sl = setGroup s core gslot
          { g with pathA := none, pathB := none, stack := [], causes := [], ended := true }
      ∧ revMode s core gslot .h sl = settle (setGroup (stGroup s 8 core gslot 0 g sl p.ii p.mask 0 0) core gslot
          { g with halted := true }) core gslot)
  ∧ (∀ g sl a sp s c,
      Clears s c g { srcs := u32 [a], horizon := true, specPass := true, words := 1 } → c.g.spec = some sp → sp.guard = sl →
      c.g.guard sl.toNat ≠ .free → opnd32 c (u32 [a]) 0 (lowLane c.p.mask) ≠ 0 →
      ∃ t g', exec (.gset g (.set a) sl) s = .next t ∧ getGroup t c.core c.gslot = some g'
        ∧ g'.spec = none ∧ g'.hold = [] ∧ g'.guard sl.toNat = .true
        ∧ g'.sq.map (·.seq) = c.g.sq.map (·.seq) ++ c.g.hold.map (·.seq)
        ∧ (sp.oldRec = true → g'.recb = c.g.recb)
        ∧ (sp.oldRec = false → g'.recb = false ∧ g'.hist = [] ∧ g'.hsp = c.g.hbase ∧ g'.ptrace = []))
  ∧ (∀ (sp : SpecState) (g : Group), (specDrop sp g).hold = [] ∧ (specDrop sp g).guard sp.guard.toNat = .false
      ∧ (∀ e, e ∈ (specDrop sp g).e0 ++ (specDrop sp g).e2 ++ (specDrop sp g).e4 → e.guard = some sp.guard →
          e.eval = some .drop))
  ∧ (∀ g sl a sp s c s1 sl' g1 p,
      Clears s c g { srcs := u32 [a], horizon := true, specPass := true, words := 1 } → c.g.spec = some sp → sp.guard = sl →
      c.g.guard sl.toNat ≠ .free → opnd32 c (u32 [a]) 0 (lowLane c.p.mask) = 0 →
      let need := if c.g.ptrace.isEmpty then 0 else 2
      histFault s c need = none → histBusy s c need = false →
      specWalk c.core c.gslot (c.g.ic - sp.ic).toNat (setGroup s c.core c.gslot (specDrop sp c.g)) c.slot = (s1, sl', none) →
      getGroup s1 c.core c.gslot = some g1 → g1.path sl' = some p →
      ∃ u g', exec (.gset g (.set a) sl) s = .next (settle u c.core c.gslot) ∧ getGroup u c.core c.gslot = some g'
        ∧ g'.spec = none ∧ g'.recb = sp.oldRec ∧ g'.ic = sp.ic + 1
        ∧ g'.path sl' = some (arrivedAt s1 { c with g := { g1 with recb := sp.oldRec, ic := sp.ic } } (p.moved sp.alt)
            (dw p.ii.toNat))
        ∧ g'.path (otherSlot sl') = g1.path (otherSlot sl'))

/-- SRD and SWR (R65 to R71, R432): SRD reads the named register, HSP after pushing the pending trace; SWR of a
writable register of the group gives it its new value, with the ignored bits dropped, and HBASE takes HSP with it; HBASE of a stack
in use, and HLIM below HSP, are ILLEGAL (R66). -/
def Obligations.SpecialRegisters : Prop :=
  let pre (c : Cx) (num : BitVec 8) (a : Src) : Pre :=
    let v := opnd c [(a, true)] 0 (lowLane c.p.mask)
    { srcs := [(a, true)], horizon := true, illegal := num == 0x04 && c.g.hsp != c.g.hbase
      badValue := num == 0x05 && (v &&& ~~~7).ult c.g.hsp }
  (∀ g d num, num ≠ 0x06 → ∀ s c, Clears s c g { dst := some (d, false) } →
    ∃ g0 g1, getGroup (consume c [] s) c.core c.gslot = some g0
      ∧ DstHolds c d false (fun _ => specialRead s num c.g) g0 g1
      ∧ Completes c (exec (.srd g d num) s) (setGroup (consume c [] s) c.core c.gslot g1))
  ∧ (∀ g d s c, Clears s c g { dst := some (d, false), flushes := true } →
      let h := if c.g.recording then flushTrace c.g else c.g
      h.hsp = c.g.hsp + (if c.g.recording = true ∧ c.g.ptrace ≠ [] then 16 else 0)
      ∧ ∃ g1, DstHolds c d false (fun _ => h.hsp) h g1
        ∧ Completes c (exec (.srd g d 0x06) s) (setGroup s c.core c.gslot g1))
  ∧ (∀ s (g : Group), specialRead s 0x01 g = dw g.ic.toNat ∧ specialRead s 0x04 g = g.hbase ∧ specialRead s 0x05 g = g.hlim
      ∧ specialRead s 0x08 g = g.fctl.setWidth 64 ∧ specialRead s 0x09 g = g.fstat.setWidth 64 ∧ specialRead s 0x0A g = g.uvec ∧ specialRead s 0x0B g = g.uicause
      ∧ specialRead s 0x0C g = g.uiretpc ∧ specialRead s 0x10 g = g.trapinfo0 ∧ specialRead s 0x11 g = g.trapinfo1
      ∧ specialRead s 0x12 g = g.trapinfo2 ∧ specialRead s 0x13 g = g.trapinfo3 ∧ specialRead s 0x14 g = g.replval
      ∧ specialRead s 0x20 g = s.clk ∧ specialRead s 0x23 g = g.privbase
      ∧ specialRead s 0x18 g = 0x0000001806030506)
  ∧ (∀ s (g : Group),
      (∀ p, g.pathA = some p → specialRead s 0x02 g = p.cf) ∧ (∀ p, g.pathB = some p → specialRead s 0x03 g = p.cf)
      ∧ (g.pathA = none → specialRead s 0x02 g = fallthru) ∧ (g.pathB = none → specialRead s 0x03 g = fallthru)
      ∧ (∀ x, mfind s.ctxs g.ctx = some x → specialRead s 0x21 g = x.pfdrop ∧ specialRead s 0x22 g = x.uecnt)
      ∧ (∀ b, b < 64 → (specialRead s 0x19 g).getLsbD b = feature s b)
      ∧ (∀ i, i < 4 → specialRead s (BitVec.ofNat 8 (0x19 + i)) g = if s.faccDone then mget 0 s.facc i else 0))
  ∧ (∀ s (g : Group), parked g.stack < 256 →
      let v := specialRead s 0x00 g
      v.getLsbD 0 = g.dir ∧ v.getLsbD 1 = g.recb ∧ v.getLsbD 2 = g.spec.isSome ∧ v.getLsbD 3 = g.pathA.isSome
      ∧ v.getLsbD 4 = g.pathB.isSome ∧ v.extractLsb' 5 3 = 0 ∧ (v.extractLsb' 8 8).toNat = parked g.stack
      ∧ (v.extractLsb' 16 4).toNat = g.wcode.toNat ∧ v.getLsbD 20 = g.uih ∧ v.getLsbD 21 = g.cth ∧ v.extractLsb' 22 42 = 0)
  ∧ (∀ g num a (gr : Group → DWord → Group) s c,
      (num, gr) ∈ [((0x09 : BitVec 8), fun (g : Group) v => { g with fstat := v.setWidth 6 }),
        (0x0A, fun g v => { g with uvec := v &&& ~~~7 }), (0x14, fun g v => { g with replval := v }),
        (0x05, fun g v => { g with hlim := v &&& ~~~7 }),
        (0x04, fun g v => { g with hbase := v &&& ~~~7, hsp := v &&& ~~~7 }),
        (0x0C, fun g v => { g with uiretpc := v &&& 0x1FFFFFFFFFFFF, uirw := true })] →
      Clears s c g (pre c num a) →
      Completes c (exec (.swr g num a) s)
        (setGroup s c.core c.gslot (gr c.g (opnd c [(a, true)] 0 (lowLane c.p.mask)))))
  ∧ (∀ g a s c, let v := opnd c [(a, true)] 0 (lowLane c.p.mask)
      (Clears s c g (pre c 0x08 a) → Completes c (exec (.swr g 0x08 a) s)
        (setGroup s c.core c.gslot { c.g with fctl := if feature s 7 then v.setWidth 1 else c.g.fctl }))
      ∧ (Clears s c g (pre c 0x21 a) → Completes c (exec (.swr g 0x21 a) s)
          (setGroup { s with ctxs := mmod s.ctxs c.g.ctx fun x => { x with pfdrop := v } } c.core c.gslot c.g))
      ∧ (Clears s c g (pre c 0x22 a) → Completes c (exec (.swr g 0x22 a) s)
          (setGroup { s with ctxs := mmod s.ctxs c.g.ctx fun x => { x with uecnt := v } } c.core c.gslot c.g)))
  ∧ (∀ a s c, enter s = some c → issueOpen c.g = true → preHeld s c (pre c 0x04 a) = false → c.g.hsp ≠ c.g.hbase →
      exec (.swr none 0x04 a) s = .next (takeTrap s c.core c.gslot (mkTrap 0x01 c.slot c.p .reissue 0 0)))
  ∧ (∀ a s c, enter s = some c → issueOpen c.g = true → preHeld s c (pre c 0x05 a) = false →
      ((usePops [(a, true)]).contains 5 = true → feature s 3 = true) → c.g.spec = none →
      busy c.g (preUses (pre c 0x05 a)) = false →
      (opnd c [(a, true)] 0 (lowLane c.p.mask)).toNat / 8 * 8 < c.g.hsp.toNat →
      exec (.swr none 0x05 a) s = .next (takeTrap s c.core c.gslot (mkTrap 0x01 c.slot c.p .reissue 0 0)))

/-! ### Memory instructions -/

/-- The accesses of a load or store to device memory (R88, R260, R294): a lane's address is the base register plus its scaled, sign-extended
operand plus the displacement; an access that is aligned and translates is cut at granules, piece by piece, so that every byte of
every lane lies in one piece at the translated address. -/
def Obligations.AccessPieces : Prop :=
  (∀ c us (m : MemOp) l, memAddr c us m l = (BitVec.ofInt 64 ((c.g.kreg m.kb.toNat).toInt
      + (opnd32 c us 0 l).toInt * 2 ^ m.scale.toNat + m.off.toInt)).toNat)
  ∧ (∀ s g size nd m addr ps, accesses s g .dev size size nd m addr = .ok ps → 0 < size →
      (∀ p ∈ ps, p.lane ∈ lanes m ∧ addr p.lane % size = 0 ∧ p.off + p.len ≤ size ∧ 0 < p.len
        ∧ ∃ t a tol, xlate s g.ctx (addr p.lane) nd false = .ok t a tol ∧ p.tgt = t ∧ p.addr = a + p.off ∧ p.tol = tol
          ∧ p.va = addr p.lane + p.off ∧ p.addr / granSize t = (p.addr + p.len - 1) / granSize t ∧ p.val = none)
      ∧ ∀ l, l ∈ lanes m → ∀ k, k < size → ∃ p ∈ ps, p.lane = l ∧ p.off ≤ k ∧ k < p.off + p.len)

/-- The loads (R262, R394 to R398): LD, LDPOLL and LDLO enter LQ unbound, with the accesses of their lanes; a queue destination takes
its place at once; nothing else changes, and the instruction completes. An address that fails its check traps instead: TRAPINFO1 names
the active lanes (R71, R318), and the fault record the lanes that have the trap (R98). -/
def Obligations.LoadsIssue : Prop :=
  (∀ g sx m d, LoadIssues (.ld g sx m d) g m d (.ld sx) m.size.toNat .load (accAlign m.space (2 ^ m.size.toNat)) m.ord
    fun _ => True)
  ∧ (∀ g m d, LoadIssues (.ldpoll g m d) g m d .poll m.size.toNat .load (accAlign m.space (2 ^ m.size.toNat)) false
    fun _ => True)
  ∧ (∀ g m d, d.isUni = false → LoadIssues (.ldlo g m d) g m d .lo 4 .loLoad 16 false fun s => feature s 2 = true)

/-- The stores (R137, R262, R433 to R435): ST and STLO enter SQ with the bytes of their lanes, or the hold queue under an open
speculation, where a thirty-third waits; a private ST never waits for a speculation. -/
def Obligations.StoresIssue : Prop :=
  (∀ g m b s c ps, m.space ≠ .priv →
      let size := m.size.toNat
      let us : List SrcUse := [(m.sa, false), (b, size == 3)]
      Clears s c g { srcs := us, uses := .k m.kb.toNat :: storeUses b size, horizon := true
                     specPass := c.g.spec.isSome && (usePops us).isEmpty } →
      accesses s c.g m.space (2 ^ size) (accAlign m.space (2 ^ size)) .store c.p.mask (memAddr c us m) = .ok ps →
      StoreEnters s c (exec (.st g m b) s) us .st m.ord size (storePieces ps (storeBytes c us b size)))
  ∧ (∀ g m b s c ps, m.space = .priv → c.g.recording = false →
      let size := m.size.toNat
      let us : List SrcUse := [(m.sa, false), (b, size == 3)]
      Clears s c g { srcs := us, uses := .k m.kb.toNat :: storeUses b size } →
      accesses s c.g .priv (2 ^ size) (accAlign .priv (2 ^ size)) .store c.p.mask (memAddr c us m) = .ok ps →
      ∃ g0, getGroup (consume c us s) c.core c.gslot = some g0
        ∧ Completes c (exec (.st g m b) s) (setGroup (consume c us s) c.core c.gslot
            { g0 with seq := g0.seq + 1
                      sq := g0.sq ++ [{ seq := g0.seq + 1, kind := .st, rel := m.ord, size := size, mask := c.p.mask
                                        pieces := storePieces ps (storeBytes c us b size), wait := ps.length }] }))
  ∧ (∀ g m b s c ps, m.space = .priv → c.g.recording = true →
      let size := m.size.toNat
      let us : List SrcUse := [(m.sa, false), (b, size == 3)]
      Clears s c g { srcs := us, uses := .k m.kb.toNat :: storeUses b size, words := recWords (memoldLen c.w (2 ^ size)) } →
      accesses s c.g .priv (2 ^ size) (accAlign .priv (2 ^ size)) .store c.p.mask (memAddr c us m) = .ok ps →
      (peekAll s c ps = none → exec (.st g m b) s = .next s)
      ∧ ∀ old, peekAll s c ps = some old → ∃ g0 h, getGroup (consume c us s) c.core c.gslot = some g0
        ∧ h = histPush g0 c.ic 0x07 (memoldWords c.w (2 ^ size) old)
        ∧ Completes c (exec (.st g m b) s) (setGroup (consume c us s) c.core c.gslot
            { g0 with hist := h.hist, hsp := h.hsp, seq := g0.seq + 1
                      sq := g0.sq ++ [{ seq := g0.seq + 1, kind := .st, rel := m.ord, size := size, mask := c.p.mask
                                        pieces := storePieces ps (storeBytes c us b size), wait := ps.length }] }))
  ∧ (∀ g md m b s c ps,
      let us : List SrcUse := [(m.sa, false), (b, false)]
      Clears s c g { srcs := us, uses := .k m.kb.toNat :: storeUses b 4, horizon := true
                     specPass := c.g.spec.isSome && (usePops us).isEmpty } → feature s 2 = true →
      accesses s c.g m.space 16 16 .loStore c.p.mask (memAddr c us m) = .ok ps →
      StoreEnters s c (exec (.stlo g md m b) s) us (.stlo md) m.ord 4 (storePieces ps (storeBytes c us b 4)))

/-- XST and ATOM (R262, R356, R434): the store part enters SQ and the load part LQ under one number, and both name the same accesses. A
private XST exchanges at once. -/
def Obligations.ExchangesIssue : Prop :=
  (∀ g m d b s c ps, m.space ≠ .priv →
      let size := m.size.toNat
      let us : List SrcUse := [(m.sa, false), (b, size == 3)]
      let f := loadPre c us m.kb d size
      Clears s c g { f with uses := f.uses ++ storeUses b size, horizon := true } →
      accesses s c.g m.space (2 ^ size) (accAlign m.space (2 ^ size)) .rmw c.p.mask (memAddr c us m) = .ok ps →
      ExchangeEnters s c (exec (.xst g m d b) s) us d size .xst .xst m.ord false m ps (storeBytes c us b size))
  ∧ (∀ g m d b s c ps old, m.space = .priv →
      let size := m.size.toNat
      let us : List SrcUse := [(m.sa, false), (b, size == 3)]
      let f := loadPre c us m.kb d size
      Clears s c g { f with
        uses := f.uses ++ storeUses b size
        words := f.words + (if xstMemold d && c.g.recording then recWords (memoldLen c.w (2 ^ size)) else 0) } →
      accesses s c.g .priv (2 ^ size) (accAlign .priv (2 ^ size)) .rmw c.p.mask (memAddr c us m) = .ok ps →
      peekAll s c ps = some old →
      ∃ t, exec (.xst g m d b) s = .next (finishLoad t c.core c.gslot (c.g.seq + 1))
        ∧ ExchangeEnters (peekHits s c ps) c (.next t) us d size .st .xst m.ord false m old (storeBytes c us b size))
  ∧ (∀ g op m d b s c ps,
      let size := m.size.toNat
      let us : List SrcUse := [(m.sa, false), (b, size == 3 && op != .cas)]
      let f := loadPre c us m.kb d size
      Clears s c g { f with
        uses := f.uses ++ (match op, b with | .cas, .n i => [.n i.toNat (2 * 2 ^ (size - 2))] | _, _ => []), horizon := true } →
      accesses s c.g m.space (2 ^ size) (2 ^ size) .rmw c.p.mask (memAddr c us m) = .ok ps →
      ExchangeEnters s c (exec (.atom g op m d b) s) us d size (.atom op) (.atom op) m.ord m.ord m ps
        (atomBytes c us op b size))

/-- Fences and the hints to the memory system (R268, R277, R301 to R307, R341, R375, R384, R411 to R413, R444). That FENCE.rel and
FENCE.ar enter the hold queue under an open speculation and complete is the model's reading (assumption 49). -/
def Obligations.OrderingInstructions : Prop :=
  (∀ g s c, Clears s c g {} → (liveLq c.g = [] → Completes c (exec (.fence g .acq) s) (acquire s c.core))
    ∧ (liveLq c.g ≠ [] → exec (.fence g .acq) s = .next s))
  ∧ (∀ g s c, Clears s c g {} → StoreEnters s c (exec (.fence g .rel) s) [] .fenceRel false 0 [])
  ∧ (∀ g s c, Clears s c g {} → StoreEnters s c (exec (.fence g .ar) s) [] .fenceAr false 0 [])
  ∧ (∀ s core, (getCore (acquire s core) core).l1 = (getCore s core).l1.filter (fun x => x.2.owned)
      ∧ (acquire s core).mem = s.mem ∧ ∀ k, k ≠ core → getCore (acquire s core) k = getCore s k)
  ∧ (∀ g w s c, Clears s c g { horizon := true } →
      ((winWord s w.toNat).getLsbD 0 = true → StoreEnters s c (exec (.pub g w) s) [] (.pub w.toNat) true 0 [])
      ∧ ((winWord s w.toNat).getLsbD 0 = false →
          exec (.pub g w) s = .next (takeTrap s c.core c.gslot (mkTrap 0x05 c.slot c.p .reissue (dw w.toNat) 0))))
  ∧ (∀ g dome m s c, Clears s c g { srcs := [(m.sa, false)], uses := [.k m.kb.toNat] } → m.space = .host →
      Completes c (exec (.pref g dome m) s) (consume c [(m.sa, false)] s))
  ∧ (∀ g dome m s c, Clears s c g { srcs := [(m.sa, false)], uses := [.k m.kb.toNat] } → m.space = .dev →
      (∀ l, l ∈ lanes c.p.mask → 2 ^ 52 ≤ memAddr c [(m.sa, false)] m l) → c.p.mask ≠ 0 →
      Completes c (exec (.pref g dome m) s) (addPfdrop (consume c [(m.sa, false)] s) c.g.ctx))
  ∧ (∀ g dome m s c, Clears s c g { srcs := [(m.sa, false)], uses := [.k m.kb.toNat] } → m.space = .dev →
      (∀ l, l ∈ lanes c.p.mask → memAddr c [(m.sa, false)] m l < 2 ^ 52
        ∧ ∀ p ∈ piecesOf 4096 (memAddr c [(m.sa, false)] m l) (2 ^ m.size.toNat),
          walkHeld s c.g.ctx (memAddr c [(m.sa, false)] m l + p.1) = false
          ∧ ∃ t a tol, xlate s c.g.ctx (memAddr c [(m.sa, false)] m l + p.1) .hint false = .ok t a tol) →
      let miss := prefMiss s c.core (prefTargets s c m (memAddr c [(m.sa, false)] m))
      (dome = true ∨ miss = 0 ∨ outstanding s c.core + miss ≤ 256 →
        ∃ s1, Completes c (exec (.pref g dome m) s) s1 ∧ s1.mem = s.mem ∧ s1.host = s.host ∧ s1.ctxs = s.ctxs
          ∧ getGroup s1 c.core c.gslot = getGroup (consume c [(m.sa, false)] s) c.core c.gslot)
      ∧ (dome = false → 0 < miss → 256 < outstanding s c.core + miss → exec (.pref g dome m) s = .next s))
  ∧ (∀ g dome m s c, Clears s c g { srcs := [(m.sa, false)], uses := [.k m.kb.toNat] } →
      prefHeld s c (prefTargets s c m (memAddr c [(m.sa, false)] m)) = true → exec (.pref g dome m) s = .next s)
  ∧ (∀ g dome m s c l a, Clears s c g { srcs := [(m.sa, false)], uses := [.k m.kb.toNat] } →
      prefHeld s c (prefTargets s c m (memAddr c [(m.sa, false)] m)) = false →
      prefLo s c m (memAddr c [(m.sa, false)] m) = [(l, a)] → exec (.pref g dome m) s
        = .next (takeTrap s c.core c.gslot (mkTrap 0x05 c.slot c.p .reissue (dw a) 0) (maskOf fun i => i == l)))
  ∧ (∀ g d k imm s c, Clears s c g { horizon := true, dst := some (d, false), uses := [.k k.toNat] } →
      let base := wfld (c.g.kreg k.toNat) 16 36 * 65536
      let len := imm.toNat * 65536
      let r := pinCode s c.g.ctx (c.g.kreg k.toNat) imm.toNat
      let walked : State := if r.1 = 5 then s else
        (piecesOf 4096 base len).foldl (fun u p => walkHit u c.g.ctx (base + p.1)) s
      let s' : State :=
        { s with
          ctxs := if r.1 = 1 then mmod s.ctxs c.g.ctx (fun x => { x with pfdrop := x.pfdrop + 1 }) else s.ctxs
          pins := if r.1 = 0 then mset walked.pins r.2.2
              { ctx := c.g.ctx, base := base, units := imm.toNat
                fade := wfld (c.g.kreg k.toNat) 0 16, count := wfld (c.g.kreg k.toNat) 0 16
                pages := r.2.1.map fun a => (a, 4096) }
            else walked.pins }
      (r.1 ≠ 5 → rangeHeld s c.g.ctx base len .pin = true → exec (.pin g d k imm) s = .next s)
      ∧ (r.1 = 5 ∨ rangeHeld s c.g.ctx base len .pin = false → ∃ g1, DstHolds c d false (fun _ => dw (r.1 * 2 ^ 28 + r.2.2)) c.g g1
        ∧ Completes c (exec (.pin g d k imm) s) (setGroup s' c.core c.gslot g1)))
  ∧ (∀ g d imm s c, Clears s c g { horizon := true, dst := some (d, false) } →
      let w := imm.toNat % 32
      let mine := imm.toNat < 32 ∧ ∃ p, mfind s.pins w = some p ∧ p.ctx = c.g.ctx
      (mine → ∃ g1, DstHolds c d false (fun _ => 0) c.g g1
        ∧ Completes c (exec (.unpin g d imm) s) (setGroup { s with pins := mdel s.pins w } c.core c.gslot g1))
      ∧ (¬mine → ∃ g1, DstHolds c d false (fun _ => dw ((if imm.toNat ≥ 32 then 5 else 1) * 2 ^ 28)) c.g g1
        ∧ Completes c (exec (.unpin g d imm) s) (setGroup s c.core c.gslot g1)))
  ∧ (∀ g d k imm s c, Clears s c g { horizon := true, dst := some (d, false), uses := [.k k.toNat] } →
      let v := c.g.kreg k.toNat
      let base := wfld v 16 36 * 65536
      let len := imm.toNat * 65536
      let bad := wfld v 52 12 ≠ 0 ∨ wfld v 0 16 ≠ 0 ∨ len = 0 ∨ base + len > 2 ^ 52
      (bad → ∃ g1, DstHolds c d false (fun _ => dw (5 * 2 ^ 28)) c.g g1
        ∧ Completes c (exec (.discard g d k imm) s) (setGroup s c.core c.gslot g1))
      ∧ (¬bad → rangeHeld s c.g.ctx base len .disc = true → exec (.discard g d k imm) s = .next s)
      ∧ (¬bad → rangeHeld s c.g.ctx base len .disc = false → ∀ page x, rangeTrap s c.g.ctx base len .disc false = some (page, x) → exec (.discard g d k imm) s
          = .next (takeTrap s c.core c.gslot (mkTrap (if page then 0x04 else 0x05) c.slot c.p .reissue (dw x) 1)))
      ∧ (¬bad → rangeHeld s c.g.ctx base len .disc = false → rangeTrap s c.g.ctx base len .disc false = none → ∃ g1, DstHolds c d false (fun _ => 0) c.g g1
        ∧ Completes c (exec (.discard g d k imm) s) (setGroup s c.core c.gslot
            { g1 with seq := g1.seq + 1
                      sq := g1.sq ++ [{ seq := g1.seq + 1, kind := .disc, rel := true, size := 0, mask := c.p.mask
                                        wait := ((devPages s c.g.ctx base len .disc).getD []).length
                                        pieces := ((devPages s c.g.ctx base len .disc).getD []).map fun a =>
                                          { lane := 0, off := 0, tgt := .dev, addr := a.1, data := [], va := a.2 } }] }))
      ∧ (∀ page x, rangeTrap s c.g.ctx base len .disc false = some (page, x) → page = true →
          ∀ p ∈ piecesOf 4096 base len, xlate s c.g.ctx (base + p.1) .disc false ≠ .prot))

/-! ### The ordering machine (R259 to R277) -/

/-- LOAD_BIND and what a bound load does (R263, R266, R297, R395): a piece whose bytes the core finds is bound to them, unless an older
load of the same granule is unbound; pieces that need their home are sent there, those of one sector as one request with what the
group's own older stores say of them, while fewer than 256 are outstanding; and a load whose pieces are all bound writes its lanes,
extended by its kind, to its registers, its uniform register or its place in the result queue, and leaves LQ. -/
def Obligations.LoadsBind : Prop :=
  (∀ s core gslot entry piece g e p sx, getGroup s core gslot = some g → g.lq[entry]? = some e → e.kind = .ld sx →
      e.pieces[piece]? = some p → p.val = none → p.sent = false →
      (olderUnbound g e p = true → exec (.loadBind core gslot entry piece) s = .next s)
      ∧ (olderUnbound g e p = false →
        (∀ bs, localBytes s core g e.seq p.tgt p.addr p.len false = .ok bs →
          exec (.loadBind core gslot entry piece) s
            = .next (finishLoad (setPiece s core gslot e.seq piece { p with val := some bs }) core gslot e.seq))
        ∧ (localBytes s core g e.seq p.tgt p.addr p.len false = .error false → 256 ≤ outstanding s core →
            exec (.loadBind core gslot entry piece) s = .next s)
        ∧ (localBytes s core g e.seq p.tgt p.addr p.len false = .error false → outstanding s core < 256 →
          let qs := e.pieces.filter fun q => sameGran q.tgt q.addr p.tgt p.addr && asksHome s core g e q
          ∃ t, exec (.loadBind core gslot entry piece) s = .next t
            ∧ pathReqs t core (homeOf s p.tgt p.addr) = pathReqs s core (homeOf s p.tgt p.addr)
              ++ [{ gslot := gslot, seq := e.seq, tgt := p.tgt, addr := p.addr, va := p.va, tol := p.tol, kind := .read false
                    parts := qs.map fun q => { lane := q.lane, off := q.off, addr := q.addr, len := q.len } }]
            ∧ getGroup t core gslot = some { g with lq := g.lq.map fun x => if x.seq = e.seq then
                { x with pieces := x.pieces.map fun q => if qs.contains q then
                    { q with sent := true, fwd := fwdOf g e.seq q.tgt q.addr q.len } else q } else x }
            ∧ t.mem = s.mem)))
  ∧ (∀ s core gslot g e (sx : Bool), getGroup s core gslot = some g → g.lq.find? (fun x => x.seq == e.seq) = some e →
      e.kind = .ld sx → (∀ p, p ∈ e.pieces → p.val.isSome = true ∧ p.bad = false) → e.acq = false →
      let has (l : Nat) : Prop := ∃ p, p ∈ e.pieces ∧ p.lane = l
      let word (l : Nat) : Word :=
        if sx then BitVec.ofInt 32 (sInt (8 * (laneBytes e l).length) (natOf (laneBytes e l)))
        else BitVec.ofNat 32 (natOf ((laneBytes e l).take 4))
      let part (l k : Nat) : Word := BitVec.ofNat 32 (natOf (((laneBytes e l).drop (4 * k)).take 4))
      ∃ g', finishLoad s core gslot e.seq = setGroup s core gslot g'
        ∧ g'.lq = g.lq.filter (fun x => x.seq != e.seq)
        ∧ g' = { g with lq := g'.lq, n := g'.n, k := g'.k, q := g'.q }
        ∧ (∀ i, e.dst = .lanes (.recd i) ∨ e.dst = .lanes (.dead i) →
            g'.k = g.k ∧ g'.q = g.q
            ∧ (e.size ≤ 2 → ∀ j l, l < 64 → (j = i.toNat → has l → g'.nreg j l = word l)
                ∧ (¬(j = i.toNat ∧ has l) → g'.nreg j l = g.nreg j l))
            ∧ (3 ≤ e.size → sx = false → ∀ j l, l < 64 →
                (∀ k, k < 2 ^ (e.size - 2) → j = i.toNat + k → has l → g'.nreg j l = part l k)
                ∧ (¬((i.toNat ≤ j ∧ j < i.toNat + 2 ^ (e.size - 2)) ∧ has l) → g'.nreg j l = g.nreg j l)))
        ∧ (∀ i, e.dst = .lanes (.uni i) → g'.n = g.n ∧ g'.q = g.q
            ∧ (∀ j, j ≠ i.toNat → g'.kreg j = g.kreg j)
            ∧ ∀ l, l < 64 → has l → (∀ k, k < l → ¬has k) → g'.kreg i.toNat
                = if sx then BitVec.ofInt 64 (sInt (8 * (laneBytes e l).length) (natOf (laneBytes e l)))
                  else BitVec.ofNat 64 (natOf (laneBytes e l)))
        ∧ (e.dst = .lanes .push → g'.n = g.n ∧ g'.k = g.k
            ∧ ∀ a l, 1 ≤ a → l < 64 →
              (e.size ≤ 2 → g'.qval a l = g.qval a l ∨ (a = 1 ∧ has l ∧ g'.qval a l = word l))
              ∧ (e.size ≤ 2 → has l → g'.qval 1 l = word l)
              ∧ (3 ≤ e.size → sx = false → has l → g'.qval 2 l = part l 0 ∧ g'.qval 1 l = part l 1)
              ∧ (3 ≤ e.size → 3 ≤ a ∨ ¬has l → g'.qval a l = g.qval a l)))
  ∧ (∀ s core g seq t a n bs x, localBytes s core g seq t a n false = .ok bs → x < n →
      (∀ b, fwdByte g seq t (a + x) = some (some b) → bs[x]? = some b)
      ∧ (fwdByte g seq t (a + x) = none →
          ∃ gr, l1Find s core t a = some gr ∧ bs[x]? = some (gr.data.getD (a % 32 + x) 0)))

/-- SQ_DRAIN (R264, R268, R277, R297): the oldest waiting store goes to its homes, one request for each sector, behind what the core has
sent there; a release and a marker wait until every older load is bound and every older store is complete; a release fence then leaves
SQ, an acquire-release fence acquires as well, and behind a PUB marker that has drained nothing drains until it has published. -/
def Obligations.StoresDrain : Prop :=
  (∀ (s : State) (core gslot : Nat) (g : Group) (x : SEntry), getGroup s core gslot = some g →
    g.sq.find? (fun e => !e.drained) = some x →
    (pubPending g = true → exec (.sqDrain core gslot) s = .next s)
    ∧ (relDrain x = true → (∃ e, e ∈ g.lq ∧ e.seq < x.seq) ∨ (∀ y, g.sq.head? = some y → y.seq ≠ x.seq) →
      exec (.sqDrain core gslot) s = .next s)
    ∧ (pubPending g = false →
       (relDrain x = true → (∀ e, e ∈ g.lq → ¬e.seq < x.seq) ∧ (g.sq.head?.map (·.seq)) = some x.seq) → readsFirst g x = false →
      (x.kind = .fenceRel → exec (.sqDrain core gslot) s
        = .next (setGroup s core gslot { g with sq := g.sq.filter fun e => e.seq != x.seq }))
      ∧ (x.kind = .fenceAr → exec (.sqDrain core gslot) s
        = .next (acquire (setGroup s core gslot { g with sq := g.sq.filter fun e => e.seq != x.seq }) core))
      ∧ (∀ w, x.kind = .pub w → exec (.sqDrain core gslot) s = .next (setGroup s core gslot
          { g with sq := g.sq.map fun e => if e.seq = x.seq then { e with drained := true } else e }))
      ∧ (x.kind = .st ∨ x.kind = .xst ∨ (∃ op, x.kind = .atom op) ∨ x.kind = .stlo true →
        ∃ t g', exec (.sqDrain core gslot) s = .next t ∧ getGroup t core gslot = some g'
          ∧ g'.sq = g.sq.map (fun e => if e.seq = x.seq then { e with drained := true } else e)
          ∧ (∀ h, pathReqs t core h = pathReqs s core h
              ++ (bySector (fun p => (p.tgt, p.addr)) x.pieces).filterMap fun ps => match ps with
                | [] => none
                | p :: _ => if homeOf s p.tgt p.addr = h then
                    some { gslot := gslot, seq := x.seq, tgt := p.tgt, addr := p.addr, va := p.va, tol := p.tol
                           kind := reqKind x, rel := x.rel
                           parts := ps.map fun q => { lane := q.lane, off := q.off, addr := q.addr, len := q.data.length
                                                      bytes := q.data, removed := q.removed } }
                  else none)
          ∧ t.mem = s.mem)))
  ∧ (∀ (ps : List SPiece), let qs := bySector (fun p => (p.tgt, p.addr)) ps
      (∀ q, q ∈ qs → q ≠ [] ∧ (∀ p, p ∈ q → p ∈ ps)
        ∧ ∀ a b, a ∈ q → b ∈ q → a.addr / granSize a.tgt = b.addr / granSize b.tgt)
      ∧ (∀ p, p ∈ ps → ∃ q, q ∈ qs ∧ p ∈ q)
      ∧ (∀ q r a b, q ∈ qs → r ∈ qs → a ∈ q → b ∈ r → a.tgt = b.tgt → a.addr / granSize a.tgt = b.addr / granSize b.tgt → q = r))

/-- HOME_DELIVER of a store and a read to device memory (R259, R265): the dome writes exactly the bytes of the request's parts, a later
part over an earlier, the granule's version advances, its owner becomes the core, an owner before it is sent a demotion, and an
acknowledgement with the granule's bytes after the write goes back, or without a value while one of them cannot be read; a read is
answered with the bytes and the version found, and writes nothing, and its parts that touch uncorrectable bytes are answered apart
(R309). A stack that retrains holds its requests (R341). Two answers, and what an acknowledgement and an answer of a sector with an
uncorrectable byte install, are the model's readings (assumption 73). -/
def Obligations.HomesServe : Prop :=
  (∀ s core home r rs, pathReqs s core home = r :: rs → r.tgt = .dev → r.kind = .store → s.rowsBad = [] →
      (home < 80 → mfind s.retrain (home / 10) = none) →
      ∃ t, exec (.homeDeliver core home .none) s = .next t ∧ pathReqs t core home = rs
        ∧ (∀ front k rest, r.parts = front ++ k :: rest →
            (∀ j, j ∈ rest → j.addr + j.bytes.length ≤ k.addr ∨ k.addr + k.bytes.length ≤ j.addr) →
            memReads t.mem k.addr k.bytes.length = k.bytes)
        ∧ (∀ a, (∀ k, k ∈ r.parts → a < k.addr ∨ k.addr + k.bytes.length ≤ a) → memRead t.mem a = memRead s.mem a)
        ∧ (∀ a, granOf t a = if a / 32 = r.addr / 32 then { ver := (granOf s a).ver + 1, owner := some core } else granOf s a)
        ∧ (getCore t core).resp = (getCore s core).resp ++ [.ack r.gslot r.seq (r.parts.map fun k => (k.lane, k.off, []))
            (r.parts.map (·.removed)).flatten .dev (r.addr / 32) ((granOf s r.addr).ver + 1)
            (if sectorBad t (alignDown r.addr 32) then none else some (devRead t (alignDown r.addr 32) 32)) false
            (match (granOf s r.addr).owner with
             | some o => if o = core then [] else [s.demId]
             | none => [])]
        ∧ (∀ o, (granOf s r.addr).owner = some o → o ≠ core →
            (getCore t o).resp = (getCore s o).resp ++ [.demote s.demId (r.addr / 32)])
        ∧ t.host = s.host)
  ∧ (∀ s core home r rs, pathReqs s core home = r :: rs → r.tgt = .dev → r.kind = .read false →
      rangeOf s (reqCtx s core r) r.va = none → (home < 80 → mfind s.retrain (home / 10) = none) →
      let base := alignDown r.addr 32
      let ans (ps : List RPart) (bad : Bool) : Resp := .answer r.gslot r.seq .dev r.addr
        (granKey .dev r.addr) (granOf s r.addr).ver (devRead s base 32)
        (ps.map fun k => (k.lane, k.off, ((devRead s base 32).drop (k.addr - base)).take k.len)) bad (sectorBad s base)
      let bad (k : RPart) : Bool := bytesBad s k.addr k.len
      ∃ t, exec (.homeDeliver core home .none) s = .next t ∧ pathReqs t core home = rs ∧ t.mem = s.mem ∧ t.gran = s.gran
        ∧ (r.parts = [] → (getCore t core).resp = (getCore s core).resp ++ [ans [] (sectorBad s base)])
        ∧ (r.parts ≠ [] → r.parts.any bad = false →
            (getCore t core).resp = (getCore s core).resp ++ [ans r.parts false])
        ∧ (r.parts ≠ [] → r.parts.all bad = true → (getCore t core).resp = (getCore s core).resp ++ [ans r.parts true])
        ∧ (r.parts.any bad = true → r.parts.all bad = false → (getCore t core).resp = (getCore s core).resp
            ++ [ans (r.parts.filter fun k => !bad k) false, ans (r.parts.filter bad) true]))
  ∧ (∀ s core home e, home < 80 → (mfind s.retrain (home / 10)).isSome = true →
      exec (.homeDeliver core home e) s = .next s)

/-- The result of an ATOM at its home (R357), and the latest-only store (R273): the cell takes the new value and SEQ only from a higher
SEQ, or always under .md, which counts RST up; a store that is dropped changes no version and demotes no one, and completes with
an acknowledgement like one that is applied. -/
def Obligations.AtomicResults : Prop :=
  (∀ n old d, 0 < n → n ≤ 8 → old < 2 ^ (8 * n) → d.length ≥ n →
      let v := natOf (d.take n)
      atomNew .add n old d = (old + v) % 2 ^ (8 * n) ∧ atomNew .exch n old d = v
      ∧ atomNew .and n old d = old &&& v ∧ atomNew .or n old d = old ||| v ∧ atomNew .xor n old d = old ^^^ v
      ∧ atomNew .minB n old d = min old v ∧ atomNew .maxB n old d = max old v
      ∧ sInt (8 * n) (atomNew .minS n old d) = min (sInt (8 * n) old) (sInt (8 * n) v)
      ∧ sInt (8 * n) (atomNew .maxS n old d) = max (sInt (8 * n) old) (sInt (8 * n) v)
      ∧ atomNew .cas n old d = if old = v then natOf (d.drop n) else old)
  ∧ (∀ s core home r rs k md, pathReqs s core home = r :: rs → r.tgt = .dev → r.kind = .stlo md → r.parts = [k] →
      s.rowsBad = [] → s.dead = [] → k.addr % 16 = 0 → k.bytes.length = 16 →
      (home < 80 → mfind s.retrain (home / 10) = none) →
      let cell := memReads s.mem k.addr 16
      ∃ t, exec (.homeDeliver core home .none) s = .next t ∧ pathReqs t core home = rs
        ∧ (∀ a, a < k.addr ∨ k.addr + 16 ≤ a → memRead t.mem a = memRead s.mem a)
        ∧ (md = false → loSeq k.bytes ≤ loSeq cell → memReads t.mem k.addr 16 = cell ∧ t.gran = s.gran
          ∧ (getCore t core).resp = (getCore s core).resp
              ++ [.ack r.gslot r.seq [(k.lane, k.off, [])] k.removed .host 0 0 none false []]
          ∧ ∀ c, c ≠ core → (getCore t c).resp = (getCore s c).resp)
        ∧ (md = true ∨ loSeq cell < loSeq k.bytes →
            (memReads t.mem k.addr 16).take 15 = k.bytes.take 15
            ∧ memRead t.mem (k.addr + 15) = memRead s.mem (k.addr + 15) + (if md then 1 else 0)
            ∧ (∀ a, granOf t a = if a / 32 = r.addr / 32 then { ver := (granOf s a).ver + 1, owner := some core } else granOf s a)
            ∧ ((getCore t core).resp = (getCore s core).resp ++ [.ack r.gslot r.seq [(k.lane, k.off, [])] k.removed .dev
                (r.addr / 32) ((granOf s r.addr).ver + 1)
                (if sectorBad t (alignDown r.addr 32) then none else some (devRead t (alignDown r.addr 32) 32)) false
                (match (granOf s r.addr).owner with
                 | some o => if o = core then [] else [s.demId]
                 | none => [])])
            ∧ ∀ o, (granOf s r.addr).owner = some o → o ≠ core →
                (getCore t o).resp = (getCore s o).resp ++ [.demote s.demId (r.addr / 32)]))

/-- The answers that reach a core, and the ends of stores (R263, R266, R275, R277): a demotion takes an owned granule out of L1; an
acknowledgement of a store to device memory installs the granule as owned, unless the core holds a newer version, and the entry of a
group that still lives leaves SQ with its last piece; a
buffered publication reaches the host; the domes publish a marked window and count its counter up. -/
def Obligations.ResponsesApply : Prop :=
  (∀ s core idx id gr o, (getCore s core).resp[idx]? = some (.demote id gr) → respFirst (getCore s core).resp idx = true →
      mfind (getCore s core).l1 gr = some o → o.owned = true →
      ∃ t, exec (.demotionApply core idx) s = .next t ∧ mfind (getCore t core).l1 gr = none
        ∧ (∀ k, k ≠ gr → mfind (getCore t core).l1 k = mfind (getCore s core).l1 k)
        ∧ (getCore t core).resp = dropAt (getCore s core).resp idx ∧ t.mem = s.mem ∧ t.gran = s.gran)
  ∧ (∀ s core idx gslot seq olds gr ver bs dem,
      (getCore s core).resp[idx]? = some (.ack gslot seq olds [] .dev gr ver (some bs) false dem) →
      respFirst (getCore s core).resp idx = true → dem.any (demPending s) = false → getGroup s core gslot = none →
      ∃ t, exec (.ackApply core idx) s = .next t ∧ t.mem = s.mem
        ∧ ((∀ o, mfind (getCore s core).l1 gr = some o → o.ver ≤ ver) →
            mfind (getCore t core).l1 gr = some { owned := true, ver := ver, data := bs })
        ∧ (∀ o, mfind (getCore s core).l1 gr = some o → ver < o.ver → mfind (getCore t core).l1 gr = some o)
        ∧ (∀ k, k ≠ gr → mfind (getCore t core).l1 k = mfind (getCore s core).l1 k))
  ∧ (∀ s core idx gslot seq lane off gr ver bs dem g e,
      (getCore s core).resp[idx]? = some (.ack gslot seq [(lane, off, [])] [] .dev gr ver (some bs) false dem) →
      respFirst (getCore s core).resp idx = true → dem.any (demPending s) = false → getGroup s core gslot = some g →
      (∀ x, x ∈ g.lq → x.seq ≠ seq) → g.sq.find? (fun x => x.seq == seq) = some e →
      ∃ t g', exec (.ackApply core idx) s = .next t ∧ t.mem = s.mem ∧ getGroup t core gslot = some g'
        ∧ ((∀ o, mfind (getCore s core).l1 gr = some o → o.ver ≤ ver) →
            mfind (getCore t core).l1 gr = some { owned := true, ver := ver, data := bs })
        ∧ (∀ o, mfind (getCore s core).l1 gr = some o → ver < o.ver → mfind (getCore t core).l1 gr = some o)
        ∧ (∀ k, k ≠ gr → mfind (getCore t core).l1 k = mfind (getCore s core).l1 k)
        ∧ g' = { g with sq := g'.sq }
        ∧ (e.wait ≤ 1 → g'.sq = g.sq.filter fun x => x.seq != seq)
        ∧ (1 < e.wait → g'.sq = g.sq.map fun x => if x.seq = seq then { x with wait := x.wait - 1 } else x))
  ∧ (∀ s core idx gslot seq lane off gr ver dem g e,
      (getCore s core).resp[idx]? = some (.ack gslot seq [(lane, off, [])] [] .host gr ver none false dem) →
      dem.any (demPending s) = false → getGroup s core gslot = some g → g.lq = [] →
      g.sq.find? (fun x => x.seq == seq) = some e →
      ∃ t g', exec (.ackApply core idx) s = .next t ∧ getGroup t core gslot = some g' ∧ t.mem = s.mem
        ∧ (e.wait ≤ 1 → g'.sq = g.sq.filter fun x => x.seq != seq)
        ∧ (1 < e.wait → g'.sq = g.sq.map fun x => if x.seq = seq then { x with wait := x.wait - 1 } else x))
  ∧ (∀ s core idx gslot seq olds gr ver v bad dem tg rm,
      (getCore s core).resp[idx]? = some (.ack gslot seq olds rm tg gr ver v bad dem) → dem.any (demPending s) = true →
      exec (.ackApply core idx) s = .next s)
  ∧ (∀ s w n p ps, s.hostDown = false → mget [] s.pubs w = p :: ps → n = 1 →
      ∃ t, exec (.publicationEvict w n) s = .next t ∧ mget [] t.pubs w = ps
        ∧ t.host = memWrites s.host p.addr p.bytes ∧ t.mem = s.mem)
  ∧ (∀ s core gslot g x xs w, getGroup s core gslot = some g → g.sq = x :: xs → x.kind = .pub w → x.drained = true →
      s.hostDown = false →
      ∃ t g', exec (.pubPublish core gslot) s = .next t ∧ mfind t.pubs w = none ∧ t.mem = s.mem
        ∧ getGroup t core gslot = some g' ∧ g'.sq = (x :: xs).filter (fun e => e.seq != x.seq)
        ∧ let h := (mget [] s.pubs w).foldl (fun h p => memWrites h p.addr p.bytes) s.host
          let vc := wfld (winWord s w) 3 61 * 8
          t.host = memWrites h vc (bytesOf 8 (natOf (memReads h vc 8) + 1)))

/-- Accesses from outside (R294, R314, R316, R320, R341): an access of the host while its link is up, or of a peer whose feature is
accepted, whose route is live and whose port is up, is served at home in one step. A read of at most 8 aligned bytes is answered with
the bytes; a write changes exactly its bytes, sends the granule's owner a demotion, leaves the granule without an owner and advances
its version; an ATOM leaves the new value and is answered with the old one; an address that does not translate is answered as
unsupported and reported, or waits while the fault ring is full; one whose walk, or home, lies on a stack that retrains waits. Without the link, the feature, the route or the port nothing happens.
The host link or a port goes down; a walk that ends in a leaf is cached by the core that missed and by its quadrant, under its context
and its page, and writes no memory; one that fails, or finds no context, caches nothing (R292, R293, R295). The address that an access
carries, its report, and when a walk is cached are the model's readings (assumptions 27, 53, 58). -/
def Obligations.OutsideAccesses : Prop :=
  (∀ s (x : OutAccess) (i : Instr),
    (i = .hostAccess x ∧ s.hostDown = false)
      ∨ (∃ peer, i = .peerAccess peer x ∧ feature s 8 = true ∧ routeLive s peer = true ∧ linkLost s (.peer peer) = false) →
    0 < x.len → x.va % 8 + x.len ≤ 8 →
    (walkHeld s x.ctx x.va = true → exec i s = .next s)
    ∧ (walkHeld s x.ctx x.va = false →
    (∀ a tol, x.op = .read → xlate s x.ctx x.va .load false = .ok .dev a tol → homeHeld s (domeOf s a) = false →
      ∃ t, exec i s = .next t ∧ t.mem = s.mem ∧ t.cores = s.cores
        ∧ t.hostReply = s.hostReply ++ [if bytesBad s a x.len then none else some (devRead s a x.len)])
    ∧ (∀ a tol bs, x.op = .write bs → bs.length = x.len → s.rowsBad = [] →
      xlate s x.ctx x.va .store false = .ok .dev a tol → homeHeld s (domeOf s a) = false →
      ∃ t, exec i s = .next t ∧ t.hostReply = s.hostReply ∧ memReads t.mem a x.len = bs
        ∧ (∀ b, b < a ∨ a + x.len ≤ b → memRead t.mem b = memRead s.mem b)
        ∧ granOf t a = { ver := (granOf s a).ver + 1, owner := none }
        ∧ (∀ o, (granOf s a).owner = some o →
            (getCore t o).resp = (getCore s o).resp ++ [.demote s.demId (a / 32)])
        ∧ ∀ o, (granOf s a).owner ≠ some o → getCore t o = getCore s o)
    ∧ (∀ a tol op d, x.op = .atom op d → s.rowsBad = [] → bytesBad s a x.len = false →
      xlate s x.ctx x.va .rmw false = .ok .dev a tol → homeHeld s (domeOf s a) = false →
      ∃ t, exec i s = .next t ∧ t.hostReply = s.hostReply ++ [some (devRead s a x.len)]
        ∧ memReads t.mem a x.len = bytesOf x.len (atomNew op x.len (natOf (devRead s a x.len)) d)
        ∧ (∀ b, b < a ∨ a + x.len ≤ b → memRead t.mem b = memRead s.mem b)
        ∧ granOf t a = { ver := (granOf s a).ver + 1, owner := none })
    ∧ (∀ a tol, xlate s x.ctx x.va (outNeed x.op) false = .ok .dev a tol → homeHeld s (domeOf s a) = true → exec i s = .next s)
    ∧ ((∀ a tol, xlate s x.ctx x.va (outNeed x.op) false ≠ .ok .dev a tol) →
      (frFull s = false → exec i s = .next (postFault { walkHit s x.ctx x.va with hostReply := s.hostReply ++ [none] }
        { w0 := dw (9 * 2 ^ 8), w1 := dw (x.ctx * 2 ^ 58), w2 := dw x.va, w3 := 0 }))
      ∧ (frFull s = true → exec i s = .next s))))
  ∧ (∀ s (x : OutAccess), s.hostDown = true → exec (.hostAccess x) s = .next s)
  ∧ (∀ s peer (x : OutAccess), feature s 8 = false ∨ routeLive s peer = false ∨ linkLost s (.peer peer) = true →
      exec (.peerAccess peer x) s = .next s)
  ∧ (∀ s (x : OutAccess) i, i = .hostAccess x ∨ (∃ peer, i = .peerAccess peer x) → x.len = 0 ∨ 8 < x.va % 8 + x.len →
      exec i s = .next s)
  ∧ (∀ s, exec (.linkDown .host) s = .next { s with hostDown := true })
  ∧ (∀ s p, ∃ t, exec (.linkDown (.port p)) s = .next t ∧ p ∈ t.portsDown ∧ (∀ q, q ∈ s.portsDown → q ∈ t.portsDown)
      ∧ (∀ q, q ∈ t.portsDown → q = p ∨ q ∈ s.portsDown) ∧ t = { s with portsDown := t.portsDown })
  ∧ (∀ s (w : Walker) va, mfind s.ctxs w.ctx = none → exec (.pageWalk w va) s = .next s)
  ∧ (∀ s (w : Walker) va c, mfind s.ctxs w.ctx = some c →
      (∃ a, a ∈ walkAddrs s va 4 3 c.root ∧ homeHeld s (domeOf s a) = true) → exec (.pageWalk w va) s = .next s)
  ∧ (∀ s (w : Walker) va c leaf lvl, mfind s.ctxs w.ctx = some c → w.core < 192 →
      (∀ a, a ∈ walkAddrs s va 4 3 c.root → homeHeld s (domeOf s a) = false) →
      walk s va 4 3 c.root = .ok (leaf, lvl) →
      ∃ t, exec (.pageWalk w va) s = .next t ∧ t.mem = s.mem ∧ t.cores = s.cores
        ∧ ∀ h, h = w.core ∨ h = 192 + w.core / 24 →
          { holder := h, ctx := w.ctx, vpn := alignDown va (leafBytes lvl leaf) / 4096
            npg := leafBytes lvl leaf / 4096, leaf := leaf } ∈ t.tlb
          ∧ ∀ e, e ∈ t.tlb → e ∈ s.tlb ∨ (e.ctx = w.ctx ∧ e.vpn = alignDown va (leafBytes lvl leaf) / 4096 ∧ e.leaf = leaf))
  ∧ (∀ s (w : Walker) va c x, mfind s.ctxs w.ctx = some c → walk s va 4 3 c.root = .error x →
      ∃ t, exec (.pageWalk w va) s = .next t ∧ t.mem = s.mem ∧ t.tlb = s.tlb ∧ t.cores = s.cores)

/-! ### Tiles -/

/-- TALLOC, TFREE and TRING (R64, R167 to R170, R173 to R175, R248, R437, R438): TALLOC answers its status and, at status 0, binds the handle
to a zeroed tile: 3 refuses the silo word of a frame tile, 2 a handle that is bound, 1 a full tile table or a unit without a free span,
and else the tile goes to the lowest free span. TFREE frees a tile that no engine command names, and traps on an unbound handle. TRING
acts on the ring of a bound ring tile, waits while its operation must, and before a release for what the group made before (R424), and
traps with BOUNDS as its table says. The order of the statuses, and the handle and index of that trap, are the model's readings
(assumptions 60, 61). -/
def Obligations.TileAllocation : Prop :=
  (∀ g kind d a shape s c,
      Clears s c g { srcs := [(a, true)], dst := some (d, false), horizon := true, uses := [.tile (shapeTh shape)] } →
      (kind = .frame → feature s 1 = true ∧ shapeRows shape % c.w = 0) →
      let silo := opnd c [(a, true)] 0 (lowLane c.p.mask)
      let r := tallocStatus s c kind silo shape
      ∃ g1, DstHolds c d false (fun _ => dw r.1) c.g g1
        ∧ Completes c (exec (.talloc g kind d a shape) s)
            (setGroup (if r.1 = 0 then
                scrWrites (setTile s c.core (mfree (getCore s c.core).tiles) (newTile c.g.unit kind silo shape r.2)) c.core r.2
                  (List.replicate (tileSpan (shapeRows shape) (shapeRowBytes shape)) 0)
              else s) c.core c.gslot g1))
  ∧ (∀ g (h : BitVec 6) s c, Clears s c g { horizon := true, uses := [.tile h.toNat] } →
      (findTile s c.core c.g.unit h.toNat = none → exec (.tfree g h) s
        = .next (takeTrap s c.core c.gslot (mkTrap 0x12 c.slot c.p .next (dw h.toNat) 0)))
      ∧ ∀ i t, findTile s c.core c.g.unit h.toNat = some (i, t) →
        (tileNamed s c.core c.g.unit h.toNat = true → exec (.tfree g h) s = .next s)
        ∧ (tileNamed s c.core c.g.unit h.toNat = false → t.kind ≠ .frame ∨ (filledRows s c.core t = [] ∧ t.bin.held = 0) →
          Completes c (exec (.tfree g h) s)
            (setCore s c.core { getCore s c.core with tiles := mdel (getCore s c.core).tiles i })))
  ∧ (∀ g op d a (th : BitVec 6) logs p s c ix t r v,
      let us : List SrcUse := if ringReadsSa op then [(a, true)] else []
      Clears s c g { srcs := us, dst := some (d, true), horizon := true, uses := [.tile th.toNat] } →
      findTile s c.core c.g.unit th.toNat = some (ix, t) → t.kind = .ring →
      ringStep t op (opnd32 c us 0 (lowLane c.p.mask)) logs.toNat p.toNat = .done r v →
      (ringReleases op = true → released c.g = true) →
      ∃ g1, DstHolds c d true (fun _ => dw v) c.g g1
        ∧ Completes c (exec (.tring g op d a th logs p) s)
            (setGroup (if ringAcquires op then acquire (setTile s c.core ix { t with ring := r }) c.core
              else setTile s c.core ix { t with ring := r }) c.core c.gslot g1))
  ∧ (∀ s (c : Cx) kind (silo : DWord) (shape : BitVec 32) u, getUnit s c.core c.g.unit = some u →
      (∀ kv ∈ (getCore s c.core).tiles, kv.2.unit = c.g.unit → kv.2.base % 128 = 0 ∧ u.resOff ≤ kv.2.base) →
      let span := tileSpan (shapeRows shape) (shapeRowBytes shape)
      let scap := wfld silo 52 12
      let sbase := wfld silo 12 40
      let refused : Prop := kind = TileKind.frame ∧ (wfld silo 0 12 ≠ 0 ∨ (scap = 0 ∧ sbase ≠ 0) ∨ (scap ≠ 0 ∧ sbase = 0)
        ∨ 2 ^ 52 < sbase * 4096 + scap * 256 * shapeRowBytes shape)
      let taken : Prop := (findTile s c.core c.g.unit (shapeTh shape)).isSome = true
      let fits (x : Nat) : Prop := x % 128 = 0 ∧ u.resOff ≤ x ∧ x + span ≤ u.resOff + u.tileBytes
        ∧ ∀ kv ∈ (getCore s c.core).tiles, kv.2.unit = c.g.unit →
            x + span ≤ kv.2.base ∨ kv.2.base + tileSpan kv.2.rows kv.2.rowBytes ≤ x
      let r := tallocStatus s c kind silo shape
      (refused → r.1 = 3) ∧ (¬refused → taken → r.1 = 2)
      ∧ (¬refused → ¬taken → (256 ≤ (getCore s c.core).tiles.length ∨ ∀ x, ¬fits x) → r.1 = 1)
      ∧ (¬refused → ¬taken → (getCore s c.core).tiles.length < 256 → ∀ x, fits x → r.1 = 0 ∧ fits r.2 ∧ r.2 ≤ x))
  ∧ (∀ g op d a (th : BitVec 6) logs p s c,
      let us : List SrcUse := if ringReadsSa op then [(a, true)] else []
      let i := opnd32 c us 0 (lowLane c.p.mask)
      let bounds (n : Nat) : Out := .next (takeTrap s c.core c.gslot (mkTrap 0x12 c.slot c.p .next (dw (th.toNat + n * 2 ^ 16)) 0))
      Clears s c g { srcs := us, dst := some (d, true), horizon := true, uses := [.tile th.toNat] } →
      (findTile s c.core c.g.unit th.toNat = none → exec (.tring g op d a th logs p) s = bounds 0)
      ∧ ∀ ix t, findTile s c.core c.g.unit th.toNat = some (ix, t) →
        (t.kind ≠ .ring → exec (.tring g op d a th logs p) s = bounds 0)
        ∧ (t.kind = .ring → ringStep t op i logs.toNat p.toNat = .bounds →
            exec (.tring g op d a th logs p) s = bounds (if ringReadsSa op then i.toNat % 1024 else 0))
        ∧ (t.kind = .ring → ringStep t op i logs.toNat p.toNat = .wait → exec (.tring g op d a th logs p) s = .next s)
        ∧ (t.kind = .ring → (∃ r v, ringStep t op i logs.toNat p.toNat = .done r v) → op ∈ [RingOp.commit, .release, .eos] →
            released c.g = false → exec (.tring g op d a th logs p) s = .next s))
  ∧ (∀ (t : Tile) (i : BitVec 32) (logs p : Nat), let r := t.ring
      ringStep t .init i logs p = (if 6 < logs ∨ t.rows % 2 ^ logs ≠ 0 then .bounds else .done { inited := true, logs := logs } 0)
      ∧ (r.inited = false → ∀ op, op ≠ .init → ringStep t op i logs p = .bounds)
      ∧ (r.inited = true →
        ringStep t .reg i logs p = .done { r with preg := r.preg ||| (1 : BitVec 8) <<< p } 0
        ∧ ringStep t .reserve i logs p = (if r.preg.getLsbD p = false ∨ r.eos.getLsbD p = true then .bounds
            else if r.res - r.rls = BitVec.ofNat 32 (2 ^ r.logs) then .wait else .done { r with res := r.res + 1 } r.res.toNat)
        ∧ ringStep t .commit i logs p = (if r.res - r.cmt ≤ i - r.cmt then .bounds
            else if i = r.cmt then .done { r with cmt := r.cmt + 1 } 0 else .wait)
        ∧ ringStep t .acquire i logs p = (if r.cmt ≠ r.acq then .done { r with acq := r.acq + 1 } r.acq.toNat
            else if r.preg ≠ 0 ∧ r.eos = r.preg ∧ r.cmt = r.res then .done r (r.acq.toNat + 2 ^ 32) else .wait)
        ∧ ringStep t .release i logs p = (if r.acq - r.rls ≤ i - r.rls then .bounds
            else if i = r.rls then .done { r with rls := r.rls + 1 } 0 else .wait)
        ∧ ringStep t .eos i logs p = (if r.preg.getLsbD p = false then .bounds
            else .done { r with eos := r.eos ||| (1 : BitVec 8) <<< p } 0)
        ∧ ringStep t .state i logs p = .done r (r.free + r.filled * 2 ^ 8 + r.preg.toNat * 2 ^ 16 + r.eos.toNat * 2 ^ 24)))

/-- Where a tile goes, and what keeps rings sound (R168, R173, R174): a tile goes inside the unit's tile region, clear of the unit's
other tiles, 128-byte-aligned, and at the lowest such offset; under every operation of a ring its released, acquired, committed
and reserved slots follow each other, and no more slots are reserved than the ring has. -/
def Obligations.TilesAndRings : Prop :=
  (∀ (s : State) (core unit : Nat) (u : Machine.Unit) (span a : Nat),
    (∀ kv ∈ (getCore s core).tiles, kv.2.unit = unit → kv.2.base % 128 = 0 ∧ u.resOff ≤ kv.2.base) →
    0 < span → tilePlace s core unit u span = some a →
    let fits (x : Nat) : Prop := x % 128 = 0 ∧ u.resOff ≤ x ∧ x + span ≤ u.resOff + u.tileBytes
      ∧ ∀ kv ∈ (getCore s core).tiles, kv.2.unit = unit →
          x + span ≤ kv.2.base ∨ kv.2.base + tileSpan kv.2.rows kv.2.rowBytes ≤ x
    fits a ∧ ∀ x, fits x → a ≤ x)
  ∧ (
  let ok (r : Ring) : Prop := r.logs ≤ 6 ∧ (r.acq - r.rls).toNat ≤ (r.cmt - r.rls).toNat
    ∧ (r.cmt - r.rls).toNat ≤ (r.res - r.rls).toNat ∧ (r.res - r.rls).toNat ≤ 2 ^ r.logs
  (∀ t op i logs p r v, ok t.ring → ringStep t op i logs p = .done r v → ok r ∧ r.inited = true)
  ∧ (∀ t logs r v, ok t.ring → t.ring.inited = true → ∀ p, ringStep t .reserve 0 logs p = .done r v →
      v = t.ring.res.toNat ∧ t.ring.free = r.free + 1)
  ∧ (∀ t logs r v, ok t.ring → t.ring.inited = true → 0 < t.ring.filled → ∀ p, ringStep t .acquire 0 logs p = .done r v →
      v = t.ring.acq.toNat ∧ t.ring.filled = r.filled + 1))

/-- TRD, TWR and TXCH (R90, R171, R269, R337, R439): a slice inside its tile reads the lanes' elements, extended by the format, or writes
their low bytes, and a slice that leaves its tile traps with BOUNDS; watchpoints see the access. The index that TRAPINFO2 names, 0 for an
unbound handle and otherwise modulo 1024, is the model's reading (assumption 60), and so is the byte that a watchpoint reports
(assumption 62). -/
def Obligations.TileMoves : Prop :=
  (∀ g sl d s c t offs, Clears s c g { dst := some (d, false), uses := sliceUses sl } → sliceOffs s c sl = some (t, offs) →
      let s' := watch s c.core c.gslot c.g.unit t false 0 (sliceSpans t offs)
      ∃ g0 g1, getGroup s' c.core c.gslot = some g0 ∧ DstHolds c d false (fun l => zx (sliceVal s c.core t offs l)) g0 g1
        ∧ Completes c (exec (.trd g sl d) s) (setGroup s' c.core c.gslot g1))
  ∧ (∀ g sl a s c t offs, Clears s c g { srcs := u32 [a], uses := sliceUses sl, words := sliceWords c } →
      sliceOffs s c sl = some (t, offs) →
      let hist (g : Group) : Group :=
        if c.g.recording then histPush g c.ic 0x07 (sliceMemold s c t offs) else g
      Completes c (exec (.twr g sl a) s)
        (watch (sliceWrite (modGroup (consume c (u32 [a]) s) c.core c.gslot hist) c.core t offs (opnd32 c (u32 [a]) 0))
          c.core c.gslot c.g.unit t true 0 (sliceSpans t offs)))
  ∧ (∀ g sl d a s c t offs, (∀ i, d ≠ .dead i) →
      Clears s c g { srcs := u32 [a], dst := some (d, false), uses := sliceUses sl } → sliceOffs s c sl = some (t, offs) →
      ∃ g0 g1, getGroup (consume c (u32 [a]) s) c.core c.gslot = some g0
        ∧ DstHolds c d false (fun l => zx (sliceVal s c.core t offs l)) g0 g1
        ∧ Completes c (exec (.txch g sl d a) s)
            (watch (watch (sliceWrite (setGroup (consume c (u32 [a]) s) c.core c.gslot g1) c.core t offs
              (opnd32 c (u32 [a]) 0)) c.core c.gslot c.g.unit t false 0 (sliceSpans t offs))
              c.core c.gslot c.g.unit t true 0 (sliceSpans t offs)))
  ∧ (∀ g sl i a s c t offs,
      Clears s c g { srcs := u32 [a], dst := some (.dead i, false), uses := sliceUses sl, words := sliceWords c } →
      sliceOffs s c sl = some (t, offs) →
      ∃ g0 g1, getGroup (consume c (u32 [a]) s) c.core c.gslot = some g0
        ∧ DstHolds c (.dead i) false (fun l => zx (sliceVal s c.core t offs l))
            (if c.g.recording then histPush g0 c.ic 0x07 (sliceMemold s c t offs) else g0) g1
        ∧ Completes c (exec (.txch g sl (.dead i) a) s)
            (watch (watch (sliceWrite (setGroup (consume c (u32 [a]) s) c.core c.gslot g1) c.core t offs
              (opnd32 c (u32 [a]) 0)) c.core c.gslot c.g.unit t false 0 (sliceSpans t offs))
              c.core c.gslot c.g.unit t true 0 (sliceSpans t offs)))
  ∧ (∀ s c sl t offs (v : Nat → Word), sliceOffs s c sl = some (t, offs) →
      (∀ l, l ∈ lanes c.p.mask → scrReads (sliceWrite s c.core t offs v) c.core (laneOff offs l) (fmtBytes t.fmt)
        = bytesOf (fmtBytes t.fmt) (v l).toNat)
      ∧ ∀ a, (∀ l, l ∈ lanes c.p.mask → a < laneOff offs l ∨ laneOff offs l + fmtBytes t.fmt ≤ a) →
          scrReads (sliceWrite s c.core t offs v) c.core a 1 = scrReads s c.core a 1)
  ∧ (∀ g sl d s c, Clears s c g { dst := some (d, false), uses := sliceUses sl } → sliceOffs s c sl = none →
      exec (.trd g sl d) s = .next (takeTrap s c.core c.gslot (mkTrap 0x12 c.slot c.p .next
        (dw (sl.th.toNat + (if (findTile s c.core c.g.unit sl.th.toNat).isSome then sliceIdx c sl else 0) % 1024 * 2 ^ 16)) 0)))

/-- TCOLOP, TLD and TST (R440, R441): TCOLOP works row by row, on every row of a plain or ring tile and on the filled rows of a frame
tile, each element of the columns taking its operation's value, and completes with its last row; TLD and TST enter LQ and SQ with the
slice's elements. That TCOLOP is one row a step, and when watchpoints see the elements of TLD, are the model's readings (assumptions 61,
62). -/
def Obligations.TileColumnsAndMemory : Prop :=
  (∀ g op sl (n : BitVec 10) fmt a s c ix t r s0,
      let us : List SrcUse := [(a, true)]
      findTile s c.core c.g.unit sl.th.toNat = some (ix, t) →
      ((Clears s c g { srcs := us, uses := sliceUses sl, horizon := true } ∧ c.g.colop = none
          ∧ (op = .cvt → fmtBytes ((decFmt fmt).getD .s8) = fmtBytes t.fmt)
          ∧ t.fmt ≠ .a80 ∧ sliceIdx c sl + (n.toNat + 1) ≤ t.cols
          ∧ r = { slot := c.slot, th := sl.th.toNat, row := 0, col := sliceIdx c sl, b := opnd c us 0 (lowLane c.p.mask) }
          ∧ s0 = modGroup (consume c us s) c.core c.gslot fun g => { g with colop := some r })
        ∨ (enter s = some c ∧ c.g.colop = some r ∧ r.slot = c.slot ∧ s0 = s)) →
      let on : Bool := t.kind != .frame || hdrFilled (rowHdr s0 c.core t r.row)
      let x := if on then colRow s0 c.core t op ((decFmt fmt).getD .s8) r.row r.col (n.toNat + 1) r.b else (s0, 0)
      let spans := [(t.at_ r.row (r.col * fmtBytes t.fmt), (n.toNat + 1) * fmtBytes t.fmt)]
      let w := if on then
          watch (watch x.1 c.core c.gslot c.g.unit t false 0 spans) c.core c.gslot c.g.unit t true 0 spans else x.1
      (r.row + 1 < t.rows → exec (.tcolop g op sl n fmt a) s = .next (modGroup w c.core c.gslot fun g =>
        { g.flag x.2 with colop := some { r with row := r.row + 1 } }))
      ∧ (t.rows ≤ r.row + 1 → Completes c (exec (.tcolop g op sl n fmt a) s)
          (modGroup w c.core c.gslot fun g => { g.flag x.2 with colop := none })))
  ∧ (∀ s core (t : Tile) op tgt row col n (b : DWord),
      let e := fmtBytes t.fmt
      let r (j : Nat) : Nat × Flags := colElem t.fmt op tgt (tileElem s core t row (col + j)) (wfld b 0 (8 * e))
        (if op = .fma then wfld b 32 (8 * e) else 0)
      let x := colRow s core t op tgt row col n b
      (∀ j, j < n → scrReads x.1 core (t.at_ row ((col + j) * e)) e = bytesOf e (r j).1)
      ∧ (∀ k, k < t.at_ row (col * e) ∨ t.at_ row ((col + n) * e) ≤ k → scrReads x.1 core k 1 = scrReads s core k 1)
      ∧ (∀ i, i < 6 → x.2.getLsbD i = (List.range n).any fun j => (r j).2.getLsbD i))
  ∧ (∀ g sl acq host kb a s c t offs ps,
      Clears s c g { srcs := u32 [a], uses := .k kb.toNat :: sliceUses sl, horizon := true } →
      sliceOffs s c sl = some (t, offs) →
      accesses s c.g (if host then .host else .dev) (fmtBytes t.fmt) (fmtBytes t.fmt) .plainLoad c.p.mask
        (tileAddr c (u32 [a]) kb) = .ok ps →
      ∃ g0 e, getGroup (consume c (u32 [a]) s) c.core c.gslot = some g0
        ∧ e.seq = g0.seq + 1 ∧ e.kind = .tld ∧ e.dst = .tile c.g.unit sl.th.toNat offs ∧ e.acq = acq ∧ e.pieces = ps
        ∧ Completes c (exec (.tld g sl acq host kb a) s)
            (watch (setGroup (consume c (u32 [a]) s) c.core c.gslot { g0 with seq := g0.seq + 1, lq := g0.lq ++ [e] })
              c.core c.gslot c.g.unit t true 0 (sliceSpans t offs)))
  ∧ (∀ g sl rel host kb a s c t offs ps,
      Clears s c g { srcs := u32 [a], uses := .k kb.toNat :: sliceUses sl, horizon := true } →
      sliceOffs s c sl = some (t, offs) →
      accesses s c.g (if host then .host else .dev) (fmtBytes t.fmt) (fmtBytes t.fmt) .store c.p.mask
        (tileAddr c (u32 [a]) kb) = .ok ps →
      ∃ g0 e, getGroup (consume c (u32 [a]) s) c.core c.gslot = some g0
        ∧ e.seq = g0.seq + 1 ∧ e.kind = .st ∧ e.rel = rel ∧ e.wait = ps.length
        ∧ e.pieces = storePieces ps (fun l => scrReads s c.core (laneOff offs l) (fmtBytes t.fmt))
        ∧ Completes c (exec (.tst g sl rel host kb a) s)
            (watch (setGroup (consume c (u32 [a]) s) c.core c.gslot { g0 with seq := g0.seq + 1, sq := g0.sq ++ [e] })
              c.core c.gslot c.g.unit t false 0 (sliceSpans t offs)))

/-! ### Barriers and engine commands -/

/-- The barrier instructions (R177 to R180, R363 to R366): BINIT sets a barrier up, BARM arms it, BARV arrives, BWAIT waits
while the phase is its operand's and then acquires and reads the phase's status, and BTEST reads the barrier. A barrier at
or above NBAR traps with BOUNDS. That BARV waits for what the group made before is the model's reading (assumption 28). -/
def Obligations.BarrierInstructions : Prop :=
  (∀ g bar ka s c u b, Clears s c g { horizon := true, uses := [.k ka.toNat] } → findBar s c bar = some (u, b) →
      let v := c.g.kreg ka.toNat
      (wfld v 0 24 ≠ 0 → wfld v 24 8 < u.ngrp → barNamed s c.core c.g.unit bar.toNat = false →
        barWaited s c.core c.g.unit bar.toNat = false →
        Completes c (exec (.binit g bar ka) s) (setUnit s c.core c.g.unit
          { u.setBar bar.toNat { armgrp := wfld v 24 8, sectors := 0, reload := wfld v 0 24, pending := wfld v 0 24
                                 uiv := wfld v 32 8, uie := v.getLsbD 40, poison := false, phase := 0 } with
            phist := mdel u.phist bar.toNat }))
      ∧ (b.reload ≠ 0 → wfld v 24 8 < u.ngrp →
        Completes c (exec (.barm g bar ka) s) (setUnit s c.core c.g.unit
          (u.setBar bar.toNat { b with armgrp := wfld v 24 8, uiv := wfld v 32 8, uie := v.getLsbD 40 })))
      ∧ (b.reload ≠ 0 → released c.g = true →
        ∀ s', arrive s c.core c.g.unit bar.toNat (v.setWidth 32) 1 false = some s' →
          Completes c (exec (.barv g bar ka) s) s'))
  ∧ (∀ g d bar ka s c u b, Clears s c g { dst := some (d, false), uses := [.k ka.toNat] } → findBar s c bar = some (u, b) →
      b.reload ≠ 0 → b.phase ≠ wfld (c.g.kreg ka.toNat) 0 4 →
      ∃ g1, DstHolds c d false
          (fun _ => if (mget 0 u.phist bar.toNat).getLsbD (wfld (c.g.kreg ka.toNat) 0 4) then 1 else 0) c.g g1
        ∧ Completes c (exec (.bwait g d bar ka) s) (setGroup (acquire s c.core) c.core c.gslot g1))
  ∧ (∀ g d bar ka s c u b, Clears s c g { dst := some (d, false), uses := [.k ka.toNat] } → findBar s c bar = some (u, b) →
      b.reload ≠ 0 → b.phase = wfld (c.g.kreg ka.toNat) 0 4 → exec (.bwait g d bar ka) s
        = .next (setGroup s c.core c.gslot (c.g.setPath c.slot (some { c.p with bwait := some (bar.toNat, c.p.ii) }))))
  ∧ (∀ g d bar s c u b, Clears s c g { dst := some (d, false) } → findBar s c bar = some (u, b) →
      ∃ g1, DstHolds c d false (fun _ => dw (b.phase + (if b.poison then 16 else 0) + b.pending * 2 ^ 8
          + b.sectors.toNat * 2 ^ 32)) c.g g1
        ∧ Completes c (exec (.btest g d bar) s) (setGroup s c.core c.gslot g1))
  ∧ (∀ g d bar s c, Clears s c g { dst := some (d, false) } → findBar s c bar = none →
      exec (.btest g d bar) s
        = .next (takeTrap s c.core c.gslot (mkTrap 0x12 c.slot c.p .next (dw (bar.toNat * 2 ^ 16)) 0)))

/-- Arrive (R105, R177, R179, R182): an arrival subtracts its count and adds its sectors; the last one of a phase, with no sector
outstanding, moves the phase on modulo 16, reloads the count, files the phase's status and clears the poison, and with UIE
appends a cause to the armed group, where its queue has room; an arrival at a barrier that is not set up only adds sectors. -/
def Obligations.BarrierPhases : Prop :=
  ∀ (s : State) (core unit bar : Nat) (ds : BitVec 32) (n : Nat) (p : Bool) (u : Machine.Unit), getUnit s core unit = some u →
    let b := u.bar bar
    (b.reload = 0 →
      arrive s core unit bar ds n p = some (setUnit s core unit (u.setBar bar { b with sectors := b.sectors + ds })))
    ∧ (b.reload ≠ 0 → n = 1 → b.pending = 0 → arrive s core unit bar ds n p = none)
    ∧ (b.reload ≠ 0 → n = 0 ∨ b.pending ≠ 0 → n ≤ 1 → ¬(b.pending - n = 0 ∧ b.sectors + ds = 0) →
      arrive s core unit bar ds n p = some (setUnit s core unit
        (u.setBar bar { b with sectors := b.sectors + ds, pending := b.pending - n, poison := b.poison || p })))
    ∧ (b.reload ≠ 0 → n = 0 ∨ b.pending ≠ 0 → n ≤ 1 → b.pending - n = 0 ∧ b.sectors + ds = 0 →
      let done (h : BitVec 16) : Machine.Unit :=
        { u.setBar bar { b with sectors := 0, pending := b.reload, poison := false, phase := (b.phase + 1) % 16 } with
          phist := mput 0 u.phist bar h }
      let files (h : BitVec 16) : Prop := b.phase < 16 → ∀ k, k < 16 → h.getLsbD k
        = if k = b.phase then (b.poison || p) else (mget 0 u.phist bar).getLsbD k
      (b.uie = false ∨ armTarget s core unit b.armgrp = none →
        ∃ h, arrive s core unit bar ds n p = some (setUnit s core unit (done h)) ∧ files h)
      ∧ ∀ gs g, b.uie = true → armTarget s core unit b.armgrp = some (gs, g) →
        (16 ≤ g.causes.length → arrive s core unit bar ds n p = none)
        ∧ (g.causes.length < 16 → ∃ h, files h ∧ arrive s core unit bar ds n p
          = some (setUnit (setGroup s core gs
              { g with causes := g.causes ++ [dw ((if b.poison || p then 2 else 1) + bar * 2 ^ 8 + b.phase * 2 ^ 16)] })
            core unit (done h))))

/-- The matrix commands (R93, R191 to R197, R201, R416, R417): the fields of the entry that each pushes, and its traps. That a BOUNDS of a
range of rows names the buffer's selector and the first row in TRAPINFO2 is the model's reading (assumption 60). -/
def Obligations.MatrixCommands : Prop :=
  (∀ g sp src rbase fmt x, MatrixEnters (.mxlds g sp src rbase fmt x) g x sp [.k 0]
      (fun s c => if ldsRoom s c.core c.g.unit sp x.pair src.toNat rbase.toNat then none
        else some (selHandle src.toNat, rbase.toNat))
      fun c => { op := 0xB0, md := if sp then 1 else 0, fmt := fmt.code.toNat, rbase := rbase.toNat, src := src.toNat
                 karg := kargOf c 0 })
  ∧ (∀ g x, MatrixEnters (.mxswap g x) g x false [.k 0] (fun _ _ => none) fun c => { op := 0xB1, karg := kargOf c 0 })
  ∧ (∀ g z src dsel rbase rows kve kv fmt ka x, MatrixEnters (.mxstr g z src dsel rbase rows kve kv fmt ka x) g x false
      (.k ka.toNat :: if kve then [.k kv.toNat] else [])
      (fun s c => if selUnbound s c.core c.g.unit src.toNat then some (src.toNat, 0) else none)
      fun c => { op := 0xB2, md := if z then 1 else 0, fmt := fmt.code.toNat, rbase := rbase.toNat, rows := rows.toNat
                 src := src.toNat, dsel := dsel.toNat
                 valid := if kve then wfld (c.g.kreg kv.toNat) 0 32 else rows.toNat + 1, karg := kargOf c ka })
  ∧ (∀ g sat src dsel rbase rows kve kv fmt ka x, MatrixEnters (.mxdrain g sat src dsel rbase rows kve kv fmt ka x) g x false
      (.k ka.toNat :: if kve then [.k kv.toNat] else [])
      (fun s c => if drainRoom s c.core c.g.unit x.pair fmt dsel.toNat rbase.toNat (rows.toNat + 1)
          (kargOf c ka % 2 ^ 12) then none else some (selHandle dsel.toNat, rbase.toNat))
      fun c => { op := 0xB3, md := if sat then 1 else 0, fmt := fmt.code.toNat, rbase := rbase.toNat, rows := rows.toNat
                 src := src.toNat, dsel := dsel.toNat
                 valid := if kve then wfld (c.g.kreg kv.toNat) 0 32 else rows.toNat + 1, karg := kargOf c ka })
  ∧ (∀ g dsel x, MatrixEnters (.mxzero g dsel x) g x false [.k 0] (fun _ _ => none) fun c =>
      { op := 0xB4, dsel := dsel.toNat, karg := kargOf c 0 })
  ∧ (∀ (f : MxFields) (x : MxCommon) (gd : Guard), f.op < 2 ^ 8 → f.md < 2 ^ 4 → f.src < 2 ^ 7 → f.dsel < 2 ^ 7 → f.rows < 2 ^ 6 →
      f.rbase < 2 ^ 10 → f.fmt < 2 ^ 8 → f.valid < 2 ^ 32 → f.karg < 2 ^ 32 →
      let n := (mxEntry f x gd).toNat
      n % 2 ^ 8 = f.op ∧ n / 2 ^ 12 % 2 ^ 4 = f.md ∧ n / 2 ^ 16 % 2 ^ 8 = x.bar.toNat
      ∧ n / 2 ^ 24 % 2 = (if x.be then 1 else 0) ∧ n / 2 ^ 25 % 2 ^ 7 = f.src ∧ n / 2 ^ 32 % 2 ^ 7 = f.dsel
      ∧ n / 2 ^ 39 % 2 = (if x.pair then 1 else 0) ∧ n / 2 ^ 40 % 2 ^ 6 = f.rows ∧ n / 2 ^ 46 % 2 ^ 10 = f.rbase
      ∧ n / 2 ^ 56 % 2 ^ 8 = f.fmt ∧ n / 2 ^ 64 % 2 ^ 32 = f.valid ∧ n / 2 ^ 96 = f.karg
      ∧ n / 2 ^ 8 % 2 ^ 4 = (match gd with | none => 0 | some gs => 8 + gs.toNat))

/-- The engine queues (R61, R62, R94, R207, R214, R215, R368 to R370, R415, R445): ENQ, CPSTART and VDSUB push an entry of 128
bits, or wait while the subqueue holds 16; DEQ pops a status queue and writes all 64 bits; CPSTAT and VDSTAT count what
waits, runs and has been reported; QTICK sets tickets. That counts stop at 255 is the model's reading (assumption 64). -/
def Obligations.EngineQueues : Prop :=
  (∀ g kve kv ka s c, Clears s c g (enginePre c g { uses := .k ka.toNat :: if kve then [.k kv.toNat] else [] }) →
      (16 ≤ c.g.e2.length → exec (.cpstart g kve kv ka) s = .next s)
      ∧ (c.g.e2.length < 16 → Completes c (exec (.cpstart g kve kv ka) s) (setGroup s c.core c.gslot
          { c.g with e2 := c.g.e2 ++ [{
              bits := BitVec.ofNat 128 (wfld (c.g.kreg ka.toNat) 0 52
                + (if kve then wfld (c.g.kreg kv.toNat) 0 32 else 0xFFFFFFFF) * 2 ^ 64)
              guard := g, enq := false, seq := c.g.seq }] })))
  ∧ (∀ g ka s c, feature s 3 = true → Clears s c g (enginePre c g { uses := [.k ka.toNat] }) →
      (16 ≤ c.g.e4.length → exec (.vdsub g ka) s = .next s)
      ∧ (c.g.e4.length < 16 → Completes c (exec (.vdsub g ka) s) (setGroup s c.core c.gslot
          { c.g with e4 := c.g.e4 ++ [{ bits := BitVec.ofNat 128 (wfld (c.g.kreg ka.toNat) 0 52), guard := g, enq := false
                                        seq := c.g.seq }] })))
  ∧ (∀ g a b s c,
      let us : List SrcUse := [(a, true), (b, true)]
      let l := lowLane c.p.mask
      Clears s c g (enginePre c g { srcs := us, early := (us.map srcUses).flatten }) → c.g.e2.length < 16 →
      Completes c (exec (.enq g 2 a b) s) (setGroup s c.core c.gslot
        { c.g with e2 := c.g.e2 ++ [{ bits := BitVec.ofNat 128 ((opnd c us 0 l).toNat + (opnd c us 1 l).toNat * 2 ^ 64)
                                      guard := g, enq := true, seq := c.g.seq }] }))
  ∧ (∀ g a b s c,
      let us : List SrcUse := [(a, true), (b, true)]
      feature s 3 = true → Clears s c g (enginePre c g { srcs := us, early := (us.map srcUses).flatten }) →
      c.g.e4.length < 16 →
      Completes c (exec (.enq g 4 a b) s) (setGroup s c.core c.gslot
        { c.g with e4 := c.g.e4 ++ [{ bits := BitVec.ofNat 128 ((opnd c us 0 (lowLane c.p.mask)).toNat % 2 ^ 52), guard := g
                                      enq := true, seq := c.g.seq }] }))
  ∧ (∀ a b s c,
      let us : List SrcUse := [(a, true), (b, true)]
      let l := lowLane c.p.mask
      let bits : BitVec 128 := BitVec.ofNat 128 ((opnd c us 0 l).toNat + (opnd c us 1 l).toNat * 2 ^ 64)
      let gd : Guard := if bits.getLsbD 11 then some (bits.extractLsb' 8 3) else none
      mxUses s c.core c.g.unit = true →
      Clears s c none (enginePre c gd { srcs := us, early := (us.map srcUses).flatten }) → c.g.e0.length < 16 →
      Completes c (exec (.enq none 0 a b) s) (setGroup s c.core c.gslot
        { c.g with e0 := c.g.e0 ++ [{ bits := bits, guard := gd, enq := true, seq := c.g.seq }], mxseq := c.g.mxseq + 1 }))
  ∧ (∀ g d (e : BitVec 3) s c, e = 1 ∨ e = 3 ∨ e = 5 →
      let us : List SrcUse := [(.sel (0x10 + e.setWidth 8), true)]
      Clears s c g { srcs := us, dst := some (d, true) } →
      ∃ x xs g0 g1, c.g.status e.toNat = x :: xs ∧ getGroup (consume c us s) c.core c.gslot = some g0
        ∧ g0 = c.g.setStatus e.toNat xs ∧ DstHolds c d true (fun _ => x.bits) g0 g1
        ∧ Completes c (exec (.deq g d e) s) (setGroup (consume c us s) c.core c.gslot g1))
  ∧ (∀ g d s c, Clears s c g { dst := some (d, false) } →
      ∃ g1, DstHolds c d false (fun _ => dw (min c.g.e2.length 255
          + min ((getCore s c.core).chans.filter fun kv => kv.2.gslot == c.gslot).length 255 * 2 ^ 8
          + min c.g.e3.length 255 * 2 ^ 16)) c.g g1
        ∧ Completes c (exec (.cpstat g d) s) (setGroup s c.core c.gslot g1))
  ∧ (∀ g d s c, feature s 3 = true → Clears s c g { dst := some (d, false) } →
      ∃ g1, DstHolds c d false (fun _ => dw (min c.g.e4.length 255
          + min (s.decs.filter fun kv => kv.2.core == c.core && kv.2.gslot == c.gslot).length 255 * 2 ^ 8
          + min c.g.e5.length 255 * 2 ^ 16)) c.g g1
        ∧ Completes c (exec (.vdstat g d) s) (setGroup s c.core c.gslot g1))
  ∧ (∀ g e t s c, Clears s c g { horizon := true } →
      Completes c (exec (.qtick g e t) s) (setGroup s c.core c.gslot { c.g with
        tmx := { c.g.tmx with t := if e = 0 ∨ e = 3 then t.toNat else c.g.tmx.t }
        tcp := { c.g.tcp with t := if e = 1 ∨ e = 3 then t.toNat else c.g.tcp.t }
        tvd := { c.g.tvd with t := if e = 2 ∨ e = 3 then t.toNat else c.g.tvd.t } }))

/-! ### Jobs -/

/-- LAUNCH, CANCEL, CCNT and DBGMB (R45 to R49, R371, R374, R391, R392): LAUNCH reads its packet granule by granule, copies it to the
queue's ring behind the others and returns the append count; CCNT and CANCEL return the entry's first word, and CANCEL of a DONE or a free entry
does nothing; DBGMB posts its value to the mailbox, or waits while the status ring is full. They wait for a stack that retrains (R341).
Where rings and job tables lie, and the wait of LAUNCH, are the model's readings (assumptions 7, 28). -/
def Obligations.JobInstructions : Prop :=
  (∀ g d k q s c a tol s' bs sub, Clears s c g { uses := [.k k.toNat], dst := some (d, false), horizon := true } →
      let p := (c.g.kreg k.toNat).toNat
      let x := mget {} s.lqs (c.g.ctx * 16 + q.toNat)
      let r := x.base * 4096 + 64 * (x.append % 2 ^ x.logn)
      p % 64 = 0 → walkHeld s c.g.ctx p = false → xlate s c.g.ctx p .load false = .ok .dev a tol → x.v = true →
      released c.g = true → x.packets.length < 2 ^ x.logn →
      (c.p.half = none → coreRead s c.core c.g.ctx p 32 = .ok (s', bs, sub) →
        exec (.launch g d k q) s = .next (setGroup s' c.core c.gslot
          (c.g.setPath c.slot (some { c.p with half := some (c.p.ii, bs, sub) }))))
      ∧ (∀ bs0 sub0, c.p.half = some (c.p.ii, bs0, sub0) → bs0.length = 32 →
          coreRead s c.core c.g.ctx (p + 32) 32 = .ok (s', bs, sub) →
        (ringHeld s x = true → exec (.launch g d k q) s = .next s)
        ∧ (ringHeld s x = false → ∃ s1 g1 held, DstHolds c d false (fun _ => dw (x.append % 2 ^ 32)) c.g g1
          ∧ Completes c (exec (.launch g d k q) s) (setGroup s1 c.core c.gslot g1)
          ∧ mget {} s1.lqs (c.g.ctx * 16 + q.toNat)
              = { x with append := x.append + 1, packets := x.packets ++ [{ idx := x.append, held := held, stamp := s.tick }] }
          ∧ (held = none ↔ ∀ l, mfind s.launches c.g.launch = some l → l.done = true)
          ∧ (s.rowsBad = [] →
              memReads s1.mem r 64 = bs0 ++ bs
              ∧ ∀ b, b < r ∨ r + 64 ≤ b → memRead s1.mem b = memRead s.mem b))))
  ∧ (∀ s core ctx va a tol, va % 32 = 0 → walkHeld s ctx va = false → xlate s ctx va .load false = .ok .dev a tol →
      pathClear s core (homeOf s .dev a) = true → sectorBad s a = false →
      ∃ s', coreRead s core ctx va 32 = .ok (s', devRead s a 32, false) ∧ s'.mem = s.mem)
  ∧ (∀ g d k q s c, Clears s c g { uses := [.k k.toNat], dst := some (d, false), horizon := true } →
      (c.g.kreg k.toNat).toNat % 64 ≠ 0 → exec (.launch g d k q) s
        = .next (takeTrap s c.core c.gslot (mkTrap 0x03 c.slot c.p .reissue (dw (c.g.kreg k.toNat).toNat) 0)))
  ∧ (∀ g d a imm s c, Clears s c g { srcs := [(a, true)], dst := some (d, true), horizon := true } →
      let i := ((opnd c [(a, true)] 0 (lowLane c.p.mask)).toNat % 256 + imm.toNat) % 256
      let dead : Prop := jobKind s c.g.ctx i = 0 ∨ (jobRead s c.g.ctx i 0).getLsbD 63 = true
      (jobHeld s c.g.ctx i = true → exec (.ccnt g d a imm) s = .next s ∧ exec (.cancel g d a imm) s = .next s)
      ∧ (¬dead → jobsHeld s c.g.ctx = true → exec (.cancel g d a imm) s = .next s)
      ∧ ∃ g1, DstHolds c d true (fun _ => jobRead s c.g.ctx i 0) c.g g1
        ∧ let s1 := setGroup (jobHit s c.g.ctx i) c.core c.gslot g1
          (jobHeld s c.g.ctx i = false → Completes c (exec (.ccnt g d a imm) s)
            (if (jobRead s c.g.ctx i 0).getLsbD 63 then acquire s1 c.core else s1))
        ∧ (dead → jobHeld s c.g.ctx i = false → Completes c (exec (.cancel g d a imm) s) s1)
        ∧ (¬dead → jobsHeld s c.g.ctx = false → Completes c (exec (.cancel g d a imm) s) (jobCancel s1 c.g.ctx i)))
  ∧ (∀ g a s c, Clears s c g { srcs := [(a, true)], horizon := true } →
      (stFull s = true ∨ s.stPending ≠ [] → exec (.dbgmb g a) s = .next s)
      ∧ (stFull s = false → s.stPending = [] → Completes c (exec (.dbgmb g a) s)
          (stGroup s 11 c.core c.gslot 0 c.g c.slot c.p.ii c.p.mask (opnd c [(a, true)] 0 (lowLane c.p.mask)) 0)))

/-! ### Frame tiles and their coroutines -/

/-- SUSP (R250, R251, R255): each active lane's frame, a header with the group's slot and the lane's tag and then the carries, goes in lane
order to the lowest free row while the silo is empty, and from there on to the silo's head, each behind the last; the lanes leave, and
the history is emptied, with HORIZON on top while a lane of a recording group remains. Fewer free rows and silo places than lanes
trap with FRAMEFULL. WAKE, BINFLUSH and BINSTAT (R249, R253, R367): WAKE sets the awake bit of every asleep frame of the rows and of
the silo, or of those with the tag, and returns how many; BINFLUSH returns the frames of both that are awake and flushes the tile
where there are any; BINSTAT counts the filled and the awake rows, or the frames in the silo. A handle that names no frame tile
traps with BOUNDS. Waits of SUSP and WAKE for older accesses are the model's reading (assumption 28). -/
def Obligations.FrameInstructions : Prop :=
  (∀ g w ka s c s0 ix t d,
    Clears s c g { uses := [.k ka.toNat], horizon := true, commits := true } → c.g.counting = true → feature s 1 = true →
    released c.g = true → busy c.g [.n 0 64] = false →
    (suspNeed s c = 0 ∨ c.g.hbase.toNat + 8 * suspNeed s c ≤ c.g.hlim.toNat) →
    suspTile s c (wfld (c.g.kreg ka.toNat) 0 52) = .ok s0 ix t d → t.kind = .frame →
    let m := lanes c.p.mask
    let rows := if t.bin.held = 0 then min (freeRows s c.core t).length m.length else 0
    let js := (List.range (m.length - rows)).map fun i => (t.bin.head + i) % 2 ^ 32
    let bytes (l : Nat) : List Byte :=
      bytesOf 4 ((if w then 1 else 3) + c.gslot * 2 ^ 8 + (c.g.nreg (spCarry d 0) l).toNat % 2 ^ 16 * 2 ^ 16)
        ++ ((spCarries d).map fun i => bytesOf 4 (c.g.nreg i l).toNat).flatten
    ((freeRows s c.core t).length + (siloCap t - t.bin.held) < m.length →
      exec (.susp g w ka) s
        = .next (takeTrap s c.core c.gslot (mkTrap 0x0A c.slot c.p .reissue (dw t.th) 0)))
    ∧ (m.length - rows ≤ siloCap t - t.bin.held → spBytes d ≤ t.rowBytes → t.bin.head < 2 ^ 32 → t.bin.tail < 2 ^ 32 →
      siloFault s c.g.ctx t js (spBytes d) .store = none →
      (∀ j, j ∈ js → rangeBusy s c.core c.g.ctx (siloAt t j) (spBytes d) .store = false) →
      ∃ u g', exec (.susp g w ka) s = .next (settle u c.core c.gslot) ∧ getGroup u c.core c.gslot = some g'
        ∧ (∀ (i l r : Nat), i < rows → m[i]? = some l → (freeRows s c.core t)[i]? = some r →
            scrReads u c.core (t.at_ r 0) (spBytes d) = bytes l)
        ∧ u.mem = (((m.drop rows).zip js).foldl
            (fun v x => ctxWrite v c.core c.g.ctx (siloAt t x.2) (bytes x.1)) s0).mem
        ∧ mfind (getCore u c.core).tiles ix = some { t with bin := { t.bin with
            head := if js = [] then t.bin.head else (t.bin.head + js.length) % 2 ^ 32 } }
        ∧ g'.path c.slot = none ∧ g'.path (otherSlot c.slot) = c.g.path (otherSlot c.slot)
        ∧ g'.ic = c.g.ic + 1 ∧ g'.n = c.g.n ∧ g'.k = c.g.k ∧ g'.ptrace = []
        ∧ g'.hist = (if c.g.recording = true ∧ g'.ended = false then [histHeader c.g.ic 0 kHORIZON false] else [])))
  ∧ ((∀ g all d th ka s c ix t s0 hs sub,
      Clears s c g { uses := if all then [] else [.k ka.toNat], dst := some (d, false), horizon := true } →
      c.g.counting = true → feature s 1 = true → released c.g = true → findTile s c.core c.g.unit th.toNat = some (ix, t) →
      t.kind = .frame → 4 ≤ t.rowBytes → siloFault s c.g.ctx t (siloHeld t) 4 .load = none →
      siloHdrs s c.core c.g.ctx t = .ok (s0, hs, sub) →
      let hit (h : Nat) : Bool := hdrFilled h && !hdrAwake h
        && (all || decide (h / 2 ^ 16 % 2 ^ 16 = wfld (c.g.kreg ka.toNat) 0 16))
      let rows := (List.range t.rows).filter fun r => hit (rowHdr s c.core t r)
      let js := hs.filter fun j => hit j.2
      let woken (h : Nat) : Nat := h / 256 * 256 + 3
      siloFault s c.g.ctx t (js.map (·.1)) 4 .store = none →
      ∃ s1 g0 g1, getGroup s1 c.core c.gslot = some g0 ∧ g0 = { c.g with wpPend := g0.wpPend }
        ∧ hs.map (·.1) = siloHeld t
        ∧ (∀ r, r < t.rows → rowHdr s1 c.core t r
            = if hit (rowHdr s c.core t r) then woken (rowHdr s c.core t r) else rowHdr s c.core t r)
        ∧ s1.mem = (js.foldl (fun v j => ctxWrite v c.core c.g.ctx (siloAt t j.1) (bytesOf 4 (woken j.2))) s0).mem
        ∧ DstHolds c d false (fun _ => dw (rows.length + js.length)) g0 g1
        ∧ Completes c (exec (.wake g all d th ka) s) (setGroup s1 c.core c.gslot g1))
  ∧ (∀ g d (th : BitVec 7) s c ix t s0 hs sub,
      Clears s c g { dst := some (d, false), horizon := true, uses := [.tile th.toNat] } →
      c.g.counting = true → feature s 1 = true → findTile s c.core c.g.unit th.toNat = some (ix, t) →
      t.kind = .frame → siloFault s c.g.ctx t (siloHeld t) 4 .load = none →
      siloHdrs s c.core c.g.ctx t = .ok (s0, hs, sub) →
      let n := (awakeRows s c.core t).length + (hs.filter fun j => hdrAwake j.2).length
      let s1 := countSub s0 c.g.ctx sub
      ∃ g1, DstHolds c d false (fun _ => dw n) c.g g1
        ∧ Completes c (exec (.binflush g d th) s) (setGroup
            (if n = 0 then s1 else setTile s1 c.core ix { t with bin := { t.bin with flsh := true } }) c.core c.gslot g1))
  ∧ (∀ g silo d (th : BitVec 7) s c ix t, Clears s c g { dst := some (d, false), uses := [.tile th.toNat] } →
      c.g.counting = true → feature s 1 = true → findTile s c.core c.g.unit th.toNat = some (ix, t) →
      t.kind = .frame →
      ∃ g1, DstHolds c d false (fun _ => if silo then dw t.bin.held
            else dw ((filledRows s c.core t).length + (awakeRows s c.core t).length * 2 ^ 16)) c.g g1
        ∧ Completes c (exec (.binstat g silo d th) s) (setGroup s c.core c.gslot g1))
  ∧ (∀ g silo d (th : BitVec 7) s c, Clears s c g { dst := some (d, false), uses := [.tile th.toNat] } →
      c.g.counting = true → feature s 1 = true → findTile s c.core c.g.unit th.toNat = none →
      exec (.binstat g silo d th) s = .next (takeTrap s c.core c.gslot (mkTrap 0x12 c.slot c.p .next (dw th.toNat) 0))))

/-- Frame tiles on their own (R253 to R256): a ready bin starts a new group at the resume point whose lanes take the carries of
the lowest awake rows; the oldest silo frame moves into the lowest free row; a unit with no group left flushes its frame
tiles; and a unit left with asleep frames alone ends, with a KIND 8 record, once the fault ring has room (R320). The new group's lowest free slot and private slot are the model's choice
(assumption 36); the bytes of a moved silo frame and the fields of the KIND 8 record are its readings (assumptions 16, 15). -/
def Obligations.FramesResumeAndEnd : Prop :=
  (∀ s core unit th u ix t l d gs gss p ps,
      let w := pkW l.packet
      getUnit s core unit = some u → findTile s core unit th = some (ix, t) → mfind s.launches u.launch = some l →
      t.kind = .frame → (getCore s core).quiesced = false → ctxLive s u.ctx = true →
      w ≤ (awakeRows s core t).length ∨ (t.bin.flsh = true ∧ awakeRows s core t ≠ []) →
      t.bin.desc = some d → freeSlots s core = gs :: gss → privFree s u.launch l 1 = some (p :: ps) →
      lanesUsed s core + w ≤ 2048 → (unitGroups s core unit).length < 32 → tileNamed s core unit th = false →
      (∀ kv ∈ (getCore s core).groups, kv.2.unit = unit → ∀ r, kv.2.colop = some r → r.th ≠ th) →
      ∃ u' g, exec (.binResume core unit th) s = .next u' ∧ getGroup u' core gs = some g
        ∧ g.pathA = some { ii := spResume d, mask := fullMask ((awakeRows s core t).take w).length, fresh := true }
        ∧ g.pathB = none ∧ g.unit = unit ∧ g.launch = u.launch ∧ g.gidx = 0x100 + spNumber d ∧ g.priv = p ∧ g.ended = false
        ∧ ((spCarries d).Nodup → ∀ (j l r : Nat), j ≤ spNc d → l < w → (awakeRows s core t)[l]? = some r →
            g.nreg (spCarry d j) l = BitVec.ofNat 32 (natOf (scrReads s core (t.at_ r (4 + 4 * j)) 4)))
        ∧ (4 ≤ t.rowBytes → ∀ r, r < t.rows → hdrFilled (rowHdr u' core t r)
            = (hdrFilled (rowHdr s core t r) && !((awakeRows s core t).take w).contains r))
        ∧ (getCore u' core).gated = false)
  ∧ (∀ s core unit th u ix t d r rs s1 bs sub,
      getUnit s core unit = some u → findTile s core unit th = some (ix, t) → t.bin.desc = some d →
      freeRows s core t = r :: rs → t.kind = .frame → t.bin.held ≠ 0 → t.bin.paged = false →
      (getCore s core).quiesced = false → ctxLive s u.ctx = true →
      coreRead s core u.ctx (siloAt t t.bin.tail) (spBytes d) = .ok (s1, bs, sub) →
      ∃ u' f, exec (.siloMove core unit th) s = .next u' ∧ scrReads u' core (t.at_ r 0) bs.length = bs
        ∧ mfind (getCore u' core).tiles ix
            = some { t with bin := { t.bin with tail := (t.bin.tail + 1) % 2 ^ 32, flsh := f } }
        ∧ u'.ctxs = (countSub s1 u.ctx sub).ctxs)
  ∧ (∀ s core unit u, getUnit s core unit = some u → unitQuiet s core unit = true → (getCore s core).quiesced = false →
      ∃ u', exec (.unitFrameFlush core unit) s = .next u'
        ∧ ∀ ix t, mrising (getCore s core).tiles = true → mfind (getCore s core).tiles ix = some t →
          t.unit = unit → t.kind = .frame →
          ∃ t', mfind (getCore u' core).tiles ix = some t'
            ∧ t' = { t with bin := { t.bin with flsh := t.bin.flsh || awakeSome s core u.ctx t } })
  ∧ (∀ s core unit u l, getUnit s core unit = some u → mfind s.launches u.launch = some l →
      unitQuiet s core unit = true → frameCount s core unit ≠ 0 → (getCore s core).quiesced = false →
      (∀ kv ∈ unitFrames s core unit, awakeCount s core u.ctx kv.2 = some 0) → jobsHeld s u.ctx = false → frFull s = false →
      exec (.framesDiscarded core unit) s = .next (postFault (endUnit s core unit u)
        { w0 := dw (8 * 2 ^ 8), w1 := dw (u.ctx * 2 ^ 58 + core * 2 ^ 50 + unit * 2 ^ 43)
          w2 := dw (frameCount s core unit), w3 := dw (pkCnt l.packet + l.serial * 2 ^ 8) }))

/-! ### A group's own events -/

/-- What happens at a path's boundary (R33, R75, R77, R183, R184, R318, R336, R341): a line fetch caches the line, traps, or waits while
its stack retrains; merges and reloads happen; a breakpoint that the path has not passed halts its group and reports KIND 3, but after
the traps and causes that are due; a due trap is taken, one that falls due between instructions with return Next; and the oldest cause is
delivered to the handler that its vector names, under REC with HORIZON on top of the history, which must fit below HLIM, the trap of its
vector's read returning to the same point; an arrival that waited is applied. HISTFULL at a delivery, and the return of the vector's
trap, are the model's readings (assumptions 34, 35). -/
def Obligations.BoundaryEvents : Prop :=
  (∀ s core gslot sl g p, pathReady s core gslot sl = some (g, p) →
      let late (code : BitVec 8) (i2 i3 : DWord) : TrapBlock :=
        { code := code, slot := sl, ret := .next, rii := p.ii, i0 := dw (p.ii.toNat * 2 ^ 16 + code.toNat), i1 := p.mask, i2 := i2
          i3 := i3 }
      (lineHeld s core g.ctx g.launch (iiLine p.ii) = true → exec (.instructionLineFetch core gslot sl) s = .next s)
      ∧ (lineHeld s core g.ctx g.launch (iiLine p.ii) = false →
        (∀ b, readLine s core g.ctx g.launch (iiLine p.ii) = .ok b → ∃ t, exec (.instructionLineFetch core gslot sl) s = .next t
          ∧ icacheFind (getCore t core) g.launch (iiLine p.ii) = some b ∧ getGroup t core gslot = some g ∧ t.mem = s.mem)
        ∧ (tidied s core gslot g = true → dueTrap g sl p = none → uiDue g = false →
          (readLine s core g.ctx g.launch (iiLine p.ii) = .par → exec (.instructionLineFetch core gslot sl) s
            = .next (takeTrap s core gslot (mkTrap 0x13 sl p .reissue 0 0)))
          ∧ (readLine s core g.ctx g.launch (iiLine p.ii) = .page → exec (.instructionLineFetch core gslot sl) s
            = .next (takeTrap s core gslot (mkTrap 0x04 sl p .reissue (dw (iiLine p.ii * 64)) 2)))
          ∧ (readLine s core g.ctx g.launch (iiLine p.ii) = .prot → exec (.instructionLineFetch core gslot sl) s
            = .next (takeTrap s core gslot (mkTrap 0x05 sl p .reissue (dw (iiLine p.ii * 64)) 2))))
        ∧ ((∀ b, readLine s core g.ctx g.launch (iiLine p.ii) ≠ .ok b) →
            tidied s core gslot g = false ∨ dueTrap g sl p ≠ none ∨ uiDue g = true →
            exec (.instructionLineFetch core gslot sl) s = .next s))
      ∧ (p.ii ∉ p.bp → g.step = none → atBreakpoint s g p = true → tidied s core gslot g = true → dueTrap g sl p = none →
          uiDue g = false → exec (.breakpointHalt core gslot sl) s
          = .next (setGroup (stGroup s 3 core gslot 0 g sl p.ii p.mask 0 0) core gslot
              { g.setPath sl (some { p with bp := p.ii :: p.bp }) with
                  halted := true, trapinfo0 := dw (p.ii.toNat * 2 ^ 16 + 0x0E), trapinfo1 := p.mask, trapinfo2 := 0
                  trapinfo3 := 0 }))
      ∧ (p.ii ∈ p.bp ∨ dueTrap g sl p ≠ none ∨ uiDue g = true ∨ tidied s core gslot g = false →
          exec (.breakpointHalt core gslot sl) s = .next s)
      ∧ (atBoundary g = true → ∀ tb, g.pend = some tb → exec (.contextTrapDelivery core gslot sl) s
          = .next (takeTrap (setGroup s core gslot
              { g with pend := none, mxnan := if tb.code = 0x08 then none else g.mxnan }) core gslot tb))
      ∧ (tidied s core gslot g = true → ∀ i2 i3, g.mxnan = some (i2, i3) → exec (.contextTrapDelivery core gslot sl) s
          = .next (takeTrap (setGroup s core gslot { g with mxnan := none }) core gslot (late 0x08 i2 i3)))
      ∧ (tidied s core gslot g = true → ∀ i2 i3 es, g.mxnan = none → g.engPend = (i2, i3) :: es →
          exec (.contextTrapDelivery core gslot sl) s
            = .next (takeTrap (setGroup s core gslot { g with engPend := es }) core gslot (late 0x0C i2 i3)))
      ∧ (atBoundary g = false → exec (.contextTrapDelivery core gslot sl) s = .next s))
  ∧ (∀ s core gslot g g', getGroup s core gslot = some g → g.moves = true → g'.hsp = g.hsp ∨ g'.hsp.toNat ≤ g.hlim.toNat →
      (mergeOnce g = some g' → exec (.joinMerge core gslot) s = .next (backAux 130 (setGroup s core gslot g') core gslot))
      ∧ (reloadOnce g = some g' → exec (.pathReload core gslot) s = .next (backAux 130 (setGroup s core gslot g') core gslot)))
  ∧ (∀ s core gslot sl g p u cause rest, pathReady s core gslot sl = some (g, p) →
      getUnit s core g.unit = some u → g.causes = cause :: rest → g.dir = false → g.spec = none → g.uih = false →
      g.cth = false → g.halted = false → g.uvec ≠ 0 → g.sq = [] → tidied s core gslot g = true → dueTrap g sl p = none →
      guardCleared p = false →
      let rd := coreRead s core g.ctx (g.uvec.toNat + 8 * (u.bar (wfld cause 8 8)).uiv) 8
      let need := if g.recording then (if g.ptrace = [] then 1 else 3) else 0
      (∀ code va, rd = .error (.trap code va) → exec (.uiDelivery core gslot sl) s
          = .next (takeTrap s core gslot (mkTrap code sl p .reissue (dw va) 0)))
      ∧ ∀ s1 bs sub, rd = .ok (s1, bs, sub) →
        let ent : II := BitVec.ofNat 48 (natOf bs % 2 ^ 48)
        (g.hlim.toNat < g.hsp.toNat + 8 * need → g.hsp.toNat + 8 * need < 2 ^ 64 → need ≠ 0 → exec (.uiDelivery core gslot sl) s
            = .next (takeTrap s core gslot (mkTrap 0x06 sl p .reissue (dw (8 * need)) g.hsp)))
        ∧ (need = 0 ∨ g.hsp.toNat + 8 * need ≤ g.hlim.toNat →
          ∃ s' g', exec (.uiDelivery core gslot sl) s = .next s' ∧ getGroup s' core gslot = some g'
          ∧ g'.causes = rest ∧ g'.uicause = cause ∧ g'.uiretpc = dw (p.ii.toNat + slotBit sl * 2 ^ 48) ∧ g'.uih = true
          ∧ g'.recUi = g.recb ∧ g'.recb = false ∧ g'.ic = g.ic ∧ g'.n = g.n ∧ g'.k = g.k ∧ g'.q = g.q ∧ g'.stack = g.stack
          ∧ g'.hsp = g.hsp + dw (8 * need)
          ∧ (g.recording = true → g'.hist.head? = some (histHeader g.lastIc 0 kHORIZON false))
          ∧ g'.path (otherSlot sl) = g.path (otherSlot sl)
          ∧ g'.path sl = some (arrivedAt s
              { core := core, gslot := gslot, slot := sl, g := { g with recb := false, ic := g.lastIc }, p := p }
              { p with ii := ent, fresh := true, half := none, gwait := none } (dw p.ii.toNat))))
  ∧ (∀ s core i c ctx u r rs s', i < 4 → chanReady s core i = some (c, ctx, u) → c.fault = none → c.recs = r :: rs →
      r.fault = none → c.fstep = 3 → cpArr r.bytes = true → cpCount r.bytes ≤ c.index →
      ((cpDst r.bytes).kind = 4 → c.ringIdx ≠ none) → cpNext r.bytes = 0 → engWaits s core (chanEng i) = false →
      arrive s core c.unit (cpBar r.bytes) 0 1 false = some s' →
      exec (.deferredArrive core i) s = .next (wpDue (dropChan s' core i) core c.gslot c.wp))

/-- REVERSE_STEP (R78, R130, R134, R135): on a path that came straight from the instruction before, the step takes the path back to
it, ic goes down by one, and its inverse acts: an in-place addition is subtracted again in the active lanes, and a recorded
destination takes its old value from the NREG record, which is popped; a line with a reserved bit set is ILLEGAL. At the target IC a
REV with .x ends the group; at IC 0 the reversal stops with HORIZON. That a reverse step is one step of the machine is the model's
reading (assumption 47). -/
def Obligations.ReverseSteps : Prop :=
  (∀ s core gslot g r p b b' i, revReady s core gslot = some (g, r) → revBusy g = false → granaryStop s core g = none →
      g.spec = none → g.ic ≠ 0 → g.pathA = some p → g.pathB = none → g.ic - 1 ≠ r.target → g.hist.length ≤ 256 →
      lineHeld s core g.ctx g.launch (iiLine p.ii) = false → lineHeld s core g.ctx g.launch (iiLine (p.ii - 1)) = false →
      readLine s core g.ctx g.launch (iiLine p.ii) = .ok b → lineMark b (iiSlot p.ii) = false →
      readLine s core g.ctx g.launch (iiLine (p.ii - 1)) = .ok b' → decode (lineSlot b' (iiSlot (p.ii - 1))) = .ok i →
      let back : Path := { p with ii := p.ii - 1, wait := false, dem := false, exch := false, bp := [], fresh := false
                                  bwait := none, half := none, gwait := none
                                  arr := p.arr.filter fun x => x.1 != p.ii - 1 }
      ((histTop s g = none ∨ ∃ h, histTop s g = some h ∧ h.ic ≠ g.ic - 1 ∧ histBad s g 0 = false) →
        (lineRsvdOk b = false ∨ lineRsvdOk b' = false →
          exec (.reverseStep core gslot) s = .next (revTrap s core gslot r.slot 0x01 0 0))
        ∧ (lineRsvdOk b = true → lineRsvdOk b' = true → ∀ d j, i = .addin none d (.n j) → d ≠ j →
          ∃ t g', exec (.reverseStep core gslot) s = .next t ∧ getGroup t core gslot = some g'
            ∧ g'.ic = g.ic - 1 ∧ g'.pathB = none ∧ g'.hist = g.hist ∧ g'.k = g.k ∧ g'.q = g.q
            ∧ g'.pathA = some back
            ∧ (∀ l, l < 64 → g'.nreg d.toNat l = if p.mask.getLsbD l then g.nreg d.toNat l - g.nreg j.toNat l
                else g.nreg d.toNat l)
            ∧ ∀ e l, l < 64 → e ≠ d.toNat → g'.nreg e l = g.nreg e l))
      ∧ (lineRsvdOk b = true → lineRsvdOk b' = true →
        ∀ ty sat d j j' (ws rest : List DWord), i = .add none ty sat (.recd d) (.n j) (.n j') → ws.length = g.w / 2 →
        g.hbase.toNat < g.hsp.toNat → g.hist = histHeader (g.ic - 1) (g.w / 2) 0x01 false :: (ws.reverse ++ rest) →
        ∃ t g', exec (.reverseStep core gslot) s = .next t ∧ getGroup t core gslot = some g'
          ∧ g'.ic = g.ic - 1 ∧ g'.pathB = none ∧ g'.hist = rest ∧ g'.k = g.k ∧ g'.q = g.q
          ∧ g'.pathA = some back
          ∧ (∀ l, l < g.w → g'.nreg d.toNat l = (ws.getD (l / 2) 0).extractLsb' (32 * (l % 2)) 32)
          ∧ ∀ e l, l < 64 → e ≠ d.toNat → g'.nreg e l = g.nreg e l))
  ∧ (∀ s core gslot g r u sl g1, revReady s core gslot = some (g, r) → revTry s core gslot = .ok (u, sl) →
      getGroup u core gslot = some g1 → g1.ic = r.target → r.mode = .x →
      ∃ t g', exec (.reverseStep core gslot) s = .next t ∧ getGroup t core gslot = some g'
        ∧ g'.ended = true ∧ g'.pathA = none ∧ g'.pathB = none ∧ g'.stack = [] ∧ g'.dir = false ∧ g'.rev = none)
  ∧ (∀ s core gslot g r, revReady s core gslot = some (g, r) → revBusy g = false → granaryStop s core g = none →
      g.ic = 0 → exec (.reverseStep core gslot) s
        = .next (revTrap (revEnd s core gslot) core gslot r.slot 0x07 0 (r.target.setWidth 64)))

/-! ### The distributor -/

/-- Launches and units (R26 to R29, R41, R42, R45, R46, R51): a packet that passes its checks becomes a launch with the
context's next serial, and a bad one is rejected with its job entry set DONE and CANC; a unit is placed on a free, zeroed
span of its core with its groups in free group slots; a group starts with its argument words in K0 on; a unit that is done
leaves its core; and PREEMPT begins a save of the units of lower priority. Which free slots and spans a unit takes is the model's choice (assumption 36);
where rings and job tables lie, and that PREEMPT saves all units of lower priority for the first waiting launch, are its readings
(assumptions 7, 18). -/
def Obligations.LaunchesAndUnits : Prop :=
  (∀ s q h s' ws, (∀ n x, q ≠ .host n (some x)) → queueHead s q = some h → peekPacket s h = .ok (s', ws) →
      jobsHeld s h.ctx = false → depsDone s h.ctx ws = true → goesFirst s h (pkPrio ws) = false →
      let popped := popQueueHead ((pkDeps ws).foldl (fun u i => jobHit u h.ctx i) s') q
      (pkBad s ws = true → frFull s = false → exec (.launchPacketTake q) s
        = .next (postFault (jobCount popped h.ctx (pkCnt ws) 0 (jDONE ||| jCANC))
            { w0 := dw (2 * 2 ^ 8), w1 := dw (h.ctx * 2 ^ 58), w2 := dw h.addr, w3 := 0 }))
      ∧ (pkBad s ws = false → (∀ i ∈ pkDeps ws, jobCanc s h.ctx i = false) → jobCanc s h.ctx (pkCnt ws) = false →
        ∃ t x, exec (.launchPacketTake q) s = .next t ∧ mfind s.ctxs h.ctx = some x
          ∧ t = { popped with
              ctxs := mmod s'.ctxs h.ctx fun c => { c with serial := x.serial + 1 }
              launches := mset s.launches s.launchCtr
                { ctx := h.ctx, packet := ws, addr := h.addr, serial := x.serial + 1, stamp := h.stamp }
              launchCtr := s.launchCtr + 1 }))
  ∧ (∀ s ctx n x p ps, mfind s.lqs (ctx * 16 + n) = some x → x.packets = p :: ps →
      mfind (popQueueHead s (.dev ctx n)).lqs (ctx * 16 + n) = some { x with packets := ps })
  ∧ (∀ s core lid l rest t, placeOrder s = (lid, l) :: rest → pkCor l.packet = false → placeUnit s core lid = some t →
      exec (.unitPlace [core]) s = .next t)
  ∧ (∀ s core lid t, placeUnit s core lid = some t →
      ∃ un u l, mfind s.launches lid = some l ∧ getUnit s core un = none ∧ getUnit t core un = some u
        ∧ u.launch = lid ∧ u.ctx = l.ctx ∧ u.ngrp = pkGroups l.packet
        ∧ l.nextUnit = u.x + (u.y + (l.nextUnit / (pkX l.packet * pkY l.packet)) * pkY l.packet) * pkX l.packet
        ∧ u.z = l.nextUnit / (pkX l.packet * pkY l.packet)
        ∧ u.resOff % 4096 = 0 ∧ u.resOff + pkSpan l.packet ≤ 524288 ∧ u.resBytes = pkSpan l.packet
        ∧ (0 < pkSpan l.packet → ∀ kv ∈ (getCore s core).units, kv.2.resBytes = 0
            ∨ u.resOff + pkSpan l.packet ≤ kv.2.resOff ∨ kv.2.resOff + kv.2.resBytes ≤ u.resOff)
        ∧ (∀ a, u.resOff ≤ a → a < u.resOff + pkSpan l.packet → scrReads t core a 1 = [0])
        ∧ (∀ i, i < pkGroups l.packet → ∃ gs g, gs < 128 ∧ getGroup t core gs = some g ∧ g.unit = un ∧ g.gidx = i
            ∧ g.argWait = true ∧ g.ended = false ∧ g.pathB = none ∧ g.ic = 0 ∧ g.n = []
            ∧ g.pathA = some { ii := pkEntry l.packet, mask := fullMask (pkW l.packet), fresh := true }
            ∧ ∀ g', getGroup s core gs = some g' → groupGone s core gs g' = true)
        ∧ mfind t.launches lid = some { l with nextUnit := l.nextUnit + 1 })
  ∧ (∀ s core gslot g u l, getGroup s core gslot = some g → getUnit s core g.unit = some u →
      mfind s.launches g.launch = some l → g.argWait = true → u.argHeld = false → (g.gidx < 256 → g.gidx = u.started) →
      ctxLive s g.ctx = true →
      let n := pkArgw l.packet
      let rd := coreRead s core g.ctx (pkArg l.packet) (8 * n)
      (rd = .error .wait → exec (.groupStart core gslot) s = .next s)
      ∧ (∀ code va, rd = .error (.trap code va) →
        (frFull s = true → exec (.groupStart core gslot) s = .next s)
        ∧ (frFull s = false → exec (.groupStart core gslot) s = .next (postFault
            (setUnit s core g.unit { u with argHeld := true })
            { w0 := dw (3 * 2 ^ 8), w1 := dw (g.ctx * 2 ^ 58 + core * 2 ^ 50 + gslot * 2 ^ 43), w2 := dw va, w3 := 0 })))
      ∧ ∀ s1 bs sub, rd = .ok (s1, bs, sub) →
        ∃ t g', exec (.groupStart core gslot) s = .next t ∧ getGroup t core gslot = some g'
          ∧ (∀ i, g'.kreg i = if i < n then dw (natOf ((bs.drop (8 * i)).take 8)) else g.kreg i)
          ∧ g' = { g with k := g'.k, argWait := false } ∧ t.mem = s.mem ∧ t.ctxs = (countSub s1 g.ctx sub).ctxs
          ∧ getUnit t core g.unit = some { u with started := u.started + (if g.gidx < 256 then 1 else 0) })
  ∧ (∀ s core ctx a n,
      (∀ p ∈ piecesOf 32 a n, walkHeld s ctx (a + p.1) = false ∧ ∃ x tol, xlate s ctx (a + p.1) .load false = .ok .dev x tol
        ∧ pathClear s core (homeOf s .dev x) = true ∧ bytesBad s x p.2 = false) →
      ∃ s', coreRead s core ctx a n = .ok (s', ((piecesOf 32 a n).map fun p =>
          match xlate s ctx (a + p.1) .load false with
          | .ok _ x _ => devRead s x p.2
          | _ => []).flatten, false) ∧ s'.mem = s.mem ∧ s'.ctxs = s.ctxs)
  ∧ (∀ s core unit u, getUnit s core unit = some u → unitQuiet s core unit = true → frameCount s core unit = 0 →
      (getCore s core).quiesced = false → jobsHeld s u.ctx = false →
      exec (.unitEnd core unit) s = .next (endUnit s core unit u)
      ∧ getUnit (endUnit s core unit u) core unit = none
      ∧ (∀ kv ∈ (getCore (endUnit s core unit u) core).groups, kv.2.unit ≠ unit)
      ∧ (∀ kv ∈ (getCore (endUnit s core unit u) core).tiles, kv.2.unit ≠ unit))
  ∧ (∀ s core l us, core < 192 → (getCore s core).quiesced = false → (getCore s core).isolated = false →
      (getCore s core).gated = false → areaReg s core ≠ 0 → waitingLaunch s core = some l →
      us = lowerUnits s core (pkPrio l.packet) → us ≠ [] →
      (∀ u ∈ us, ∀ x, getUnit s core u = some x → x.pair = false) →
      ∃ t, exec (.preempt core) s = .next t ∧ (getCore t core).quiesced = true ∧ areaReg t core = 0
        ∧ (getCore t core).saving
          = some { parts := [{ core := core, area := areaReg s core, units := us }], cause := .preempt })

/-! ### The engines -/

/-- The matrix engine (R93, R157, R186 to R199, R207, R208, R210): a command at the head of its subqueue is evaluated once, as soon as
its slot is not PENDING, and a subqueue whose head becomes eligible takes at least the least pass of the other backlogged ones; the
engine takes the head of the backlogged subqueue of least pass, which is charged its stride, and runs it, discards it, or faults;
and it retires a command by its rows: MXLDS fills the shadow plane, MXSWAP exchanges the planes, MXZERO
clears an accumulator with its flags, marks and k-step (both halves in pair mode), MXSTR adds a pass to each element of its
rows, MXDRAIN writes its rows as elements of its format. The command leaves the engine, and its group receives a status
entry. BE = 1, sparse planes, tile sources, and pair mode but for MXSWAP and MXZERO are left out of the clauses on retiring. That a
command's effect is one step, and that a subqueue is backlogged from the moment its head is eligible, are the model's readings
(assumptions 63, 64), and ROWS 0 in the status of a discarded or faulted command is its choice (assumption 73). -/
def Obligations.MatrixEngine : Prop :=
  (∀ s core x g e rest, (getMx s core).run = [] → nanWaits (getCore s core) = false → takeOff s (core / 24) = false →
      choose (mxCands s core) = some x → getGroup s core x.gslot = some g → g.tmx = x.tk → g.e0 = e :: rest →
      forkReady g e = true →
      let seq := g.mxseq - BitVec.ofNat 8 g.e0.length
      let done (t : State) (run : List MxRun) (e1 : List StatusEntry) (pend : List (DWord × DWord)) : Prop :=
        (getMx t core).run = run ∧ (getMx t core).acc = (getMx s core).acc ∧ t.mem = s.mem
        ∧ ∃ g', getGroup t core x.gslot = some g'
          ∧ g' = { g with e0 := evalHead g rest, e2 := evalHead g g.e2, e4 := evalHead g g.e4, tmx := g'.tmx, tcp := g'.tcp
                          tvd := g'.tvd, e1 := e1, engPend := pend }
          ∧ g'.tmx = { t := g.tmx.t, pass := g.tmx.pass + dw (2 ^ 20 / g.tmx.t), backlogged := headElig (evalHead g rest) }
      let post (fault disc : Bool) : List StatusEntry := if g.ended then g.e1 else
        postQ g.e1 7 { bits := dw (seq.toNat * 2 ^ 40 + entOp e.bits * 2 ^ 32 + b2n fault * 2 ^ 6 + b2n disc * 2 ^ 5), ends := true }
      (e.eval = some .run → mxFault s core g.unit e.bits = none → ∃ t, exec (.matrixTake core) s = .next t
        ∧ done t [{ gslot := x.gslot, unit := g.unit, ent := e, seq := seq }] g.e1 g.engPend)
      ∧ (e.eval = some .drop → ∃ t, exec (.matrixTake core) s = .next t ∧ done t [] (post false true) g.engPend)
      ∧ (∀ k, (e.eval = some .free ∧ k = 3) ∨ (e.eval = some .run ∧ mxFault s core g.unit e.bits = some k) →
        ∃ t, exec (.matrixTake core) s = .next t ∧ done t [] (post true false)
          (if g.ended then g.engPend else g.engPend ++ [(e.bits.setWidth 64, dw k)])))
  ∧ (∀ (l : List Cand) x, choose l = some x → x ∈ l ∧ x.tk.backlogged = true
      ∧ ∀ y, y ∈ l → y.tk.backlogged = true → x.tk.pass.toNat < y.tk.pass.toNat ∨ (x.tk.pass = y.tk.pass ∧ x.gslot ≤ y.gslot))
  ∧ (∀ (g : Group) e es, ∃ e', evalHead g (e :: es) = e' :: es ∧ e' = { e with eval := e'.eval }
      ∧ (∀ v, e.eval = some v → e'.eval = some v)
      ∧ (e.eval = none → (e.guard = none → e'.eval = some .run)
        ∧ ∀ gs, e.guard = some gs → e'.eval = match g.guard gs.toNat with
          | .pending => none
          | .true => some .run
          | .false => some .drop
          | .free => some .free))
  ∧ (∀ (others : List Tickets) (x : Tickets), joinSub others false x = { x with backlogged := false }
      ∧ (x.backlogged = true → joinSub others true x = x)
      ∧ (x.backlogged = false → ∃ y, joinSub others true x = y ∧ y.t = x.t ∧ y.backlogged = true ∧ x.pass.toNat ≤ y.pass.toNat
        ∧ ((∀ z, z ∈ others → z.backlogged = false) → y.pass = x.pass)
        ∧ ((∃ z, z ∈ others ∧ z.backlogged = true) →
          (∃ z, z ∈ others ∧ z.backlogged = true ∧ y.pass.toNat = max x.pass.toNat z.pass.toNat)
          ∧ ∀ z, z ∈ others → z.backlogged = true → y.pass.toNat ≤ max x.pass.toNat z.pass.toNat)))
  ∧ (∀ s core r g, (getMx s core).run = [r] → mxStopped s core r = false → r.rowsDone = 0 → r.sat = false → r.psn = false →
      r.flg = false → r.nan = none → getGroup s core r.gslot = some g → g.ended = false →
      let c := mxCmd r.ent.bits
      let m := getMx s core
      let st (op rows : Nat) (sat psn flg : Bool) : DWord :=
        dw (r.seq.toNat * 2 ^ 40 + op * 2 ^ 32 + rows * 2 ^ 16 + b2n sat * 2 ^ 4 + b2n psn * 2 ^ 3 + b2n flg * 2 ^ 2)
      c.be = false →
      ∃ t g', exec (.matrixRetire core) s = .next t ∧ getGroup t core r.gslot = some g'
        ∧ (getMx t core).run = [] ∧ (getMx t core).owner = m.owner ∧ t.mem = s.mem
        ∧ (c.op = 0xB1 → (∀ h ∈ mxHalves core c.pair, (getMx t h).active = (getMx s h).shadow
              ∧ (getMx t h).shadow = (getMx s h).active ∧ (getMx t h).acc = (getMx s h).acc ∧ (getMx t h).ob = (getMx s h).ob)
            ∧ g' = { g with e1 := postQ g.e1 7 { bits := st 0xB1 0 false false false, ends := true } })
        ∧ (c.op = 0xB4 → (∀ h ∈ mxHalves core c.pair,
              let a := c.dsel - 72
              (∀ i j, i < 64 → j < 64 → mget 0 (getMx t h).acc (accKey a i j) = 0)
              ∧ mget 0 (getMx t h).flags a = 0 ∧ mget 0 (getMx t h).marks a = 0 ∧ mget 0 (getMx t h).ksteps a = 0
              ∧ (∀ k, k / 4096 ≠ a → mget 0 (getMx t h).acc k = mget 0 (getMx s h).acc k)
              ∧ (∀ b, b ≠ a → mget 0 (getMx t h).flags b = mget 0 (getMx s h).flags b
                ∧ mget 0 (getMx t h).marks b = mget 0 (getMx s h).marks b
                ∧ mget 0 (getMx t h).ksteps b = mget 0 (getMx s h).ksteps b)
              ∧ (getMx t h).active = (getMx s h).active ∧ (getMx t h).shadow = (getMx s h).shadow)
            ∧ g' = { g with e1 := postQ g.e1 7 { bits := st 0xB4 0 false false false, ends := true } })
        ∧ (c.op = 0xB0 → c.pair = false → c.md0 = false → 64 ≤ c.src →
            (getMx t core).active = m.active ∧ (getMx t core).acc = m.acc
            ∧ (getMx t core).shadow.fmt = c.fmt ∧ (getMx t core).shadow.sparse = false
            ∧ (∀ i j, i < 64 → j < 128 → mget 0 (getMx t core).shadow.data (128 * i + j)
                = mget 0 m.ob ((c.src - 64) * 32768 + (c.rbase + i) * 128 + j)))
        ∧ (c.op = 0xB2 → c.pair = false → 64 ≤ c.src → m.active.sparse = false →
            (∀ i j, i < min c.valid c.n → j < 64 →
              let bs := mgets 0 m.ob ((c.src - 64) * 32768 + (c.rbase + i) * 128) (planeK m.active * fmtBytes c.fmt)
              mget 0 (getMx t core).acc (accKey (c.dsel - 72) i j)
                = BitVec.ofNat 80 (mxPass (mget 0 m.acc (accKey (c.dsel - 72) i j)).toNat
                    ((planeTerms m.active j).map fun w => mxProd c.fmt m.active.fmt (elemOf c.fmt bs w.1) w.2) c.md0).1)
            ∧ (∀ k, k / 4096 ≠ c.dsel - 72 ∨ min c.valid c.n ≤ k / 64 % 64 → mget 0 (getMx t core).acc k = mget 0 m.acc k)
            ∧ (getMx t core).active = m.active ∧ (getMx t core).ob = m.ob)
        ∧ (c.op = 0xB3 → c.pair = false → 64 ≤ c.dsel →
            (∀ i j, i < min c.valid c.n → j < 64 →
              mgets 0 (getMx t core).ob ((c.dsel - 64) * 32768 + (c.rbase + i * drainQ c.fmt false) * 128
                  + j * fmtBytes c.fmt) (fmtBytes c.fmt)
                = bytesOf (fmtBytes c.fmt) (drainElem c.fmt c.md0
                    (rowIs m.flags (c.src - 72) i || rowIs m.marks (c.src - 72) i)
                    (mget 0 m.acc (accKey (c.src - 72) i j)).toNat))
            ∧ (getMx t core).acc = m.acc ∧ (getMx t core).active = m.active))

/-- The copy engine (R176, R215 to R224): a free channel takes the head of least pass, which runs, is discarded, or faults; it reads the
next record of its chain and checks it; a ring destination reserves its slot, or waits while none is free; the elements move from one
sector boundary of the record to another, here from memory into an operand buffer, and masked elements move nothing; written sectors are
subtracted from the record's barrier by one Arrive call once their writes are complete; and a finished record has OWN cleared, and then
posts its status and lets the chain go on or end. One Arrive call for several sectors, and the order of reasons, are the model's
readings (assumptions 65, 67), how far elements move at once is too (assumption 52), and reason 3 for an entry whose bits [63:52] are
not 0 is the model's choice (assumption 54). -/
def Obligations.CopyEngine : Prop :=
  (∀ s core chan x g e rest, chan < 4 → mfind (getCore s core).chans chan = none → takeOff s (core / 24) = false →
      choose (cpCands s core) = some x → getGroup s core x.gslot = some g → g.tcp = x.tk → g.e2 = e :: rest →
      forkReady g e = true →
      let head := e.bits.toNat % 2 ^ 52
      let bad : Prop := ¬(e.bits.toNat / 2 ^ 52 % 2 ^ 12 = 0 ∧ e.bits.toNat / 2 ^ 96 = 0)
      let done (t : State) (ch : Option Chan) (e3 : List StatusEntry) (pend : List (DWord × DWord)) : Prop :=
        mfind (getCore t core).chans chan = ch
        ∧ ∃ g', getGroup t core x.gslot = some g'
          ∧ g' = { g with e0 := evalHead g g.e0, e2 := evalHead g rest, e4 := evalHead g g.e4, tmx := g'.tmx, tcp := g'.tcp
                          tvd := g'.tvd, e3 := e3, engPend := pend }
          ∧ g'.tcp = { t := g.tcp.t, pass := g.tcp.pass + dw (2 ^ 20 / g.tcp.t), backlogged := headElig (evalHead g rest) }
      let post (n : Nat) : List StatusEntry := if g.ended then g.e3 else
        postQ g.e3 3 { bits := dw (n + head / 64 * 64 + 1), ends := true }
      (e.eval = some .run → ¬bad → ∃ t, exec (.chainTake core chan) s = .next t
        ∧ done t (some { gslot := x.gslot, unit := g.unit, entry := e
                         valid := BitVec.ofNat 32 (e.bits.toNat / 2 ^ 64 % 2 ^ 32), next := some head }) g.e3 g.engPend)
      ∧ (e.eval = some .drop → ∃ t, exec (.chainTake core chan) s = .next t ∧ done t none (post 4) g.engPend)
      ∧ (e.eval = some .free ∨ (e.eval = some .run ∧ bad) → ∃ t, exec (.chainTake core chan) s = .next t
        ∧ done t none (post (3 * 2 ^ 52 + 2)) (if g.ended then g.engPend else g.engPend ++ [(e.bits.setWidth 64, 3)])))
  ∧ (∀ s core chan c ctx u a s1 bs sub, chanReady s core chan = some (c, ctx, u) → c.next = some a → c.recs.length < 13 →
      (((getCore s core).chans.map fun kv => kv.2.recs.length).foldl (· + ·) 0) < 48 →
      (∀ r, r ∈ c.recs → r.fault = none) → a % 64 = 0 → c.fault = none → c.fstep = 0 → c.tuple = none →
      engReads s core (chanEng chan) ctx 0 a 128 = .ok (s1, bs, sub) →
      (cpReason (countSub s1 ctx sub) core c.unit ctx u.nbar c.valid.toNat bs true = none →
        exec (.copyRecordRead core chan) s = .next (setChan (countSub s1 ctx sub) core chan
          { c with recs := c.recs ++ [{ addr := a, bytes := bs }], lastBar := some (cpBar bs)
                   next := if cpNext bs = 0 then none else some (cpNext bs) }))
      ∧ ∀ k, cpReason (countSub s1 ctx sub) core c.unit ctx u.nbar c.valid.toNat bs true = some k →
        exec (.copyRecordRead core chan) s = .next (setChan (countSub s1 ctx sub) core chan
          { c with recs := c.recs ++ [{ addr := a, bytes := bs, fault := some k }], next := none }))
  ∧ (∀ s core chan c ctx u r ix t, chanReady s core chan = some (c, ctx, u) → chanHead c = some r →
      (cpDst r.bytes).kind = 4 → c.ringIdx = none → findTile s core c.unit (cpDst r.bytes).th = some (ix, t) →
      (t.ring.free = 0 → exec (.ringSlotReserve core chan) s = .next s)
      ∧ (t.ring.free ≠ 0 → exec (.ringSlotReserve core chan) s
          = .next (setChan (setTile s core ix { t with ring := { t.ring with res := t.ring.res + 1 } }) core chan
              { c with ringIdx := some t.ring.res })))
  ∧ (∀ s core chan n c ctx u r s' c' stop s'' c'', chanReady s core chan = some (c, ctx, u) → chanHead c = some r →
      ((cpDst r.bytes).kind = 4 → c.ringIdx ≠ none) → cpLost s core ctx r.bytes = false →
      cpMove core chan ctx r.bytes (max 1 n) s c = (s', c', stop) → c'.index ≠ c.index →
      cpSubtract s' core chan r.bytes c' = some (s'', c'') →
      exec (.copySectorWrite core chan n) s = .next (setChan s'' core chan c''))
  ∧ (∀ s core chan bs c,
      let k := (if c.index ≥ cpCount bs then cpSectors bs else c.index * cpE bs / 32) - c.subtracted
      (k = 0 ∨ engWaits s core (chanEng chan) = true → cpSubtract s core chan bs c = some (s, c))
      ∧ (k ≠ 0 → engWaits s core (chanEng chan) = false →
        ∀ s1, arrive s core c.unit (cpBar bs) (-(BitVec.ofNat 32 k)) 0 false = some s1 →
          cpSubtract s core chan bs c = some (s1, { c with subtracted := c.subtracted + k })))
  ∧ (∀ s core chan ctx c bs, cpLsz bs ≤ 3 → c.index < cpCount bs →
      let u := cpUnit s core c.unit bs c.valid.toNat ((c.ringIdx.map (·.toNat)).getD 0) c.index
      let x := cpReads s core chan ctx c bs u.1
      let at_ (f : Nat) : Int := cpBase (cpDst bs) 128 + cpOff bs true f
      c.index < u.2 ∧ u.2 ≤ cpCount bs ∧ (u.2 = cpCount bs ∨ cpE bs * u.2 % 32 = 0)
      ∧ (∀ f, f ∈ u.1 ↔ c.index ≤ f ∧ f < u.2 ∧ cpValid bs c.valid.toNat f = true)
      ∧ (u.1 = [] → ∃ t, cpNextUnit core chan ctx c bs s = .ok (t, { c with index := u.2 }) ∧ t.mem = s.mem
          ∧ (getMx t core).ob = (getMx s core).ob)
      ∧ ((cpSrc bs).kind = 0 → (cpDst bs).kind = 2 → x.waits = true → cpNextUnit core chan ctx c bs s = .error (.wait x.s))
      ∧ ((cpSrc bs).kind = 0 → (cpDst bs).kind = 2 → x.waits = false → x.stop = none →
          x.bytes.length = cpE bs * u.1.length → (∀ f ∈ u.1, 0 ≤ at_ f) →
          (∀ f ∈ u.1, ∀ g ∈ u.1, f ≠ g → at_ f + (cpE bs : Int) ≤ at_ g ∨ at_ g + (cpE bs : Int) ≤ at_ f) →
          ∃ t c', cpNextUnit core chan ctx c bs s = .ok (t, c') ∧ c'.index = u.2 ∧ c'.fault = c.fault ∧ t.mem = s.mem
            ∧ ∀ k f, u.1[k]? = some f → mgets 0 (getMx t core).ob ((cpDst bs).th * 32768 + (at_ f).toNat) (cpE bs)
                = (x.bytes.drop (cpE bs * k)).take (cpE bs)))
  ∧ (∀ s core chan c ctx u r rs, chanReady s core chan = some (c, ctx, u) → c.fault = none → c.recs = r :: rs →
      r.fault = none → cpCount r.bytes ≤ c.index → (cpDst r.bytes).kind ≠ 4 → c.ringIdx = none → cpArr r.bytes = false →
      engWaits s core (chanEng chan) = false →
      let post (ends : Bool) : State :=
        if cpIrq r.bytes ∨ ends = true then
          modGroup s core c.gslot fun g => if g.ended then g else
            { g with e3 := postQ g.e3 3 { bits := dw (r.addr % 2 ^ 52 / 64 * 64 + b2n ends), ends := ends } }
        else s
      (∀ s1, c.fstep = 0 → cpSectors r.bytes ≤ c.subtracted →
        engStore s core (chanEng chan) ctx r.addr (bytesOf 8 (cpW0 r.bytes &&& ~~~(1 : DWord)).toNat) false = .ok s1 →
        engWaits s1 core (chanEng chan) = true →
        exec (.copyRecordFinish core chan) s = .next (setChan s1 core chan { c with fstep := 2 }))
      ∧ (c.fstep = 2 → cpNext r.bytes = 0 → exec (.copyRecordFinish core chan) s
          = .next (wpDue (dropChan (post true) core chan) core c.gslot c.wp))
      ∧ (c.fstep = 2 → cpNext r.bytes ≠ 0 → exec (.copyRecordFinish core chan) s = .next (setChan (post false) core chan
          { c with recs := rs, index := 0, subtracted := 0, ringIdx := none, fstep := 0 })))

/-- The decoders (R228, R230, R233 to R235): a free decoder takes the head of least pass of its quadrant; a frame ends by one of the two
events, with its record's frame number and barrier and a code that the event allows, and a bitstream that begins with a set
obu_forbidden_bit ends with code 1, or with 3 where its output does not fit or cannot be written; a frame whose end is known subtracts
the sectors that are left, writes its control block, and when that write is complete raises its cause, posts its two status words,
arrives, and is gone; and a control block that the decoder wrote is read back. What the standard makes of the bitstream is free, and so
is the form of the control block (assumption 10); the end of a frame in these steps is the model's reading (assumption 6), the choice
between the codes 1 and 3 and the bytes used are too (assumption 19), and where obu_forbidden_bit stands is taken from outside the spec
(assumption 74). -/
def Obligations.Decoders : Prop :=
  (∀ s dec x g e rest, dec < 16 → mfind s.decs dec = none → takeOff s (dec / 2) = false → vdWaiting s (dec / 2) = none →
      choose (vdCands s (dec / 2)) = some x → getGroup s x.core x.gslot = some g → g.tvd = x.tk →
      g.e4 = e :: rest → forkReady g e = true →
      let next : Group := { g with e0 := evalHead g g.e0, e2 := evalHead g g.e2, e4 := evalHead g rest }
      let share : Tickets := { t := g.tvd.t, pass := g.tvd.pass + dw (2 ^ 20 / g.tvd.t), backlogged := headElig (evalHead g rest) }
      (e.eval = some .run → ∃ t f g', exec (.decodeTake dec) s = .next t ∧ mfind t.decs dec = some f
        ∧ f.core = x.core ∧ f.gslot = x.gslot ∧ f.unit = g.unit ∧ f.entry = e ∧ f.subtracted = 0
        ∧ getGroup t x.core x.gslot = some g' ∧ g' = { next with tmx := g'.tmx, tcp := g'.tcp, tvd := share })
      ∧ (e.eval = some .drop → g.ended = false → ∃ t g', exec (.decodeTake dec) s = .next t ∧ mfind t.decs dec = none
        ∧ getGroup t x.core x.gslot = some g' ∧ g' = { next with tmx := g'.tmx, tcp := g'.tcp, tvd := share,
                                                                  e5 := postWords g.e5 0x400 0xFFFF_FFFF_0000_0000 }))
  ∧ (∀ s dec f ctx u, vdReady s dec = some (f, ctx, u) → f.fin = none → f.ctl ≠ [] →
      (∀ t e, vdRun s dec f ctx true = .ended t e →
        exec (.decodeErrorStop dec) s = .next (vdSteps t dec { f with fin := some e } ctx e)
        ∧ (e.code = 1 ∨ e.code = 2 ∨ e.code = 3) ∧ ∃ t', vdRun s dec f ctx false = .wait t')
      ∧ (∀ t e, vdRun s dec f ctx false = .ended t e →
        exec (.decodeFrameFinish dec) s = .next (vdSteps t dec { f with fin := some e } ctx e)
        ∧ (e.code = 0 ∨ e.code = 3 ∨ e.code = 4) ∧ ∃ t', vdRun s dec f ctx true = .wait t')
      ∧ ∀ err t e, vdRun s dec f ctx err = .ended t e → e.fid = (recWord f.record 1).toNat / 2 ^ 32
        ∧ e.be = (recWord f.record 6).getLsbD 8 ∧ e.bar = (recWord f.record 6).toNat % 2 ^ 8
        ∧ e.sirq = (recWord f.record 6).getLsbD 9
        ∧ ∀ v b bits refs bad, vdMem s dec f ctx = .got v (b :: bits) refs bad → b.getLsbD 7 = true →
          (e.code = 1 ∨ e.code = 3) ∧ e.used = 0)
  ∧ (∀ s dec f ctx u e, vdReady s dec = some (f, ctx, u) → f.fin = some e →
      exec (.decodeErrorStop dec) s = .next s
      ∧ (f.subtracted < e.sectors → e.bar < u.nbar →
        exec (.decodeFrameFinish dec) s = .next (match
            arrive s f.core f.unit e.bar (-(BitVec.ofNat 32 (e.sectors - f.subtracted))) 0 false with
          | none => setDec s dec f
          | some s => vdLast s dec { f with subtracted := e.sectors } ctx e))
      ∧ (e.sectors ≤ f.subtracted → engWaits s f.core (decEng dec) = true →
          exec (.decodeFrameFinish dec) s = .next (setDec s dec f))
      ∧ (e.sectors ≤ f.subtracted → engWaits s f.core (decEng dec) = false →
        let post (s : State) : State := modGroup s f.core f.gslot fun g => if g.ended then g else
          { g with e5 := postWords g.e5 (dw (e.fid * 2 ^ 32 + e.bits * 2 ^ 5 + e.code)) (dw (e.bad * 2 ^ 32 + e.used)) }
        ∀ s2 s3, (if e.sirq then uiCause s f.core f.unit e.bar 4 else some s) = some s2 →
          (if e.be then arrive (post s2) f.core f.unit e.bar 0 1 (e.code != 0) else some (post s2)) = some s3 →
          (e.block = [] ∨ f.ending = true → exec (.decodeFrameFinish dec) s = .next (dropDec s3 dec f))
          ∧ ∀ s1, e.block ≠ [] → f.ending = false →
            engStores s f.core (decEng dec) ctx (vdScratch f.record) e.block = .ok s1 →
            exec (.decodeFrameFinish dec) s = .next (setDec s1 dec { f with fin := some e, ending := true })))
  ∧ (∀ (c : Config.Av1Ctl) grain, c.slots.length = 8 → (∀ x, some x ∈ c.slots → x < 9) → c.seq.length ≤ 3053 →
      ctlOpen (ctlBlock c grain) = some c ∨ (ctlBlock c grain).all (· == 0) = true)

/-! ### The device's own service -/

/-- Service (R23 to R25, R282, R296, R302, R303, R312, R339, R341, R343): windows fill, and fade at a tick, by which one whose counter
stood at 0 is released; a dome retires once every request in paths to it is delivered in order, memory is as that delivery leaves it, the
same as before where none was queued, and its buckets are dealt round-robin, in bucket order, to the other live domes of its base die;
an invalidation ends once no access that used an old translation is left; a firmware load and a retrain end; an idle core gates its
power; and heat stops issue, but for the rows of a TCOLOP that executes, with one machine check. One bit for a limited clock, the order
of the tables' entries of one bucket, with the lowest live dome first, and what a reset keeps are the model's choices (assumptions 32,
41, 43). -/
def Obligations.DeviceService : Prop :=
  (∀ s w p, mfind s.pins w = some p → ∃ t, exec (.pinFill w) s = .next t ∧ mfind t.pins w = some { p with filled := true }
      ∧ t.mem = s.mem ∧ t.gran = s.gran)
  ∧ (∀ s, mrising s.pins = true → ∃ t, exec .referenceTick s = .next t ∧ t = { s with pins := t.pins }
      ∧ ∀ w, mfind t.pins w = match mfind s.pins w with
        | none => none
        | some p => if p.count = 0 then none else some { p with count := p.count - 1 })
  ∧ (∀ s w p, mfind s.pins w = some p →
      exec (.pinFadeOut w) s = .next (if p.count = 0 then { s with pins := mdel s.pins w } else s))
  ∧ (∀ s d, d < 80 → retireDue s d = true → liveOthers s d ≠ [] → mfind s.retrain (d / 10) = none →
      let u := (List.range 192).foldl (fun u core => (pathReqs u core d).foldl (fun u r => serve u core r)
        { u with paths := mput [] u.paths (core * 128 + d) [] }) s
      let ks := bucketsOf s d
      ∃ t, exec (.domeRetirement d) s = .next t
        ∧ t = { u with buckets := t.buckets, domes := t.domes }
        ∧ ((∀ core, core < 192 → pathReqs s core d = []) → t.mem = s.mem ∧ t.gran = s.gran)
        ∧ getDome t d = { getDome s d with ret := true, retq := false } ∧ (∀ e, e ≠ d → getDome t e = getDome s e)
        ∧ (∀ core, core < 192 → pathReqs t core d = [])
        ∧ (∀ k, k ∈ ks ↔ k / 4096 / 10 = d / 10 ∧ mget (k / 4096) s.buckets k = d)
        ∧ ks.Pairwise (fun k l => k % 4096 < l % 4096 ∨ (k % 4096 = l % 4096 ∧ k < l))
        ∧ (∀ n k, ks[n]? = some k →
            mget (k / 4096) t.buckets k = (liveOthers s d).getD (n % (liveOthers s d).length) d)
        ∧ (∀ k, k ∉ ks → mget (k / 4096) t.buckets k = mget (k / 4096) s.buckets k)
        ∧ ∀ e, e ∈ liveOthers s d ↔ e / 10 = d / 10 ∧ e ≠ d ∧ (getDome s e).ret = false)
  ∧ (∀ s d, d < 80 → retireDue s d = true → liveOthers s d = [] →
      exec (.domeRetirement d) s = .next (setDome s d { getDome s d with retq := false }))
  ∧ (∀ s v, s.tlbBusy = some v → (∀ kc ∈ s.cores, ∀ kv ∈ kc.2.groups, groupOld v kv.2 = false) →
      (∀ kv ∈ s.paths, ∀ r ∈ kv.2, pathOld v r = false) → (∀ kc ∈ s.cores, coreWrites s kc.1 = false) →
      ∃ t, exec .tlbInvalidationDone s = .next t ∧ t.tlbBusy = none ∧ (ctlR t 0x0208).getLsbD 0 = false
        ∧ (∀ e, e ∈ t.tlb ↔ e ∈ s.tlb ∧ invEntry v e = false) ∧ t.mem = s.mem ∧ t.cores = s.cores)
  ∧ (∀ s q, (ctlR s (0x0C00 + 8 * q)).getLsbD 0 = true → quadIdle s q = true →
      ∃ t, exec (.firmwareLoadDone q) s = .next t ∧ (ctlR t (0x0C00 + 8 * q)).getLsbD 0 = false
        ∧ mfind t.firmware q = some (wfld (ctlR s (0x0C00 + 8 * q)) 12 40 * 4096)
        ∧ t = { s with ctl := t.ctl, firmware := t.firmware })
  ∧ (∀ s k r, mfind s.retrain k = some r → exec (.retrainDone k) s
      = .next { s with retrain := mdel s.retrain k, ctl := mput 0 s.ctl (0x0B00 + 8 * k) (dw (r * 16)) })
  ∧ (∀ s core wake, core < 192 → coreIdle s core = true → exec (.corePowerGate core wake) s
      = .next (if wake then s else setCore s core { getCore s core with gated := true }))
  ∧ (∀ s, exec .powerLimitExceeded s = .next { s with clkLimited := true }
      ∧ exec .thermalThrottle s = .next { s with clkLimited := true }
      ∧ exec .clockNotLimited s = .next { s with clkLimited := false })
  ∧ (∀ s, (s.thermalStop = false → exec .thermalShutdown s = .next (postFault { s with thermalStop := true }
          { w0 := dw (4 * 2 ^ 8), w1 := 0, w2 := 0, w3 := 0 }))
      ∧ ∀ core gslot sl, pathReady { s with thermalStop := true } core gslot sl = none
        ∨ ∃ g, getGroup s core gslot = some g ∧ g.colop ≠ none)
  ∧ (∀ s, ∃ t, exec .functionReset s = .next t ∧ t.mem = s.mem ∧ t.host = s.host ∧ t.cores = [] ∧ t.ctxs = []
      ∧ t.launches = [] ∧ t.lqs = [] ∧ t.faccDone = false ∧ t.ctl = State.reset.ctl ∧ t.thermalStop = false)

/-- Contexts and saves (R19, R319, R321, R324, R325, R331, R332, R342): CONTEXT_CREATE makes a context once the features are
committed; REPLAY releases what a PAGE of its context holds; a kill discards what has not issued, and ends with KIND 7 when
nothing of the context is on its way; a save quiesces its core, writes its areas, goes on after a PAGE from the write that failed, sets
COMPLETE in a step of its own and ends with KIND 5 for each part, or is given up on a PROT; a restore ends with KIND 6; and isolation
saves a core whole and takes it out of placement, or is refused without a registered area. Where areas lie and isolation while no context
exists are the model's readings (assumption 12), RESULT 5 for a core in a save is too (assumption 18), and that a refused context shows it
by V = 0 (assumption 38); that a killed context is no more is the model's choice (assumption 37). -/
def Obligations.ContextsAndSaves : Prop :=
  (∀ s ctx v, ctx < 64 → mfind s.ctxs ctx = none →
      (v.getLsbD 0 = true → s.faccDone = true → exec (.contextCreate ctx v) s
        = .next { s with
            ctl := mput 0 s.ctl (0x4000 + 0x40 * ctx) (v &&& 0x000FFFFFFFFF0001)
            ctxs := mset s.ctxs ctx { root := wfld v 16 36 * 65536
                                      cthii := (ctlR s (0x4000 + 0x40 * ctx + 8)).setWidth 48
                                      jobtab := wfld (ctlR s (0x4000 + 0x40 * ctx + 16)) 0 52 } })
      ∧ (s.faccDone = false → ∃ t, exec (.contextCreate ctx v) s = .next t ∧ t.ctxs = s.ctxs
          ∧ (ctlR t (0x4000 + 0x40 * ctx)).getLsbD 0 = false))
  ∧ (∀ s v core gslot g, getGroup s core gslot = some g → mrising (getCore s core).groups = true → mrising s.cores = true →
      ∃ t, exec (.replay v) s = .next t
        ∧ getGroup t core gslot = some { g with
            held := match g.held with
              | .driver true x => if g.ctx = wfld v 58 6 then .none else .driver true x
              | h => h })
  ∧ (∀ s v x, mfind s.ctxs (wfld v 0 6) = some x → (ctlR s 0x0820).getLsbD 0 = false →
      (∀ kc ∈ s.cores, kc.2.mx.run = [] ∧ kc.2.saving = none) →
      ∃ t, exec (.killcmd v) s = .next t ∧ (ctlR t 0x0820).getLsbD 0 = true
        ∧ mfind t.ctxs (wfld v 0 6) = some { x with killing := true }
        ∧ (∀ core gslot g, getGroup t core gslot = some g → g.ctx = wfld v 0 6 →
            g.hold = [] ∧ g.e0 = [] ∧ g.e2 = [] ∧ g.e4 = [] ∧ g.colop = none ∧ ∀ e ∈ g.sq, e.drained = true)
        ∧ t.mem = s.mem)
  ∧ (∀ s c, killing s = some c → killReady s c = true → frFull s = false → jobsHeld s c = false →
      ∃ t, exec .killDone s = .next t ∧ mfind t.ctxs c = none ∧ (∀ kv ∈ t.launches, kv.2.ctx ≠ c)
        ∧ (∀ kv ∈ t.hostq, kv.ctx ≠ c) ∧ (∀ kv ∈ t.pins, kv.2.ctx ≠ c) ∧ (ctlR t 0x0820).getLsbD 0 = false)
  ∧ (∀ s v core, wfld v 8 2 = 0 → core = wfld v 0 8 → core < 192 → savestBusy s = false → inSave s core = false →
      pairOther s core = none →
      ∃ t, exec (.savecmdSave v) s = .next t ∧ (getCore t core).quiesced = true ∧ savestBusy t = true
        ∧ (getCore t core).saving
            = some { parts := [{ core := core, area := wfld v 12 40 * 4096, units := (getCore s core).units.map (·.1) }]
                     cause := .cmd })
  ∧ (∀ s v, wfld v 8 2 = 0 → savestBusy s = true ∨ inSave s (wfld v 0 8) = true →
      ∃ t, exec (.savecmdSave v) s = .next t ∧ wfld (ctlR t 0x0808) 1 63 = 5 ∧ t = { s with ctl := t.ctl })
  ∧ (∀ s core sv s', (getCore s core).saving = some sv → sv.held = none → sv.parts.all (partDrained s) = true →
      frHas s sv.parts.length = true → s' = sv.parts.foldl settlePart s →
      let body := saveBody s' sv
      let last := saveLast s' sv
      let go := saveGo (if sv.done < body.length then body.drop sv.done else (body ++ last).drop sv.done) sv.done s'
      let keep (sv : Save) : State := setCore go.1 core { getCore go.1 core with saving := some { sv with done := go.2.1 } }
      exec (.saveComplete core) s = .next (match go.2.2 with
        | none => if go.2.1 < body.length + last.length then keep sv else startRetrains (endSave go.1 sv)
        | some (_, .wait) => keep sv
        | some (w, .page) => postFault (keep { sv with late := true, held := some w.ctx })
            { w0 := dw (11 * 2 ^ 8 + 4), w1 := dw (w.ctx * 2 ^ 58 + w.core * 2 ^ 50), w2 := dw w.va, w3 := 0 }
        | some (w, .prot) =>
            let x := startRetrains (setCore go.1 core { getCore go.1 core with saving := none })
            postFault (if sv.cause = .cmd then setSavest x false 4 else x)
              { w0 := dw (11 * 2 ^ 8 + 5), w1 := dw (w.ctx * 2 ^ 58 + w.core * 2 ^ 50), w2 := dw w.va, w3 := 0 }))
  ∧ (∀ s core sv, (getCore s core).saving = some sv →
      sv.held ≠ none ∨ sv.parts.all (partDrained s) = false ∨ frHas s sv.parts.length = false →
      exec (.saveComplete core) s = .next s)
  ∧ (∀ v sv, ∀ p ∈ sv.parts, (getCore (endSave v sv) p.core).quiesced = false ∧ (getCore (endSave v sv) p.core).saving = none
      ∧ ∀ u ∈ p.units, getUnit (endSave v sv) p.core u = none)
  ∧ (∀ s v core ctx b, wfld v 8 2 = 1 → core = wfld v 0 8 → savestBusy s = false →
      let area := wfld v 12 40 * 4096
      let fol := wfld (ctlR s 0x0810) 12 40 * 4096
      areaHeld s area 4096 = false → areaHeld s fol 4096 = false → frFull s = false →
      rangeHeld s ctx area b.length .load = false → restorePlan s core area fol = .ok [(core, ctx, b)] →
      exec (.savecmdRestore v) s = .next (postFault
          (setSavest (loadEngines (loadImage (areaHits s [(core, ctx, b)] [area, fol]) core ctx b) core b) false 0)
          { w0 := dw (6 * 2 ^ 8), w1 := dw (ctx * 2 ^ 58 + core * 2 ^ 50), w2 := dw area, w3 := 0 }))
  ∧ (∀ s v r, wfld v 8 2 = 1 → savestBusy s = false → areaHeld s (wfld v 12 40 * 4096) 4096 = false →
      areaHeld s (wfld (ctlR s 0x0810) 12 40 * 4096) 4096 = false →
      restorePlan s (wfld v 0 8) (wfld v 12 40 * 4096) (wfld (ctlR s 0x0810) 12 40 * 4096) = .error r →
      exec (.savecmdRestore v) s = .next { s with ctl := mput 0 s.ctl 0x0808 (dw (r * 2)) })
  ∧ (∀ s core, core < 192 → (getCore s core).isolated = false → pairOther s core = none → inSave s core = false →
      let w : State := setCore s core { getCore s core with gated := false }
      (areaReg s core = 0 → exec (.coreIsolate core) s = .next { w with ctl := mput 0 s.ctl (0x9000 + 8 * core) 0 })
      ∧ (areaReg s core ≠ 0 → s.ctxs = [] → exec (.coreIsolate core) s
          = .next { setCore w core { getCore w core with isolated := true } with ctl := mput 0 s.ctl (0x9000 + 8 * core) 1 })
      ∧ (areaReg s core ≠ 0 → s.ctxs ≠ [] → ∃ t, exec (.coreIsolate core) s = .next t ∧ (getCore t core).isolated = true
          ∧ (getCore t core).quiesced = true ∧ areaReg t core = 0 ∧ (getCore t core).saving
            = some { parts := [{ core := core, area := areaReg s core, units := (getCore s core).units.map (·.1) }]
                     cause := .isolate }))
  ∧ (∀ s core, core < 192 → exec (.coreUnisolate core) s
      = .next { setCore s core { getCore s core with isolated := false, gated := false } with
          ctl := mput 0 s.ctl (0x9000 + 8 * core) 0 })

/-- Writes of the control window (R4, R18 to R20, R162, R163, R296, R299, R312, R320, R339, R341, R391): features are staged and
committed once; a format range becomes live, is retired, or is refused, and decoded lines of the old and the new range are dropped; an invalidation begins unless one runs; interleave
regions and launch queues take their fields or are refused; a firmware load and a retrain begin; a core's area register wakes its core
(R343); and any other register stores its writable bits. When regions are checked, what a refused commit leaves and which rates are taken are the model's
(assumption 40). -/
def Obligations.HostWrites : Prop :=
  (∀ s i v, i < 3 → exec (.faccStageWrite i v) s = .next (if s.faccDone then { s with faccRewrite := true }
      else { s with faccStage := mput 0 s.faccStage i v }))
  ∧ (∀ s v, s.faccDone = false → ∃ t, exec (.faccCommit v) s = .next t ∧ t.faccDone = true
      ∧ t = { s with faccStage := t.faccStage, facc := t.facc, faccDone := true }
      ∧ ∀ i, feature t i = (decide (i ≤ 8) && (mget 0 s.faccStage 0).getLsbD i))
  ∧ (∀ s v, s.faccDone = true → exec (.faccCommit v) s = .next { s with faccRewrite := true })
  ∧ (∀ s i v, i < 16 → feature s 4 = true →
      let w1 := ctlR s (0x1008 + 0x40 * i)
      let base := wfld v 16 36 * 65536
      let len := wfld w1 16 36 * 65536
      let bad := (wfld v 4 4 ≠ 7 ∧ wfld v 4 4 ≠ 9) ∨ len = 0 ∨ 2 ^ 52 < base + len
        ∨ ∃ kv ∈ s.ranges, kv.1 ≠ i ∧ wfld (kv.2.getD 0 0) 10 6 = wfld v 10 6
          ∧ base < wfld (kv.2.getD 0 0) 16 36 * 65536 + wfld (kv.2.getD 1 0) 16 36 * 65536
          ∧ wfld (kv.2.getD 0 0) 16 36 * 65536 < base + len
      ∃ t, exec (.formatRangeCommit i v) s = .next t
        ∧ t = { s with ctl := t.ctl, ranges := t.ranges, declines := t.declines }
        ∧ (∀ l, l ∈ t.declines → l ∈ s.declines ∧ l.inRange (mget [] s.ranges i) = false
          ∧ l.inRange [v &&& 0x000FFFFFFFFFFCF1, w1] = false)
        ∧ (v.getLsbD 0 = false ∨ bad → mfind t.ranges i = none)
        ∧ (v.getLsbD 0 = true → bad → (ctlR t (0x1000 + 0x40 * i)).getLsbD 0 = false
            ∧ ctlR t (0x1038 + 0x40 * i) = 1)
        ∧ (v.getLsbD 0 = true → ¬bad → ∃ ws, mfind t.ranges i = some ws ∧ ws.length = 5
            ∧ ws.getD 0 0 = (v &&& 0x000FFFFFFFFFFCF1) ∧ ws.getD 1 0 = w1 ∧ ctlR t (0x1038 + 0x40 * i) = 0)
        ∧ ∀ j, j ≠ i → mfind t.ranges j = mfind s.ranges j)
  ∧ (∀ s v, (s.tlbBusy = none → wfld v 0 2 ≠ 3 → ∃ t, exec (.tlbinvWrite v) s = .next t ∧ t.tlbBusy = some v
        ∧ (ctlR t 0x0208).getLsbD 0 = true ∧ ctlR t 0x0200 = v &&& 0x03FFFFFFFFFFF003
        ∧ t = { s with tlbBusy := some v, ctl := t.ctl })
      ∧ (s.tlbBusy ≠ none ∨ wfld v 0 2 = 3 → exec (.tlbinvWrite v) s
          = .next { s with ctl := mput 0 s.ctl 0x0208 (ctlR s 0x0208 ||| 2) }))
  ∧ (∀ s i v, s.ctxs = [] → i < 8 →
      let x : State := { s with ctl := mput 0 s.ctl (0x0600 + 16 * i) (v &&& 0x000FFFFFFFFFF001) }
      (regionsBad x = false → exec (.interleaveRegionWrite i 0 v) s = .next x)
      ∧ (regionsBad x = true → ∃ t, exec (.interleaveRegionWrite i 0 v) s = .next t ∧ (∀ j, j < 8 → region t j = none)))
  ∧ (∀ s i w v, s.ctxs ≠ [] → exec (.interleaveRegionWrite i w v) s = .next s)
  ∧ (∀ s ctx q v, ctx < 64 → q < 16 → (mget {} s.lqs (ctx * 16 + q)).packets = [] →
      let x := mget {} s.lqs (ctx * 16 + q)
      (x.logn ≤ 16 → wfld v 52 12 = 0 → wfld v 1 11 = 0 → exec (.launchQueueConfigWrite ctx q 0 v) s
        = .next { s with lqs := mset s.lqs (ctx * 16 + q) { x with base := wfld v 12 40, v := v.getLsbD 0 } })
      ∧ (v.toNat ≤ 16 → exec (.launchQueueConfigWrite ctx q 1 v) s
        = .next { s with lqs := mset s.lqs (ctx * 16 + q) { x with logn := v.toNat } }))
  ∧ (∀ s d, d < 80 → (getDome s d).ret = false → liveOthers s d ≠ [] →
      exec (.retqWrite d) s = .next (setDome s d { getDome s d with retq := true }))
  ∧ (∀ s q v, q < 8 → (ctlR s (0x0C00 + 8 * q)).getLsbD 0 = false → v.getLsbD 0 = true →
      exec (.qfwWrite q v) s = .next { s with ctl := mput 0 s.ctl (0x0C00 + 8 * q) (v &&& 0x000FFFFFFFFFF001) })
  ∧ (∀ s k v, k < 8 → (ctlR s (0x0B00 + 8 * k)).getLsbD 0 = false → v.getLsbD 0 = true →
      wfld v 4 4 = 6 ∨ wfld v 4 4 = 8 ∨ wfld v 4 4 = 10 → mfind s.retrain k = none →
      (∀ kc ∈ s.cores, kc.2.saving = none) →
      exec (.stkctlRetrain k v) s = .next { s with
        ctl := mput 0 s.ctl (0x0B00 + 8 * k) (v &&& 0xF1), retrain := mset s.retrain k (wfld v 4 4) })
  ∧ (∀ s core v, core < 192 → exec (.controlRegisterWrite (0x3000 + 8 * core) v) s
      = .next (setCore { s with ctl := mput 0 s.ctl (0x3000 + 8 * core) (v &&& 0x000FFFFFFFFFF000) } core
          { getCore s core with gated := false }))
  ∧ (∀ s off v, off ≠ 0x0208 → off ≠ 0x0900 → off ≠ 0x0908 → off ≠ 0x0918 → off ≠ 0x10018 → plainMask s off ≠ 0 →
      off < 0x3000 ∨ 0x3600 ≤ off →
      exec (.controlRegisterWrite off v) s = .next { s with ctl := mput 0 s.ctl off (v &&& plainMask s off) })
  ∧ (∀ s off v, off ≠ 0x0208 → plainMask s off = 0 → exec (.controlRegisterWrite off v) s = .next s)

/-- The debug mailbox (R333 to R335, R338, R343): the oldest command of the ring is executed when it is of the event's kind; it
is a wake of its core. A halt, in a reversal with the reverse trace pushed back (R130), and a resume are answered with KIND 1, a step lets its slot issue, a back-step reports KIND 6,
a read answers with the value, and one of HSP pushes the pending trace first (R127), and a write stores it; a command whose group is
not there, or that is malformed, is answered with KIND 2. Which commands a group refuses, and the status per halted group, are the
model's (assumption 42), and that BACK_STEP pushes the pending trace first, where it fits, is its choice (assumption 73). -/
def Obligations.MailboxCommands : Prop :=
  (∀ s c g, cmdNext s = some c → cmdBad c = false → c.core < 192 →
      let w : State := setCore s c.core { getCore s c.core with gated := false }
      cmdGroup w c = some g →
      let done (v : DWord) (kind : Nat) (x : State) (h : Group) : State := groupPost (cmdDone x) c kind c.slot h v 0
      (c.op = 1 → g.halted = true → exec .haltGroup s = .next (cmdPost w c 1))
      ∧ (c.op = 1 → g.halted = false → exec .haltGroup s
          = .next (cmdPost (groupPost (backAux 130 (setGroup w c.core c.slot
              { (if g.rev = none then g else returnTrace g) with halted := true }) c.core c.slot) c 10 c.slot g 0 0) c 1))
      ∧ (c.op = 3 → exec .resumeGroup s = .next (cmdPost (setGroup w c.core c.slot { g with halted := false }) c 1))
      ∧ (c.op = 5 → g.step = none → g.wpPend = [] → stepOk g (if (c.w 1).getLsbD 0 then .b else .a) = true →
          exec .step s = .next (setGroup w c.core c.slot
            { g with step := some (if (c.w 1).getLsbD 0 then .b else .a, c.token) }))
      ∧ (c.op = 5 → g.step = none → stepOk g (if (c.w 1).getLsbD 0 then .b else .a) = false →
          exec .step s = .next (cmdRefuse w c))
      ∧ (∀ x sl h, c.op = 6 → feature s 0 = true → g.spec = none → g.rev = none → g.halted = true → g.held = .none →
          g.colop = none → g.counting = true → (getCore s c.core).quiesced = false →
          revTry (if g.recb = true ∧ traceFits g = true then setGroup w c.core c.slot (flushTrace g) else w) c.core c.slot
            = .ok (x, sl) → getGroup (revEnd x c.core c.slot) c.core c.slot = some h →
          exec .backStep s = .next (done 0 6 (revEnd x c.core c.slot) h))
      ∧ (c.op = 7 → g.halted = true →
          (c.cls = 0 → c.idx < 64 → c.lane < g.w → exec .mailboxRead s = .next (done (zx (g.nreg c.idx c.lane)) 1 w g))
          ∧ (c.cls = 2 → c.idx < 128 → exec .mailboxRead s = .next (done (g.kreg c.idx) 1 w g))
          ∧ (c.cls = 3 → c.idx = 6 → g.recording = true → g.ptrace ≠ [] → g.hsp.toNat + 16 ≤ g.hlim.toNat →
              ∃ t g', exec .mailboxRead s = .next t ∧ getGroup t c.core c.slot = some g' ∧ g'.ptrace = [] ∧ g'.hsp = g.hsp + 16)
          ∧ (c.cls = 0 → 64 ≤ c.idx → exec .mailboxRead s = .next (cmdRefuse w c)))
      ∧ (c.op = 8 → g.halted = true →
          (c.cls = 0 → c.idx < 64 → c.lane < g.w → exec .mailboxWrite s
            = .next (done 0 1 (setGroup w c.core c.slot (g.setN c.idx c.lane ((c.w 2).setWidth 32))) g))
          ∧ (c.cls = 2 → c.idx < 128 → exec .mailboxWrite s
            = .next (done 0 1 (setGroup w c.core c.slot (g.setK c.idx (c.w 2))) g))
          ∧ (c.cls = 4 → g.recb = false → ∃ t g', exec .mailboxWrite s = .next t ∧ getGroup t c.core c.slot = some g'
            ∧ ∀ i, i < 8 → g'.guard i = guardOf (wfld (c.w 2) (2 * i) 2)))
      ∧ (c.op = 7 ∨ c.op = 8 → g.halted = false →
          exec (if c.op = 7 then .mailboxRead else .mailboxWrite) s = .next (cmdRefuse w c)))
  ∧ (∀ s c i, cmdNext s = some c → cmdBad c = false → c.core < 192 →
      let w : State := setCore s c.core { getCore s c.core with gated := false }
      cmdGroup w c = none →
      (c.op, i) ∈ [(1, Instr.haltGroup), (3, .resumeGroup), (5, .step), (6, .backStep), (7, .mailboxRead), (8, .mailboxWrite)] →
      exec i s = .next (cmdRefuse w c))
  ∧ (∀ s c gs, cmdNext s = some c → cmdBad c = false → c.core < 192 →
      let w : State := setCore s c.core { getCore s c.core with gated := false }
      cmdUnit w c = some gs →
      (c.op = 2 → ∃ t, exec .haltUnit s = .next t
        ∧ ∀ k g, getGroup s c.core k = some g → g.unit = c.slot → g.ended = false →
          ∃ g', getGroup t c.core k = some g' ∧ g'.halted = true
            ∧ g' = { g with halted := true, ptrace := g'.ptrace, ptraceIc := g'.ptraceIc, rtrace := g'.rtrace, hist := g'.hist
                            hsp := g'.hsp, deep := g'.deep })
      ∧ (c.op = 4 → ∃ t, exec .resumeUnit s = .next t
        ∧ ∀ k g, getGroup s c.core k = some g → g.unit = c.slot → g.ended = false →
          getGroup t c.core k = some { g with halted := false }))
  ∧ (∀ s c, cmdNext s = some c → cmdBad c = true → exec .mailboxRefused s = .next (cmdRefuse s c))
  ∧ ∀ s (c : Cmd), cmdRefuse s c
      = stPost { s with ctl := mput 0 s.ctl 0x10008 (dw (((ctlR s 0x10008).toNat + 1) % 64)) }
      (dw (2 + c.ctx * 2 ^ 8 + c.core * 2 ^ 14 + c.slot * 2 ^ 22 + c.token * 2 ^ 32)) 0 0 0 0 0
end

