-- ==== Sys2Proof/Laws/Maps.lean ====
section
/-! SUPPORT. Laws of the sparse maps and of memory by bytes: reads after writes, and the canonical form. -/

namespace Sys2Proof.Machine

variable {α : Type}

@[simp] theorem mfind_mset (m : AMap α) (i j : Nat) (v : α) :
    mfind (mset m i v) j = if i = j then some v else mfind m j := by
  induction m with
  | nil => simp [mset, mfind]
  | cons h t ih =>
    obtain ⟨k, w⟩ := h
    simp only [mset]
    split
    · simp only [mfind]
    · split
      · subst_vars; simp only [mfind]; split <;> simp_all
      · simp only [mfind, ih]; split <;> split <;> simp_all

@[simp] theorem mfind_mdel (m : AMap α) (i j : Nat) :
    mfind (mdel m i) j = if i = j then none else mfind m j := by
  induction m with
  | nil => simp [mdel, mfind]
  | cons h t ih =>
    obtain ⟨k, w⟩ := h
    simp only [mdel]
    split
    · subst_vars; simp only [ih, mfind]; split <;> simp_all
    · simp only [mfind, ih]; split <;> split <;> simp_all

@[simp] theorem mget_mput [DecidableEq α] (d : α) (m : AMap α) (i j : Nat) (v : α) :
    mget d (mput d m i v) j = if i = j then v else mget d m j := by
  simp only [mget, mput]
  split
  · subst_vars; simp only [mfind_mdel]; split <;> simp
  · simp only [mfind_mset]; split <;> simp

theorem mset_mset (m : AMap α) (i : Nat) (v w : α) : mset (mset m i v) i w = mset m i w := by
  induction m with
  | nil => simp [mset]
  | cons h t ih =>
    obtain ⟨k, x⟩ := h
    simp only [mset]
    split
    · simp [mset]
    · split
      · subst_vars; simp [mset]
      · simp_all [mset]

theorem mget_mputs [DecidableEq α] (d : α) (m : AMap α) (i j : Nat) (vs : List α) :
    mget d (mputs d m i vs) j = if i ≤ j ∧ j < i + vs.length then vs.getD (j - i) d else mget d m j := by
  induction vs generalizing m i with
  | nil => simp only [mputs, List.length_nil]; rw [if_neg (by omega)]
  | cons v vs ih =>
    simp only [mputs, ih, mget_mput, List.length_cons]
    by_cases h : i = j
    · subst h; rw [if_neg (by omega), if_pos rfl, if_pos (by omega)]; simp
    · rw [if_neg h]
      by_cases h2 : i + 1 ≤ j ∧ j < i + 1 + vs.length
      · rw [if_pos h2, if_pos (by omega)]
        obtain ⟨k, rfl⟩ : ∃ k, j = i + 1 + k := ⟨j - (i + 1), by omega⟩
        rw [show i + 1 + k - (i + 1) = k by omega, show i + 1 + k - i = k + 1 by omega]; simp
      · rw [if_neg h2, if_neg (by omega)]

/-! ### The canonical form -/

/-- Every key of a map lies above a bound. -/
def above (b : Nat) (m : AMap α) : Prop := ∀ x ∈ m, b < x.1

theorem mrising_cons (k : Nat) (v : α) (m : AMap α) : mrising ((k, v) :: m) = true ↔ above k m ∧ mrising m = true := by
  induction m generalizing k v with
  | nil => simp [mrising, above]
  | cons h t ih =>
    obtain ⟨k', v'⟩ := h
    rw [mrising, Bool.and_eq_true, decide_eq_true_iff, ih k' v']
    constructor
    · rintro ⟨h1, h2, h3⟩
      refine ⟨?_, h2, h3⟩
      intro x hx
      rcases List.mem_cons.1 hx with rfl | hx
      · exact h1
      · exact Nat.lt_trans h1 (h2 x hx)
    · rintro ⟨h1, h2, h3⟩
      exact ⟨h1 (k', v') (by simp), h2, h3⟩

theorem above_mset {b i : Nat} {m : AMap α} (hb : b < i) (h : above b m) (v : α) : above b (mset m i v) := by
  induction m with
  | nil => intro x hx; simp [mset] at hx; subst hx; exact hb
  | cons y t ih =>
    obtain ⟨k, w⟩ := y
    have ht : above b t := fun x hx => h x (by simp [hx])
    have hk : b < k := h (k, w) (by simp)
    simp only [mset]
    split
    · intro x hx; rcases List.mem_cons.1 hx with rfl | hx
      · exact hb
      · exact h x hx
    · split
      · intro x hx; rcases List.mem_cons.1 hx with rfl | hx
        · exact hb
        · exact ht x hx
      · intro x hx; rcases List.mem_cons.1 hx with rfl | hx
        · exact hk
        · exact ih ht x hx

theorem mrising_mset {m : AMap α} (h : mrising m = true) (i : Nat) (v : α) : mrising (mset m i v) = true := by
  induction m with
  | nil => simp [mset, mrising]
  | cons y t ih =>
    obtain ⟨k, w⟩ := y
    rw [mrising_cons] at h
    simp only [mset]
    split
    · rw [mrising_cons, mrising_cons]
      refine ⟨?_, h⟩
      intro x hx; rcases List.mem_cons.1 hx with rfl | hx
      · assumption
      · exact Nat.lt_trans (by assumption) (h.1 x hx)
    · split
      · subst_vars; rw [mrising_cons]; exact h
      · rw [mrising_cons]; exact ⟨above_mset (by omega) h.1 v, ih h.2⟩

theorem mem_mdel {m : AMap α} {i : Nat} {x : Nat × α} (h : x ∈ mdel m i) : x ∈ m := by
  induction m with
  | nil => simp [mdel] at h
  | cons y t ih =>
    obtain ⟨k, w⟩ := y
    simp only [mdel] at h
    split at h
    · exact List.mem_cons_of_mem _ (ih h)
    · rcases List.mem_cons.1 h with rfl | h
      · simp
      · exact List.mem_cons_of_mem _ (ih h)

theorem mrising_mdel {m : AMap α} (h : mrising m = true) (i : Nat) : mrising (mdel m i) = true := by
  induction m with
  | nil => simp [mdel, mrising]
  | cons y t ih =>
    obtain ⟨k, w⟩ := y
    rw [mrising_cons] at h
    simp only [mdel]
    split
    · exact ih h.2
    · rw [mrising_cons]; exact ⟨fun x hx => h.1 x (mem_mdel hx), ih h.2⟩

theorem mem_mset {m : AMap α} {i : Nat} {v : α} {x : Nat × α} (h : x ∈ mset m i v) : x ∈ m ∨ x = (i, v) := by
  induction m with
  | nil => simp [mset] at h; exact .inr h
  | cons y t ih =>
    obtain ⟨k, w⟩ := y
    simp only [mset] at h
    split at h
    · rcases List.mem_cons.1 h with h | h
      · exact .inr h
      · exact .inl h
    · split at h
      · rcases List.mem_cons.1 h with h | h
        · exact .inr h
        · exact .inl (List.mem_cons_of_mem _ h)
      · rcases List.mem_cons.1 h with h | h
        · exact .inl (by simp [h])
        · rcases ih h with h | h
          · exact .inl (List.mem_cons_of_mem _ h)
          · exact .inr h

/-! ### Memory -/

theorem memory_wf_iff (m : List Host.Cell) :
    Memory.wf m = true ↔ mrising m = true ∧ ∀ x ∈ m, x.2 ≠ memDefault := by
  simp [Memory.wf]

/-- A write keeps the canonical form. -/
theorem memWrite_wf {m : List Host.Cell} (h : Memory.wf m = true) (a : Nat) (b : Byte) :
    Memory.wf (memWrite m a b) = true := by
  rw [memory_wf_iff] at h ⊢
  unfold memWrite mput
  split
  · exact ⟨mrising_mdel h.1 a, fun x hx => h.2 x (mem_mdel hx)⟩
  · refine ⟨mrising_mset h.1 a b, fun x hx => ?_⟩
    rcases mem_mset hx with hx | rfl
    · exact h.2 x hx
    · assumption

/-- Writes of consecutive bytes keep the canonical form. -/
theorem memWrites_wf {m : List Host.Cell} (h : Memory.wf m = true) (a : Nat) (bs : List Byte) :
    Memory.wf (memWrites m a bs) = true := by
  unfold memWrites
  induction bs generalizing m a with
  | nil => exact h
  | cons b bs ih => exact ih (memWrite_wf h a b) (a + 1)

/-- Clearing a range keeps the canonical form. -/
theorem memClear_wf {m : List Host.Cell} (h : Memory.wf m = true) (a n : Nat) :
    Memory.wf (memClear m a n) = true := by
  rw [memory_wf_iff] at h ⊢
  refine ⟨?_, fun x hx => h.2 x ((List.mem_filter.1 hx).1)⟩
  have h1 := h.1
  clear h
  unfold memClear
  induction m with
  | nil => rfl
  | cons y t ih =>
    obtain ⟨k, w⟩ := y
    rw [mrising_cons] at h1
    rw [List.filter_cons]
    split
    · rw [mrising_cons]; exact ⟨fun x hx => h1.1 x ((List.mem_filter.1 hx).1), ih h1.2⟩
    · exact ih h1.2

/-- A read after a write: the written byte there, every other byte as before. -/
@[simp] theorem memRead_memWrite (m : List Host.Cell) (a b : Nat) (v : Byte) :
    memRead (memWrite m a v) b = if a = b then v else memRead m b := mget_mput _ _ _ _ _

/-- A read after a write of consecutive bytes. -/
theorem memRead_memWrites (m : List Host.Cell) (a b : Nat) (bs : List Byte) :
    memRead (memWrites m a bs) b = if a ≤ b ∧ b < a + bs.length then bs.getD (b - a) 0 else memRead m b :=
  mget_mputs _ _ _ _ _

end Sys2Proof.Machine
end

