-- ==== Sys2Proof/Laws/State.lean ====
section
/-! SUPPORT. What the named updates of a group and of the state leave as it is: one law per field and update, true by
definition, so that no proof unfolds a record update; and the laws of reading a group after writing one. -/

namespace Sys2Proof.Machine

/-! ### Group.setN -/

@[simp] theorem Group.setN_ctx (g : Group) (i l : Nat) (v : Word) : (g.setN i l v).ctx = g.ctx := rfl
@[simp] theorem Group.setN_launch (g : Group) (i l : Nat) (v : Word) : (g.setN i l v).launch = g.launch := rfl
@[simp] theorem Group.setN_unit (g : Group) (i l : Nat) (v : Word) : (g.setN i l v).unit = g.unit := rfl
@[simp] theorem Group.setN_gidx (g : Group) (i l : Nat) (v : Word) : (g.setN i l v).gidx = g.gidx := rfl
@[simp] theorem Group.setN_wcode (g : Group) (i l : Nat) (v : Word) : (g.setN i l v).wcode = g.wcode := rfl
@[simp] theorem Group.setN_priv (g : Group) (i l : Nat) (v : Word) : (g.setN i l v).priv = g.priv := rfl
@[simp] theorem Group.setN_pathA (g : Group) (i l : Nat) (v : Word) : (g.setN i l v).pathA = g.pathA := rfl
@[simp] theorem Group.setN_pathB (g : Group) (i l : Nat) (v : Word) : (g.setN i l v).pathB = g.pathB := rfl
@[simp] theorem Group.setN_stack (g : Group) (i l : Nat) (v : Word) : (g.setN i l v).stack = g.stack := rfl
@[simp] theorem Group.setN_deep (g : Group) (i l : Nat) (v : Word) : (g.setN i l v).deep = g.deep := rfl
@[simp] theorem Group.setN_fserial (g : Group) (i l : Nat) (v : Word) : (g.setN i l v).fserial = g.fserial := rfl
@[simp] theorem Group.setN_waitCtr (g : Group) (i l : Nat) (v : Word) : (g.setN i l v).waitCtr = g.waitCtr := rfl
@[simp] theorem Group.setN_last (g : Group) (i l : Nat) (v : Word) : (g.setN i l v).last = g.last := rfl
@[simp] theorem Group.setN_ic (g : Group) (i l : Nat) (v : Word) : (g.setN i l v).ic = g.ic := rfl
@[simp] theorem Group.setN_recb (g : Group) (i l : Nat) (v : Word) : (g.setN i l v).recb = g.recb := rfl
@[simp] theorem Group.setN_dir (g : Group) (i l : Nat) (v : Word) : (g.setN i l v).dir = g.dir := rfl
@[simp] theorem Group.setN_uih (g : Group) (i l : Nat) (v : Word) : (g.setN i l v).uih = g.uih := rfl
@[simp] theorem Group.setN_cth (g : Group) (i l : Nat) (v : Word) : (g.setN i l v).cth = g.cth := rfl
@[simp] theorem Group.setN_recUi (g : Group) (i l : Nat) (v : Word) : (g.setN i l v).recUi = g.recUi := rfl
@[simp] theorem Group.setN_recCt (g : Group) (i l : Nat) (v : Word) : (g.setN i l v).recCt = g.recCt := rfl
@[simp] theorem Group.setN_ctret (g : Group) (i l : Nat) (v : Word) : (g.setN i l v).ctret = g.ctret := rfl
@[simp] theorem Group.setN_cthGset (g : Group) (i l : Nat) (v : Word) : (g.setN i l v).cthGset = g.cthGset := rfl
@[simp] theorem Group.setN_cthHist (g : Group) (i l : Nat) (v : Word) : (g.setN i l v).cthHist = g.cthHist := rfl
@[simp] theorem Group.setN_hSlot (g : Group) (i l : Nat) (v : Word) : (g.setN i l v).hSlot = g.hSlot := rfl
@[simp] theorem Group.setN_uiSlot (g : Group) (i l : Nat) (v : Word) : (g.setN i l v).uiSlot = g.uiSlot := rfl
@[simp] theorem Group.setN_q (g : Group) (i l : Nat) (v : Word) : (g.setN i l v).q = g.q := rfl
@[simp] theorem Group.setN_live (g : Group) (i l : Nat) (v : Word) : (g.setN i l v).live = g.live := rfl
@[simp] theorem Group.setN_k (g : Group) (i l : Nat) (v : Word) : (g.setN i l v).k = g.k := rfl
@[simp] theorem Group.setN_guards (g : Group) (i l : Nat) (v : Word) : (g.setN i l v).guards = g.guards := rfl
@[simp] theorem Group.setN_hbase (g : Group) (i l : Nat) (v : Word) : (g.setN i l v).hbase = g.hbase := rfl
@[simp] theorem Group.setN_hlim (g : Group) (i l : Nat) (v : Word) : (g.setN i l v).hlim = g.hlim := rfl
@[simp] theorem Group.setN_hsp (g : Group) (i l : Nat) (v : Word) : (g.setN i l v).hsp = g.hsp := rfl
@[simp] theorem Group.setN_hist (g : Group) (i l : Nat) (v : Word) : (g.setN i l v).hist = g.hist := rfl
@[simp] theorem Group.setN_ptrace (g : Group) (i l : Nat) (v : Word) : (g.setN i l v).ptrace = g.ptrace := rfl
@[simp] theorem Group.setN_ptraceIc (g : Group) (i l : Nat) (v : Word) : (g.setN i l v).ptraceIc = g.ptraceIc := rfl
@[simp] theorem Group.setN_rtrace (g : Group) (i l : Nat) (v : Word) : (g.setN i l v).rtrace = g.rtrace := rfl
@[simp] theorem Group.setN_rev (g : Group) (i l : Nat) (v : Word) : (g.setN i l v).rev = g.rev := rfl
@[simp] theorem Group.setN_spec (g : Group) (i l : Nat) (v : Word) : (g.setN i l v).spec = g.spec := rfl
@[simp] theorem Group.setN_hold (g : Group) (i l : Nat) (v : Word) : (g.setN i l v).hold = g.hold := rfl
@[simp] theorem Group.setN_fctl (g : Group) (i l : Nat) (v : Word) : (g.setN i l v).fctl = g.fctl := rfl
@[simp] theorem Group.setN_fstat (g : Group) (i l : Nat) (v : Word) : (g.setN i l v).fstat = g.fstat := rfl
@[simp] theorem Group.setN_uvec (g : Group) (i l : Nat) (v : Word) : (g.setN i l v).uvec = g.uvec := rfl
@[simp] theorem Group.setN_uicause (g : Group) (i l : Nat) (v : Word) : (g.setN i l v).uicause = g.uicause := rfl
@[simp] theorem Group.setN_uiretpc (g : Group) (i l : Nat) (v : Word) : (g.setN i l v).uiretpc = g.uiretpc := rfl
@[simp] theorem Group.setN_uirw (g : Group) (i l : Nat) (v : Word) : (g.setN i l v).uirw = g.uirw := rfl
@[simp] theorem Group.setN_trapinfo0 (g : Group) (i l : Nat) (v : Word) : (g.setN i l v).trapinfo0 = g.trapinfo0 := rfl
@[simp] theorem Group.setN_trapinfo1 (g : Group) (i l : Nat) (v : Word) : (g.setN i l v).trapinfo1 = g.trapinfo1 := rfl
@[simp] theorem Group.setN_trapinfo2 (g : Group) (i l : Nat) (v : Word) : (g.setN i l v).trapinfo2 = g.trapinfo2 := rfl
@[simp] theorem Group.setN_trapinfo3 (g : Group) (i l : Nat) (v : Word) : (g.setN i l v).trapinfo3 = g.trapinfo3 := rfl
@[simp] theorem Group.setN_replval (g : Group) (i l : Nat) (v : Word) : (g.setN i l v).replval = g.replval := rfl
@[simp] theorem Group.setN_privbase (g : Group) (i l : Nat) (v : Word) : (g.setN i l v).privbase = g.privbase := rfl
@[simp] theorem Group.setN_causes (g : Group) (i l : Nat) (v : Word) : (g.setN i l v).causes = g.causes := rfl
@[simp] theorem Group.setN_pend (g : Group) (i l : Nat) (v : Word) : (g.setN i l v).pend = g.pend := rfl
@[simp] theorem Group.setN_held (g : Group) (i l : Nat) (v : Word) : (g.setN i l v).held = g.held := rfl
@[simp] theorem Group.setN_halted (g : Group) (i l : Nat) (v : Word) : (g.setN i l v).halted = g.halted := rfl
@[simp] theorem Group.setN_argWait (g : Group) (i l : Nat) (v : Word) : (g.setN i l v).argWait = g.argWait := rfl
@[simp] theorem Group.setN_step (g : Group) (i l : Nat) (v : Word) : (g.setN i l v).step = g.step := rfl
@[simp] theorem Group.setN_seq (g : Group) (i l : Nat) (v : Word) : (g.setN i l v).seq = g.seq := rfl
@[simp] theorem Group.setN_lq (g : Group) (i l : Nat) (v : Word) : (g.setN i l v).lq = g.lq := rfl
@[simp] theorem Group.setN_sq (g : Group) (i l : Nat) (v : Word) : (g.setN i l v).sq = g.sq := rfl
@[simp] theorem Group.setN_uncorr (g : Group) (i l : Nat) (v : Word) : (g.setN i l v).uncorr = g.uncorr := rfl
@[simp] theorem Group.setN_poll (g : Group) (i l : Nat) (v : Word) : (g.setN i l v).poll = g.poll := rfl
@[simp] theorem Group.setN_e0 (g : Group) (i l : Nat) (v : Word) : (g.setN i l v).e0 = g.e0 := rfl
@[simp] theorem Group.setN_e2 (g : Group) (i l : Nat) (v : Word) : (g.setN i l v).e2 = g.e2 := rfl
@[simp] theorem Group.setN_e4 (g : Group) (i l : Nat) (v : Word) : (g.setN i l v).e4 = g.e4 := rfl
@[simp] theorem Group.setN_e1 (g : Group) (i l : Nat) (v : Word) : (g.setN i l v).e1 = g.e1 := rfl
@[simp] theorem Group.setN_e3 (g : Group) (i l : Nat) (v : Word) : (g.setN i l v).e3 = g.e3 := rfl
@[simp] theorem Group.setN_e5 (g : Group) (i l : Nat) (v : Word) : (g.setN i l v).e5 = g.e5 := rfl
@[simp] theorem Group.setN_tmx (g : Group) (i l : Nat) (v : Word) : (g.setN i l v).tmx = g.tmx := rfl
@[simp] theorem Group.setN_tcp (g : Group) (i l : Nat) (v : Word) : (g.setN i l v).tcp = g.tcp := rfl
@[simp] theorem Group.setN_tvd (g : Group) (i l : Nat) (v : Word) : (g.setN i l v).tvd = g.tvd := rfl
@[simp] theorem Group.setN_mxseq (g : Group) (i l : Nat) (v : Word) : (g.setN i l v).mxseq = g.mxseq := rfl
@[simp] theorem Group.setN_mxnan (g : Group) (i l : Nat) (v : Word) : (g.setN i l v).mxnan = g.mxnan := rfl
@[simp] theorem Group.setN_engPend (g : Group) (i l : Nat) (v : Word) : (g.setN i l v).engPend = g.engPend := rfl
@[simp] theorem Group.setN_wpPend (g : Group) (i l : Nat) (v : Word) : (g.setN i l v).wpPend = g.wpPend := rfl
@[simp] theorem Group.setN_colop (g : Group) (i l : Nat) (v : Word) : (g.setN i l v).colop = g.colop := rfl
@[simp] theorem Group.setN_ended (g : Group) (i l : Nat) (v : Word) : (g.setN i l v).ended = g.ended := rfl

/-! ### Group.setQ -/

@[simp] theorem Group.setQ_ctx (g : Group) (a l : Nat) (v : Word) : (g.setQ a l v).ctx = g.ctx := rfl
@[simp] theorem Group.setQ_launch (g : Group) (a l : Nat) (v : Word) : (g.setQ a l v).launch = g.launch := rfl
@[simp] theorem Group.setQ_unit (g : Group) (a l : Nat) (v : Word) : (g.setQ a l v).unit = g.unit := rfl
@[simp] theorem Group.setQ_gidx (g : Group) (a l : Nat) (v : Word) : (g.setQ a l v).gidx = g.gidx := rfl
@[simp] theorem Group.setQ_wcode (g : Group) (a l : Nat) (v : Word) : (g.setQ a l v).wcode = g.wcode := rfl
@[simp] theorem Group.setQ_priv (g : Group) (a l : Nat) (v : Word) : (g.setQ a l v).priv = g.priv := rfl
@[simp] theorem Group.setQ_pathA (g : Group) (a l : Nat) (v : Word) : (g.setQ a l v).pathA = g.pathA := rfl
@[simp] theorem Group.setQ_pathB (g : Group) (a l : Nat) (v : Word) : (g.setQ a l v).pathB = g.pathB := rfl
@[simp] theorem Group.setQ_stack (g : Group) (a l : Nat) (v : Word) : (g.setQ a l v).stack = g.stack := rfl
@[simp] theorem Group.setQ_deep (g : Group) (a l : Nat) (v : Word) : (g.setQ a l v).deep = g.deep := rfl
@[simp] theorem Group.setQ_fserial (g : Group) (a l : Nat) (v : Word) : (g.setQ a l v).fserial = g.fserial := rfl
@[simp] theorem Group.setQ_waitCtr (g : Group) (a l : Nat) (v : Word) : (g.setQ a l v).waitCtr = g.waitCtr := rfl
@[simp] theorem Group.setQ_last (g : Group) (a l : Nat) (v : Word) : (g.setQ a l v).last = g.last := rfl
@[simp] theorem Group.setQ_ic (g : Group) (a l : Nat) (v : Word) : (g.setQ a l v).ic = g.ic := rfl
@[simp] theorem Group.setQ_recb (g : Group) (a l : Nat) (v : Word) : (g.setQ a l v).recb = g.recb := rfl
@[simp] theorem Group.setQ_dir (g : Group) (a l : Nat) (v : Word) : (g.setQ a l v).dir = g.dir := rfl
@[simp] theorem Group.setQ_uih (g : Group) (a l : Nat) (v : Word) : (g.setQ a l v).uih = g.uih := rfl
@[simp] theorem Group.setQ_cth (g : Group) (a l : Nat) (v : Word) : (g.setQ a l v).cth = g.cth := rfl
@[simp] theorem Group.setQ_recUi (g : Group) (a l : Nat) (v : Word) : (g.setQ a l v).recUi = g.recUi := rfl
@[simp] theorem Group.setQ_recCt (g : Group) (a l : Nat) (v : Word) : (g.setQ a l v).recCt = g.recCt := rfl
@[simp] theorem Group.setQ_ctret (g : Group) (a l : Nat) (v : Word) : (g.setQ a l v).ctret = g.ctret := rfl
@[simp] theorem Group.setQ_cthGset (g : Group) (a l : Nat) (v : Word) : (g.setQ a l v).cthGset = g.cthGset := rfl
@[simp] theorem Group.setQ_cthHist (g : Group) (a l : Nat) (v : Word) : (g.setQ a l v).cthHist = g.cthHist := rfl
@[simp] theorem Group.setQ_hSlot (g : Group) (a l : Nat) (v : Word) : (g.setQ a l v).hSlot = g.hSlot := rfl
@[simp] theorem Group.setQ_uiSlot (g : Group) (a l : Nat) (v : Word) : (g.setQ a l v).uiSlot = g.uiSlot := rfl
@[simp] theorem Group.setQ_n (g : Group) (a l : Nat) (v : Word) : (g.setQ a l v).n = g.n := rfl
@[simp] theorem Group.setQ_live (g : Group) (a l : Nat) (v : Word) : (g.setQ a l v).live = g.live := rfl
@[simp] theorem Group.setQ_k (g : Group) (a l : Nat) (v : Word) : (g.setQ a l v).k = g.k := rfl
@[simp] theorem Group.setQ_guards (g : Group) (a l : Nat) (v : Word) : (g.setQ a l v).guards = g.guards := rfl
@[simp] theorem Group.setQ_hbase (g : Group) (a l : Nat) (v : Word) : (g.setQ a l v).hbase = g.hbase := rfl
@[simp] theorem Group.setQ_hlim (g : Group) (a l : Nat) (v : Word) : (g.setQ a l v).hlim = g.hlim := rfl
@[simp] theorem Group.setQ_hsp (g : Group) (a l : Nat) (v : Word) : (g.setQ a l v).hsp = g.hsp := rfl
@[simp] theorem Group.setQ_hist (g : Group) (a l : Nat) (v : Word) : (g.setQ a l v).hist = g.hist := rfl
@[simp] theorem Group.setQ_ptrace (g : Group) (a l : Nat) (v : Word) : (g.setQ a l v).ptrace = g.ptrace := rfl
@[simp] theorem Group.setQ_ptraceIc (g : Group) (a l : Nat) (v : Word) : (g.setQ a l v).ptraceIc = g.ptraceIc := rfl
@[simp] theorem Group.setQ_rtrace (g : Group) (a l : Nat) (v : Word) : (g.setQ a l v).rtrace = g.rtrace := rfl
@[simp] theorem Group.setQ_rev (g : Group) (a l : Nat) (v : Word) : (g.setQ a l v).rev = g.rev := rfl
@[simp] theorem Group.setQ_spec (g : Group) (a l : Nat) (v : Word) : (g.setQ a l v).spec = g.spec := rfl
@[simp] theorem Group.setQ_hold (g : Group) (a l : Nat) (v : Word) : (g.setQ a l v).hold = g.hold := rfl
@[simp] theorem Group.setQ_fctl (g : Group) (a l : Nat) (v : Word) : (g.setQ a l v).fctl = g.fctl := rfl
@[simp] theorem Group.setQ_fstat (g : Group) (a l : Nat) (v : Word) : (g.setQ a l v).fstat = g.fstat := rfl
@[simp] theorem Group.setQ_uvec (g : Group) (a l : Nat) (v : Word) : (g.setQ a l v).uvec = g.uvec := rfl
@[simp] theorem Group.setQ_uicause (g : Group) (a l : Nat) (v : Word) : (g.setQ a l v).uicause = g.uicause := rfl
@[simp] theorem Group.setQ_uiretpc (g : Group) (a l : Nat) (v : Word) : (g.setQ a l v).uiretpc = g.uiretpc := rfl
@[simp] theorem Group.setQ_uirw (g : Group) (a l : Nat) (v : Word) : (g.setQ a l v).uirw = g.uirw := rfl
@[simp] theorem Group.setQ_trapinfo0 (g : Group) (a l : Nat) (v : Word) : (g.setQ a l v).trapinfo0 = g.trapinfo0 := rfl
@[simp] theorem Group.setQ_trapinfo1 (g : Group) (a l : Nat) (v : Word) : (g.setQ a l v).trapinfo1 = g.trapinfo1 := rfl
@[simp] theorem Group.setQ_trapinfo2 (g : Group) (a l : Nat) (v : Word) : (g.setQ a l v).trapinfo2 = g.trapinfo2 := rfl
@[simp] theorem Group.setQ_trapinfo3 (g : Group) (a l : Nat) (v : Word) : (g.setQ a l v).trapinfo3 = g.trapinfo3 := rfl
@[simp] theorem Group.setQ_replval (g : Group) (a l : Nat) (v : Word) : (g.setQ a l v).replval = g.replval := rfl
@[simp] theorem Group.setQ_privbase (g : Group) (a l : Nat) (v : Word) : (g.setQ a l v).privbase = g.privbase := rfl
@[simp] theorem Group.setQ_causes (g : Group) (a l : Nat) (v : Word) : (g.setQ a l v).causes = g.causes := rfl
@[simp] theorem Group.setQ_pend (g : Group) (a l : Nat) (v : Word) : (g.setQ a l v).pend = g.pend := rfl
@[simp] theorem Group.setQ_held (g : Group) (a l : Nat) (v : Word) : (g.setQ a l v).held = g.held := rfl
@[simp] theorem Group.setQ_halted (g : Group) (a l : Nat) (v : Word) : (g.setQ a l v).halted = g.halted := rfl
@[simp] theorem Group.setQ_argWait (g : Group) (a l : Nat) (v : Word) : (g.setQ a l v).argWait = g.argWait := rfl
@[simp] theorem Group.setQ_step (g : Group) (a l : Nat) (v : Word) : (g.setQ a l v).step = g.step := rfl
@[simp] theorem Group.setQ_seq (g : Group) (a l : Nat) (v : Word) : (g.setQ a l v).seq = g.seq := rfl
@[simp] theorem Group.setQ_lq (g : Group) (a l : Nat) (v : Word) : (g.setQ a l v).lq = g.lq := rfl
@[simp] theorem Group.setQ_sq (g : Group) (a l : Nat) (v : Word) : (g.setQ a l v).sq = g.sq := rfl
@[simp] theorem Group.setQ_uncorr (g : Group) (a l : Nat) (v : Word) : (g.setQ a l v).uncorr = g.uncorr := rfl
@[simp] theorem Group.setQ_poll (g : Group) (a l : Nat) (v : Word) : (g.setQ a l v).poll = g.poll := rfl
@[simp] theorem Group.setQ_e0 (g : Group) (a l : Nat) (v : Word) : (g.setQ a l v).e0 = g.e0 := rfl
@[simp] theorem Group.setQ_e2 (g : Group) (a l : Nat) (v : Word) : (g.setQ a l v).e2 = g.e2 := rfl
@[simp] theorem Group.setQ_e4 (g : Group) (a l : Nat) (v : Word) : (g.setQ a l v).e4 = g.e4 := rfl
@[simp] theorem Group.setQ_e1 (g : Group) (a l : Nat) (v : Word) : (g.setQ a l v).e1 = g.e1 := rfl
@[simp] theorem Group.setQ_e3 (g : Group) (a l : Nat) (v : Word) : (g.setQ a l v).e3 = g.e3 := rfl
@[simp] theorem Group.setQ_e5 (g : Group) (a l : Nat) (v : Word) : (g.setQ a l v).e5 = g.e5 := rfl
@[simp] theorem Group.setQ_tmx (g : Group) (a l : Nat) (v : Word) : (g.setQ a l v).tmx = g.tmx := rfl
@[simp] theorem Group.setQ_tcp (g : Group) (a l : Nat) (v : Word) : (g.setQ a l v).tcp = g.tcp := rfl
@[simp] theorem Group.setQ_tvd (g : Group) (a l : Nat) (v : Word) : (g.setQ a l v).tvd = g.tvd := rfl
@[simp] theorem Group.setQ_mxseq (g : Group) (a l : Nat) (v : Word) : (g.setQ a l v).mxseq = g.mxseq := rfl
@[simp] theorem Group.setQ_mxnan (g : Group) (a l : Nat) (v : Word) : (g.setQ a l v).mxnan = g.mxnan := rfl
@[simp] theorem Group.setQ_engPend (g : Group) (a l : Nat) (v : Word) : (g.setQ a l v).engPend = g.engPend := rfl
@[simp] theorem Group.setQ_wpPend (g : Group) (a l : Nat) (v : Word) : (g.setQ a l v).wpPend = g.wpPend := rfl
@[simp] theorem Group.setQ_colop (g : Group) (a l : Nat) (v : Word) : (g.setQ a l v).colop = g.colop := rfl
@[simp] theorem Group.setQ_ended (g : Group) (a l : Nat) (v : Word) : (g.setQ a l v).ended = g.ended := rfl

/-! ### Group.setLive -/

@[simp] theorem Group.setLive_ctx (g : Group) (a : Nat) (m : Mask) : (g.setLive a m).ctx = g.ctx := rfl
@[simp] theorem Group.setLive_launch (g : Group) (a : Nat) (m : Mask) : (g.setLive a m).launch = g.launch := rfl
@[simp] theorem Group.setLive_unit (g : Group) (a : Nat) (m : Mask) : (g.setLive a m).unit = g.unit := rfl
@[simp] theorem Group.setLive_gidx (g : Group) (a : Nat) (m : Mask) : (g.setLive a m).gidx = g.gidx := rfl
@[simp] theorem Group.setLive_wcode (g : Group) (a : Nat) (m : Mask) : (g.setLive a m).wcode = g.wcode := rfl
@[simp] theorem Group.setLive_priv (g : Group) (a : Nat) (m : Mask) : (g.setLive a m).priv = g.priv := rfl
@[simp] theorem Group.setLive_pathA (g : Group) (a : Nat) (m : Mask) : (g.setLive a m).pathA = g.pathA := rfl
@[simp] theorem Group.setLive_pathB (g : Group) (a : Nat) (m : Mask) : (g.setLive a m).pathB = g.pathB := rfl
@[simp] theorem Group.setLive_stack (g : Group) (a : Nat) (m : Mask) : (g.setLive a m).stack = g.stack := rfl
@[simp] theorem Group.setLive_deep (g : Group) (a : Nat) (m : Mask) : (g.setLive a m).deep = g.deep := rfl
@[simp] theorem Group.setLive_fserial (g : Group) (a : Nat) (m : Mask) : (g.setLive a m).fserial = g.fserial := rfl
@[simp] theorem Group.setLive_waitCtr (g : Group) (a : Nat) (m : Mask) : (g.setLive a m).waitCtr = g.waitCtr := rfl
@[simp] theorem Group.setLive_last (g : Group) (a : Nat) (m : Mask) : (g.setLive a m).last = g.last := rfl
@[simp] theorem Group.setLive_ic (g : Group) (a : Nat) (m : Mask) : (g.setLive a m).ic = g.ic := rfl
@[simp] theorem Group.setLive_recb (g : Group) (a : Nat) (m : Mask) : (g.setLive a m).recb = g.recb := rfl
@[simp] theorem Group.setLive_dir (g : Group) (a : Nat) (m : Mask) : (g.setLive a m).dir = g.dir := rfl
@[simp] theorem Group.setLive_uih (g : Group) (a : Nat) (m : Mask) : (g.setLive a m).uih = g.uih := rfl
@[simp] theorem Group.setLive_cth (g : Group) (a : Nat) (m : Mask) : (g.setLive a m).cth = g.cth := rfl
@[simp] theorem Group.setLive_recUi (g : Group) (a : Nat) (m : Mask) : (g.setLive a m).recUi = g.recUi := rfl
@[simp] theorem Group.setLive_recCt (g : Group) (a : Nat) (m : Mask) : (g.setLive a m).recCt = g.recCt := rfl
@[simp] theorem Group.setLive_ctret (g : Group) (a : Nat) (m : Mask) : (g.setLive a m).ctret = g.ctret := rfl
@[simp] theorem Group.setLive_cthGset (g : Group) (a : Nat) (m : Mask) : (g.setLive a m).cthGset = g.cthGset := rfl
@[simp] theorem Group.setLive_cthHist (g : Group) (a : Nat) (m : Mask) : (g.setLive a m).cthHist = g.cthHist := rfl
@[simp] theorem Group.setLive_hSlot (g : Group) (a : Nat) (m : Mask) : (g.setLive a m).hSlot = g.hSlot := rfl
@[simp] theorem Group.setLive_uiSlot (g : Group) (a : Nat) (m : Mask) : (g.setLive a m).uiSlot = g.uiSlot := rfl
@[simp] theorem Group.setLive_n (g : Group) (a : Nat) (m : Mask) : (g.setLive a m).n = g.n := rfl
@[simp] theorem Group.setLive_q (g : Group) (a : Nat) (m : Mask) : (g.setLive a m).q = g.q := rfl
@[simp] theorem Group.setLive_k (g : Group) (a : Nat) (m : Mask) : (g.setLive a m).k = g.k := rfl
@[simp] theorem Group.setLive_guards (g : Group) (a : Nat) (m : Mask) : (g.setLive a m).guards = g.guards := rfl
@[simp] theorem Group.setLive_hbase (g : Group) (a : Nat) (m : Mask) : (g.setLive a m).hbase = g.hbase := rfl
@[simp] theorem Group.setLive_hlim (g : Group) (a : Nat) (m : Mask) : (g.setLive a m).hlim = g.hlim := rfl
@[simp] theorem Group.setLive_hsp (g : Group) (a : Nat) (m : Mask) : (g.setLive a m).hsp = g.hsp := rfl
@[simp] theorem Group.setLive_hist (g : Group) (a : Nat) (m : Mask) : (g.setLive a m).hist = g.hist := rfl
@[simp] theorem Group.setLive_ptrace (g : Group) (a : Nat) (m : Mask) : (g.setLive a m).ptrace = g.ptrace := rfl
@[simp] theorem Group.setLive_ptraceIc (g : Group) (a : Nat) (m : Mask) : (g.setLive a m).ptraceIc = g.ptraceIc := rfl
@[simp] theorem Group.setLive_rtrace (g : Group) (a : Nat) (m : Mask) : (g.setLive a m).rtrace = g.rtrace := rfl
@[simp] theorem Group.setLive_rev (g : Group) (a : Nat) (m : Mask) : (g.setLive a m).rev = g.rev := rfl
@[simp] theorem Group.setLive_spec (g : Group) (a : Nat) (m : Mask) : (g.setLive a m).spec = g.spec := rfl
@[simp] theorem Group.setLive_hold (g : Group) (a : Nat) (m : Mask) : (g.setLive a m).hold = g.hold := rfl
@[simp] theorem Group.setLive_fctl (g : Group) (a : Nat) (m : Mask) : (g.setLive a m).fctl = g.fctl := rfl
@[simp] theorem Group.setLive_fstat (g : Group) (a : Nat) (m : Mask) : (g.setLive a m).fstat = g.fstat := rfl
@[simp] theorem Group.setLive_uvec (g : Group) (a : Nat) (m : Mask) : (g.setLive a m).uvec = g.uvec := rfl
@[simp] theorem Group.setLive_uicause (g : Group) (a : Nat) (m : Mask) : (g.setLive a m).uicause = g.uicause := rfl
@[simp] theorem Group.setLive_uiretpc (g : Group) (a : Nat) (m : Mask) : (g.setLive a m).uiretpc = g.uiretpc := rfl
@[simp] theorem Group.setLive_uirw (g : Group) (a : Nat) (m : Mask) : (g.setLive a m).uirw = g.uirw := rfl
@[simp] theorem Group.setLive_trapinfo0 (g : Group) (a : Nat) (m : Mask) : (g.setLive a m).trapinfo0 = g.trapinfo0 := rfl
@[simp] theorem Group.setLive_trapinfo1 (g : Group) (a : Nat) (m : Mask) : (g.setLive a m).trapinfo1 = g.trapinfo1 := rfl
@[simp] theorem Group.setLive_trapinfo2 (g : Group) (a : Nat) (m : Mask) : (g.setLive a m).trapinfo2 = g.trapinfo2 := rfl
@[simp] theorem Group.setLive_trapinfo3 (g : Group) (a : Nat) (m : Mask) : (g.setLive a m).trapinfo3 = g.trapinfo3 := rfl
@[simp] theorem Group.setLive_replval (g : Group) (a : Nat) (m : Mask) : (g.setLive a m).replval = g.replval := rfl
@[simp] theorem Group.setLive_privbase (g : Group) (a : Nat) (m : Mask) : (g.setLive a m).privbase = g.privbase := rfl
@[simp] theorem Group.setLive_causes (g : Group) (a : Nat) (m : Mask) : (g.setLive a m).causes = g.causes := rfl
@[simp] theorem Group.setLive_pend (g : Group) (a : Nat) (m : Mask) : (g.setLive a m).pend = g.pend := rfl
@[simp] theorem Group.setLive_held (g : Group) (a : Nat) (m : Mask) : (g.setLive a m).held = g.held := rfl
@[simp] theorem Group.setLive_halted (g : Group) (a : Nat) (m : Mask) : (g.setLive a m).halted = g.halted := rfl
@[simp] theorem Group.setLive_argWait (g : Group) (a : Nat) (m : Mask) : (g.setLive a m).argWait = g.argWait := rfl
@[simp] theorem Group.setLive_step (g : Group) (a : Nat) (m : Mask) : (g.setLive a m).step = g.step := rfl
@[simp] theorem Group.setLive_seq (g : Group) (a : Nat) (m : Mask) : (g.setLive a m).seq = g.seq := rfl
@[simp] theorem Group.setLive_lq (g : Group) (a : Nat) (m : Mask) : (g.setLive a m).lq = g.lq := rfl
@[simp] theorem Group.setLive_sq (g : Group) (a : Nat) (m : Mask) : (g.setLive a m).sq = g.sq := rfl
@[simp] theorem Group.setLive_uncorr (g : Group) (a : Nat) (m : Mask) : (g.setLive a m).uncorr = g.uncorr := rfl
@[simp] theorem Group.setLive_poll (g : Group) (a : Nat) (m : Mask) : (g.setLive a m).poll = g.poll := rfl
@[simp] theorem Group.setLive_e0 (g : Group) (a : Nat) (m : Mask) : (g.setLive a m).e0 = g.e0 := rfl
@[simp] theorem Group.setLive_e2 (g : Group) (a : Nat) (m : Mask) : (g.setLive a m).e2 = g.e2 := rfl
@[simp] theorem Group.setLive_e4 (g : Group) (a : Nat) (m : Mask) : (g.setLive a m).e4 = g.e4 := rfl
@[simp] theorem Group.setLive_e1 (g : Group) (a : Nat) (m : Mask) : (g.setLive a m).e1 = g.e1 := rfl
@[simp] theorem Group.setLive_e3 (g : Group) (a : Nat) (m : Mask) : (g.setLive a m).e3 = g.e3 := rfl
@[simp] theorem Group.setLive_e5 (g : Group) (a : Nat) (m : Mask) : (g.setLive a m).e5 = g.e5 := rfl
@[simp] theorem Group.setLive_tmx (g : Group) (a : Nat) (m : Mask) : (g.setLive a m).tmx = g.tmx := rfl
@[simp] theorem Group.setLive_tcp (g : Group) (a : Nat) (m : Mask) : (g.setLive a m).tcp = g.tcp := rfl
@[simp] theorem Group.setLive_tvd (g : Group) (a : Nat) (m : Mask) : (g.setLive a m).tvd = g.tvd := rfl
@[simp] theorem Group.setLive_mxseq (g : Group) (a : Nat) (m : Mask) : (g.setLive a m).mxseq = g.mxseq := rfl
@[simp] theorem Group.setLive_mxnan (g : Group) (a : Nat) (m : Mask) : (g.setLive a m).mxnan = g.mxnan := rfl
@[simp] theorem Group.setLive_engPend (g : Group) (a : Nat) (m : Mask) : (g.setLive a m).engPend = g.engPend := rfl
@[simp] theorem Group.setLive_wpPend (g : Group) (a : Nat) (m : Mask) : (g.setLive a m).wpPend = g.wpPend := rfl
@[simp] theorem Group.setLive_colop (g : Group) (a : Nat) (m : Mask) : (g.setLive a m).colop = g.colop := rfl
@[simp] theorem Group.setLive_ended (g : Group) (a : Nat) (m : Mask) : (g.setLive a m).ended = g.ended := rfl

/-! ### Group.setK -/

@[simp] theorem Group.setK_ctx (g : Group) (i : Nat) (v : DWord) : (g.setK i v).ctx = g.ctx := rfl
@[simp] theorem Group.setK_launch (g : Group) (i : Nat) (v : DWord) : (g.setK i v).launch = g.launch := rfl
@[simp] theorem Group.setK_unit (g : Group) (i : Nat) (v : DWord) : (g.setK i v).unit = g.unit := rfl
@[simp] theorem Group.setK_gidx (g : Group) (i : Nat) (v : DWord) : (g.setK i v).gidx = g.gidx := rfl
@[simp] theorem Group.setK_wcode (g : Group) (i : Nat) (v : DWord) : (g.setK i v).wcode = g.wcode := rfl
@[simp] theorem Group.setK_priv (g : Group) (i : Nat) (v : DWord) : (g.setK i v).priv = g.priv := rfl
@[simp] theorem Group.setK_pathA (g : Group) (i : Nat) (v : DWord) : (g.setK i v).pathA = g.pathA := rfl
@[simp] theorem Group.setK_pathB (g : Group) (i : Nat) (v : DWord) : (g.setK i v).pathB = g.pathB := rfl
@[simp] theorem Group.setK_stack (g : Group) (i : Nat) (v : DWord) : (g.setK i v).stack = g.stack := rfl
@[simp] theorem Group.setK_deep (g : Group) (i : Nat) (v : DWord) : (g.setK i v).deep = g.deep := rfl
@[simp] theorem Group.setK_fserial (g : Group) (i : Nat) (v : DWord) : (g.setK i v).fserial = g.fserial := rfl
@[simp] theorem Group.setK_waitCtr (g : Group) (i : Nat) (v : DWord) : (g.setK i v).waitCtr = g.waitCtr := rfl
@[simp] theorem Group.setK_last (g : Group) (i : Nat) (v : DWord) : (g.setK i v).last = g.last := rfl
@[simp] theorem Group.setK_ic (g : Group) (i : Nat) (v : DWord) : (g.setK i v).ic = g.ic := rfl
@[simp] theorem Group.setK_recb (g : Group) (i : Nat) (v : DWord) : (g.setK i v).recb = g.recb := rfl
@[simp] theorem Group.setK_dir (g : Group) (i : Nat) (v : DWord) : (g.setK i v).dir = g.dir := rfl
@[simp] theorem Group.setK_uih (g : Group) (i : Nat) (v : DWord) : (g.setK i v).uih = g.uih := rfl
@[simp] theorem Group.setK_cth (g : Group) (i : Nat) (v : DWord) : (g.setK i v).cth = g.cth := rfl
@[simp] theorem Group.setK_recUi (g : Group) (i : Nat) (v : DWord) : (g.setK i v).recUi = g.recUi := rfl
@[simp] theorem Group.setK_recCt (g : Group) (i : Nat) (v : DWord) : (g.setK i v).recCt = g.recCt := rfl
@[simp] theorem Group.setK_ctret (g : Group) (i : Nat) (v : DWord) : (g.setK i v).ctret = g.ctret := rfl
@[simp] theorem Group.setK_cthGset (g : Group) (i : Nat) (v : DWord) : (g.setK i v).cthGset = g.cthGset := rfl
@[simp] theorem Group.setK_cthHist (g : Group) (i : Nat) (v : DWord) : (g.setK i v).cthHist = g.cthHist := rfl
@[simp] theorem Group.setK_hSlot (g : Group) (i : Nat) (v : DWord) : (g.setK i v).hSlot = g.hSlot := rfl
@[simp] theorem Group.setK_uiSlot (g : Group) (i : Nat) (v : DWord) : (g.setK i v).uiSlot = g.uiSlot := rfl
@[simp] theorem Group.setK_n (g : Group) (i : Nat) (v : DWord) : (g.setK i v).n = g.n := rfl
@[simp] theorem Group.setK_q (g : Group) (i : Nat) (v : DWord) : (g.setK i v).q = g.q := rfl
@[simp] theorem Group.setK_live (g : Group) (i : Nat) (v : DWord) : (g.setK i v).live = g.live := rfl
@[simp] theorem Group.setK_guards (g : Group) (i : Nat) (v : DWord) : (g.setK i v).guards = g.guards := rfl
@[simp] theorem Group.setK_hbase (g : Group) (i : Nat) (v : DWord) : (g.setK i v).hbase = g.hbase := rfl
@[simp] theorem Group.setK_hlim (g : Group) (i : Nat) (v : DWord) : (g.setK i v).hlim = g.hlim := rfl
@[simp] theorem Group.setK_hsp (g : Group) (i : Nat) (v : DWord) : (g.setK i v).hsp = g.hsp := rfl
@[simp] theorem Group.setK_hist (g : Group) (i : Nat) (v : DWord) : (g.setK i v).hist = g.hist := rfl
@[simp] theorem Group.setK_ptrace (g : Group) (i : Nat) (v : DWord) : (g.setK i v).ptrace = g.ptrace := rfl
@[simp] theorem Group.setK_ptraceIc (g : Group) (i : Nat) (v : DWord) : (g.setK i v).ptraceIc = g.ptraceIc := rfl
@[simp] theorem Group.setK_rtrace (g : Group) (i : Nat) (v : DWord) : (g.setK i v).rtrace = g.rtrace := rfl
@[simp] theorem Group.setK_rev (g : Group) (i : Nat) (v : DWord) : (g.setK i v).rev = g.rev := rfl
@[simp] theorem Group.setK_spec (g : Group) (i : Nat) (v : DWord) : (g.setK i v).spec = g.spec := rfl
@[simp] theorem Group.setK_hold (g : Group) (i : Nat) (v : DWord) : (g.setK i v).hold = g.hold := rfl
@[simp] theorem Group.setK_fctl (g : Group) (i : Nat) (v : DWord) : (g.setK i v).fctl = g.fctl := rfl
@[simp] theorem Group.setK_fstat (g : Group) (i : Nat) (v : DWord) : (g.setK i v).fstat = g.fstat := rfl
@[simp] theorem Group.setK_uvec (g : Group) (i : Nat) (v : DWord) : (g.setK i v).uvec = g.uvec := rfl
@[simp] theorem Group.setK_uicause (g : Group) (i : Nat) (v : DWord) : (g.setK i v).uicause = g.uicause := rfl
@[simp] theorem Group.setK_uiretpc (g : Group) (i : Nat) (v : DWord) : (g.setK i v).uiretpc = g.uiretpc := rfl
@[simp] theorem Group.setK_uirw (g : Group) (i : Nat) (v : DWord) : (g.setK i v).uirw = g.uirw := rfl
@[simp] theorem Group.setK_trapinfo0 (g : Group) (i : Nat) (v : DWord) : (g.setK i v).trapinfo0 = g.trapinfo0 := rfl
@[simp] theorem Group.setK_trapinfo1 (g : Group) (i : Nat) (v : DWord) : (g.setK i v).trapinfo1 = g.trapinfo1 := rfl
@[simp] theorem Group.setK_trapinfo2 (g : Group) (i : Nat) (v : DWord) : (g.setK i v).trapinfo2 = g.trapinfo2 := rfl
@[simp] theorem Group.setK_trapinfo3 (g : Group) (i : Nat) (v : DWord) : (g.setK i v).trapinfo3 = g.trapinfo3 := rfl
@[simp] theorem Group.setK_replval (g : Group) (i : Nat) (v : DWord) : (g.setK i v).replval = g.replval := rfl
@[simp] theorem Group.setK_privbase (g : Group) (i : Nat) (v : DWord) : (g.setK i v).privbase = g.privbase := rfl
@[simp] theorem Group.setK_causes (g : Group) (i : Nat) (v : DWord) : (g.setK i v).causes = g.causes := rfl
@[simp] theorem Group.setK_pend (g : Group) (i : Nat) (v : DWord) : (g.setK i v).pend = g.pend := rfl
@[simp] theorem Group.setK_held (g : Group) (i : Nat) (v : DWord) : (g.setK i v).held = g.held := rfl
@[simp] theorem Group.setK_halted (g : Group) (i : Nat) (v : DWord) : (g.setK i v).halted = g.halted := rfl
@[simp] theorem Group.setK_argWait (g : Group) (i : Nat) (v : DWord) : (g.setK i v).argWait = g.argWait := rfl
@[simp] theorem Group.setK_step (g : Group) (i : Nat) (v : DWord) : (g.setK i v).step = g.step := rfl
@[simp] theorem Group.setK_seq (g : Group) (i : Nat) (v : DWord) : (g.setK i v).seq = g.seq := rfl
@[simp] theorem Group.setK_lq (g : Group) (i : Nat) (v : DWord) : (g.setK i v).lq = g.lq := rfl
@[simp] theorem Group.setK_sq (g : Group) (i : Nat) (v : DWord) : (g.setK i v).sq = g.sq := rfl
@[simp] theorem Group.setK_uncorr (g : Group) (i : Nat) (v : DWord) : (g.setK i v).uncorr = g.uncorr := rfl
@[simp] theorem Group.setK_poll (g : Group) (i : Nat) (v : DWord) : (g.setK i v).poll = g.poll := rfl
@[simp] theorem Group.setK_e0 (g : Group) (i : Nat) (v : DWord) : (g.setK i v).e0 = g.e0 := rfl
@[simp] theorem Group.setK_e2 (g : Group) (i : Nat) (v : DWord) : (g.setK i v).e2 = g.e2 := rfl
@[simp] theorem Group.setK_e4 (g : Group) (i : Nat) (v : DWord) : (g.setK i v).e4 = g.e4 := rfl
@[simp] theorem Group.setK_e1 (g : Group) (i : Nat) (v : DWord) : (g.setK i v).e1 = g.e1 := rfl
@[simp] theorem Group.setK_e3 (g : Group) (i : Nat) (v : DWord) : (g.setK i v).e3 = g.e3 := rfl
@[simp] theorem Group.setK_e5 (g : Group) (i : Nat) (v : DWord) : (g.setK i v).e5 = g.e5 := rfl
@[simp] theorem Group.setK_tmx (g : Group) (i : Nat) (v : DWord) : (g.setK i v).tmx = g.tmx := rfl
@[simp] theorem Group.setK_tcp (g : Group) (i : Nat) (v : DWord) : (g.setK i v).tcp = g.tcp := rfl
@[simp] theorem Group.setK_tvd (g : Group) (i : Nat) (v : DWord) : (g.setK i v).tvd = g.tvd := rfl
@[simp] theorem Group.setK_mxseq (g : Group) (i : Nat) (v : DWord) : (g.setK i v).mxseq = g.mxseq := rfl
@[simp] theorem Group.setK_mxnan (g : Group) (i : Nat) (v : DWord) : (g.setK i v).mxnan = g.mxnan := rfl
@[simp] theorem Group.setK_engPend (g : Group) (i : Nat) (v : DWord) : (g.setK i v).engPend = g.engPend := rfl
@[simp] theorem Group.setK_wpPend (g : Group) (i : Nat) (v : DWord) : (g.setK i v).wpPend = g.wpPend := rfl
@[simp] theorem Group.setK_colop (g : Group) (i : Nat) (v : DWord) : (g.setK i v).colop = g.colop := rfl
@[simp] theorem Group.setK_ended (g : Group) (i : Nat) (v : DWord) : (g.setK i v).ended = g.ended := rfl

/-! ### Group.setGuard -/

@[simp] theorem Group.setGuard_ctx (g : Group) (i : Nat) (v : GState) : (g.setGuard i v).ctx = g.ctx := rfl
@[simp] theorem Group.setGuard_launch (g : Group) (i : Nat) (v : GState) : (g.setGuard i v).launch = g.launch := rfl
@[simp] theorem Group.setGuard_unit (g : Group) (i : Nat) (v : GState) : (g.setGuard i v).unit = g.unit := rfl
@[simp] theorem Group.setGuard_gidx (g : Group) (i : Nat) (v : GState) : (g.setGuard i v).gidx = g.gidx := rfl
@[simp] theorem Group.setGuard_wcode (g : Group) (i : Nat) (v : GState) : (g.setGuard i v).wcode = g.wcode := rfl
@[simp] theorem Group.setGuard_priv (g : Group) (i : Nat) (v : GState) : (g.setGuard i v).priv = g.priv := rfl
@[simp] theorem Group.setGuard_pathA (g : Group) (i : Nat) (v : GState) : (g.setGuard i v).pathA = g.pathA := rfl
@[simp] theorem Group.setGuard_pathB (g : Group) (i : Nat) (v : GState) : (g.setGuard i v).pathB = g.pathB := rfl
@[simp] theorem Group.setGuard_stack (g : Group) (i : Nat) (v : GState) : (g.setGuard i v).stack = g.stack := rfl
@[simp] theorem Group.setGuard_deep (g : Group) (i : Nat) (v : GState) : (g.setGuard i v).deep = g.deep := rfl
@[simp] theorem Group.setGuard_fserial (g : Group) (i : Nat) (v : GState) : (g.setGuard i v).fserial = g.fserial := rfl
@[simp] theorem Group.setGuard_waitCtr (g : Group) (i : Nat) (v : GState) : (g.setGuard i v).waitCtr = g.waitCtr := rfl
@[simp] theorem Group.setGuard_last (g : Group) (i : Nat) (v : GState) : (g.setGuard i v).last = g.last := rfl
@[simp] theorem Group.setGuard_ic (g : Group) (i : Nat) (v : GState) : (g.setGuard i v).ic = g.ic := rfl
@[simp] theorem Group.setGuard_recb (g : Group) (i : Nat) (v : GState) : (g.setGuard i v).recb = g.recb := rfl
@[simp] theorem Group.setGuard_dir (g : Group) (i : Nat) (v : GState) : (g.setGuard i v).dir = g.dir := rfl
@[simp] theorem Group.setGuard_uih (g : Group) (i : Nat) (v : GState) : (g.setGuard i v).uih = g.uih := rfl
@[simp] theorem Group.setGuard_cth (g : Group) (i : Nat) (v : GState) : (g.setGuard i v).cth = g.cth := rfl
@[simp] theorem Group.setGuard_recUi (g : Group) (i : Nat) (v : GState) : (g.setGuard i v).recUi = g.recUi := rfl
@[simp] theorem Group.setGuard_recCt (g : Group) (i : Nat) (v : GState) : (g.setGuard i v).recCt = g.recCt := rfl
@[simp] theorem Group.setGuard_ctret (g : Group) (i : Nat) (v : GState) : (g.setGuard i v).ctret = g.ctret := rfl
@[simp] theorem Group.setGuard_cthGset (g : Group) (i : Nat) (v : GState) : (g.setGuard i v).cthGset = g.cthGset := rfl
@[simp] theorem Group.setGuard_cthHist (g : Group) (i : Nat) (v : GState) : (g.setGuard i v).cthHist = g.cthHist := rfl
@[simp] theorem Group.setGuard_hSlot (g : Group) (i : Nat) (v : GState) : (g.setGuard i v).hSlot = g.hSlot := rfl
@[simp] theorem Group.setGuard_uiSlot (g : Group) (i : Nat) (v : GState) : (g.setGuard i v).uiSlot = g.uiSlot := rfl
@[simp] theorem Group.setGuard_n (g : Group) (i : Nat) (v : GState) : (g.setGuard i v).n = g.n := rfl
@[simp] theorem Group.setGuard_q (g : Group) (i : Nat) (v : GState) : (g.setGuard i v).q = g.q := rfl
@[simp] theorem Group.setGuard_live (g : Group) (i : Nat) (v : GState) : (g.setGuard i v).live = g.live := rfl
@[simp] theorem Group.setGuard_k (g : Group) (i : Nat) (v : GState) : (g.setGuard i v).k = g.k := rfl
@[simp] theorem Group.setGuard_hbase (g : Group) (i : Nat) (v : GState) : (g.setGuard i v).hbase = g.hbase := rfl
@[simp] theorem Group.setGuard_hlim (g : Group) (i : Nat) (v : GState) : (g.setGuard i v).hlim = g.hlim := rfl
@[simp] theorem Group.setGuard_hsp (g : Group) (i : Nat) (v : GState) : (g.setGuard i v).hsp = g.hsp := rfl
@[simp] theorem Group.setGuard_hist (g : Group) (i : Nat) (v : GState) : (g.setGuard i v).hist = g.hist := rfl
@[simp] theorem Group.setGuard_ptrace (g : Group) (i : Nat) (v : GState) : (g.setGuard i v).ptrace = g.ptrace := rfl
@[simp] theorem Group.setGuard_ptraceIc (g : Group) (i : Nat) (v : GState) : (g.setGuard i v).ptraceIc = g.ptraceIc := rfl
@[simp] theorem Group.setGuard_rtrace (g : Group) (i : Nat) (v : GState) : (g.setGuard i v).rtrace = g.rtrace := rfl
@[simp] theorem Group.setGuard_rev (g : Group) (i : Nat) (v : GState) : (g.setGuard i v).rev = g.rev := rfl
@[simp] theorem Group.setGuard_spec (g : Group) (i : Nat) (v : GState) : (g.setGuard i v).spec = g.spec := rfl
@[simp] theorem Group.setGuard_hold (g : Group) (i : Nat) (v : GState) : (g.setGuard i v).hold = g.hold := rfl
@[simp] theorem Group.setGuard_fctl (g : Group) (i : Nat) (v : GState) : (g.setGuard i v).fctl = g.fctl := rfl
@[simp] theorem Group.setGuard_fstat (g : Group) (i : Nat) (v : GState) : (g.setGuard i v).fstat = g.fstat := rfl
@[simp] theorem Group.setGuard_uvec (g : Group) (i : Nat) (v : GState) : (g.setGuard i v).uvec = g.uvec := rfl
@[simp] theorem Group.setGuard_uicause (g : Group) (i : Nat) (v : GState) : (g.setGuard i v).uicause = g.uicause := rfl
@[simp] theorem Group.setGuard_uiretpc (g : Group) (i : Nat) (v : GState) : (g.setGuard i v).uiretpc = g.uiretpc := rfl
@[simp] theorem Group.setGuard_uirw (g : Group) (i : Nat) (v : GState) : (g.setGuard i v).uirw = g.uirw := rfl
@[simp] theorem Group.setGuard_trapinfo0 (g : Group) (i : Nat) (v : GState) : (g.setGuard i v).trapinfo0 = g.trapinfo0 := rfl
@[simp] theorem Group.setGuard_trapinfo1 (g : Group) (i : Nat) (v : GState) : (g.setGuard i v).trapinfo1 = g.trapinfo1 := rfl
@[simp] theorem Group.setGuard_trapinfo2 (g : Group) (i : Nat) (v : GState) : (g.setGuard i v).trapinfo2 = g.trapinfo2 := rfl
@[simp] theorem Group.setGuard_trapinfo3 (g : Group) (i : Nat) (v : GState) : (g.setGuard i v).trapinfo3 = g.trapinfo3 := rfl
@[simp] theorem Group.setGuard_replval (g : Group) (i : Nat) (v : GState) : (g.setGuard i v).replval = g.replval := rfl
@[simp] theorem Group.setGuard_privbase (g : Group) (i : Nat) (v : GState) : (g.setGuard i v).privbase = g.privbase := rfl
@[simp] theorem Group.setGuard_causes (g : Group) (i : Nat) (v : GState) : (g.setGuard i v).causes = g.causes := rfl
@[simp] theorem Group.setGuard_pend (g : Group) (i : Nat) (v : GState) : (g.setGuard i v).pend = g.pend := rfl
@[simp] theorem Group.setGuard_held (g : Group) (i : Nat) (v : GState) : (g.setGuard i v).held = g.held := rfl
@[simp] theorem Group.setGuard_halted (g : Group) (i : Nat) (v : GState) : (g.setGuard i v).halted = g.halted := rfl
@[simp] theorem Group.setGuard_argWait (g : Group) (i : Nat) (v : GState) : (g.setGuard i v).argWait = g.argWait := rfl
@[simp] theorem Group.setGuard_step (g : Group) (i : Nat) (v : GState) : (g.setGuard i v).step = g.step := rfl
@[simp] theorem Group.setGuard_seq (g : Group) (i : Nat) (v : GState) : (g.setGuard i v).seq = g.seq := rfl
@[simp] theorem Group.setGuard_lq (g : Group) (i : Nat) (v : GState) : (g.setGuard i v).lq = g.lq := rfl
@[simp] theorem Group.setGuard_sq (g : Group) (i : Nat) (v : GState) : (g.setGuard i v).sq = g.sq := rfl
@[simp] theorem Group.setGuard_uncorr (g : Group) (i : Nat) (v : GState) : (g.setGuard i v).uncorr = g.uncorr := rfl
@[simp] theorem Group.setGuard_poll (g : Group) (i : Nat) (v : GState) : (g.setGuard i v).poll = g.poll := rfl
@[simp] theorem Group.setGuard_e0 (g : Group) (i : Nat) (v : GState) : (g.setGuard i v).e0 = g.e0 := rfl
@[simp] theorem Group.setGuard_e2 (g : Group) (i : Nat) (v : GState) : (g.setGuard i v).e2 = g.e2 := rfl
@[simp] theorem Group.setGuard_e4 (g : Group) (i : Nat) (v : GState) : (g.setGuard i v).e4 = g.e4 := rfl
@[simp] theorem Group.setGuard_e1 (g : Group) (i : Nat) (v : GState) : (g.setGuard i v).e1 = g.e1 := rfl
@[simp] theorem Group.setGuard_e3 (g : Group) (i : Nat) (v : GState) : (g.setGuard i v).e3 = g.e3 := rfl
@[simp] theorem Group.setGuard_e5 (g : Group) (i : Nat) (v : GState) : (g.setGuard i v).e5 = g.e5 := rfl
@[simp] theorem Group.setGuard_tmx (g : Group) (i : Nat) (v : GState) : (g.setGuard i v).tmx = g.tmx := rfl
@[simp] theorem Group.setGuard_tcp (g : Group) (i : Nat) (v : GState) : (g.setGuard i v).tcp = g.tcp := rfl
@[simp] theorem Group.setGuard_tvd (g : Group) (i : Nat) (v : GState) : (g.setGuard i v).tvd = g.tvd := rfl
@[simp] theorem Group.setGuard_mxseq (g : Group) (i : Nat) (v : GState) : (g.setGuard i v).mxseq = g.mxseq := rfl
@[simp] theorem Group.setGuard_mxnan (g : Group) (i : Nat) (v : GState) : (g.setGuard i v).mxnan = g.mxnan := rfl
@[simp] theorem Group.setGuard_engPend (g : Group) (i : Nat) (v : GState) : (g.setGuard i v).engPend = g.engPend := rfl
@[simp] theorem Group.setGuard_wpPend (g : Group) (i : Nat) (v : GState) : (g.setGuard i v).wpPend = g.wpPend := rfl
@[simp] theorem Group.setGuard_colop (g : Group) (i : Nat) (v : GState) : (g.setGuard i v).colop = g.colop := rfl
@[simp] theorem Group.setGuard_ended (g : Group) (i : Nat) (v : GState) : (g.setGuard i v).ended = g.ended := rfl

/-! ### Group.flag -/

@[simp] theorem Group.flag_ctx (g : Group) (f : Flags) : (g.flag f).ctx = g.ctx := rfl
@[simp] theorem Group.flag_launch (g : Group) (f : Flags) : (g.flag f).launch = g.launch := rfl
@[simp] theorem Group.flag_unit (g : Group) (f : Flags) : (g.flag f).unit = g.unit := rfl
@[simp] theorem Group.flag_gidx (g : Group) (f : Flags) : (g.flag f).gidx = g.gidx := rfl
@[simp] theorem Group.flag_wcode (g : Group) (f : Flags) : (g.flag f).wcode = g.wcode := rfl
@[simp] theorem Group.flag_priv (g : Group) (f : Flags) : (g.flag f).priv = g.priv := rfl
@[simp] theorem Group.flag_pathA (g : Group) (f : Flags) : (g.flag f).pathA = g.pathA := rfl
@[simp] theorem Group.flag_pathB (g : Group) (f : Flags) : (g.flag f).pathB = g.pathB := rfl
@[simp] theorem Group.flag_stack (g : Group) (f : Flags) : (g.flag f).stack = g.stack := rfl
@[simp] theorem Group.flag_deep (g : Group) (f : Flags) : (g.flag f).deep = g.deep := rfl
@[simp] theorem Group.flag_fserial (g : Group) (f : Flags) : (g.flag f).fserial = g.fserial := rfl
@[simp] theorem Group.flag_waitCtr (g : Group) (f : Flags) : (g.flag f).waitCtr = g.waitCtr := rfl
@[simp] theorem Group.flag_last (g : Group) (f : Flags) : (g.flag f).last = g.last := rfl
@[simp] theorem Group.flag_ic (g : Group) (f : Flags) : (g.flag f).ic = g.ic := rfl
@[simp] theorem Group.flag_recb (g : Group) (f : Flags) : (g.flag f).recb = g.recb := rfl
@[simp] theorem Group.flag_dir (g : Group) (f : Flags) : (g.flag f).dir = g.dir := rfl
@[simp] theorem Group.flag_uih (g : Group) (f : Flags) : (g.flag f).uih = g.uih := rfl
@[simp] theorem Group.flag_cth (g : Group) (f : Flags) : (g.flag f).cth = g.cth := rfl
@[simp] theorem Group.flag_recUi (g : Group) (f : Flags) : (g.flag f).recUi = g.recUi := rfl
@[simp] theorem Group.flag_recCt (g : Group) (f : Flags) : (g.flag f).recCt = g.recCt := rfl
@[simp] theorem Group.flag_ctret (g : Group) (f : Flags) : (g.flag f).ctret = g.ctret := rfl
@[simp] theorem Group.flag_cthGset (g : Group) (f : Flags) : (g.flag f).cthGset = g.cthGset := rfl
@[simp] theorem Group.flag_cthHist (g : Group) (f : Flags) : (g.flag f).cthHist = g.cthHist := rfl
@[simp] theorem Group.flag_hSlot (g : Group) (f : Flags) : (g.flag f).hSlot = g.hSlot := rfl
@[simp] theorem Group.flag_uiSlot (g : Group) (f : Flags) : (g.flag f).uiSlot = g.uiSlot := rfl
@[simp] theorem Group.flag_n (g : Group) (f : Flags) : (g.flag f).n = g.n := rfl
@[simp] theorem Group.flag_q (g : Group) (f : Flags) : (g.flag f).q = g.q := rfl
@[simp] theorem Group.flag_live (g : Group) (f : Flags) : (g.flag f).live = g.live := rfl
@[simp] theorem Group.flag_k (g : Group) (f : Flags) : (g.flag f).k = g.k := rfl
@[simp] theorem Group.flag_guards (g : Group) (f : Flags) : (g.flag f).guards = g.guards := rfl
@[simp] theorem Group.flag_hbase (g : Group) (f : Flags) : (g.flag f).hbase = g.hbase := rfl
@[simp] theorem Group.flag_hlim (g : Group) (f : Flags) : (g.flag f).hlim = g.hlim := rfl
@[simp] theorem Group.flag_hsp (g : Group) (f : Flags) : (g.flag f).hsp = g.hsp := rfl
@[simp] theorem Group.flag_hist (g : Group) (f : Flags) : (g.flag f).hist = g.hist := rfl
@[simp] theorem Group.flag_ptrace (g : Group) (f : Flags) : (g.flag f).ptrace = g.ptrace := rfl
@[simp] theorem Group.flag_ptraceIc (g : Group) (f : Flags) : (g.flag f).ptraceIc = g.ptraceIc := rfl
@[simp] theorem Group.flag_rtrace (g : Group) (f : Flags) : (g.flag f).rtrace = g.rtrace := rfl
@[simp] theorem Group.flag_rev (g : Group) (f : Flags) : (g.flag f).rev = g.rev := rfl
@[simp] theorem Group.flag_spec (g : Group) (f : Flags) : (g.flag f).spec = g.spec := rfl
@[simp] theorem Group.flag_hold (g : Group) (f : Flags) : (g.flag f).hold = g.hold := rfl
@[simp] theorem Group.flag_fctl (g : Group) (f : Flags) : (g.flag f).fctl = g.fctl := rfl
@[simp] theorem Group.flag_uvec (g : Group) (f : Flags) : (g.flag f).uvec = g.uvec := rfl
@[simp] theorem Group.flag_uicause (g : Group) (f : Flags) : (g.flag f).uicause = g.uicause := rfl
@[simp] theorem Group.flag_uiretpc (g : Group) (f : Flags) : (g.flag f).uiretpc = g.uiretpc := rfl
@[simp] theorem Group.flag_uirw (g : Group) (f : Flags) : (g.flag f).uirw = g.uirw := rfl
@[simp] theorem Group.flag_trapinfo0 (g : Group) (f : Flags) : (g.flag f).trapinfo0 = g.trapinfo0 := rfl
@[simp] theorem Group.flag_trapinfo1 (g : Group) (f : Flags) : (g.flag f).trapinfo1 = g.trapinfo1 := rfl
@[simp] theorem Group.flag_trapinfo2 (g : Group) (f : Flags) : (g.flag f).trapinfo2 = g.trapinfo2 := rfl
@[simp] theorem Group.flag_trapinfo3 (g : Group) (f : Flags) : (g.flag f).trapinfo3 = g.trapinfo3 := rfl
@[simp] theorem Group.flag_replval (g : Group) (f : Flags) : (g.flag f).replval = g.replval := rfl
@[simp] theorem Group.flag_privbase (g : Group) (f : Flags) : (g.flag f).privbase = g.privbase := rfl
@[simp] theorem Group.flag_causes (g : Group) (f : Flags) : (g.flag f).causes = g.causes := rfl
@[simp] theorem Group.flag_pend (g : Group) (f : Flags) : (g.flag f).pend = g.pend := rfl
@[simp] theorem Group.flag_held (g : Group) (f : Flags) : (g.flag f).held = g.held := rfl
@[simp] theorem Group.flag_halted (g : Group) (f : Flags) : (g.flag f).halted = g.halted := rfl
@[simp] theorem Group.flag_argWait (g : Group) (f : Flags) : (g.flag f).argWait = g.argWait := rfl
@[simp] theorem Group.flag_step (g : Group) (f : Flags) : (g.flag f).step = g.step := rfl
@[simp] theorem Group.flag_seq (g : Group) (f : Flags) : (g.flag f).seq = g.seq := rfl
@[simp] theorem Group.flag_lq (g : Group) (f : Flags) : (g.flag f).lq = g.lq := rfl
@[simp] theorem Group.flag_sq (g : Group) (f : Flags) : (g.flag f).sq = g.sq := rfl
@[simp] theorem Group.flag_uncorr (g : Group) (f : Flags) : (g.flag f).uncorr = g.uncorr := rfl
@[simp] theorem Group.flag_poll (g : Group) (f : Flags) : (g.flag f).poll = g.poll := rfl
@[simp] theorem Group.flag_e0 (g : Group) (f : Flags) : (g.flag f).e0 = g.e0 := rfl
@[simp] theorem Group.flag_e2 (g : Group) (f : Flags) : (g.flag f).e2 = g.e2 := rfl
@[simp] theorem Group.flag_e4 (g : Group) (f : Flags) : (g.flag f).e4 = g.e4 := rfl
@[simp] theorem Group.flag_e1 (g : Group) (f : Flags) : (g.flag f).e1 = g.e1 := rfl
@[simp] theorem Group.flag_e3 (g : Group) (f : Flags) : (g.flag f).e3 = g.e3 := rfl
@[simp] theorem Group.flag_e5 (g : Group) (f : Flags) : (g.flag f).e5 = g.e5 := rfl
@[simp] theorem Group.flag_tmx (g : Group) (f : Flags) : (g.flag f).tmx = g.tmx := rfl
@[simp] theorem Group.flag_tcp (g : Group) (f : Flags) : (g.flag f).tcp = g.tcp := rfl
@[simp] theorem Group.flag_tvd (g : Group) (f : Flags) : (g.flag f).tvd = g.tvd := rfl
@[simp] theorem Group.flag_mxseq (g : Group) (f : Flags) : (g.flag f).mxseq = g.mxseq := rfl
@[simp] theorem Group.flag_mxnan (g : Group) (f : Flags) : (g.flag f).mxnan = g.mxnan := rfl
@[simp] theorem Group.flag_engPend (g : Group) (f : Flags) : (g.flag f).engPend = g.engPend := rfl
@[simp] theorem Group.flag_wpPend (g : Group) (f : Flags) : (g.flag f).wpPend = g.wpPend := rfl
@[simp] theorem Group.flag_colop (g : Group) (f : Flags) : (g.flag f).colop = g.colop := rfl
@[simp] theorem Group.flag_ended (g : Group) (f : Flags) : (g.flag f).ended = g.ended := rfl

/-! ### Group.setPath -/

@[simp] theorem Group.setPath_ctx (g : Group) (sl : Slot) (p : Option Path) : (g.setPath sl p).ctx = g.ctx := by cases sl <;> rfl
@[simp] theorem Group.setPath_launch (g : Group) (sl : Slot) (p : Option Path) : (g.setPath sl p).launch = g.launch := by cases sl <;> rfl
@[simp] theorem Group.setPath_unit (g : Group) (sl : Slot) (p : Option Path) : (g.setPath sl p).unit = g.unit := by cases sl <;> rfl
@[simp] theorem Group.setPath_gidx (g : Group) (sl : Slot) (p : Option Path) : (g.setPath sl p).gidx = g.gidx := by cases sl <;> rfl
@[simp] theorem Group.setPath_wcode (g : Group) (sl : Slot) (p : Option Path) : (g.setPath sl p).wcode = g.wcode := by cases sl <;> rfl
@[simp] theorem Group.setPath_priv (g : Group) (sl : Slot) (p : Option Path) : (g.setPath sl p).priv = g.priv := by cases sl <;> rfl
@[simp] theorem Group.setPath_stack (g : Group) (sl : Slot) (p : Option Path) : (g.setPath sl p).stack = g.stack := by cases sl <;> rfl
@[simp] theorem Group.setPath_deep (g : Group) (sl : Slot) (p : Option Path) : (g.setPath sl p).deep = g.deep := by cases sl <;> rfl
@[simp] theorem Group.setPath_fserial (g : Group) (sl : Slot) (p : Option Path) : (g.setPath sl p).fserial = g.fserial := by cases sl <;> rfl
@[simp] theorem Group.setPath_waitCtr (g : Group) (sl : Slot) (p : Option Path) : (g.setPath sl p).waitCtr = g.waitCtr := by cases sl <;> rfl
@[simp] theorem Group.setPath_last (g : Group) (sl : Slot) (p : Option Path) : (g.setPath sl p).last = g.last := by cases sl <;> rfl
@[simp] theorem Group.setPath_ic (g : Group) (sl : Slot) (p : Option Path) : (g.setPath sl p).ic = g.ic := by cases sl <;> rfl
@[simp] theorem Group.setPath_recb (g : Group) (sl : Slot) (p : Option Path) : (g.setPath sl p).recb = g.recb := by cases sl <;> rfl
@[simp] theorem Group.setPath_dir (g : Group) (sl : Slot) (p : Option Path) : (g.setPath sl p).dir = g.dir := by cases sl <;> rfl
@[simp] theorem Group.setPath_uih (g : Group) (sl : Slot) (p : Option Path) : (g.setPath sl p).uih = g.uih := by cases sl <;> rfl
@[simp] theorem Group.setPath_cth (g : Group) (sl : Slot) (p : Option Path) : (g.setPath sl p).cth = g.cth := by cases sl <;> rfl
@[simp] theorem Group.setPath_recUi (g : Group) (sl : Slot) (p : Option Path) : (g.setPath sl p).recUi = g.recUi := by cases sl <;> rfl
@[simp] theorem Group.setPath_recCt (g : Group) (sl : Slot) (p : Option Path) : (g.setPath sl p).recCt = g.recCt := by cases sl <;> rfl
@[simp] theorem Group.setPath_ctret (g : Group) (sl : Slot) (p : Option Path) : (g.setPath sl p).ctret = g.ctret := by cases sl <;> rfl
@[simp] theorem Group.setPath_cthGset (g : Group) (sl : Slot) (p : Option Path) : (g.setPath sl p).cthGset = g.cthGset := by cases sl <;> rfl
@[simp] theorem Group.setPath_cthHist (g : Group) (sl : Slot) (p : Option Path) : (g.setPath sl p).cthHist = g.cthHist := by cases sl <;> rfl
@[simp] theorem Group.setPath_hSlot (g : Group) (sl : Slot) (p : Option Path) : (g.setPath sl p).hSlot = g.hSlot := by cases sl <;> rfl
@[simp] theorem Group.setPath_uiSlot (g : Group) (sl : Slot) (p : Option Path) : (g.setPath sl p).uiSlot = g.uiSlot := by cases sl <;> rfl
@[simp] theorem Group.setPath_n (g : Group) (sl : Slot) (p : Option Path) : (g.setPath sl p).n = g.n := by cases sl <;> rfl
@[simp] theorem Group.setPath_q (g : Group) (sl : Slot) (p : Option Path) : (g.setPath sl p).q = g.q := by cases sl <;> rfl
@[simp] theorem Group.setPath_live (g : Group) (sl : Slot) (p : Option Path) : (g.setPath sl p).live = g.live := by cases sl <;> rfl
@[simp] theorem Group.setPath_k (g : Group) (sl : Slot) (p : Option Path) : (g.setPath sl p).k = g.k := by cases sl <;> rfl
@[simp] theorem Group.setPath_guards (g : Group) (sl : Slot) (p : Option Path) : (g.setPath sl p).guards = g.guards := by cases sl <;> rfl
@[simp] theorem Group.setPath_hbase (g : Group) (sl : Slot) (p : Option Path) : (g.setPath sl p).hbase = g.hbase := by cases sl <;> rfl
@[simp] theorem Group.setPath_hlim (g : Group) (sl : Slot) (p : Option Path) : (g.setPath sl p).hlim = g.hlim := by cases sl <;> rfl
@[simp] theorem Group.setPath_hsp (g : Group) (sl : Slot) (p : Option Path) : (g.setPath sl p).hsp = g.hsp := by cases sl <;> rfl
@[simp] theorem Group.setPath_hist (g : Group) (sl : Slot) (p : Option Path) : (g.setPath sl p).hist = g.hist := by cases sl <;> rfl
@[simp] theorem Group.setPath_ptrace (g : Group) (sl : Slot) (p : Option Path) : (g.setPath sl p).ptrace = g.ptrace := by cases sl <;> rfl
@[simp] theorem Group.setPath_ptraceIc (g : Group) (sl : Slot) (p : Option Path) : (g.setPath sl p).ptraceIc = g.ptraceIc := by cases sl <;> rfl
@[simp] theorem Group.setPath_rtrace (g : Group) (sl : Slot) (p : Option Path) : (g.setPath sl p).rtrace = g.rtrace := by cases sl <;> rfl
@[simp] theorem Group.setPath_rev (g : Group) (sl : Slot) (p : Option Path) : (g.setPath sl p).rev = g.rev := by cases sl <;> rfl
@[simp] theorem Group.setPath_spec (g : Group) (sl : Slot) (p : Option Path) : (g.setPath sl p).spec = g.spec := by cases sl <;> rfl
@[simp] theorem Group.setPath_hold (g : Group) (sl : Slot) (p : Option Path) : (g.setPath sl p).hold = g.hold := by cases sl <;> rfl
@[simp] theorem Group.setPath_fctl (g : Group) (sl : Slot) (p : Option Path) : (g.setPath sl p).fctl = g.fctl := by cases sl <;> rfl
@[simp] theorem Group.setPath_fstat (g : Group) (sl : Slot) (p : Option Path) : (g.setPath sl p).fstat = g.fstat := by cases sl <;> rfl
@[simp] theorem Group.setPath_uvec (g : Group) (sl : Slot) (p : Option Path) : (g.setPath sl p).uvec = g.uvec := by cases sl <;> rfl
@[simp] theorem Group.setPath_uicause (g : Group) (sl : Slot) (p : Option Path) : (g.setPath sl p).uicause = g.uicause := by cases sl <;> rfl
@[simp] theorem Group.setPath_uiretpc (g : Group) (sl : Slot) (p : Option Path) : (g.setPath sl p).uiretpc = g.uiretpc := by cases sl <;> rfl
@[simp] theorem Group.setPath_uirw (g : Group) (sl : Slot) (p : Option Path) : (g.setPath sl p).uirw = g.uirw := by cases sl <;> rfl
@[simp] theorem Group.setPath_trapinfo0 (g : Group) (sl : Slot) (p : Option Path) : (g.setPath sl p).trapinfo0 = g.trapinfo0 := by cases sl <;> rfl
@[simp] theorem Group.setPath_trapinfo1 (g : Group) (sl : Slot) (p : Option Path) : (g.setPath sl p).trapinfo1 = g.trapinfo1 := by cases sl <;> rfl
@[simp] theorem Group.setPath_trapinfo2 (g : Group) (sl : Slot) (p : Option Path) : (g.setPath sl p).trapinfo2 = g.trapinfo2 := by cases sl <;> rfl
@[simp] theorem Group.setPath_trapinfo3 (g : Group) (sl : Slot) (p : Option Path) : (g.setPath sl p).trapinfo3 = g.trapinfo3 := by cases sl <;> rfl
@[simp] theorem Group.setPath_replval (g : Group) (sl : Slot) (p : Option Path) : (g.setPath sl p).replval = g.replval := by cases sl <;> rfl
@[simp] theorem Group.setPath_privbase (g : Group) (sl : Slot) (p : Option Path) : (g.setPath sl p).privbase = g.privbase := by cases sl <;> rfl
@[simp] theorem Group.setPath_causes (g : Group) (sl : Slot) (p : Option Path) : (g.setPath sl p).causes = g.causes := by cases sl <;> rfl
@[simp] theorem Group.setPath_pend (g : Group) (sl : Slot) (p : Option Path) : (g.setPath sl p).pend = g.pend := by cases sl <;> rfl
@[simp] theorem Group.setPath_held (g : Group) (sl : Slot) (p : Option Path) : (g.setPath sl p).held = g.held := by cases sl <;> rfl
@[simp] theorem Group.setPath_halted (g : Group) (sl : Slot) (p : Option Path) : (g.setPath sl p).halted = g.halted := by cases sl <;> rfl
@[simp] theorem Group.setPath_argWait (g : Group) (sl : Slot) (p : Option Path) : (g.setPath sl p).argWait = g.argWait := by cases sl <;> rfl
@[simp] theorem Group.setPath_step (g : Group) (sl : Slot) (p : Option Path) : (g.setPath sl p).step = g.step := by cases sl <;> rfl
@[simp] theorem Group.setPath_seq (g : Group) (sl : Slot) (p : Option Path) : (g.setPath sl p).seq = g.seq := by cases sl <;> rfl
@[simp] theorem Group.setPath_lq (g : Group) (sl : Slot) (p : Option Path) : (g.setPath sl p).lq = g.lq := by cases sl <;> rfl
@[simp] theorem Group.setPath_sq (g : Group) (sl : Slot) (p : Option Path) : (g.setPath sl p).sq = g.sq := by cases sl <;> rfl
@[simp] theorem Group.setPath_uncorr (g : Group) (sl : Slot) (p : Option Path) : (g.setPath sl p).uncorr = g.uncorr := by cases sl <;> rfl
@[simp] theorem Group.setPath_poll (g : Group) (sl : Slot) (p : Option Path) : (g.setPath sl p).poll = g.poll := by cases sl <;> rfl
@[simp] theorem Group.setPath_e0 (g : Group) (sl : Slot) (p : Option Path) : (g.setPath sl p).e0 = g.e0 := by cases sl <;> rfl
@[simp] theorem Group.setPath_e2 (g : Group) (sl : Slot) (p : Option Path) : (g.setPath sl p).e2 = g.e2 := by cases sl <;> rfl
@[simp] theorem Group.setPath_e4 (g : Group) (sl : Slot) (p : Option Path) : (g.setPath sl p).e4 = g.e4 := by cases sl <;> rfl
@[simp] theorem Group.setPath_e1 (g : Group) (sl : Slot) (p : Option Path) : (g.setPath sl p).e1 = g.e1 := by cases sl <;> rfl
@[simp] theorem Group.setPath_e3 (g : Group) (sl : Slot) (p : Option Path) : (g.setPath sl p).e3 = g.e3 := by cases sl <;> rfl
@[simp] theorem Group.setPath_e5 (g : Group) (sl : Slot) (p : Option Path) : (g.setPath sl p).e5 = g.e5 := by cases sl <;> rfl
@[simp] theorem Group.setPath_tmx (g : Group) (sl : Slot) (p : Option Path) : (g.setPath sl p).tmx = g.tmx := by cases sl <;> rfl
@[simp] theorem Group.setPath_tcp (g : Group) (sl : Slot) (p : Option Path) : (g.setPath sl p).tcp = g.tcp := by cases sl <;> rfl
@[simp] theorem Group.setPath_tvd (g : Group) (sl : Slot) (p : Option Path) : (g.setPath sl p).tvd = g.tvd := by cases sl <;> rfl
@[simp] theorem Group.setPath_mxseq (g : Group) (sl : Slot) (p : Option Path) : (g.setPath sl p).mxseq = g.mxseq := by cases sl <;> rfl
@[simp] theorem Group.setPath_mxnan (g : Group) (sl : Slot) (p : Option Path) : (g.setPath sl p).mxnan = g.mxnan := by cases sl <;> rfl
@[simp] theorem Group.setPath_engPend (g : Group) (sl : Slot) (p : Option Path) : (g.setPath sl p).engPend = g.engPend := by cases sl <;> rfl
@[simp] theorem Group.setPath_wpPend (g : Group) (sl : Slot) (p : Option Path) : (g.setPath sl p).wpPend = g.wpPend := by cases sl <;> rfl
@[simp] theorem Group.setPath_colop (g : Group) (sl : Slot) (p : Option Path) : (g.setPath sl p).colop = g.colop := by cases sl <;> rfl
@[simp] theorem Group.setPath_ended (g : Group) (sl : Slot) (p : Option Path) : (g.setPath sl p).ended = g.ended := by cases sl <;> rfl

/-! ### setCore -/

@[simp] theorem setCore_mem (s : State) (c : Nat) (k : Core) : (setCore s c k).mem = s.mem := rfl
@[simp] theorem setCore_host (s : State) (c : Nat) (k : Core) : (setCore s c k).host = s.host := rfl
@[simp] theorem setCore_peers (s : State) (c : Nat) (k : Core) : (setCore s c k).peers = s.peers := rfl
@[simp] theorem setCore_gran (s : State) (c : Nat) (k : Core) : (setCore s c k).gran = s.gran := rfl
@[simp] theorem setCore_paths (s : State) (c : Nat) (k : Core) : (setCore s c k).paths = s.paths := rfl
@[simp] theorem setCore_uncorr (s : State) (c : Nat) (k : Core) : (setCore s c k).uncorr = s.uncorr := rfl
@[simp] theorem setCore_rowsBad (s : State) (c : Nat) (k : Core) : (setCore s c k).rowsBad = s.rowsBad := rfl
@[simp] theorem setCore_dead (s : State) (c : Nat) (k : Core) : (setCore s c k).dead = s.dead := rfl
@[simp] theorem setCore_pubs (s : State) (c : Nat) (k : Core) : (setCore s c k).pubs = s.pubs := rfl
@[simp] theorem setCore_tlb (s : State) (c : Nat) (k : Core) : (setCore s c k).tlb = s.tlb := rfl
@[simp] theorem setCore_pins (s : State) (c : Nat) (k : Core) : (setCore s c k).pins = s.pins := rfl
@[simp] theorem setCore_domes (s : State) (c : Nat) (k : Core) : (setCore s c k).domes = s.domes := rfl
@[simp] theorem setCore_buckets (s : State) (c : Nat) (k : Core) : (setCore s c k).buckets = s.buckets := rfl
@[simp] theorem setCore_faccStage (s : State) (c : Nat) (k : Core) : (setCore s c k).faccStage = s.faccStage := rfl
@[simp] theorem setCore_facc (s : State) (c : Nat) (k : Core) : (setCore s c k).facc = s.facc := rfl
@[simp] theorem setCore_faccDone (s : State) (c : Nat) (k : Core) : (setCore s c k).faccDone = s.faccDone := rfl
@[simp] theorem setCore_faccRewrite (s : State) (c : Nat) (k : Core) : (setCore s c k).faccRewrite = s.faccRewrite := rfl
@[simp] theorem setCore_ctl (s : State) (c : Nat) (k : Core) : (setCore s c k).ctl = s.ctl := rfl
@[simp] theorem setCore_ranges (s : State) (c : Nat) (k : Core) : (setCore s c k).ranges = s.ranges := rfl
@[simp] theorem setCore_declines (s : State) (c : Nat) (k : Core) : (setCore s c k).declines = s.declines := rfl
@[simp] theorem setCore_frPending (s : State) (c : Nat) (k : Core) : (setCore s c k).frPending = s.frPending := rfl
@[simp] theorem setCore_stPending (s : State) (c : Nat) (k : Core) : (setCore s c k).stPending = s.stPending := rfl
@[simp] theorem setCore_ctxs (s : State) (c : Nat) (k : Core) : (setCore s c k).ctxs = s.ctxs := rfl
@[simp] theorem setCore_pageRecs (s : State) (c : Nat) (k : Core) : (setCore s c k).pageRecs = s.pageRecs := rfl
@[simp] theorem setCore_launches (s : State) (c : Nat) (k : Core) : (setCore s c k).launches = s.launches := rfl
@[simp] theorem setCore_launchCtr (s : State) (c : Nat) (k : Core) : (setCore s c k).launchCtr = s.launchCtr := rfl
@[simp] theorem setCore_hostq (s : State) (c : Nat) (k : Core) : (setCore s c k).hostq = s.hostq := rfl
@[simp] theorem setCore_hostqHeld (s : State) (c : Nat) (k : Core) : (setCore s c k).hostqHeld = s.hostqHeld := rfl
@[simp] theorem setCore_lqs (s : State) (c : Nat) (k : Core) : (setCore s c k).lqs = s.lqs := rfl
@[simp] theorem setCore_decs (s : State) (c : Nat) (k : Core) : (setCore s c k).decs = s.decs := rfl
@[simp] theorem setCore_clk (s : State) (c : Nat) (k : Core) : (setCore s c k).clk = s.clk := rfl
@[simp] theorem setCore_clkLimited (s : State) (c : Nat) (k : Core) : (setCore s c k).clkLimited = s.clkLimited := rfl
@[simp] theorem setCore_thermalStop (s : State) (c : Nat) (k : Core) : (setCore s c k).thermalStop = s.thermalStop := rfl
@[simp] theorem setCore_portsDown (s : State) (c : Nat) (k : Core) : (setCore s c k).portsDown = s.portsDown := rfl
@[simp] theorem setCore_hostDown (s : State) (c : Nat) (k : Core) : (setCore s c k).hostDown = s.hostDown := rfl
@[simp] theorem setCore_firmware (s : State) (c : Nat) (k : Core) : (setCore s c k).firmware = s.firmware := rfl
@[simp] theorem setCore_retrain (s : State) (c : Nat) (k : Core) : (setCore s c k).retrain = s.retrain := rfl
@[simp] theorem setCore_tlbBusy (s : State) (c : Nat) (k : Core) : (setCore s c k).tlbBusy = s.tlbBusy := rfl
@[simp] theorem setCore_hostReply (s : State) (c : Nat) (k : Core) : (setCore s c k).hostReply = s.hostReply := rfl
@[simp] theorem setCore_demId (s : State) (c : Nat) (k : Core) : (setCore s c k).demId = s.demId := rfl
@[simp] theorem setCore_cur (s : State) (c : Nat) (k : Core) : (setCore s c k).cur = s.cur := rfl
@[simp] theorem setCore_agenda (s : State) (c : Nat) (k : Core) : (setCore s c k).agenda = s.agenda := rfl
@[simp] theorem setCore_tick (s : State) (c : Nat) (k : Core) : (setCore s c k).tick = s.tick := rfl
@[simp] theorem setCore_free (s : State) (c : Nat) (k : Core) : (setCore s c k).free = s.free := rfl

/-! ### ctlW -/

@[simp] theorem ctlW_cores (s : State) (off : Nat) (v : DWord) : (ctlW s off v).cores = s.cores := rfl
@[simp] theorem ctlW_mem (s : State) (off : Nat) (v : DWord) : (ctlW s off v).mem = s.mem := rfl
@[simp] theorem ctlW_host (s : State) (off : Nat) (v : DWord) : (ctlW s off v).host = s.host := rfl
@[simp] theorem ctlW_peers (s : State) (off : Nat) (v : DWord) : (ctlW s off v).peers = s.peers := rfl
@[simp] theorem ctlW_gran (s : State) (off : Nat) (v : DWord) : (ctlW s off v).gran = s.gran := rfl
@[simp] theorem ctlW_paths (s : State) (off : Nat) (v : DWord) : (ctlW s off v).paths = s.paths := rfl
@[simp] theorem ctlW_uncorr (s : State) (off : Nat) (v : DWord) : (ctlW s off v).uncorr = s.uncorr := rfl
@[simp] theorem ctlW_rowsBad (s : State) (off : Nat) (v : DWord) : (ctlW s off v).rowsBad = s.rowsBad := rfl
@[simp] theorem ctlW_dead (s : State) (off : Nat) (v : DWord) : (ctlW s off v).dead = s.dead := rfl
@[simp] theorem ctlW_pubs (s : State) (off : Nat) (v : DWord) : (ctlW s off v).pubs = s.pubs := rfl
@[simp] theorem ctlW_tlb (s : State) (off : Nat) (v : DWord) : (ctlW s off v).tlb = s.tlb := rfl
@[simp] theorem ctlW_pins (s : State) (off : Nat) (v : DWord) : (ctlW s off v).pins = s.pins := rfl
@[simp] theorem ctlW_domes (s : State) (off : Nat) (v : DWord) : (ctlW s off v).domes = s.domes := rfl
@[simp] theorem ctlW_buckets (s : State) (off : Nat) (v : DWord) : (ctlW s off v).buckets = s.buckets := rfl
@[simp] theorem ctlW_faccStage (s : State) (off : Nat) (v : DWord) : (ctlW s off v).faccStage = s.faccStage := rfl
@[simp] theorem ctlW_facc (s : State) (off : Nat) (v : DWord) : (ctlW s off v).facc = s.facc := rfl
@[simp] theorem ctlW_faccDone (s : State) (off : Nat) (v : DWord) : (ctlW s off v).faccDone = s.faccDone := rfl
@[simp] theorem ctlW_faccRewrite (s : State) (off : Nat) (v : DWord) : (ctlW s off v).faccRewrite = s.faccRewrite := rfl
@[simp] theorem ctlW_ranges (s : State) (off : Nat) (v : DWord) : (ctlW s off v).ranges = s.ranges := rfl
@[simp] theorem ctlW_declines (s : State) (off : Nat) (v : DWord) : (ctlW s off v).declines = s.declines := rfl
@[simp] theorem ctlW_frPending (s : State) (off : Nat) (v : DWord) : (ctlW s off v).frPending = s.frPending := rfl
@[simp] theorem ctlW_stPending (s : State) (off : Nat) (v : DWord) : (ctlW s off v).stPending = s.stPending := rfl
@[simp] theorem ctlW_ctxs (s : State) (off : Nat) (v : DWord) : (ctlW s off v).ctxs = s.ctxs := rfl
@[simp] theorem ctlW_pageRecs (s : State) (off : Nat) (v : DWord) : (ctlW s off v).pageRecs = s.pageRecs := rfl
@[simp] theorem ctlW_launches (s : State) (off : Nat) (v : DWord) : (ctlW s off v).launches = s.launches := rfl
@[simp] theorem ctlW_launchCtr (s : State) (off : Nat) (v : DWord) : (ctlW s off v).launchCtr = s.launchCtr := rfl
@[simp] theorem ctlW_hostq (s : State) (off : Nat) (v : DWord) : (ctlW s off v).hostq = s.hostq := rfl
@[simp] theorem ctlW_hostqHeld (s : State) (off : Nat) (v : DWord) : (ctlW s off v).hostqHeld = s.hostqHeld := rfl
@[simp] theorem ctlW_lqs (s : State) (off : Nat) (v : DWord) : (ctlW s off v).lqs = s.lqs := rfl
@[simp] theorem ctlW_decs (s : State) (off : Nat) (v : DWord) : (ctlW s off v).decs = s.decs := rfl
@[simp] theorem ctlW_clk (s : State) (off : Nat) (v : DWord) : (ctlW s off v).clk = s.clk := rfl
@[simp] theorem ctlW_clkLimited (s : State) (off : Nat) (v : DWord) : (ctlW s off v).clkLimited = s.clkLimited := rfl
@[simp] theorem ctlW_thermalStop (s : State) (off : Nat) (v : DWord) : (ctlW s off v).thermalStop = s.thermalStop := rfl
@[simp] theorem ctlW_portsDown (s : State) (off : Nat) (v : DWord) : (ctlW s off v).portsDown = s.portsDown := rfl
@[simp] theorem ctlW_hostDown (s : State) (off : Nat) (v : DWord) : (ctlW s off v).hostDown = s.hostDown := rfl
@[simp] theorem ctlW_firmware (s : State) (off : Nat) (v : DWord) : (ctlW s off v).firmware = s.firmware := rfl
@[simp] theorem ctlW_retrain (s : State) (off : Nat) (v : DWord) : (ctlW s off v).retrain = s.retrain := rfl
@[simp] theorem ctlW_tlbBusy (s : State) (off : Nat) (v : DWord) : (ctlW s off v).tlbBusy = s.tlbBusy := rfl
@[simp] theorem ctlW_hostReply (s : State) (off : Nat) (v : DWord) : (ctlW s off v).hostReply = s.hostReply := rfl
@[simp] theorem ctlW_demId (s : State) (off : Nat) (v : DWord) : (ctlW s off v).demId = s.demId := rfl
@[simp] theorem ctlW_cur (s : State) (off : Nat) (v : DWord) : (ctlW s off v).cur = s.cur := rfl
@[simp] theorem ctlW_agenda (s : State) (off : Nat) (v : DWord) : (ctlW s off v).agenda = s.agenda := rfl
@[simp] theorem ctlW_tick (s : State) (off : Nat) (v : DWord) : (ctlW s off v).tick = s.tick := rfl
@[simp] theorem ctlW_free (s : State) (off : Nat) (v : DWord) : (ctlW s off v).free = s.free := rfl

/-! ### setGran -/

@[simp] theorem setGran_cores (s : State) (a : Nat) (h : HomeGran) : (setGran s a h).cores = s.cores := rfl
@[simp] theorem setGran_mem (s : State) (a : Nat) (h : HomeGran) : (setGran s a h).mem = s.mem := rfl
@[simp] theorem setGran_host (s : State) (a : Nat) (h : HomeGran) : (setGran s a h).host = s.host := rfl
@[simp] theorem setGran_peers (s : State) (a : Nat) (h : HomeGran) : (setGran s a h).peers = s.peers := rfl
@[simp] theorem setGran_paths (s : State) (a : Nat) (h : HomeGran) : (setGran s a h).paths = s.paths := rfl
@[simp] theorem setGran_uncorr (s : State) (a : Nat) (h : HomeGran) : (setGran s a h).uncorr = s.uncorr := rfl
@[simp] theorem setGran_rowsBad (s : State) (a : Nat) (h : HomeGran) : (setGran s a h).rowsBad = s.rowsBad := rfl
@[simp] theorem setGran_dead (s : State) (a : Nat) (h : HomeGran) : (setGran s a h).dead = s.dead := rfl
@[simp] theorem setGran_pubs (s : State) (a : Nat) (h : HomeGran) : (setGran s a h).pubs = s.pubs := rfl
@[simp] theorem setGran_tlb (s : State) (a : Nat) (h : HomeGran) : (setGran s a h).tlb = s.tlb := rfl
@[simp] theorem setGran_pins (s : State) (a : Nat) (h : HomeGran) : (setGran s a h).pins = s.pins := rfl
@[simp] theorem setGran_domes (s : State) (a : Nat) (h : HomeGran) : (setGran s a h).domes = s.domes := rfl
@[simp] theorem setGran_buckets (s : State) (a : Nat) (h : HomeGran) : (setGran s a h).buckets = s.buckets := rfl
@[simp] theorem setGran_faccStage (s : State) (a : Nat) (h : HomeGran) : (setGran s a h).faccStage = s.faccStage := rfl
@[simp] theorem setGran_facc (s : State) (a : Nat) (h : HomeGran) : (setGran s a h).facc = s.facc := rfl
@[simp] theorem setGran_faccDone (s : State) (a : Nat) (h : HomeGran) : (setGran s a h).faccDone = s.faccDone := rfl
@[simp] theorem setGran_faccRewrite (s : State) (a : Nat) (h : HomeGran) : (setGran s a h).faccRewrite = s.faccRewrite := rfl
@[simp] theorem setGran_ctl (s : State) (a : Nat) (h : HomeGran) : (setGran s a h).ctl = s.ctl := rfl
@[simp] theorem setGran_ranges (s : State) (a : Nat) (h : HomeGran) : (setGran s a h).ranges = s.ranges := rfl
@[simp] theorem setGran_declines (s : State) (a : Nat) (h : HomeGran) : (setGran s a h).declines = s.declines := rfl
@[simp] theorem setGran_frPending (s : State) (a : Nat) (h : HomeGran) : (setGran s a h).frPending = s.frPending := rfl
@[simp] theorem setGran_stPending (s : State) (a : Nat) (h : HomeGran) : (setGran s a h).stPending = s.stPending := rfl
@[simp] theorem setGran_ctxs (s : State) (a : Nat) (h : HomeGran) : (setGran s a h).ctxs = s.ctxs := rfl
@[simp] theorem setGran_pageRecs (s : State) (a : Nat) (h : HomeGran) : (setGran s a h).pageRecs = s.pageRecs := rfl
@[simp] theorem setGran_launches (s : State) (a : Nat) (h : HomeGran) : (setGran s a h).launches = s.launches := rfl
@[simp] theorem setGran_launchCtr (s : State) (a : Nat) (h : HomeGran) : (setGran s a h).launchCtr = s.launchCtr := rfl
@[simp] theorem setGran_hostq (s : State) (a : Nat) (h : HomeGran) : (setGran s a h).hostq = s.hostq := rfl
@[simp] theorem setGran_hostqHeld (s : State) (a : Nat) (h : HomeGran) : (setGran s a h).hostqHeld = s.hostqHeld := rfl
@[simp] theorem setGran_lqs (s : State) (a : Nat) (h : HomeGran) : (setGran s a h).lqs = s.lqs := rfl
@[simp] theorem setGran_decs (s : State) (a : Nat) (h : HomeGran) : (setGran s a h).decs = s.decs := rfl
@[simp] theorem setGran_clk (s : State) (a : Nat) (h : HomeGran) : (setGran s a h).clk = s.clk := rfl
@[simp] theorem setGran_clkLimited (s : State) (a : Nat) (h : HomeGran) : (setGran s a h).clkLimited = s.clkLimited := rfl
@[simp] theorem setGran_thermalStop (s : State) (a : Nat) (h : HomeGran) : (setGran s a h).thermalStop = s.thermalStop := rfl
@[simp] theorem setGran_portsDown (s : State) (a : Nat) (h : HomeGran) : (setGran s a h).portsDown = s.portsDown := rfl
@[simp] theorem setGran_hostDown (s : State) (a : Nat) (h : HomeGran) : (setGran s a h).hostDown = s.hostDown := rfl
@[simp] theorem setGran_firmware (s : State) (a : Nat) (h : HomeGran) : (setGran s a h).firmware = s.firmware := rfl
@[simp] theorem setGran_retrain (s : State) (a : Nat) (h : HomeGran) : (setGran s a h).retrain = s.retrain := rfl
@[simp] theorem setGran_tlbBusy (s : State) (a : Nat) (h : HomeGran) : (setGran s a h).tlbBusy = s.tlbBusy := rfl
@[simp] theorem setGran_hostReply (s : State) (a : Nat) (h : HomeGran) : (setGran s a h).hostReply = s.hostReply := rfl
@[simp] theorem setGran_demId (s : State) (a : Nat) (h : HomeGran) : (setGran s a h).demId = s.demId := rfl
@[simp] theorem setGran_cur (s : State) (a : Nat) (h : HomeGran) : (setGran s a h).cur = s.cur := rfl
@[simp] theorem setGran_agenda (s : State) (a : Nat) (h : HomeGran) : (setGran s a h).agenda = s.agenda := rfl
@[simp] theorem setGran_tick (s : State) (a : Nat) (h : HomeGran) : (setGran s a h).tick = s.tick := rfl
@[simp] theorem setGran_free (s : State) (a : Nat) (h : HomeGran) : (setGran s a h).free = s.free := rfl

/-! ### setGroup -/

@[simp] theorem setGroup_mem (s : State) (c gs : Nat) (g : Group) : (setGroup s c gs g).mem = s.mem := rfl
@[simp] theorem setGroup_host (s : State) (c gs : Nat) (g : Group) : (setGroup s c gs g).host = s.host := rfl
@[simp] theorem setGroup_peers (s : State) (c gs : Nat) (g : Group) : (setGroup s c gs g).peers = s.peers := rfl
@[simp] theorem setGroup_gran (s : State) (c gs : Nat) (g : Group) : (setGroup s c gs g).gran = s.gran := rfl
@[simp] theorem setGroup_paths (s : State) (c gs : Nat) (g : Group) : (setGroup s c gs g).paths = s.paths := rfl
@[simp] theorem setGroup_uncorr (s : State) (c gs : Nat) (g : Group) : (setGroup s c gs g).uncorr = s.uncorr := rfl
@[simp] theorem setGroup_rowsBad (s : State) (c gs : Nat) (g : Group) : (setGroup s c gs g).rowsBad = s.rowsBad := rfl
@[simp] theorem setGroup_dead (s : State) (c gs : Nat) (g : Group) : (setGroup s c gs g).dead = s.dead := rfl
@[simp] theorem setGroup_pubs (s : State) (c gs : Nat) (g : Group) : (setGroup s c gs g).pubs = s.pubs := rfl
@[simp] theorem setGroup_tlb (s : State) (c gs : Nat) (g : Group) : (setGroup s c gs g).tlb = s.tlb := rfl
@[simp] theorem setGroup_pins (s : State) (c gs : Nat) (g : Group) : (setGroup s c gs g).pins = s.pins := rfl
@[simp] theorem setGroup_domes (s : State) (c gs : Nat) (g : Group) : (setGroup s c gs g).domes = s.domes := rfl
@[simp] theorem setGroup_buckets (s : State) (c gs : Nat) (g : Group) : (setGroup s c gs g).buckets = s.buckets := rfl
@[simp] theorem setGroup_faccStage (s : State) (c gs : Nat) (g : Group) : (setGroup s c gs g).faccStage = s.faccStage := rfl
@[simp] theorem setGroup_facc (s : State) (c gs : Nat) (g : Group) : (setGroup s c gs g).facc = s.facc := rfl
@[simp] theorem setGroup_faccDone (s : State) (c gs : Nat) (g : Group) : (setGroup s c gs g).faccDone = s.faccDone := rfl
@[simp] theorem setGroup_faccRewrite (s : State) (c gs : Nat) (g : Group) : (setGroup s c gs g).faccRewrite = s.faccRewrite := rfl
@[simp] theorem setGroup_ctl (s : State) (c gs : Nat) (g : Group) : (setGroup s c gs g).ctl = s.ctl := rfl
@[simp] theorem setGroup_ranges (s : State) (c gs : Nat) (g : Group) : (setGroup s c gs g).ranges = s.ranges := rfl
@[simp] theorem setGroup_declines (s : State) (c gs : Nat) (g : Group) : (setGroup s c gs g).declines = s.declines := rfl
@[simp] theorem setGroup_frPending (s : State) (c gs : Nat) (g : Group) : (setGroup s c gs g).frPending = s.frPending := rfl
@[simp] theorem setGroup_stPending (s : State) (c gs : Nat) (g : Group) : (setGroup s c gs g).stPending = s.stPending := rfl
@[simp] theorem setGroup_ctxs (s : State) (c gs : Nat) (g : Group) : (setGroup s c gs g).ctxs = s.ctxs := rfl
@[simp] theorem setGroup_pageRecs (s : State) (c gs : Nat) (g : Group) : (setGroup s c gs g).pageRecs = s.pageRecs := rfl
@[simp] theorem setGroup_launches (s : State) (c gs : Nat) (g : Group) : (setGroup s c gs g).launches = s.launches := rfl
@[simp] theorem setGroup_launchCtr (s : State) (c gs : Nat) (g : Group) : (setGroup s c gs g).launchCtr = s.launchCtr := rfl
@[simp] theorem setGroup_hostq (s : State) (c gs : Nat) (g : Group) : (setGroup s c gs g).hostq = s.hostq := rfl
@[simp] theorem setGroup_hostqHeld (s : State) (c gs : Nat) (g : Group) : (setGroup s c gs g).hostqHeld = s.hostqHeld := rfl
@[simp] theorem setGroup_lqs (s : State) (c gs : Nat) (g : Group) : (setGroup s c gs g).lqs = s.lqs := rfl
@[simp] theorem setGroup_decs (s : State) (c gs : Nat) (g : Group) : (setGroup s c gs g).decs = s.decs := rfl
@[simp] theorem setGroup_clk (s : State) (c gs : Nat) (g : Group) : (setGroup s c gs g).clk = s.clk := rfl
@[simp] theorem setGroup_clkLimited (s : State) (c gs : Nat) (g : Group) : (setGroup s c gs g).clkLimited = s.clkLimited := rfl
@[simp] theorem setGroup_thermalStop (s : State) (c gs : Nat) (g : Group) : (setGroup s c gs g).thermalStop = s.thermalStop := rfl
@[simp] theorem setGroup_portsDown (s : State) (c gs : Nat) (g : Group) : (setGroup s c gs g).portsDown = s.portsDown := rfl
@[simp] theorem setGroup_hostDown (s : State) (c gs : Nat) (g : Group) : (setGroup s c gs g).hostDown = s.hostDown := rfl
@[simp] theorem setGroup_firmware (s : State) (c gs : Nat) (g : Group) : (setGroup s c gs g).firmware = s.firmware := rfl
@[simp] theorem setGroup_retrain (s : State) (c gs : Nat) (g : Group) : (setGroup s c gs g).retrain = s.retrain := rfl
@[simp] theorem setGroup_tlbBusy (s : State) (c gs : Nat) (g : Group) : (setGroup s c gs g).tlbBusy = s.tlbBusy := rfl
@[simp] theorem setGroup_hostReply (s : State) (c gs : Nat) (g : Group) : (setGroup s c gs g).hostReply = s.hostReply := rfl
@[simp] theorem setGroup_demId (s : State) (c gs : Nat) (g : Group) : (setGroup s c gs g).demId = s.demId := rfl
@[simp] theorem setGroup_cur (s : State) (c gs : Nat) (g : Group) : (setGroup s c gs g).cur = s.cur := rfl
@[simp] theorem setGroup_agenda (s : State) (c gs : Nat) (g : Group) : (setGroup s c gs g).agenda = s.agenda := rfl
@[simp] theorem setGroup_tick (s : State) (c gs : Nat) (g : Group) : (setGroup s c gs g).tick = s.tick := rfl
@[simp] theorem setGroup_free (s : State) (c gs : Nat) (g : Group) : (setGroup s c gs g).free = s.free := rfl

/-! ### setUnit -/

@[simp] theorem setUnit_mem (s : State) (c u : Nat) (x : Unit) : (setUnit s c u x).mem = s.mem := rfl
@[simp] theorem setUnit_host (s : State) (c u : Nat) (x : Unit) : (setUnit s c u x).host = s.host := rfl
@[simp] theorem setUnit_peers (s : State) (c u : Nat) (x : Unit) : (setUnit s c u x).peers = s.peers := rfl
@[simp] theorem setUnit_gran (s : State) (c u : Nat) (x : Unit) : (setUnit s c u x).gran = s.gran := rfl
@[simp] theorem setUnit_paths (s : State) (c u : Nat) (x : Unit) : (setUnit s c u x).paths = s.paths := rfl
@[simp] theorem setUnit_uncorr (s : State) (c u : Nat) (x : Unit) : (setUnit s c u x).uncorr = s.uncorr := rfl
@[simp] theorem setUnit_rowsBad (s : State) (c u : Nat) (x : Unit) : (setUnit s c u x).rowsBad = s.rowsBad := rfl
@[simp] theorem setUnit_dead (s : State) (c u : Nat) (x : Unit) : (setUnit s c u x).dead = s.dead := rfl
@[simp] theorem setUnit_pubs (s : State) (c u : Nat) (x : Unit) : (setUnit s c u x).pubs = s.pubs := rfl
@[simp] theorem setUnit_tlb (s : State) (c u : Nat) (x : Unit) : (setUnit s c u x).tlb = s.tlb := rfl
@[simp] theorem setUnit_pins (s : State) (c u : Nat) (x : Unit) : (setUnit s c u x).pins = s.pins := rfl
@[simp] theorem setUnit_domes (s : State) (c u : Nat) (x : Unit) : (setUnit s c u x).domes = s.domes := rfl
@[simp] theorem setUnit_buckets (s : State) (c u : Nat) (x : Unit) : (setUnit s c u x).buckets = s.buckets := rfl
@[simp] theorem setUnit_faccStage (s : State) (c u : Nat) (x : Unit) : (setUnit s c u x).faccStage = s.faccStage := rfl
@[simp] theorem setUnit_facc (s : State) (c u : Nat) (x : Unit) : (setUnit s c u x).facc = s.facc := rfl
@[simp] theorem setUnit_faccDone (s : State) (c u : Nat) (x : Unit) : (setUnit s c u x).faccDone = s.faccDone := rfl
@[simp] theorem setUnit_faccRewrite (s : State) (c u : Nat) (x : Unit) : (setUnit s c u x).faccRewrite = s.faccRewrite := rfl
@[simp] theorem setUnit_ctl (s : State) (c u : Nat) (x : Unit) : (setUnit s c u x).ctl = s.ctl := rfl
@[simp] theorem setUnit_ranges (s : State) (c u : Nat) (x : Unit) : (setUnit s c u x).ranges = s.ranges := rfl
@[simp] theorem setUnit_declines (s : State) (c u : Nat) (x : Unit) : (setUnit s c u x).declines = s.declines := rfl
@[simp] theorem setUnit_frPending (s : State) (c u : Nat) (x : Unit) : (setUnit s c u x).frPending = s.frPending := rfl
@[simp] theorem setUnit_stPending (s : State) (c u : Nat) (x : Unit) : (setUnit s c u x).stPending = s.stPending := rfl
@[simp] theorem setUnit_ctxs (s : State) (c u : Nat) (x : Unit) : (setUnit s c u x).ctxs = s.ctxs := rfl
@[simp] theorem setUnit_pageRecs (s : State) (c u : Nat) (x : Unit) : (setUnit s c u x).pageRecs = s.pageRecs := rfl
@[simp] theorem setUnit_launches (s : State) (c u : Nat) (x : Unit) : (setUnit s c u x).launches = s.launches := rfl
@[simp] theorem setUnit_launchCtr (s : State) (c u : Nat) (x : Unit) : (setUnit s c u x).launchCtr = s.launchCtr := rfl
@[simp] theorem setUnit_hostq (s : State) (c u : Nat) (x : Unit) : (setUnit s c u x).hostq = s.hostq := rfl
@[simp] theorem setUnit_hostqHeld (s : State) (c u : Nat) (x : Unit) : (setUnit s c u x).hostqHeld = s.hostqHeld := rfl
@[simp] theorem setUnit_lqs (s : State) (c u : Nat) (x : Unit) : (setUnit s c u x).lqs = s.lqs := rfl
@[simp] theorem setUnit_decs (s : State) (c u : Nat) (x : Unit) : (setUnit s c u x).decs = s.decs := rfl
@[simp] theorem setUnit_clk (s : State) (c u : Nat) (x : Unit) : (setUnit s c u x).clk = s.clk := rfl
@[simp] theorem setUnit_clkLimited (s : State) (c u : Nat) (x : Unit) : (setUnit s c u x).clkLimited = s.clkLimited := rfl
@[simp] theorem setUnit_thermalStop (s : State) (c u : Nat) (x : Unit) : (setUnit s c u x).thermalStop = s.thermalStop := rfl
@[simp] theorem setUnit_portsDown (s : State) (c u : Nat) (x : Unit) : (setUnit s c u x).portsDown = s.portsDown := rfl
@[simp] theorem setUnit_hostDown (s : State) (c u : Nat) (x : Unit) : (setUnit s c u x).hostDown = s.hostDown := rfl
@[simp] theorem setUnit_firmware (s : State) (c u : Nat) (x : Unit) : (setUnit s c u x).firmware = s.firmware := rfl
@[simp] theorem setUnit_retrain (s : State) (c u : Nat) (x : Unit) : (setUnit s c u x).retrain = s.retrain := rfl
@[simp] theorem setUnit_tlbBusy (s : State) (c u : Nat) (x : Unit) : (setUnit s c u x).tlbBusy = s.tlbBusy := rfl
@[simp] theorem setUnit_hostReply (s : State) (c u : Nat) (x : Unit) : (setUnit s c u x).hostReply = s.hostReply := rfl
@[simp] theorem setUnit_demId (s : State) (c u : Nat) (x : Unit) : (setUnit s c u x).demId = s.demId := rfl
@[simp] theorem setUnit_cur (s : State) (c u : Nat) (x : Unit) : (setUnit s c u x).cur = s.cur := rfl
@[simp] theorem setUnit_agenda (s : State) (c u : Nat) (x : Unit) : (setUnit s c u x).agenda = s.agenda := rfl
@[simp] theorem setUnit_tick (s : State) (c u : Nat) (x : Unit) : (setUnit s c u x).tick = s.tick := rfl
@[simp] theorem setUnit_free (s : State) (c u : Nat) (x : Unit) : (setUnit s c u x).free = s.free := rfl

/-! ### Registers -/

@[simp] theorem nreg_setN (g : Group) (i l j k : Nat) (v : Word) :
    (g.setN i l v).nreg j k = if i * 64 + l = j * 64 + k then v else g.nreg j k := mget_mput _ _ _ _ _
@[simp] theorem qval_setQ (g : Group) (i l j k : Nat) (v : Word) :
    (g.setQ i l v).qval j k = if i * 64 + l = j * 64 + k then v else g.qval j k := mget_mput _ _ _ _ _
@[simp] theorem qlive_setLive (g : Group) (i j : Nat) (v : Mask) :
    (g.setLive i v).qlive j = if i = j then v else g.qlive j := mget_mput _ _ _ _ _
@[simp] theorem kreg_setK (g : Group) (i j : Nat) (v : DWord) :
    (g.setK i v).kreg j = if i = j then v else g.kreg j := mget_mput _ _ _ _ _
@[simp] theorem guard_setGuard (g : Group) (i j : Nat) (v : GState) :
    (g.setGuard i v).guard j = if i = j then v else g.guard j := mget_mput _ _ _ _ _

/-! ### Cores and groups -/

@[simp] theorem getCore_setCore (s : State) (c c' : Nat) (k : Core) :
    getCore (setCore s c k) c' = if c = c' then k else getCore s c' := mget_mput _ _ _ _ _

@[simp] theorem getGroup_setGroup (s : State) (c gs c' gs' : Nat) (g : Group) :
    getGroup (setGroup s c gs g) c' gs' = if c = c' ∧ gs = gs' then some g else getGroup s c' gs' := by
  unfold getGroup setGroup
  simp only [getCore_setCore]
  by_cases h : c = c'
  · subst h; simp only [if_true, mfind_mset, true_and]
  · simp [h]

theorem setCore_setCore (s : State) (c : Nat) (j k : Core) (hj : j ≠ {}) (hk : k ≠ {}) :
    setCore (setCore s c j) c k = setCore s c k := by
  simp [setCore, mput, hj, hk, mset_mset]

theorem withGroups_ne (k : Core) (gs : Nat) (g : Group) :
    ({ k with groups := mset k.groups gs g } : Core) ≠ {} := by
  intro h
  have : mfind (mset k.groups gs g) gs = none := by
    have := congrArg Core.groups h
    simp only at this
    rw [this]; rfl
  simp at this

/-- The later of two writes of one group stands. -/
@[simp] theorem setGroup_setGroup (s : State) (c gs : Nat) (g g' : Group) :
    setGroup (setGroup s c gs g) c gs g' = setGroup s c gs g' := by
  simp only [setGroup, getCore_setCore, if_true, mset_mset]
  exact setCore_setCore _ _ _ _ (withGroups_ne _ _ _) (withGroups_ne _ _ _)

theorem modGroup_some {s : State} {c gs : Nat} {g : Group} (h : getGroup s c gs = some g) (f : Group → Group) :
    modGroup s c gs f = setGroup s c gs (f g) := by simp [modGroup, h]

end Sys2Proof.Machine
end

