-- ==== Sys2Proof/Laws/Issue.lean ====
section
/-! SUPPORT. What an issue does, said once: the checks of R98 (`issue_runs`), the scheduler events after it (`settle_spec`,
`settle_plain`), a written destination (`writeDst_holds`), and a lane instruction as a whole (`laneOp_spec`). -/

namespace Sys2Proof.Machine

/-! ### Writes at home leave every group as it is -/

/-- No group differs. -/
def SameGroups (s t : State) : Prop := ∀ c gs, getGroup t c gs = getGroup s c gs

theorem SameGroups.rfl' (s : State) : SameGroups s s := fun _ _ => rfl
theorem SameGroups.trans {s t u : State} (h : SameGroups s t) (k : SameGroups t u) : SameGroups s u :=
  fun c gs => (k c gs).trans (h c gs)

theorem sameGroups_of_cores {s t : State} (h : t.cores = s.cores) : SameGroups s t := by
  intro c gs; simp [getGroup, getCore, h]

theorem sameGroups_setCore (s : State) (c : Nat) (k : Core) (h : k.groups = (getCore s c).groups) :
    SameGroups s (setCore s c k) := by
  intro c' gs
  simp only [getGroup, getCore_setCore]
  split
  · subst_vars; rw [h]
  · rfl

theorem sameGroups_foldl {α : Type} (f : State → α → State) (h : ∀ s a, SameGroups s (f s a)) (l : List α) (s : State) :
    SameGroups s (l.foldl f s) := by
  induction l generalizing s with
  | nil => exact .rfl' s
  | cons a l ih => exact (h s a).trans (ih (f s a))

theorem pubEvict_cores (s : State) (w : Nat) : (pubEvict s w).cores = s.cores := by
  unfold pubEvict; split <;> rfl

theorem iter_cores (f : State → State) (h : ∀ s, (f s).cores = s.cores) (n : Nat) (s : State) :
    (iter f n s).cores = s.cores := by
  induction n generalizing s with
  | zero => rfl
  | succ n ih => exact (ih (f s)).trans (h s)

theorem pubRoom_cores (s : State) (w : Nat) : (pubRoom s w).cores = s.cores := by
  unfold pubRoom
  refine iter_cores _ (fun s => ?_) _ s
  split
  · exact pubEvict_cores s w
  · rfl

theorem devWrite_cores (s : State) (a : Nat) (bs : List Byte) : (devWrite s a bs).cores = s.cores := by
  unfold devWrite devWrites; split <;> rfl

theorem homeWrite_cores (s : State) (ctx : Nat) (t : Tgt) (a : Nat) (bs : List Byte) :
    (homeWrite s ctx t a bs).cores = s.cores := by
  cases t <;> simp [homeWrite, setGran, devWrite_cores, pubRoom_cores]

theorem sameGroups_pushResp (s : State) (c : Nat) (r : Resp) : SameGroups s (pushResp s c r) := sameGroups_setCore _ _ _ rfl

theorem sameGroups_sendDemote (s : State) (w : Option Nat) (a : Nat) : SameGroups s (sendDemote s w a).1 := by
  unfold sendDemote
  split
  · split
    · exact .rfl' s
    · exact (sameGroups_of_cores (t := { s with demId := s.demId + 1 }) rfl).trans (sameGroups_pushResp _ _ _)
  · exact .rfl' s

theorem sameGroups_engWrite (s : State) (who : Option Nat) (eng ctx : Nat) (t : Tgt) (a : Nat) (bs : List Byte) :
    SameGroups s (engWrite s who eng ctx t a bs) := by
  cases t with
  | dev =>
    have k : SameGroups s (setGran (homeWrite (sendDemote (pinHit s a) who a).1 ctx .dev a bs) a
        { granOf (homeWrite (sendDemote (pinHit s a) who a).1 ctx .dev a bs) a with owner := who }) :=
      ((sameGroups_of_cores (t := pinHit s a) rfl).trans (sameGroups_sendDemote _ _ _)).trans
        (sameGroups_of_cores (homeWrite_cores _ ctx .dev a bs))
    cases who with
    | some c => exact k.trans (sameGroups_pushResp _ _ _)
    | none => exact k
  | _ => exact sameGroups_of_cores (homeWrite_cores s ctx _ a bs)

theorem pinHits_cores (l : List Nat) (s : State) : (l.foldl pinHit s).cores = s.cores := by
  induction l generalizing s with
  | nil => rfl
  | cons a l ih => exact (ih (pinHit s a)).trans rfl

/-- The hits of a walk change the fade counters alone. -/
theorem walkHit_cores (s : State) (ctx va : Nat) : (walkHit s ctx va).cores = s.cores := by
  unfold walkHit
  split
  · rfl
  · exact pinHits_cores _ _

theorem walkHits_cores (ctx : Nat) (l : List Nat) (s : State) : (l.foldl (fun s va => walkHit s ctx va) s).cores = s.cores := by
  induction l generalizing s with
  | nil => rfl
  | cons a l ih => exact (ih _).trans (walkHit_cores s ctx a)

theorem issueHits_cores (c : Cx) (s : State) : (issueHits c s).cores = s.cores := by
  unfold issueHits
  split
  · rfl
  · split
    · rfl
    · exact walkHits_cores _ _ _

theorem sameGroups_ctxWrite (s : State) (core ctx va : Nat) (bs : List Byte) :
    SameGroups s (ctxWrite s core ctx va bs) := by
  unfold ctxWrite
  refine sameGroups_foldl _ (fun s p => ?_) _ s
  split
  · exact (sameGroups_of_cores (walkHit_cores _ _ _)).trans (sameGroups_engWrite _ _ _ _ _ _ _)
  · exact .rfl' s

/-! ### Only the control position of a group changes -/

/-- `g'` is `g` but for the places of its paths, the divergence stack and the history. -/
def Ctl (g g' : Group) : Prop :=
  g' = { g with pathA := g'.pathA, pathB := g'.pathB, stack := g'.stack, deep := g'.deep,
                waitCtr := g'.waitCtr, hist := g'.hist, hsp := g'.hsp, ptrace := g'.ptrace, ptraceIc := g'.ptraceIc }

theorem Ctl.refl (g : Group) : Ctl g g := rfl
theorem Ctl.trans {g h k : Group} (a : Ctl g h) (b : Ctl h k) : Ctl g k := by
  unfold Ctl at *; rw [b, a]

theorem histPieces_ctl (n : Nat) (g : Group) (ic : BitVec 48) (kind : Nat) (cont : Bool) (ws : List DWord) :
    Ctl g (histPieces g ic kind n cont ws) ∧ (histPieces g ic kind n cont ws).pathA = g.pathA
      ∧ (histPieces g ic kind n cont ws).pathB = g.pathB := by
  induction n generalizing g cont ws with
  | zero => exact ⟨.refl g, rfl, rfl⟩
  | succ n ih =>
    simp only [histPieces]
    split
    · exact ⟨rfl, rfl, rfl⟩
    · obtain ⟨a, b, c⟩ := ih _ true (ws.drop 128)
      refine ⟨Ctl.trans ?_ a, b, c⟩
      rfl

theorem histPush_ctl (g : Group) (ic : BitVec 48) (kind : Nat) (ws : List DWord) : Ctl g (histPush g ic kind ws) :=
  (histPieces_ctl _ _ _ _ _ _).1

theorem histPieces_stack (n : Nat) (g : Group) (ic : BitVec 48) (kind : Nat) (cont : Bool) (ws : List DWord) :
    (histPieces g ic kind n cont ws).stack = g.stack := by
  induction n generalizing g cont ws with
  | zero => rfl
  | succ n ih =>
    simp only [histPieces]
    split
    · rfl
    · exact ih _ true (ws.drop 128)

theorem histPush_stack (g : Group) (ic : BitVec 48) (kind : Nat) (ws : List DWord) :
    (histPush g ic kind ws).stack = g.stack := histPieces_stack _ _ _ _ _ _

theorem flushTrace_stack (g : Group) : (flushTrace g).stack = g.stack := by
  unfold flushTrace
  split
  · rfl
  · exact histPush_stack g _ _ _

theorem ctl_ptrace {g h : Group} (k : Ctl g h) (l : List Slot) : Ctl g { h with ptrace := l } :=
  k.trans (show Ctl h { h with ptrace := l } from rfl)

theorem ctl_stack {g h : Group} (k : Ctl g h) (l : List StackEntry) : Ctl g { h with stack := l } :=
  k.trans (show Ctl h { h with stack := l } from rfl)

theorem ctl_hist {g h : Group} (k : Ctl g h) (l : List DWord) : Ctl g { h with hist := l } :=
  k.trans (show Ctl h { h with hist := l } from rfl)

theorem flushTrace_ctl (g : Group) : Ctl g (flushTrace g) := by
  unfold flushTrace
  split
  · exact .refl g
  · exact ctl_ptrace (histPush_ctl g _ _ _) []

theorem setPath_ctl (g : Group) (sl : Slot) (p : Option Path) : Ctl g (g.setPath sl p) := by cases sl <;> rfl

theorem Ctl.recording {g g' : Group} (h : Ctl g g') : g'.recording = g.recording := by
  unfold Ctl at h; rw [h]; rfl

theorem setPath_hist (g : Group) (sl : Slot) (p : Option Path) : (g.setPath sl p).hist = g.hist := by cases sl <;> rfl

/-! ### The scheduler events (R33) -/

/-- What scheduler events make of the group `g`: only its control position changes, and while it records nothing its history stays
and its divergence stack does not outgrow the core. -/
def Moves (g g' : Group) : Prop :=
  Ctl g g' ∧ (g.recording = false → g'.hist = g.hist ∧ (g.stack.length ≤ 4 → g'.stack.length ≤ 4))

theorem Moves.refl (g : Group) : Moves g g := ⟨.refl g, fun _ => ⟨rfl, id⟩⟩

theorem Moves.trans {g h k : Group} (a : Moves g h) (b : Moves h k) : Moves g k := by
  refine ⟨a.1.trans b.1, fun r => ?_⟩
  obtain ⟨a1, a2⟩ := a.2 r
  obtain ⟨b1, b2⟩ := b.2 (a.1.recording.trans r)
  exact ⟨b1.trans a1, b2 ∘ a2⟩

/-- A move that ends with a new divergence stack. -/
theorem Moves.stack {g h : Group} (a : Ctl g h) (b : g.recording = false → h.hist = g.hist) (st : List StackEntry)
    (l : st.length ≤ g.stack.length) : Moves g { h with stack := st } :=
  ⟨ctl_stack a st, fun r => ⟨b r, fun k => Nat.le_trans l k⟩⟩

theorem beginWaits_moves (s : State) (core : Nat) (g : Group) : Moves g (beginWaits s core g) := by
  unfold beginWaits
  simp only [List.foldl_cons, List.foldl_nil]
  have one : ∀ (g0 g : Group) (sl : Slot), Moves g0 g → Moves g0 (match g.path sl with
      | some p => if joinDue s core g p then
          { g.setPath sl (some { p with wait := true, since := g.waitCtr }) with waitCtr := g.waitCtr + 1 } else g
      | none => g) := by
    intro g0 g sl h
    split
    · split
      · refine h.trans ⟨?_, fun _ => ⟨?_, ?_⟩⟩ <;> cases sl
        all_goals first | rfl | exact id
      · exact h
    · exact h
  exact one g _ .b (one g g .a (.refl g))

theorem placeRec_ctl (g : Group) (w : DWord) : Ctl g (placeRec g w) ∧ (g.recording = false → placeRec g w = g) := by
  unfold placeRec
  refine ⟨?_, fun h => by simp [h]⟩
  split
  · exact (flushTrace_ctl g).trans (histPush_ctl _ _ _ _)
  · exact .refl g

theorem joinRec_ctl (g : Group) (q : Path) : Ctl g (joinRec g q) ∧ (g.recording = false → joinRec g q = g) := by
  unfold joinRec
  refine ⟨?_, fun h => by simp [h]⟩
  split
  · exact histPush_ctl _ _ _ _
  · exact .refl g

/-- The records of a merge. -/
theorem mergeRecs (g : Group) (w : DWord) (q : Path) :
    Ctl g (joinRec (placeRec g w) q) ∧ (g.recording = false → (joinRec (placeRec g w) q).hist = g.hist) := by
  obtain ⟨a, b⟩ := placeRec_ctl g w
  obtain ⟨a', b'⟩ := joinRec_ctl (placeRec g w) q
  exact ⟨a.trans a', fun r => by rw [b' (a.recording.trans r), b r]⟩

theorem firstSome_spec {α β : Type} {f : α → Option β} {l : List α} {b : β} (h : firstSome f l = some b) :
    ∃ a, a ∈ l ∧ f a = some b := by
  induction l with
  | nil => cases h
  | cons a l ih =>
    simp only [firstSome] at h
    cases hf : f a with
    | some x => rw [hf] at h; exact ⟨a, by simp, by rw [hf]; exact h⟩
    | none => rw [hf] at h; obtain ⟨y, hy, hb⟩ := ih h; exact ⟨y, by simp [hy], hb⟩

theorem zipIdx_lt {α : Type} (l : List α) (k : Nat) (x : α × Nat) (h : x ∈ l.zipIdx k) : x.2 < k + l.length := by
  induction l generalizing k with
  | nil => simp at h
  | cons a l ih =>
    rw [List.zipIdx_cons] at h
    rcases List.mem_cons.1 h with rfl | h
    · simp
    · have := ih (k + 1) h; simp only [List.length_cons]; omega

theorem dropAt_length {α : Type} (l : List α) (n : Nat) : (dropAt l n).length ≤ l.length := by
  induction l generalizing n with
  | nil => simp [dropAt]
  | cons a l ih => cases n <;> simp [dropAt]; exact ih _

theorem dropAt_lt {α : Type} (l : List α) (n : Nat) (h : n < l.length) : (dropAt l n).length + 1 = l.length := by
  induction l generalizing n with
  | nil => simp at h
  | cons a l ih =>
    cases n with
    | zero => simp [dropAt]
    | succ n => simp only [dropAt, List.length_cons]; rw [ih n (by simpa using h)]

theorem setAt_length {α : Type} (l : List α) (n : Nat) (a : α) : (setAt l n a).length = l.length := by
  induction l generalizing n with
  | nil => cases n <;> rfl
  | cons b l ih => cases n <;> simp [setAt, ih]

theorem topReady_lt {st : List StackEntry} {pos : Nat} {p : Path} (h : topReady st = some (pos, p)) : pos < st.length := by
  unfold topReady at h
  obtain ⟨x, hx, h⟩ := firstSome_spec h
  have := zipIdx_lt st 0 x (by simpa using hx)
  split at h
  · split at h
    · cases h
    · cases h; omega
  · cases h

/-- A place taken by a parked path, with another parked in its stead or not. -/
theorem place_moves (g : Group) (w : DWord) (sl : Slot) (q : Path) (st : List StackEntry)
    (l : st.length ≤ g.stack.length) : Moves g { (placeRec g w).setPath sl (some q) with stack := st } := by
  obtain ⟨a, b⟩ := placeRec_ctl g w
  exact .stack (a.trans (setPath_ctl _ _ _)) (fun r => by rw [setPath_hist, b r]) st l

theorem swap_length (st : List StackEntry) (pos : Nat) (e : StackEntry) (h : pos < st.length) :
    (dropAt st pos ++ [e]).length ≤ st.length := by
  have := dropAt_lt st pos h
  simp only [List.length_append, List.length_cons, List.length_nil]; omega

theorem exchangeOnce_moves {g g' : Group} (h : exchangeOnce g = some g') : Moves g g' := by
  obtain ⟨sl, -, h⟩ := firstSome_spec h
  split at h
  · rename_i ht
    split at h
    · simp only [Option.some.injEq] at h
      subst h
      exact place_moves _ _ _ _ _ (swap_length _ _ _ (topReady_lt ht))
    · cases h
  · cases h

theorem mergeParked_moves {g g' : Group} {sl : Slot} {p : Path} {ser : BitVec 16} {fpos : Nat} {fmask : Mask}
    {par : Option (BitVec 16)} (h : mergeParked g sl p ser fpos fmask par = some g') : Moves g g' := by
  unfold mergeParked at h
  split at h
  · simp only [Option.some.injEq] at h
    subst h
    obtain ⟨a, b⟩ := mergeRecs g (placeWord 3 sl true _ fpos ser.toNat) _
    refine .stack (a.trans (setPath_ctl _ _ _)) (fun r => by rw [setPath_hist, b r]) _ ?_
    split <;> exact Nat.le_trans (dropAt_length _ _) (dropAt_length _ _)
  · split at h
    · simp only [Option.some.injEq] at h
      subst h
      exact .stack (setPath_ctl _ _ _) (fun _ => setPath_hist _ _ _) _ (dropAt_length _ _)
    · cases h

theorem mergeOnce_moves {g g' : Group} (h : mergeOnce g = some g') : Moves g g' := by
  unfold mergeOnce at h
  obtain ⟨sl, -, h⟩ := firstSome_spec h
  cases hp : g.path sl with
  | none => rw [hp] at h; cases h
  | some p =>
    rw [hp] at h
    simp only at h
    split at h
    · cases h
    · split at h
      · cases h
      · split at h
        · cases h
        · split at h
          · split at h
            · simp only [Option.some.injEq] at h
              subst h
              obtain ⟨a, b⟩ := mergeRecs g _ _
              exact ⟨a.trans rfl, fun r => ⟨b r, fun k => Nat.le_trans (dropAt_length _ _) k⟩⟩
            · exact mergeParked_moves h
          · exact mergeParked_moves h

theorem aloneOnce_moves {g g' : Group} (h : aloneOnce g = some g') : Moves g g' := by
  unfold aloneOnce at h
  obtain ⟨x, -, h⟩ := firstSome_spec h
  split at h
  · split at h
    · cases h
    · split at h
      · cases h
      · split at h
        · split at h
          · simp only [Option.some.injEq] at h
            subst h
            exact .stack (.refl g) (fun _ => rfl) _
              (Nat.le_trans (dropAt_length _ _) (Nat.le_of_eq (setAt_length _ _ _)))
          · cases h
        · cases h
  · cases h

theorem reloadOnce_moves {g g' : Group} (h : reloadOnce g = some g') : Moves g g' := by
  unfold reloadOnce at h
  cases ht : topReady g.stack with
  | none => rw [ht] at h; cases h
  | some x =>
    obtain ⟨pos, p⟩ := x
    rw [ht] at h
    simp only at h
    split at h
    · simp only [Option.some.injEq] at h
      subst h
      exact place_moves _ _ _ _ _ (dropAt_length _ _)
    · split at h
      · rw [Option.map_eq_some_iff] at h
        obtain ⟨w, -, h⟩ := h
        subst h
        exact place_moves _ _ _ _ _ (swap_length _ _ _ (topReady_lt ht))
      · cases h

/-- Whatever scheduler event is due, it moves the group. -/
theorem eventOnce_moves {s : State} {c : Nat} {g g' : Group} (h : eventOnce s c g = some g') : Moves g g' := by
  unfold eventOnce at h
  split at h
  · cases h
  · split at h
    · simp only [Option.some.injEq] at h
      subst h
      exact beginWaits_moves s c g
    · obtain ⟨x, hx, h⟩ := firstSome_spec h
      subst h
      simp only [List.mem_cons, List.not_mem_nil, or_false] at hx
      rcases hx with h | h | h | h
      · exact exchangeOnce_moves h.symm
      · exact mergeOnce_moves h.symm
      · exact aloneOnce_moves h.symm
      · exact reloadOnce_moves h.symm

theorem settleAux_moves (n : Nat) (s : State) (c gs : Nat) (g : Group) :
    ∃ g', settleAux n (setGroup s c gs g) c gs = setGroup s c gs g' ∧ Moves g g' := by
  induction n generalizing g with
  | zero => exact ⟨g, rfl, .refl g⟩
  | succ n ih =>
    unfold settleAux
    rw [getGroup_setGroup]
    simp only [and_self, if_true]
    split
    · rename_i g1 h1
      split
      · obtain ⟨g', e, m⟩ := ih g1
        rw [setGroup_setGroup]
        exact ⟨g', e, (eventOnce_moves h1).trans m⟩
      · exact ⟨g, rfl, .refl g⟩
    · exact ⟨g, rfl, .refl g⟩

/-! ### What the core writes back (R35, R119) -/

/-- A write-back changes of the group only what the core still holds of its divergence stack and its history; there is none while
both lie on the core. -/
theorem backOnce_spec (s : State) (c gs : Nat) (g : Group) :
    (∀ s', backOnce s c gs g = .done s' → ∃ g', getGroup s' c gs = some g' ∧ Ctl g g')
      ∧ (g.stack.length ≤ 4 → g.hist.length ≤ 256 → backOnce s c gs g = .none) := by
  have bw : ∀ (ctx a n : Nat) (act s' : State), backWrite s c ctx a n act = .done s' → s' = act := by
    intro ctx a n act s' h
    unfold backWrite at h
    split at h
    · cases h
    · split at h
      · cases h
      · cases h; rfl
  refine ⟨fun s' h => ?_, fun h1 h2 => ?_⟩
  · unfold backOnce at h
    split at h
    · rename_i e x _
      simp only at h
      rw [bw _ _ _ _ _ h]
      refine ⟨{ g with deep := if e < g.deep.length then setAt g.deep e x else g.deep ++ [x] }, ?_, rfl⟩
      rw [sameGroups_ctxWrite _ _ _ _ _ c gs]; simp
    · split at h
      · cases h
      · rw [bw _ _ _ _ _ h]
        refine ⟨{ g with hist := g.hist.take 256 }, ?_, rfl⟩
        unfold spillWords
        rw [sameGroups_foldl _ (fun s a => sameGroups_ctxWrite _ _ _ _ _) _ _ c gs]; simp
  · unfold backOnce deepDue
    rw [show g.stack.length - 4 = 0 by omega]
    simp [firstSome, h2]

theorem backAux_spec (n : Nat) (s : State) (c gs : Nat) (g : Group) (hg : getGroup s c gs = some g) :
    (∃ g', getGroup (backAux n s c gs) c gs = some g' ∧ Ctl g g')
      ∧ (g.stack.length ≤ 4 → g.hist.length ≤ 256 → backAux n s c gs = s) := by
  induction n generalizing s g with
  | zero => exact ⟨⟨g, hg, .refl g⟩, fun _ _ => rfl⟩
  | succ n ih =>
    unfold backAux
    rw [hg]
    simp only
    obtain ⟨b1, b2⟩ := backOnce_spec s c gs g
    refine ⟨?_, fun h1 h2 => by rw [b2 h1 h2]⟩
    split
    · rename_i s' h
      obtain ⟨g1, h1, k⟩ := b1 s' h
      obtain ⟨⟨g', h2, k'⟩, -⟩ := ih s' g1 h1
      exact ⟨g', h2, k.trans k'⟩
    · exact ⟨g, hg, .refl g⟩

/-- The scheduler events after an issue, and the write-back of deep stack entries and old history words: the group's control position
alone changes, and while REC is 0 and the group's stack and history lie on the core, nothing else of the machine. -/
theorem settle_spec (s : State) (c gs : Nat) (g : Group) :
    ∃ g', getGroup (settle (setGroup s c gs g) c gs) c gs = some g' ∧ Ctl g g' ∧
      (g.recording = false → g.stack.length ≤ 4 → g.hist.length ≤ 256 →
        settle (setGroup s c gs g) c gs = setGroup s c gs g') := by
  obtain ⟨x, e, m1, m2⟩ := settleAux_moves 260 s c gs g
  obtain ⟨⟨g', h1, h2⟩, h3⟩ := backAux_spec 130 (setGroup s c gs x) c gs x (by simp)
  unfold settle
  rw [e]
  refine ⟨g', h1, m1.trans h2, fun r l k => ?_⟩
  obtain ⟨p1, p2⟩ := m2 r
  have q := h3 (p2 l) (by rw [p1]; exact k)
  rw [q] at h1 ⊢
  simp only [getGroup_setGroup, and_self, if_true, Option.some.injEq] at h1
  rw [h1]

/-! ### The end of an issue -/

theorem traceIssue_spec (c : Cx) (k : Group) :
    Ctl k (traceIssue c k) ∧ (traceIssue c k).stack = k.stack ∧ (c.g.recording = false → traceIssue c k = k) := by
  unfold traceIssue
  cases hr : c.g.recording with
  | false => exact ⟨.refl k, rfl, fun _ => rfl⟩
  | true =>
    have add : ∃ h, h = (if k.both = true then { k with ptrace := k.ptrace ++ [c.slot], ptraceIc := c.ic } else k)
        ∧ Ctl k h ∧ h.stack = k.stack := by
      refine ⟨_, rfl, ?_, ?_⟩ <;> split <;> rfl
    obtain ⟨h, e, h1, h2⟩ := add
    simp only [Bool.not_true, Bool.false_eq_true, if_false]
    rw [← e]
    refine ⟨?_, ?_, fun h => by cases h⟩
    · split
      · exact h1.trans (flushTrace_ctl h)
      · exact h1
    · split
      · rw [flushTrace_stack, h2]
      · exact h2

/-- The end of an issue as it stands before the scheduler events: `ic` and `last` are set, and the
rest of what changes is the control position. -/
theorem finishG_spec (s : State) (c : Cx) (next : Next) (hz : Bool) (g : Group) :
    (∃ h, Ctl g h ∧ finishG s c next hz g =
        { h with ic := if c.g.counting then c.g.ic + 1 else g.ic, last := c.slot }
      ∧ (c.g.recording = false → h.hist = g.hist ∧ h.stack = g.stack)) := by
  have arrive : ∀ (g : Group) (ic : BitVec 48) (recd : Bool) (p : Path) (src : DWord),
      Ctl g (arriveCf s c.core g ic recd p src).1 ∧ (arriveCf s c.core g ic recd p src).1.stack = g.stack ∧
        (recd = false → (arriveCf s c.core g ic recd p src).1 = g) := by
    intro g ic recd p src
    unfold arriveCf
    split
    · split
      · cases recd
        · exact ⟨.refl g, rfl, fun _ => rfl⟩
        · exact ⟨histPush_ctl g ic kCF [p.cf], histPush_stack g ic kCF [p.cf], fun h => by cases h⟩
      · exact ⟨.refl g, rfl, fun _ => rfl⟩
    · exact ⟨.refl g, rfl, fun _ => rfl⟩
  have mv : ∀ (t : II) (src : DWord), let h := (match g.path c.slot with
      | some p =>
        let (g, p) := arriveCf s c.core g c.ic c.g.recording (p.moved t) src
        g.setPath c.slot (some p)
      | none => g)
      Ctl g h ∧ h.stack = g.stack ∧ (c.g.recording = false → h.hist = g.hist) := by
    intro t src
    cases g.path c.slot with
    | none => exact ⟨.refl g, rfl, fun _ => rfl⟩
    | some p =>
      obtain ⟨a, b, d⟩ := arrive g c.ic c.g.recording (p.moved t) src
      refine ⟨a.trans (setPath_ctl _ _ _), ?_, fun r => ?_⟩
      · simp only [Group.setPath_stack]; exact b
      · simp only [Group.setPath_hist]; rw [d r]
  have hn : ∃ h, Ctl g h ∧ h.stack = g.stack ∧ (c.g.recording = false → h.hist = g.hist) ∧
      h = (match next with
        | .fall => (match g.path c.slot with
          | some p =>
            let (g, p) := arriveCf s c.core g c.ic c.g.recording (p.moved (c.p.ii + 1)) fallthru
            g.setPath c.slot (some p)
          | none => g)
        | .jump t => (match g.path c.slot with
          | some p =>
            let (g, p) := arriveCf s c.core g c.ic c.g.recording (p.moved t) (dw c.p.ii.toNat)
            g.setPath c.slot (some p)
          | none => g)
        | .placed => g) := by
    cases next with
    | fall => obtain ⟨a, b, d⟩ := mv (c.p.ii + 1) fallthru; exact ⟨_, a, b, d, rfl⟩
    | jump t => obtain ⟨a, b, d⟩ := mv t (dw c.p.ii.toNat); exact ⟨_, a, b, d, rfl⟩
    | placed => exact ⟨g, .refl g, rfl, fun _ => rfl, rfl⟩
  obtain ⟨h, h1, h2, h3, h4⟩ := hn
  have hp : ∃ k, Ctl h k ∧ k.stack = h.stack ∧ (c.g.recording = false → k = h) ∧
      k = (if hz && c.g.recording then histPush h c.ic kHORIZON [] else h) := by
    refine ⟨_, ?_, ?_, ?_, rfl⟩
    · split
      · exact histPush_ctl _ _ _ _
      · exact .refl h
    · split
      · exact histPush_stack _ _ _ _
      · rfl
    · intro r; simp [r]
  obtain ⟨k, k1, k2, k3, k4⟩ := hp
  have ht := traceIssue_spec c k
  obtain ⟨t1, t2, t3⟩ := ht
  have hc : Ctl g (traceIssue c k) := (h1.trans k1).trans t1
  refine ⟨traceIssue c k, hc, ?_, fun r => ⟨?_, ?_⟩⟩
  · have hic : (traceIssue c k).ic = g.ic := by
      have e := hc
      unfold Ctl at e
      have k := congrArg Group.ic e
      exact k
    have e : finishG s c next hz g = (let x := if c.g.counting then { traceIssue c k with ic := c.ic + 1 } else traceIssue c k
        { x with last := c.slot }) := by
      subst k4
      subst h4
      cases next <;> rfl
    rw [e]
    simp only
    split
    · rfl
    · rw [← hic]
  · rw [t3 r, k3 r, h3 r]
  · rw [t2, k2, h2]

/-- Evaluated heads and the shares of subqueues change nothing else of a group. -/
theorem syncQueues_group {s : State} {c gs : Nat} {g : Group} (h : getGroup s c gs = some g) :
    ∃ g1, getGroup (syncQueues s c gs) c gs = some g1
      ∧ g1 = { g with e0 := g1.e0, e2 := g1.e2, e4 := g1.e4, tmx := g1.tmx, tcp := g1.tcp, tvd := g1.tvd } := by
  unfold syncQueues
  rw [modGroup_some h]
  exact ⟨_, by simp; rfl, rfl⟩

/-- The group after its pushes took effect at the heads of its subqueues. -/
theorem pushed_group {s : State} {c : Cx} {g : Group} (h : getGroup s c.core c.gslot = some g) :
    ∃ g1, getGroup (pushed c s) c.core c.gslot = some g1
      ∧ g1 = { g with e0 := g1.e0, e2 := g1.e2, e4 := g1.e4, tmx := g1.tmx, tcp := g1.tcp, tvd := g1.tvd } := by
  unfold pushed
  split
  · exact syncQueues_group h
  · exact ⟨g, h, rfl⟩

/-- An issue ends: `Completes`, from the state that its effect gave. -/
theorem finish_completes {s : State} {c : Cx} {g : Group} (hg : getGroup s c.core c.gslot = some g) (next : Next)
    (hz : Bool) (hr : c.g.recording = g.recording) (hs : c.g.stack.length ≤ 4 → g.stack.length ≤ 4)
    (hh : c.g.recording = false → c.g.hist.length ≤ 256 → g.hist.length ≤ 256) :
    Completes c (finish c next hz s) s := by
  obtain ⟨k, k1, k2⟩ := pushed_group hg
  obtain ⟨h, h1, h2, h3⟩ := finishG_spec s c next hz k
  have k0 : getGroup (issueHits c (pushed c s)) c.core c.gslot = some k :=
    (sameGroups_of_cores (issueHits_cores c (pushed c s)) c.core c.gslot).trans k1
  have hm : modGroup (issueHits c (pushed c s)) c.core c.gslot (finishG s c next hz)
      = setGroup (issueHits c (pushed c s)) c.core c.gslot (finishG s c next hz k) := modGroup_some k0 _
  obtain ⟨g', a, b, d⟩ := settle_spec (issueHits c (pushed c s)) c.core c.gslot (finishG s c next hz k)
  have kr : k.recording = g.recording := by rw [k2]; rfl
  have ks : k.stack = g.stack := by rw [k2]
  have kh : k.hist = g.hist := by rw [k2]
  refine ⟨_, k, g', rfl, k1, by rw [hm]; exact a, ?_, ?_⟩
  · unfold Ctl at b h1
    rw [b, h2, h1]
  · rintro ⟨p1, p2, p3⟩
    obtain ⟨q1, q2⟩ := h3 p1
    rw [hm]
    refine d ?_ ?_ ?_
    · rw [h2]
      have : h.recording = k.recording := Ctl.recording h1
      exact this.trans (kr.trans (hr.symm.trans p1))
    · rw [h2]; simp only; rw [q2, ks]; exact hs p2
    · rw [h2]; simp only; rw [q1, kh]; exact hh p1 p3

/-- An issue whose checks pass runs its body. -/
theorem issue_runs {s : State} {c : Cx} {gd : Guard} {pre : Cx → Pre} {body : Cx → State → Out}
    (h : Clears s c gd (pre c)) : issue s gd pre body = body c s := by
  obtain ⟨h1, h2, h3, h4, h5, h6, h7, h8, h9, h10, h11, h12, h13, h14, h15, h16, h17⟩ := h
  have go : issueGo s c (pre c) body = body c s := by
    have hf : histFull c (histNeed s c (pre c)) = none ∧ spillFault s c (histNeed s c (pre c)) = none := by
      unfold histFault at h13
      split at h13
      · cases h13
      · exact ⟨‹_›, h13⟩
    unfold issueGo spillTrap
    rw [if_neg, if_neg (by rw [h11]; simp), if_neg (by rw [h12]; simp)]
    · simp only [hf.1, hf.2, h14, h15, h16, Bool.false_eq_true, if_false]
      rw [if_neg]
      intro k
      rw [Bool.and_eq_true, decide_eq_true_iff] at k
      have := h17 k.1
      omega
    · intro k
      simp only [Bool.and_eq_true, Bool.not_eq_true'] at k
      rw [h10 k.1.1 k.1.2] at k
      simp at k
  have ill : ((pre c).illegal || (usePops (pre c).srcs).contains 5 && !feature s 3) = false := by
    cases e : (usePops (pre c).srcs).contains 5 with
    | false => simp [h4]
    | true => simp [h4, h5 e]
  unfold issue
  rw [h1]
  simp only [h2, h3, ill, h6, h7, h9, Bool.not_true, Bool.or_false, Bool.false_eq_true, if_false]
  cases gd with
  | none => exact go
  | some gs =>
    rcases h8 gs rfl with k | ⟨k, l⟩
    · simp only [k]; exact go
    · simp only [if_neg l, k, if_true, go]
      split <;> rfl

end Sys2Proof.Machine
end

