-- ==== Sys2Proof/Laws/Memory.lean ====
section
/-! SUPPORT. Every shared operation that writes memory keeps the memories in canonical form (`MemKeep`), and the operations on
groups and cores leave them as they are (`SameMems`). -/

namespace Sys2Proof.Machine

/-- The memories do not differ. -/
def SameMems (s t : State) : Prop := t.mem = s.mem ∧ t.host = s.host ∧ t.peers = s.peers

/-- The canonical form is kept. -/
def MemKeep (s t : State) : Prop := MemoriesOk s → MemoriesOk t

theorem MemKeep.rfl' (s : State) : MemKeep s s := id
theorem MemKeep.trans {s t u : State} (h : MemKeep s t) (k : MemKeep t u) : MemKeep s u := k ∘ h

theorem SameMems.keep {s t : State} (h : SameMems s t) : MemKeep s t := by
  obtain ⟨a, b, c⟩ := h
  intro ⟨x, y, z⟩
  exact ⟨a ▸ x, b ▸ y, c ▸ z⟩

theorem MemKeep.foldl {α : Type} {f : State → α → State} (h : ∀ s a, MemKeep s (f s a)) (l : List α) (s : State) :
    MemKeep s (l.foldl f s) := by
  induction l generalizing s with
  | nil => exact .rfl' s
  | cons a l ih => exact (h s a).trans (ih (f s a))

theorem MemKeep.iter {f : State → State} (h : ∀ s, MemKeep s (f s)) (n : Nat) (s : State) :
    MemKeep s (iter f n s) := by
  induction n generalizing s with
  | zero => exact .rfl' s
  | succ n ih => exact (h s).trans (ih (f s))

/-! ### Groups, cores and registers -/

theorem sameMems_setCore (s : State) (c : Nat) (k : Core) : SameMems s (setCore s c k) := ⟨rfl, rfl, rfl⟩
theorem sameMems_setGroup (s : State) (c gs : Nat) (g : Group) : SameMems s (setGroup s c gs g) := ⟨rfl, rfl, rfl⟩
theorem sameMems_setUnit (s : State) (c u : Nat) (x : Unit) : SameMems s (setUnit s c u x) := ⟨rfl, rfl, rfl⟩
theorem sameMems_ctlW (s : State) (o : Nat) (v : DWord) : SameMems s (ctlW s o v) := ⟨rfl, rfl, rfl⟩
theorem sameMems_acquire (s : State) (c : Nat) : SameMems s (acquire s c) := ⟨rfl, rfl, rfl⟩
theorem sameMems_scrWrites (s : State) (c a : Nat) (bs : List Byte) : SameMems s (scrWrites s c a bs) := ⟨rfl, rfl, rfl⟩
theorem sameMems_setTile (s : State) (c i : Nat) (t : Tile) : SameMems s (setTile s c i t) := ⟨rfl, rfl, rfl⟩

theorem sameMems_modGroup (s : State) (c gs : Nat) (f : Group → Group) : SameMems s (modGroup s c gs f) := by
  unfold modGroup; split <;> exact ⟨rfl, rfl, rfl⟩

theorem sameMems_trans {s t u : State} (h : SameMems s t) (k : SameMems t u) : SameMems s u :=
  ⟨k.1.trans h.1, k.2.1.trans h.2.1, k.2.2.trans h.2.2⟩

theorem sameMems_foldl {α : Type} {f : State → α → State} (h : ∀ s a, SameMems s (f s a)) (l : List α) (s : State) :
    SameMems s (l.foldl f s) := by
  induction l generalizing s with
  | nil => exact ⟨rfl, rfl, rfl⟩
  | cons a l ih => exact sameMems_trans (h s a) (ih (f s a))

theorem sameMems_pinHit (s : State) (a : Nat) : SameMems s (pinHit s a) := ⟨rfl, rfl, rfl⟩

theorem sameMems_walkHit (s : State) (ctx va : Nat) : SameMems s (walkHit s ctx va) := by
  unfold walkHit; split
  · exact ⟨rfl, rfl, rfl⟩
  · exact sameMems_foldl sameMems_pinHit _ s

theorem sameMems_issueHits (c : Cx) (s : State) : SameMems s (issueHits c s) := by
  unfold issueHits; split
  · exact ⟨rfl, rfl, rfl⟩
  · split
    · exact ⟨rfl, rfl, rfl⟩
    · exact sameMems_foldl (fun s va => sameMems_walkHit s _ va) _ s

theorem sameMems_fetchHit (s : State) (ctx l : Nat) : SameMems s (fetchHit s ctx l) := by
  unfold fetchHit; split
  · exact sameMems_trans (sameMems_walkHit s _ _) ⟨rfl, rfl, rfl⟩
  · exact ⟨rfl, rfl, rfl⟩

theorem sameMems_cacheLine (s : State) (c x l n : Nat) (b : BitVec 512) : SameMems s (cacheLine s c x l n b) := by
  unfold cacheLine; simp only; split
  · exact ⟨rfl, rfl, rfl⟩
  · exact sameMems_fetchHit s x n

theorem sameMems_syncQueues (s : State) (c gs : Nat) : SameMems s (syncQueues s c gs) := sameMems_modGroup s c gs _

theorem sameMems_pushed (c : Cx) (s : State) : SameMems s (pushed c s) := by
  unfold pushed; split
  · exact sameMems_syncQueues s _ _
  · exact ⟨rfl, rfl, rfl⟩

theorem sameMems_pushResp (s : State) (c : Nat) (r : Resp) : SameMems s (pushResp s c r) := ⟨rfl, rfl, rfl⟩

theorem sameMems_sendDemote (s : State) (w : Option Nat) (a : Nat) : SameMems s (sendDemote s w a).1 := by
  unfold sendDemote
  split
  · split <;> exact ⟨rfl, rfl, rfl⟩
  · exact ⟨rfl, rfl, rfl⟩

/-! ### Writes at home -/

theorem memKeep_devWrites (s : State) (a : Nat) (ws : List (Nat × List Byte)) : MemKeep s (devWrites s a ws) := by
  intro ⟨x, y, z⟩
  unfold devWrites
  split
  · exact ⟨x, y, z⟩
  · refine ⟨?_, y, z⟩
    have h : ∀ (ws : List (Nat × List Byte)) (m : List Host.Cell), Memory.wf m = true →
        Memory.wf (ws.foldl (fun m w => memWrites m w.1 w.2) m) = true := by
      intro ws
      induction ws with
      | nil => exact fun m h => h
      | cons w ws ih => exact fun m h => ih _ (memWrites_wf h _ _)
    exact h ws s.mem x

theorem memKeep_devWrite (s : State) (a : Nat) (bs : List Byte) : MemKeep s (devWrite s a bs) := memKeep_devWrites s a _

theorem memKeep_pubEvict (s : State) (w : Nat) : MemKeep s (pubEvict s w) := by
  intro ⟨x, y, z⟩
  unfold pubEvict
  split
  · exact ⟨x, y, z⟩
  · exact ⟨x, memWrites_wf y _ _, z⟩

theorem memKeep_pubRoom (s : State) (w : Nat) : MemKeep s (pubRoom s w) := by
  unfold pubRoom
  refine .iter (fun s => ?_) _ s
  split
  · exact memKeep_pubEvict s w
  · exact .rfl' s

theorem memKeep_homeWrite (s : State) (ctx : Nat) (t : Tgt) (a : Nat) (bs : List Byte) :
    MemKeep s (homeWrite s ctx t a bs) := by
  cases t with
  | dev => exact (memKeep_devWrite s a bs).trans (SameMems.keep ⟨rfl, rfl, rfl⟩)
  | dec c => exact .rfl' s
  | host => exact fun ⟨x, y, z⟩ => ⟨x, memWrites_wf y a bs, z⟩
  | win w => exact fun h => memKeep_pubRoom _ w h
  | peer p =>
    intro ⟨x, y, z⟩
    refine ⟨x, y, fun q => ?_⟩
    simp only [homeWrite, mget, mfind_mset]
    split
    · exact memWrites_wf (z p) a bs
    · exact z q

theorem memKeep_engWrite (s : State) (who : Option Nat) (eng ctx : Nat) (t : Tgt) (a : Nat) (bs : List Byte) :
    MemKeep s (engWrite s who eng ctx t a bs) := by
  cases t with
  | dev =>
    have k : MemKeep s (setGran (homeWrite (sendDemote (pinHit s a) who a).1 ctx .dev a bs) a
        { granOf (homeWrite (sendDemote (pinHit s a) who a).1 ctx .dev a bs) a with owner := who }) := by
      refine ((SameMems.keep (t := pinHit s a) ⟨rfl, rfl, rfl⟩).trans (sameMems_sendDemote _ who a).keep).trans ?_
      exact (memKeep_homeWrite _ ctx .dev a bs).trans (SameMems.keep ⟨rfl, rfl, rfl⟩)
    cases who with
    | some c => exact k.trans (sameMems_pushResp _ _ _).keep
    | none => exact k
  | _ => exact memKeep_homeWrite s ctx _ a bs

theorem memKeep_ctxWrite (s : State) (core ctx va : Nat) (bs : List Byte) : MemKeep s (ctxWrite s core ctx va bs) := by
  unfold ctxWrite
  refine .foldl (fun s p => ?_) _ s
  split
  · exact (sameMems_walkHit _ _ _).keep.trans (memKeep_engWrite _ _ _ _ _ _ _)
  · exact .rfl' s

/-! ### The fault ring, the status ring and traps -/

theorem memKeep_frWrite (s : State) (r : FaultRec) : MemKeep s (frWrite s r) :=
  (memKeep_engWrite _ _ _ _ _ _ _).trans (sameMems_ctlW _ _ _).keep

theorem memKeep_frDrainAux (l : List FaultRec) (s : State) : MemKeep s (frDrainAux l s) := by
  induction l generalizing s with
  | nil => exact .rfl' s
  | cons r rs ih =>
    unfold frDrainAux
    split
    · exact (memKeep_frWrite s r).trans (ih _)
    · exact fun h => ih _ h

theorem memKeep_frDrain (s : State) : MemKeep s (frDrain s) := fun h => memKeep_frDrainAux _ _ h

theorem memKeep_postFault (s : State) (r : FaultRec) : MemKeep s (postFault s r) :=
  fun h => memKeep_frDrain _ h

theorem memKeep_postPage (s : State) (core ctx va : Nat) (r : FaultRec) : MemKeep s (postPage s core ctx va r) := by
  unfold postPage
  simp only
  split
  · exact SameMems.keep ⟨rfl, rfl, rfl⟩
  · split
    · exact fun h => memKeep_postFault _ _ h
    · exact fun h => memKeep_postFault _ _ h

theorem sameMems_stWrite (s : State) (ws : List DWord) : SameMems s (stWrite s ws) := by
  have h (b : Nat) : SameMems s (ws.zipIdx.foldl (fun s x => ctlW s (b + 8 * x.2) x.1) s) :=
    sameMems_foldl (fun s x => sameMems_ctlW s _ _) _ _
  exact h _

theorem sameMems_stDrainAux (n : Nat) (s : State) : SameMems s (stDrainAux n s) := by
  induction n generalizing s with
  | zero => exact ⟨rfl, rfl, rfl⟩
  | succ n ih =>
    unfold stDrainAux
    split
    · exact ⟨rfl, rfl, rfl⟩
    · split
      · exact ⟨rfl, rfl, rfl⟩
      · rename_i e es _ _
        exact sameMems_trans (sameMems_stWrite { s with stPending := es } e) (ih _)

theorem sameMems_stPost (s : State) (w0 w1 w2 w3 w4 w5 : DWord) : SameMems s (stPost s w0 w1 w2 w3 w4 w5) :=
  sameMems_stDrainAux _ { s with stPending := s.stPending ++ [[w0, w1, w2, w3, w4, w5, 0, 0]] }

theorem memKeep_takeTrap (s : State) (core gslot : Nat) (t : TrapBlock) (m : Mask) :
    MemKeep s (takeTrap s core gslot t m) := by
  have drv (g : Group) (b : Bool) : MemKeep s (trapToDriver s core gslot g t b m) := by
    unfold trapToDriver
    simp only
    split
    · exact fun h => memKeep_postPage _ _ _ _ _ ((sameMems_setGroup s core gslot _).keep h)
    · exact fun h => memKeep_postFault _ _ ((sameMems_setGroup s core gslot _).keep h)
  have hdl (g : Group) (ii : II) : MemKeep s (trapToHandler s core gslot g t ii) := by
    unfold trapToHandler; simp only; split <;> exact (sameMems_setGroup s core gslot _).keep
  unfold takeTrap
  split
  · exact .rfl' s
  · split
    · split
      · split
        · exact drv _ _
        · exact hdl _ _
      · exact drv _ _
    · exact drv _ _

theorem memKeep_trapMask {c : Cx} {s t : State} {code : BitVec 8} {ret : RetKind} {m : Mask} {i2 i3 : DWord}
    (h : trapMask c s code ret m i2 i3 = .next t) : MemKeep s t := by
  unfold trapMask at h
  injection h with h
  exact h ▸ memKeep_takeTrap s _ _ _ _

theorem memKeep_trapAt (c : Cx) (s t : State) (code : BitVec 8) (ret : RetKind) (i2 i3 : DWord)
    (h : trapAt c s code ret i2 i3 = .next t) : MemKeep s t := by
  unfold trapAt at h
  injection h with h
  exact h ▸ memKeep_takeTrap s _ _ _ _

/-! ### The end of an issue -/

theorem memKeep_settleAux (n : Nat) (s : State) (c gs : Nat) : MemKeep s (settleAux n s c gs) := by
  induction n generalizing s with
  | zero => exact .rfl' s
  | succ n ih =>
    unfold settleAux
    split
    · exact .rfl' s
    · split
      · split
        · exact (sameMems_setGroup s c gs _).keep.trans (ih _)
        · exact .rfl' s
      · exact .rfl' s

theorem memKeep_spillWords (s : State) (c gs : Nat) (g : Group) : MemKeep s (spillWords s c gs g) := by
  unfold spillWords
  exact (sameMems_setGroup s c gs _).keep.trans (.foldl (fun s x => memKeep_ctxWrite _ _ _ _ _) _ _)

theorem memKeep_backOnce {s t : State} {c gs : Nat} {g : Group} (h : backOnce s c gs g = .done t) : MemKeep s t := by
  have bw {ctx a n : Nat} {act : State} (h : backWrite s c ctx a n act = .done t) : t = act := by
    unfold backWrite at h
    split at h
    · cases h
    · split at h
      · cases h
      · cases h; rfl
  unfold backOnce at h
  split at h
  · rw [bw h]
    exact (sameMems_setGroup s c gs _).keep.trans (memKeep_ctxWrite _ _ _ _ _)
  · split at h
    · cases h
    · rw [bw h]; exact memKeep_spillWords s c gs g

theorem memKeep_backAux (n : Nat) (s : State) (c gs : Nat) : MemKeep s (backAux n s c gs) := by
  induction n generalizing s with
  | zero => exact .rfl' s
  | succ n ih =>
    unfold backAux
    split
    · exact .rfl' s
    · split
      · rename_i h; exact (memKeep_backOnce h).trans (ih _)
      · exact .rfl' s

theorem memKeep_settle (s : State) (c gs : Nat) : MemKeep s (settle s c gs) :=
  (memKeep_settleAux _ s c gs).trans (memKeep_backAux _ _ c gs)

theorem memKeep_finish {c : Cx} {next : Next} {hz : Bool} {s t : State} (h : finish c next hz s = .next t) :
    MemKeep s t := by
  unfold finish at h
  injection h with h
  have a := (sameMems_trans (sameMems_pushed c s) (sameMems_issueHits c (pushed c s))).keep
  exact h ▸ (a.trans (sameMems_modGroup _ _ _ _).keep).trans (memKeep_settle _ _ _)

theorem memKeep_issueSkip {c : Cx} {s t : State} (h : issueSkip c s = .next t) : MemKeep s t := by
  unfold issueSkip at h
  split at h
  · exact memKeep_trapAt _ _ _ _ _ _ _ h
  · split at h
    · injection h with h; exact h ▸ .rfl' s
    · exact memKeep_finish h

/-- The answer of an issue that writes granary words back is that of its later checks and its body, or a trap. -/
theorem spillTrap_cases {s t : State} {c : Cx} {need : Nat} {out : Out} (h : spillTrap s c need out = .next t) :
    out = .next t ∨ ∃ code ret i2 i3, trapAt c s code ret i2 i3 = .next t := by
  unfold spillTrap at h
  split at h
  · exact .inl h
  · split at h
    · exact .inl h
    · exact .inr ⟨_, _, _, _, h⟩

/-- An issue keeps the canonical form when its body does. -/
theorem memKeep_issue {s t : State} {gd : Guard} {pre : Cx → Pre} {body : Cx → State → Out}
    (hb : ∀ c t, body c s = .next t → MemKeep s t) (h : issue s gd pre body = .next t) : MemKeep s t := by
  have stay {o : Out} (h : o = .next t) (k : o = .next s) : MemKeep s t := by
    rw [k] at h; injection h with h; exact h ▸ .rfl' s
  have go (c : Cx) (f : Pre) (h : issueGo s c f body = .next t) : MemKeep s t := by
    unfold issueGo at h
    split at h
    · exact stay h rfl
    · split at h
      · exact stay h rfl
      · split at h
        · exact memKeep_trapAt _ _ _ _ _ _ _ h
        · simp only at h
          split at h
          · exact memKeep_trapAt _ _ _ _ _ _ _ h
          · split at h
            · exact stay h rfl
            · rcases spillTrap_cases h with h | ⟨_, _, _, _, h⟩
              · split at h
                · exact memKeep_trapAt _ _ _ _ _ _ _ h
                · split at h
                  · split at h
                    · exact stay h rfl
                    · exact memKeep_trapAt _ _ _ _ _ _ _ h
                  · split at h
                    · exact stay h rfl
                    · exact hb c t h
              · exact memKeep_trapAt _ _ _ _ _ _ _ h
  unfold issue at h
  split at h
  · cases h
  · simp only at h
    split at h
    · exact stay h rfl
    · split at h
      · exact memKeep_trapAt _ _ _ _ _ _ _ h
      · split at h
        · exact stay h rfl
        · split at h
          · exact memKeep_trapAt _ _ _ _ _ _ _ h
          · split at h
            · exact memKeep_trapAt _ _ _ _ _ _ _ h
            · split at h
              · split at h
                · exact go _ _ h
                · injection h with h
                  exact h ▸ (sameMems_modGroup s _ _ _).keep
              · split at h
                · exact go _ _ h
                · exact memKeep_issueSkip h
              · exact go _ _ h

theorem sameMems_consume (c : Cx) (us : List SrcUse) (s : State) : SameMems s (consume c us s) := by
  unfold consume
  simp only
  split
  · exact sameMems_trans (sameMems_modGroup s _ _ _) (sameMems_acquire _ _)
  · exact sameMems_modGroup s _ _ _

theorem memKeep_laneOp {s t : State} {gd : Guard} {us : List SrcUse} {d : Dst} {wide : Bool} {v : Cx → Nat → DWord}
    {post : Cx → Group → Group} (h : laneOp s gd us d wide v post = .next t) : MemKeep s t := by
  refine memKeep_issue (fun c t h => ?_) h
  exact (sameMems_trans (sameMems_consume c us s) (sameMems_modGroup _ _ _ _)).keep.trans (memKeep_finish h)

end Sys2Proof.Machine
end

