-- ==== Sys2Proof/Laws/Core.lean ====
section
/-! SUPPORT. What the shared operations on a core do besides its groups: units, tiles, the scratchpad, acquires and the control
window. -/

namespace Sys2Proof.Machine

@[simp] theorem getUnit_setUnit (s : State) (c u c' u' : Nat) (x : Unit) :
    getUnit (setUnit s c u x) c' u' = if c = c' ∧ u = u' then some x else getUnit s c' u' := by
  unfold getUnit setUnit
  simp only [getCore_setCore]
  by_cases h : c = c'
  · subst h; simp only [if_true, mfind_mset, true_and]
  · simp [h]

@[simp] theorem getUnit_setGroup (s : State) (c gs c' u : Nat) (g : Group) :
    getUnit (setGroup s c gs g) c' u = getUnit s c' u := by
  unfold getUnit setGroup
  simp only [getCore_setCore]
  split <;> simp_all

@[simp] theorem getGroup_setUnit (s : State) (c u c' gs : Nat) (x : Unit) :
    getGroup (setUnit s c u x) c' gs = getGroup s c' gs := by
  unfold getGroup setUnit
  simp only [getCore_setCore]
  split <;> simp_all

@[simp] theorem getGroup_setTile (s : State) (c i c' gs : Nat) (t : Tile) :
    getGroup (setTile s c i t) c' gs = getGroup s c' gs := by
  unfold getGroup setTile
  simp only [getCore_setCore]
  split <;> simp_all

@[simp] theorem tiles_setTile (s : State) (c i j : Nat) (t : Tile) :
    mfind (getCore (setTile s c i t) c).tiles j = if i = j then some t else mfind (getCore s c).tiles j := by
  simp [setTile]

@[simp] theorem getGroup_scrWrites (s : State) (c a c' gs : Nat) (bs : List Byte) :
    getGroup (scrWrites s c a bs) c' gs = getGroup s c' gs := by
  unfold getGroup scrWrites
  simp only [getCore_setCore]
  split <;> simp_all

/-- A byte of a scratchpad after a write. -/
theorem scr_scrWrites (s : State) (c a b : Nat) (bs : List Byte) :
    mget 0 (getCore (scrWrites s c a bs) c).scr b
      = if a ≤ b ∧ b < a + bs.length then bs.getD (b - a) 0 else mget 0 (getCore s c).scr b := by
  simp only [scrWrites, getCore_setCore, if_true]
  exact mget_mputs 0 _ a b bs

@[simp] theorem getGroup_acquire (s : State) (c c' gs : Nat) : getGroup (acquire s c) c' gs = getGroup s c' gs := by
  unfold getGroup acquire
  simp only [getCore_setCore]
  split <;> simp_all

@[simp] theorem ctlR_ctlW (s : State) (o o' : Nat) (v : DWord) :
    ctlR (ctlW s o v) o' = if o = o' then v else ctlR s o' := mget_mput _ _ _ _ _

@[simp] theorem getGroup_ctlW (s : State) (o : Nat) (v : DWord) (c gs : Nat) : getGroup (ctlW s o v) c gs = getGroup s c gs := rfl

/-- A watchpoint only leaves its hit with the group. -/
theorem watch_group (s : State) (core gslot unit : Nat) (t : Tile) (w : Bool) (eng : Nat) (l : List (Nat × Nat)) (g : Group)
    (h : getGroup s core gslot = some g) :
    ∃ g', getGroup (watch s core gslot unit t w eng l) core gslot = some g' ∧ g' = { g with wpPend := g'.wpPend } := by
  unfold watch
  split
  · unfold wpDue
    rw [modGroup_some h]
    exact ⟨_, by simp; rfl, rfl⟩
  · exact ⟨g, h, rfl⟩

/-- A status ring entry leaves the groups as they are. -/
theorem sameGroups_stPost (s : State) (w0 w1 w2 w3 w4 w5 : DWord) : SameGroups s (stPost s w0 w1 w2 w3 w4 w5) := by
  have wr (s : State) (ws : List DWord) : SameGroups s (stWrite s ws) := by
    have h (b : Nat) : SameGroups s (ws.zipIdx.foldl (fun s x => ctlW s (b + 8 * x.2) x.1) s) :=
      sameGroups_foldl (fun s (x : DWord × Nat) => ctlW s (b + 8 * x.2) x.1) (fun s x => sameGroups_of_cores rfl) _ _
    exact (h _).trans (sameGroups_of_cores rfl)
  have dr (n : Nat) (s : State) : SameGroups s (stDrainAux n s) := by
    induction n generalizing s with
    | zero => exact .rfl' s
    | succ n ih =>
      unfold stDrainAux
      split
      · exact .rfl' s
      · split
        · exact .rfl' s
        · rename_i e es _ _
          exact (SameGroups.trans (t := { s with stPending := es }) (sameGroups_of_cores rfl) (wr _ e)).trans (ih _)
  exact SameGroups.trans (t := { s with stPending := s.stPending ++ [[w0, w1, w2, w3, w4, w5, 0, 0]] })
    (sameGroups_of_cores rfl) (dr _ _)

end Sys2Proof.Machine
end

