-- ==== Sys2Proof/Laws/Lane.lean ====
section
/-! SUPPORT. What a written destination holds (`writeDst_holds`), and what a lane instruction does as a whole
(`laneOp_spec`). -/

namespace Sys2Proof.Machine

theorem mem_lanes {m : Mask} {l : Nat} : l ∈ lanes m ↔ l < 64 ∧ m.getLsbD l = true := by
  simp [lanes, List.mem_filter, List.mem_range]

/-- A register written in a list of lanes. -/
theorem nreg_foldl_setN (ls : List Nat) (f : Nat → Word) (i j k : Nat) (g : Group) (hk : k < 64) (hl : ∀ l ∈ ls, l < 64) :
    (ls.foldl (fun g l => g.setN i l (f l)) g).nreg j k = if i = j ∧ k ∈ ls then f k else g.nreg j k := by
  induction ls generalizing g with
  | nil => simp
  | cons a ls ih =>
    have ha := hl a (by simp)
    rw [List.foldl_cons, ih _ (fun l h => hl l (by simp [h])), nreg_setN]
    by_cases h : i = j ∧ k ∈ ls
    · rw [if_pos h, if_pos ⟨h.1, by simp [h.2]⟩]
    · rw [if_neg h]
      by_cases h2 : i = j ∧ a = k
      · obtain ⟨rfl, rfl⟩ := h2; simp
      · rw [if_neg (by omega), if_neg]
        rintro ⟨rfl, h3⟩
        rcases List.mem_cons.1 h3 with rfl | h3
        · exact h2 ⟨rfl, rfl⟩
        · exact h ⟨rfl, h3⟩

theorem setNs_eq (g : Group) (i : Nat) (m : Mask) (f : Nat → Word) :
    g.setNs i m f = { g with n := (g.setNs i m f).n } := by
  unfold Group.setNs
  generalize lanes m = ls
  induction ls generalizing g with
  | nil => rfl
  | cons a ls ih => rw [List.foldl_cons, ih]; rfl

theorem nreg_setNs (g : Group) (i : Nat) (m : Mask) (f : Nat → Word) (j k : Nat) (hk : k < 64) :
    (g.setNs i m f).nreg j k = if i = j ∧ m.getLsbD k = true then f k else g.nreg j k := by
  unfold Group.setNs
  rw [nreg_foldl_setN _ _ _ _ _ _ hk (fun l h => (mem_lanes.1 h).1)]
  congr 1
  simp [mem_lanes, hk]

/-- A record changes nothing but the history stack. -/
theorem histPieces_eq (n : Nat) (g : Group) (ic : BitVec 48) (kind : Nat) (cont : Bool) (ws : List DWord) :
    histPieces g ic kind n cont ws = { g with hist := (histPieces g ic kind n cont ws).hist,
                                              hsp := (histPieces g ic kind n cont ws).hsp } := by
  induction n generalizing g cont ws with
  | zero => rfl
  | succ n ih =>
    simp only [histPieces]
    split
    · rfl
    · rw [ih]

theorem histPush_eq (g : Group) (ic : BitVec 48) (kind : Nat) (ws : List DWord) :
    histPush g ic kind ws = { g with hist := (histPush g ic kind ws).hist, hsp := (histPush g ic kind ws).hsp } :=
  histPieces_eq _ _ _ _ _ _

/-- What recording leaves of the registers. -/
theorem recorded (g : Group) (b : Bool) (ic : BitVec 48) (kind : Nat) (ws : List DWord) :
    ∃ h s, (if b then histPush g ic kind ws else g) = { g with hist := h, hsp := s } := by
  cases b
  · exact ⟨g.hist, g.hsp, rfl⟩
  · exact ⟨_, _, histPush_eq g ic kind ws⟩

theorem dst_named (c : Cx) (i : BitVec 6) (wide : Bool) (v : Nat → DWord) (g : Group) :
    let lo (l : Nat) : Word := (v l).setWidth 32
    let hi (l : Nat) : Word := (v l).extractLsb' 32 32
    let g' := if wide then (g.setNs i.toNat c.p.mask lo).setNs (i.toNat + 1) c.p.mask hi else g.setNs i.toNat c.p.mask lo
    (∀ l, l < 64 → g'.nreg i.toNat l = if c.p.mask.getLsbD l then (v l).setWidth 32 else g.nreg i.toNat l)
    ∧ (∀ l, l < 64 → wide = true →
        g'.nreg (i.toNat + 1) l = if c.p.mask.getLsbD l then (v l).extractLsb' 32 32 else g.nreg (i.toNat + 1) l)
    ∧ (∀ j l, l < 64 → j ≠ i.toNat → (wide = true → j ≠ i.toNat + 1) → g'.nreg j l = g.nreg j l)
    ∧ g' = { g with n := g'.n } := by
  cases wide
  · simp only [Bool.false_eq_true, if_false]
    refine ⟨fun l hl => ?_, fun l hl h => by simp at h, fun j l hl h _ => ?_, setNs_eq _ _ _ _⟩
    · rw [nreg_setNs _ _ _ _ _ _ hl]; simp
    · rw [nreg_setNs _ _ _ _ _ _ hl, if_neg]; omega
  · simp only [if_true]
    refine ⟨fun l hl => ?_, fun l hl _ => ?_, fun j l hl h k => ?_, ?_⟩
    · rw [nreg_setNs _ _ _ _ _ _ hl, if_neg (by omega), nreg_setNs _ _ _ _ _ _ hl]; simp
    · rw [nreg_setNs _ _ _ _ _ _ hl, nreg_setNs _ _ _ _ _ _ hl]
      simp
    · have := k trivial
      rw [nreg_setNs _ _ _ _ _ _ hl, if_neg (by omega), nreg_setNs _ _ _ _ _ _ hl, if_neg (by omega)]
    · rw [setNs_eq, setNs_eq]

/-! ### The result queue (R54) -/

theorem qval_foldl_setQ (ls : List Nat) (f : Group → Nat → Word) (a j k : Nat) (g : Group) (hk : k < 64)
    (hl : ∀ l ∈ ls, l < 64) (hn : ls.Nodup)
    (hf : ∀ (x : Group) (l : Nat), (∀ j', j' ≠ a → x.qval j' l = g.qval j' l) → f x l = f g l) :
    (ls.foldl (fun g l => g.setQ a l (f g l)) g).qval j k = if a = j ∧ k ∈ ls then f g k else g.qval j k := by
  suffices H : ∀ (ls : List Nat) (x : Group), (∀ l ∈ ls, l < 64) → ls.Nodup →
      (∀ l ∈ ls, ∀ j', j' ≠ a → x.qval j' l = g.qval j' l) →
      (ls.foldl (fun g l => g.setQ a l (f g l)) x).qval j k = if a = j ∧ k ∈ ls then f g k else x.qval j k by
    exact H ls g hl hn (fun _ _ _ _ => rfl)
  intro ls
  induction ls with
  | nil => intro x _ _ _; simp
  | cons b ls ih =>
    intro x hl hn hx
    have hb := hl b (by simp)
    have hn' := List.nodup_cons.1 hn
    rw [List.foldl_cons, ih _ (fun l h => hl l (by simp [h])) hn'.2, qval_setQ]
    · by_cases h : a = j ∧ k ∈ ls
      · rw [if_pos h, if_pos ⟨h.1, by simp [h.2]⟩]
      · rw [if_neg h]
        by_cases h2 : a = j ∧ b = k
        · obtain ⟨rfl, rfl⟩ := h2
          rw [if_pos rfl, if_pos ⟨rfl, by simp⟩, hf x b (fun j' h => hx b (by simp) j' h)]
        · rw [if_neg (by omega), if_neg]
          rintro ⟨rfl, h3⟩
          rcases List.mem_cons.1 h3 with rfl | h3
          · exact h2 ⟨rfl, rfl⟩
          · exact h ⟨rfl, h3⟩
    · intro l h j' hj
      rw [qval_setQ, if_neg, hx l (by simp [h]) j' hj]
      have := hl l (by simp [h])
      omega

theorem lanes_nodup (m : Mask) : (lanes m).Nodup := List.Nodup.sublist List.filter_sublist List.nodup_range

theorem setQs_eq (ls : List Nat) (f : Group → Nat → Word) (a : Nat) (g : Group) :
    ls.foldl (fun g l => g.setQ a l (f g l)) g = { g with q := (ls.foldl (fun g l => g.setQ a l (f g l)) g).q } := by
  induction ls generalizing g with
  | nil => rfl
  | cons b ls ih => rw [List.foldl_cons, ih]; rfl

/-- Of a group only the result queue changes. -/
def QOnly (g h : Group) : Prop := h = { g with q := h.q, live := h.live }

theorem QOnly.trans {g h k : Group} (a : QOnly g h) (b : QOnly h k) : QOnly g k := by
  unfold QOnly at *; rw [b, a]

theorem setQs_only (ls : List Nat) (f : Group → Nat → Word) (a : Nat) (g : Group) :
    QOnly g (ls.foldl (fun g l => g.setQ a l (f g l)) g) := by
  induction ls generalizing g with
  | nil => rfl
  | cons b ls ih => exact QOnly.trans (show QOnly g (g.setQ a b (f g b)) from rfl) (ih _)

theorem setLive_only (g : Group) (a : Nat) (m : Mask) : QOnly g (g.setLive a m) := rfl

/-- One move of the result queue: entry `a` takes the entry before it in the lanes of a mask. -/
def shiftQ (m : Mask) (g : Group) (a : Nat) : Group :=
  let g := (lanes m).foldl (fun g l => g.setQ a l (g.qval (a - 1) l)) g
  g.setLive a ((g.qlive a &&& ~~~m) ||| (g.qlive (a - 1) &&& m))

theorem shiftQ_spec (m : Mask) (g : Group) (a : Nat) (ha : 1 ≤ a) :
    (∀ j l, l < 64 → (shiftQ m g a).qval j l = if a = j ∧ m.getLsbD l = true then g.qval (a - 1) l else g.qval j l)
    ∧ (∀ j, (shiftQ m g a).qlive j = if a = j then (g.qlive a &&& ~~~m) ||| (g.qlive (a - 1) &&& m) else g.qlive j)
    ∧ QOnly g (shiftQ m g a) := by
  have e := setQs_eq (lanes m) (fun g l => g.qval (a - 1) l) a g
  refine ⟨fun j l hl => ?_, fun j => ?_, ?_⟩
  · show ((lanes m).foldl (fun g l => g.setQ a l (g.qval (a - 1) l)) g).qval j l = _
    rw [qval_foldl_setQ (lanes m) (fun g l => g.qval (a - 1) l) a j l g hl (fun l h => (mem_lanes.1 h).1) (lanes_nodup m)
      (fun x l h => h (a - 1) (by omega))]
    simp [mem_lanes, hl]
  · unfold shiftQ
    simp only [qlive_setLive]
    have hq : ∀ j, ((lanes m).foldl (fun g l => g.setQ a l (g.qval (a - 1) l)) g).qlive j = g.qlive j := by
      intro j; rw [e]; rfl
    rw [hq, hq, hq]
  · exact (setQs_only _ _ _ _).trans (setLive_only _ _ _)

theorem shiftQs_spec (m : Mask) (g : Group) (n : Nat) (hn : n ≤ 15) :
    let h := ((List.range n).map fun i => 16 - i).foldl (shiftQ m) g
    (∀ j l, l < 64 → h.qval j l = if 16 - n < j ∧ j ≤ 16 ∧ m.getLsbD l = true then g.qval (j - 1) l else g.qval j l)
    ∧ (∀ j, h.qlive j = if 16 - n < j ∧ j ≤ 16 then (g.qlive j &&& ~~~m) ||| (g.qlive (j - 1) &&& m) else g.qlive j)
    ∧ QOnly g h := by
  induction n with
  | zero =>
    refine ⟨fun j l _ => ?_, fun j => ?_, rfl⟩
    · rw [if_neg (by omega)]; rfl
    · rw [if_neg (by omega)]; rfl
  | succ n ih =>
    obtain ⟨a, b, d⟩ := ih (by omega)
    simp only [List.range_succ, List.map_append, List.map_cons, List.map_nil, List.foldl_append, List.foldl_cons,
      List.foldl_nil]
    generalize ((List.range n).map fun i => 16 - i).foldl (shiftQ m) g = h at a b d ⊢
    obtain ⟨s1, s2, s3⟩ := shiftQ_spec m h (16 - n) (by omega)
    refine ⟨fun j l hl => ?_, fun j => ?_, ?_⟩
    · rw [s1 j l hl, a j l hl, a (16 - n - 1) l hl]
      by_cases hj : 16 - n = j
      · subst hj
        cases hm : m.getLsbD l
        · simp
        · rw [if_pos ⟨rfl, rfl⟩, if_neg (by omega), if_pos ⟨by omega, by omega, rfl⟩]
      · rw [if_neg (by omega)]
        by_cases hk : 16 - n < j ∧ j ≤ 16 ∧ m.getLsbD l = true
        · rw [if_pos hk, if_pos ⟨by omega, hk.2⟩]
        · rw [if_neg hk, if_neg]; intro x; exact hk ⟨by omega, x.2⟩
    · rw [s2 j, b j, b (16 - n), b (16 - n - 1)]
      by_cases hj : 16 - n = j
      · subst hj
        rw [if_pos rfl, if_neg (by omega), if_neg (by omega), if_pos (by omega)]
      · rw [if_neg hj]
        by_cases hk : 16 - n < j ∧ j ≤ 16
        · rw [if_pos hk, if_pos (by omega)]
        · rw [if_neg hk, if_neg (by omega)]
    · exact d.trans s3

/-- PushQ (R54). -/
theorem pushQ_spec (ic : BitVec 48) (recd : Bool) (m : Mask) (v : Nat → Word) (g : Group) :
    (∀ j l, l < 64 → 1 ≤ j → j ≤ 16 → (pushQ ic recd m v g).qval j l =
      if m.getLsbD l = true then (if j = 1 then v l else g.qval (j - 1) l) else g.qval j l)
    ∧ (∀ j, 1 ≤ j → j ≤ 16 → (pushQ ic recd m v g).qlive j =
      (g.qlive j &&& ~~~m) ||| (m &&& (if j = 1 then m else g.qlive (j - 1))))
    ∧ pushQ ic recd m v g = { g with
        q := (pushQ ic recd m v g).q, live := (pushQ ic recd m v g).live
        hist := (pushQ ic recd m v g).hist, hsp := (pushQ ic recd m v g).hsp }
    ∧ (recd = false → (pushQ ic recd m v g).hist = g.hist) := by
  obtain ⟨hh, hs, e⟩ := recorded g (recd && g.qlive 16 &&& m != 0) ic kQEVICT
    (laneWords g.w (fun l => g.qval 16 l) ++ [g.qlive 16])
  obtain ⟨a, b, d⟩ := shiftQs_spec m { g with hist := hh, hsp := hs } 15 (by omega)
  have un : pushQ ic recd m v g =
      let h := ((List.range 15).map fun i => 16 - i).foldl (shiftQ m) { g with hist := hh, hsp := hs }
      let h := (lanes m).foldl (fun g l => g.setQ 1 l (v l)) h
      h.setLive 1 (h.qlive 1 ||| m) := by
    rw [← e]; rfl
  rw [un]
  simp only at a b d ⊢
  generalize ((List.range 15).map fun i => 16 - i).foldl (shiftQ m) { g with hist := hh, hsp := hs } = h at a b d ⊢
  have e2 := setQs_eq (lanes m) (fun _ l => v l) 1 h
  have only : QOnly { g with hist := hh, hsp := hs }
      (((lanes m).foldl (fun g l => g.setQ 1 l (v l)) h).setLive 1
        (((lanes m).foldl (fun g l => g.setQ 1 l (v l)) h).qlive 1 ||| m)) :=
    (d.trans (setQs_only _ _ _ _)).trans (setLive_only _ _ _)
  refine ⟨fun j l hl h1 h16 => ?_, fun j h1 h16 => ?_, ?_, fun r => ?_⟩
  · show ((lanes m).foldl (fun g l => g.setQ 1 l (v l)) h).qval j l = _
    rw [qval_foldl_setQ (lanes m) (fun _ l => v l) 1 j l h hl (fun l h => (mem_lanes.1 h).1) (lanes_nodup m)
      (fun _ _ _ => rfl), a j l hl]
    simp only [mem_lanes, hl, true_and]
    cases hm : m.getLsbD l
    · simp; rfl
    · by_cases hj : j = 1
      · subst hj; simp
      · rw [if_neg (by omega), if_pos ⟨by omega, by omega, rfl⟩]; simp [hj]; rfl
  · rw [qlive_setLive]
    have hq : ∀ j, ((lanes m).foldl (fun g l => g.setQ 1 l (v l)) h).qlive j = h.qlive j := by
      intro j; rw [e2]; rfl
    rw [hq, hq, b j, b 1]
    have hg : ∀ j, ({ g with hist := hh, hsp := hs } : Group).qlive j = g.qlive j := fun _ => rfl
    by_cases hj : j = 1
    · subst hj
      rw [if_pos rfl, if_neg (by omega), hg, if_pos rfl]
      apply BitVec.eq_of_getLsbD_eq
      intro i hi
      simp
      cases g.qlive 1 |>.getLsbD i <;> cases m.getLsbD i <;> simp [hi]
    · rw [if_neg (by omega), if_pos ⟨by omega, by omega⟩, if_neg hj, hg, hg, BitVec.and_comm m]
  · unfold QOnly at only
    rw [only]
  · unfold QOnly at only
    rw [only]
    subst r
    simp only [Bool.false_and, Bool.false_eq_true, if_false] at e
    have k := congrArg Group.hist e
    exact k.symm

/-! ### A written destination (R86, R100) -/

theorem writeDst_holds (c : Cx) (d : Dst) (wide : Bool) (v : Nat → DWord) (g : Group) :
    DstHolds c d wide v g (writeDst c d wide v g) := by
  cases d with
  | push =>
    unfold writeDst DstHolds
    simp only
    obtain ⟨a1, a2, a3, -⟩ := pushQ_spec c.ic c.g.recording c.p.mask (fun l => (v l).setWidth 32) g
    cases wide
    · simp only [Bool.false_eq_true, if_false]
      refine ⟨fun l hl hm a h1 h16 => ?_, fun l hl hm => ⟨?_, fun a h1 h15 => ?_⟩, fun a h1 h16 => ?_, a3⟩
      · rw [a1 a l hl h1 h16, hm]; simp
      · rw [a1 1 l hl (by omega) (by omega), hm]; simp
      · rw [a1 (a + 1) l hl (by omega) (by omega), hm, if_pos rfl, if_neg (by omega)]; rfl
      · rw [a2 a h1 h16]
        by_cases h : a = 1
        · subst h; rfl
        · rw [if_neg h, if_neg (by omega)]
    · simp only [if_true]
      generalize pushQ c.ic c.g.recording c.p.mask (fun l => (v l).setWidth 32) g = h at a1 a2 a3 ⊢
      obtain ⟨b1, b2, b3, -⟩ := pushQ_spec c.ic c.g.recording c.p.mask (fun l => (v l).extractLsb' 32 32) h
      refine ⟨fun l hl hm a h1 h16 => ?_, fun l hl hm => ⟨?_, ?_, fun a h1 h14 => ?_⟩, fun a h1 h16 => ?_, ?_⟩
      · rw [b1 a l hl h1 h16, hm, a1 a l hl h1 h16, hm]; simp
      · rw [b1 2 l hl (by omega) (by omega), hm, if_pos rfl, if_neg (by omega), a1 1 l hl (by omega) (by omega), hm]; simp
      · rw [b1 1 l hl (by omega) (by omega), hm]; simp
      · rw [b1 (a + 2) l hl (by omega) (by omega), hm, if_pos rfl, if_neg (by omega),
          show a + 2 - 1 = a + 1 by omega, a1 (a + 1) l hl (by omega) (by omega), hm, if_pos rfl, if_neg (by omega)]; rfl
      · rw [b2 a h1 h16, a2 a h1 h16]
        have bits : ∀ x y m : Mask, ((x &&& ~~~m) ||| (m &&& y)) &&& ~~~m = x &&& ~~~m := by
          intro x y m
          apply BitVec.eq_of_getLsbD_eq
          intro i hi
          simp [hi]
          cases x[i] <;> cases y[i] <;> cases m[i] <;> rfl
        have bits2 : ∀ x y m : Mask, m &&& ((x &&& ~~~m) ||| (m &&& y)) = m &&& y := by
          intro x y m
          apply BitVec.eq_of_getLsbD_eq
          intro i hi
          simp [hi]
          cases x[i] <;> cases y[i] <;> cases m[i] <;> rfl
        rw [bits]
        by_cases h : a = 1
        · subst h; rfl
        · rw [if_neg h, a2 (a - 1) (by omega) (by omega), bits2]
          by_cases h' : a = 2
          · subst h'; rfl
          · rw [if_neg (by omega), if_neg (by omega), show a - 1 - 1 = a - 2 by omega]
      · rw [b3, a3]
  | recd i =>
    obtain ⟨hh, hs, e⟩ := recorded g c.g.recording c.ic kNREG (nregWords g i.toNat (if wide then 2 else 1))
    obtain ⟨a1, a2, a3, a4⟩ := dst_named c i wide v { g with hist := hh, hsp := hs }
    unfold writeDst DstHolds
    simp only at a1 a2 a3 a4 ⊢
    rw [e]
    refine ⟨a1, a2, a3, ?_, ?_⟩
    · rw [a4]
    · rintro ⟨k, h⟩; cases h
  | dead i =>
    obtain ⟨a1, a2, a3, a4⟩ := dst_named c i wide v g
    unfold writeDst DstHolds
    simp only at a1 a2 a3 a4 ⊢
    refine ⟨a1, a2, a3, ?_, fun _ => a4⟩
    rw [a4]
  | uni i =>
    obtain ⟨hh, hs, e⟩ := recorded g c.g.recording c.ic kKREG [g.kreg i.toNat]
    unfold writeDst DstHolds
    simp only
    rw [e]
    refine ⟨?_, fun j hj => ?_, rfl⟩
    · simp
    · rw [kreg_setK, if_neg (by omega)]; rfl
  | discard => rfl
  | eng e => rfl

/-- Of a group, a destination leaves all but the registers, the result queue, e2 and the history. -/
theorem writeDst_keeps (c : Cx) (d : Dst) (wide : Bool) (v : Nat → DWord) (g : Group) :
    writeDst c d wide v g = { g with
        n := (writeDst c d wide v g).n, k := (writeDst c d wide v g).k, q := (writeDst c d wide v g).q
        live := (writeDst c d wide v g).live, e2 := (writeDst c d wide v g).e2
        hist := (writeDst c d wide v g).hist, hsp := (writeDst c d wide v g).hsp }
      ∧ (c.g.recording = false → (writeDst c d wide v g).hist = g.hist) := by
  cases d with
  | push =>
    unfold writeDst
    simp only
    obtain ⟨-, -, a3, a4⟩ := pushQ_spec c.ic c.g.recording c.p.mask (fun l => (v l).setWidth 32) g
    cases wide
    · simp only [Bool.false_eq_true, if_false]
      exact ⟨by rw [a3], a4⟩
    · simp only [if_true]
      generalize pushQ c.ic c.g.recording c.p.mask (fun l => (v l).setWidth 32) g = h at a3 a4 ⊢
      obtain ⟨-, -, b3, b4⟩ := pushQ_spec c.ic c.g.recording c.p.mask (fun l => (v l).extractLsb' 32 32) h
      exact ⟨by rw [b3, a3], fun r => (b4 r).trans (a4 r)⟩
  | recd i =>
    obtain ⟨hh, hs, e⟩ := recorded g c.g.recording c.ic kNREG (nregWords g i.toNat (if wide then 2 else 1))
    obtain ⟨-, -, -, a4⟩ := dst_named c i wide v { g with hist := hh, hsp := hs }
    unfold writeDst
    simp only at a4 ⊢
    rw [e]
    refine ⟨by rw [a4], fun r => ?_⟩
    rw [a4]
    rw [r] at e
    simp only [Bool.false_eq_true, if_false] at e
    have k := congrArg Group.hist e
    exact k.symm
  | dead i =>
    obtain ⟨-, -, -, a4⟩ := dst_named c i wide v g
    unfold writeDst
    simp only at a4 ⊢
    exact ⟨by rw [a4], fun _ => by rw [a4]⟩
  | uni i =>
    obtain ⟨hh, hs, e⟩ := recorded g c.g.recording c.ic kKREG [g.kreg i.toNat]
    unfold writeDst
    simp only
    rw [e]
    refine ⟨rfl, fun r => ?_⟩
    rw [r] at e
    simp only [Bool.false_eq_true, if_false] at e
    have k := congrArg Group.hist e
    exact k.symm
  | discard => exact ⟨rfl, fun _ => rfl⟩
  | eng e => exact ⟨rfl, fun _ => rfl⟩

/-! ### Reading the operands (R52, R61) -/

theorem setStatus_keeps (g : Group) (q : Nat) (l : List StatusEntry) :
    g.setStatus q l = { g with e1 := (g.setStatus q l).e1, e3 := (g.setStatus q l).e3, e5 := (g.setStatus q l).e5 } := by
  unfold Group.setStatus; split <;> rfl

/-- Of a group, reading the operands leaves all but the live bits and the status queues. -/
def Reads (g h : Group) : Prop := h = { g with live := h.live, e1 := h.e1, e3 := h.e3, e5 := h.e5 }

theorem Reads.trans {g h k : Group} (a : Reads g h) (b : Reads h k) : Reads g k := by
  unfold Reads at *; rw [b, a]

theorem reads_foldl {α : Type} (f : Group → α → Group) (h : ∀ g a, Reads g (f g a)) (l : List α) (g : Group) :
    Reads g (l.foldl f g) := by
  induction l generalizing g with
  | nil => rfl
  | cons a l ih => exact (h g a).trans (ih (f g a))

theorem clearFinal_reads (us : List SrcUse) (m : Mask) (g : Group) : Reads g (clearFinal us m g) := by
  unfold clearFinal
  refine reads_foldl _ (fun g u => ?_) us g
  split
  · refine reads_foldl _ (fun g a => ?_) _ _
    rfl
  · rfl

theorem doPops_reads (us : List SrcUse) (g : Group) : Reads g (doPops us g) := by
  unfold doPops
  refine reads_foldl _ (fun g q => ?_) _ g
  rw [setStatus_keeps]; rfl

theorem enter_some {s : State} {c : Cx} (h : enter s = some c) : getGroup s c.core c.gslot = some c.g := by
  unfold enter at h
  split at h
  · cases h
  · split at h
    · cases h
    · cases h; assumption

/-- After the operands are read, the group is as before but for its live bits and status queues. -/
theorem consume_group {s : State} {c : Cx} (h : enter s = some c) (us : List SrcUse) :
    ∃ g0, getGroup (consume c us s) c.core c.gslot = some g0 ∧ Reads c.g g0 := by
  have hg := enter_some h
  refine ⟨doPops us (clearFinal us c.p.mask c.g), ?_, (clearFinal_reads _ _ _).trans (doPops_reads _ _)⟩
  unfold consume
  simp only
  rw [modGroup_some hg]
  split
  · unfold acquire
    rw [sameGroups_setCore]
    · simp
    · rfl
  · simp

/-! ### A lane instruction as a whole -/

/-- A lane instruction with an effect beside its result. -/
theorem laneOp_spec {s : State} {c : Cx} {gd : Guard} {us : List SrcUse} {d : Dst} {wide : Bool} {v : Cx → Nat → DWord}
    {post : Cx → Group → Group} (h : Clears s c gd { srcs := us, dst := some (d, wide) })
    (hp : ∀ g, (post c g).recording = g.recording ∧ (post c g).stack = g.stack ∧ (post c g).hist = g.hist) :
    ∃ g0 g1, getGroup (consume c us s) c.core c.gslot = some g0 ∧ Reads c.g g0 ∧ DstHolds c d wide (v c) g0 g1
      ∧ Completes c (laneOp s gd us d wide v post) (setGroup (consume c us s) c.core c.gslot (post c g1)) := by
  obtain ⟨g0, hg0, hr⟩ := consume_group h.1 us
  refine ⟨g0, writeDst c d wide (v c) g0, hg0, hr, writeDst_holds c d wide (v c) g0, ?_⟩
  have e : laneOp s gd us d wide v post = finish c .fall (isHorizon { srcs := us, dst := some (d, wide) })
      (setGroup (consume c us s) c.core c.gslot (post c (writeDst c d wide (v c) g0))) := by
    unfold laneOp
    rw [issue_runs (pre := fun _ => { srcs := us, dst := some (d, wide) }) h]
    simp only
    rw [modGroup_some hg0]
  obtain ⟨k1, k2⟩ := writeDst_keeps c d wide (v c) g0
  obtain ⟨p1, p2, p3⟩ := hp (writeDst c d wide (v c) g0)
  have r1 : g0.recording = c.g.recording := by unfold Reads at hr; rw [hr]; rfl
  have r2 : g0.stack = c.g.stack := by unfold Reads at hr; rw [hr]
  have r3 : g0.hist = c.g.hist := by unfold Reads at hr; rw [hr]
  generalize writeDst c d wide (v c) g0 = w at k1 k2 p1 p2 p3 e ⊢
  have w1 : w.recording = g0.recording := by rw [k1]; rfl
  have w2 : w.stack = g0.stack := by rw [k1]
  rw [e]
  refine finish_completes (g := post c w) (by simp) _ _ ?_ ?_ ?_
  · rw [p1, w1, r1]
  · rw [p2, w2, r2]; exact id
  · intro r; rw [p3, k2 r, r3]; exact id

/-- A lane instruction with no effect but its result. -/
theorem laneOp0_spec {s : State} {c : Cx} {gd : Guard} {us : List SrcUse} {d : Dst} {v : Cx → Nat → DWord}
    (h : Clears s c gd { srcs := us, dst := some (d, false) }) :
    ∃ g0 g1, getGroup (consume c us s) c.core c.gslot = some g0 ∧ DstHolds c d false (v c) g0 g1
      ∧ Completes c (laneOp0 s gd us d v) (setGroup (consume c us s) c.core c.gslot g1) := by
  obtain ⟨g0, g1, a, -, b, e⟩ := laneOp_spec (v := v) (post := fun _ g => g) h (fun g => ⟨rfl, rfl, rfl⟩)
  exact ⟨g0, g1, a, b, e⟩

end Sys2Proof.Machine
end

