-- ==== Sys2Proof/Tests/Slice0.lean ====
section
/-! SUPPORT. Tests: ill-formed terms that WellFormed refuses, words of the specification that decode to what they stand
for, results that the specification's examples give, and a witness for the hypotheses of each statement. -/

namespace Sys2Proof.Tests

open Sys2Proof Sys2Proof.Machine

/-! ### Well-formedness: for each check a term that it refuses -/

def mem4 : MemOp := { off := 0, ord := false, size := 2, space := .dev, scale := 0, kb := 0, sa := .sel 0 }
def slice0 : Slice := { th := 0, ax := false, kie := false, ki := 0, idx := 0 }
def mx0 : MxCommon := { pair := false, be := false, bar := 0 }

/-- Every term of the list is ill-formed. -/
def refuses (l : List Instr) : Bool := l.all fun i => !i.wf

theorem test_wf_selectors : refuses [.abs none .b32 false .push (.sel 0x06), .add none .b32 false .push (.sel 0x10) (.n 0),
    .mad none .b32 false .push (.n 0) (.n 0) (.sel 0x80), .bra none (.nz (.sel 0x3F)) 0 0, .addin none 0 (.sel 0x06),
    .cswap none 0 1 (.sel 0x16)] = true := by decide

theorem test_wf_uniform_destination : refuses [.mov none .b32 (.uni 0) (.src (.n 0)), .sub none .b32 false (.uni 0) (.n 0) (.k 1),
    .mul none .b32 false (.uni 0) (.k 1) (.q 0 false), .redu none .add (.uni 3) (.n 1),
    .fadd none .rne false (.uni 0) (.n 0) (.k 0), .cvt none .rne false false .s8 .f32 (.uni 0) (.n 0)] = true := by decide

theorem test_wf_engine_push : refuses [.mov none .b32 (.eng 0) (.src (.k 0)), .and none (.eng 4) (.n 0) (.n 0),
    .fadd none .rne false (.eng 2) (.n 0) (.n 0), .fma none .rne false (.eng 2) (.n 0) (.n 0) (.n 0),
    .fmin none false (.eng 2) (.n 0) (.n 0), .fsqrt none .rne false (.eng 2) (.n 0),
    .call none (.eng 2) (.rel 0), .hstat none (.eng 2), .srd none (.eng 2) 0, .btest none (.eng 2) 0,
    .bwait none (.eng 2) 0 0, .launch none (.eng 2) 0 0, .talloc none .plain (.eng 2) (.sel 0) 0] = true := by decide

theorem test_wf_lane_exchange : refuses [.shfl none .idx (.uni 0) (.k 0) (.k 0), .vote none .any (.uni 0) (.k 0),
    .vote none .ballot (.recd 5) (.n 0), .scan none .add false (.uni 0) (.k 0), .cvt none .rne false false .a80 .f32 .push (.n 0),
    .cvt none .rne false false .f32 .a80 .push (.n 0)] = true := by decide

theorem test_wf_loads : refuses [.ld none false { mem4 with size := 7 } .discard, .ld none false { mem4 with size := 3 } (.recd 5),
    .ld none false { mem4 with size := 6 } (.dead 50), .ld none false { mem4 with size := 4 } .push,
    .ld none false { mem4 with size := 4 } .discard, .ld none false { mem4 with sa := .n 0 } (.uni 0),
    .ld none false { mem4 with size := 4 } (.uni 0), .ld none false mem4 (.eng 2), .ld none true mem4 (.recd 0),
    .ld none false { mem4 with sa := .sel 0x06 } (.recd 0), .ldpoll none { mem4 with ord := true } (.recd 0),
    .ldpoll none { mem4 with space := .priv } (.recd 0), .ldpoll none { mem4 with size := 4 } (.recd 0),
    .pref none false { mem4 with ord := true }, .ldlo none mem4 (.recd 0),
    .ldlo none { mem4 with size := 4, ord := true } (.recd 0), .ldlo none { mem4 with size := 4 } (.recd 62),
    .ldlo none { mem4 with size := 4 } .push] = true := by decide

theorem test_wf_stores : refuses [.st none { mem4 with size := 7 } (.n 0), .st none { mem4 with size := 3 } (.n 1),
    .st none { mem4 with size := 4 } (.n 62), .st none { mem4 with size := 3 } (.q 15 false),
    .st none { mem4 with size := 4 } (.k 0), .st none { mem4 with size := 3 } (.sel 0x40),
    .xst none { mem4 with size := 4 } (.recd 0) (.n 2), .xst none mem4 (.uni 0) (.n 2),
    .stlo none false mem4 (.n 0), .stlo none false { mem4 with size := 4 } (.n 62),
    .stlo none false { mem4 with size := 4 } (.k 0)] = true := by decide

theorem test_wf_atomics : refuses [.atom none .add { mem4 with size := 1 } .discard (.n 0),
    .atom none .add { mem4 with space := .priv } .discard (.n 0), .atom none .add mem4 (.uni 0) (.n 0),
    .atom none .add mem4 (.eng 2) (.n 0), .atom none .add { mem4 with size := 3 } (.recd 1) (.n 0),
    .atom none .cas mem4 .discard (.n 1), .atom none .cas mem4 .discard (.k 0),
    .atom none .cas { mem4 with size := 3 } .discard (.n 62), .atom none .fadd { mem4 with size := 3 } .discard (.n 0),
    .atom none .add { mem4 with size := 3 } .discard (.n 1)] = true := by decide

theorem test_wf_windows_of_memory : refuses [.pin none (.eng 0) 0 1, .unpin none (.eng 0) 0, .discard none (.eng 0) 0 1] = true := by
  decide

theorem test_wf_tiles : refuses [.talloc none .plain .discard (.k 0) 0, .talloc none .frame .discard (.sel 1) 0,
    .talloc none .plain .discard (.sel 0) 0x40000000, .talloc none .plain .discard (.sel 0) 0x00C00000,
    .talloc none .plain .discard (.sel 0) 0x000FFFFF, .talloc none .plain .discard (.sel 0) 0x00B00000,
    .tring none .init (.recd 0) (.q 0 false) 0 0 0, .tring none .commit .discard (.n 0) 0 0 0,
    .tring none .init .discard (.k 0) 0 0 0, .trd none slice0 (.uni 0), .twr none slice0 (.sel 0x10),
    .txch none slice0 .discard (.n 0), .tcolop none .add slice0 0 0 (.k 0),
    .tcolop none .add { slice0 with ax := true } 0 1 (.k 0), .tcolop none .cvt { slice0 with ax := true } 0 12 (.sel 0),
    .tcolop none .fma { slice0 with ax := true } 0 0 (.sel 0), .tcolop none .cvt { slice0 with ax := true } 0 0 (.k 0),
    .tcolop none .add { slice0 with ax := true } 0 0 (.n 0), .tld none slice0 false false 0 (.sel 0x10),
    .tst none slice0 false false 0 (.sel 0x10)] = true := by decide

theorem test_wf_engines : refuses [.mxlds none false 72 0 .bf16 mx0, .mxlds none false 64 0 .f32 mx0,
    .mxstr none false 72 72 0 0 false 0 .bf16 0 mx0, .mxstr none false 64 71 0 0 false 0 .bf16 0 mx0,
    .mxdrain none false 71 64 0 0 false 0 .bf16 0 mx0, .mxdrain none false 72 72 0 0 false 0 .bf16 0 mx0,
    .mxzero none 76 mx0, .enq none 2 (.n 0) (.k 0), .enq none 2 (.k 0) (.sel 1), .enq none 1 (.k 0) (.k 0),
    .enq (some 0) 0 (.k 0) (.k 0), .enq none 4 (.k 0) (.k 0), .deq none (.recd 1) 1, .deq none .discard 0,
    .cpstat none (.eng 0), .vdstat none (.eng 0), .qtick none 0 0] = true := by decide

theorem test_wf_frames_guards_and_system : refuses [.wake none true .discard 64 0, .wake none true (.eng 0) 0 0,
    .binflush none .discard 64, .binstat none false .discard 64, .gset none (.set (.n 0)) 0, .gtest none (.eng 0) 0,
    .srd none .discard 0x07, .swr none 0x01 (.k 0), .swr none 0x0A (.n 0), .swr none 0x0A (.sel 1),
    .cancel none (.recd 1) (.k 0) 0, .cancel none .discard (.n 0) 0, .ccnt none (.eng 2) (.k 0) 0,
    .ccnt none .discard (.sel 1) 0, .dbgmb none (.n 0)] = true := by decide

/-! ### Decoding: words of the specification, three 32-bit words each -/

def words (a b c : Nat) : IWord := BitVec.ofNat 96 (a + b * 2 ^ 32 + c * 2 ^ 64)

/-- Each word decodes to the instruction beside it. -/
def decodes (l : List (IWord × Instr)) : Bool := l.all fun p => (decode p.1).toOption == some p.2

/-- R359, R360, R361, R362, R390, R400, R409, R410, R442, R443. -/
theorem test_decode_transfers : decodes [
    (words 0x00000000 0x00000000 0x00000000, .nop none),
    (words 0x00003001 0x80004003 0xFFFFFFFF, .bra none (.lt (.n 3) (.k 0)) 0 0xFFFFFFFF),
    (words 0x00065001 0x80034001 0x00000003, .bra none (.ltu (.n 1) (.k 3)) 6 3),
    (words 0x00001001 0x0000C001 0x00000005, .bra none (.nz (.sel 1)) 0 5),
    (words 0x00000002 0x00000000 0xFFFFFFF6, .jmp none (.rel 0xFFFFFFF6)),
    (words 0x00001002 0x00008005 0x00000000, .jmp none (.abs 5 0)),
    (words 0xC0A80003 0x00000000 0xFFFFFFCE, .call none (.uni 40) (.rel 0xFFFFFFCE)),
    (words 0xC0A81003 0x00008007 0x00000000, .call none (.uni 40) (.abs 7 0)),
    (words 0x00000004 0x00008028 0x00000000, .ret none 40),
    (words 0x00000005 0x00004000 0xFFFFFFF5, .loop none 0 0xFFFFFFF5),
    (words 0x00000006 0x00000000 0x00000000, .exit none),
    (words 0x00000007 0x00000000 0x00000007, .brk none 7),
    (words 0x00000008 0x00000000 0x0000002A, .trap none 42),
    (words 0x00000009 0x00000000 0x00000000, .uiret)] = true := by decide +kernel

/-- R353, R406, R407, R430, R382. -/
theorem test_decode_updates : decodes [
    (words 0x40010010 0x00004000 0, .addin none 1 (.n 0)), (words 0x40010011 0x00004000 0, .subin none 1 (.n 0)),
    (words 0x40030012 0x00004002 0, .xorin none 3 (.n 2)), (words 0x40030013 0x0000C064 0, .rolin none 3 (.sel 0x64)),
    (words 0x40050014 0 0, .negin none 5), (words 0x40050015 0 0, .notin none 5),
    (words 0x40020016 0x00008003 0, .mulin none 2 (.k 3)), (words 0x40020017 0x00004003 0, .swap none 2 3),
    (words 0x40020018 0x40044003 0, .cswap none 2 3 (.n 4)),
    (words 0x40010058 0x00004002 0, .faddin none .rne false 1 (.n 2)),
    (words 0x40040059 0x00004005 0, .fmulin none .rne false 4 (.n 5))] = true := by decide +kernel

/-- R350, R403, R404, R425; DIV, REM and MAX by the fields of R96. -/
theorem test_decode_integers : decodes [
    (words 0x40005020 0x00010000 3, .mov none .b32 (.recd 0) (.imm 3)),
    (words 0xC0945020 0x00008003 0, .mov none .b32 (.uni 20) (.src (.k 3))),
    (words 0xC0005020 0x0000C011 0, .mov none .b32 .discard (.src (.sel 0x11))),
    (words 0x00005021 0x40042002 0, .add none .b32 false .push (.q 2 true) (.n 4)),
    (words 0x40039022 0x40024001 0, .sub none .b8 true (.recd 3) (.n 1) (.n 2)),
    (words 0x4003A023 0x40024001 0, .mul none .s16 true (.recd 3) (.n 1) (.n 2)),
    (words 0x40034024 0x40024001 0, .mulhi none .s32 (.recd 3) (.n 1) (.n 2)),
    (words 0x40015025 0xC070C001 0x00008004, .mad none .b32 false (.recd 1) (.sel 1) (.sel 0x70) (.k 4)),
    (words 0x40035026 0x40024001 0, .div none .b32 (.recd 3) (.n 1) (.n 2)),
    (words 0x40032027 0x40024001 0, .rem none .s16 (.recd 3) (.n 1) (.n 2)),
    (words 0x40031028 0x40024001 0, .min none .b8 (.recd 3) (.n 1) (.n 2)),
    (words 0x80033029 0x40024001 0, .max none .b16 (.dead 3) (.n 1) (.n 2)),
    (words 0x4002C02A 0x00004001 0, .abs none .s32 true (.recd 2) (.n 1)),
    (words 0x4005402B 0x80024001 0x00020000, .cmp none .s32 .lt (.recd 5) (.n 1) (.k 2)),
    (words 0x4003502C 0x40024001 0x00004004, .sel none .b32 (.recd 3) (.n 1) (.n 2) (.n 4)),
    (words 0x4002A02D 0x00004002 0x00009C40, .addi none .s16 true (.recd 2) (.n 2) 40000)] = true := by
  decide +kernel

/-- R351, R352, R405, R426; AND, ANDN, CLZ and BREV by the fields of R96. -/
theorem test_decode_bits : decodes [
    (words 0x40030B30 0x40024001 0, .and (some 3) (.recd 3) (.n 1) (.n 2)),
    (words 0x40030031 0x40024001 0, .or none (.recd 3) (.n 1) (.n 2)),
    (words 0x40020032 0x40014001 0, .xor none (.recd 2) (.n 1) (.n 1)),
    (words 0x40030033 0x40024001 0, .andn none (.recd 3) (.n 1) (.n 2)),
    (words 0xC0840034 0xC0678062 0, .shl none (.uni 4) (.k 98) (.sel 0x67)),
    (words 0xC09F0035 0xC070801E 0, .shr none (.uni 31) (.k 30) (.sel 0x70)),
    (words 0x40030036 0x40024001 0, .sar none (.recd 3) (.n 1) (.n 2)),
    (words 0x40030037 0x40024001 0, .rol none (.recd 3) (.n 1) (.n 2)),
    (words 0x40030038 0x00004001 0, .clz none (.recd 3) (.n 1)),
    (words 0x40030039 0x00004001 0, .popc none (.recd 3) (.n 1)),
    (words 0x4003003A 0x00004001 0, .brev none (.recd 3) (.n 1)),
    (words 0x4003103B 0x80044001 0, .bfe none true (.recd 3) (.n 1) (.k 4)),
    (words 0x4003003C 0x40064001 0x00008004, .bfi none (.recd 3) (.n 1) (.n 6) (.k 4))] = true := by
  decide +kernel

/-- R408, R427, R428, R429. -/
theorem test_decode_lanes : decodes [
    (words 0x40022040 0xC0614001 0, .shfl none .down (.recd 2) (.n 1) (.sel 0x61)),
    (words 0x40062041 0x00004001 0, .vote none .ballot (.recd 6) (.n 1)),
    (words 0x40034042 0x00004001 0, .redu none .maxB (.recd 3) (.n 1)),
    (words 0x40030043 0x00004001 0x00010000, .scan none .add true (.recd 3) (.n 1))] = true := by
  decide +kernel

/-- R355, R378, R381, R383; FSUB, FMUL, FMAX, FEXP2 and FLOG2 by the fields of R96. -/
theorem test_decode_floats : decodes [
    (words 0x40033050 0x40024001 0, .fadd none .rup false (.recd 3) (.n 1) (.n 2)),
    (words 0x40031051 0x40024001 0, .fsub none .rtz false (.recd 3) (.n 1) (.n 2)),
    (words 0x40032052 0x40024001 0, .fmul none .rdn false (.recd 3) (.n 1) (.n 2)),
    (words 0x40040053 0x40024001 0x00004003, .fma none .rne false (.recd 4) (.n 1) (.n 2) (.n 3)),
    (words 0x40034054 0x40024001 0, .fmin none true (.recd 3) (.n 1) (.n 2)),
    (words 0x40034055 0x40024001 0, .fmax none true (.recd 3) (.n 1) (.n 2)),
    (words 0x40050056 0x40024001 0x00060000, .fcmp none false .unord (.recd 5) (.n 1) (.n 2)),
    (words 0x40030057 0x40024001 0, .fdiv none .rne false (.recd 3) (.n 1) (.n 2)),
    (words 0x4003305A 0x00004001 0, .fsqrt none .rup false (.recd 3) (.n 1)),
    (words 0x4003005B 0x00004001 0, .fexp2 none .rne false (.recd 3) (.n 1)),
    (words 0x4003405C 0x00004001 0, .flog2 none .rne true (.recd 3) (.n 1)),
    (words 0x40048060 0x40024001 0x00004003, .fma2 none .rne false true (.recd 4) (.n 1) (.n 2) (.n 3)),
    (words 0x40021061 0x00004001 0x00840000, .cvt none .rtz false false .s32 .f32 (.recd 2) (.n 1))] = true := by
  decide +kernel

/-- R301, R305, R356, R384, R394, R396, R398, R413, R433, R434, R435. -/
theorem test_decode_memory : decodes [
    (words 0x40060070 0x00004001 0x0008B203,
      .ld none false { off := 8, ord := true, size := 3, space := .dev, scale := 2, kb := 3, sa := .n 1 } (.recd 6)),
    (words 0x00001070 0x00004003 0x00001100,
      .ld none true { off := 0, ord := false, size := 1, space := .dev, scale := 1, kb := 0, sa := .n 3 } .push),
    (words 0x00000071 0x4005C000 0x000C240A,
      .st none { off := 12, ord := false, size := 2, space := .priv, scale := 0, kb := 10, sa := .sel 0 } (.n 5)),
    (words 0x40040072 0x40054001 0x00002602,
      .xst none { off := 0, ord := false, size := 2, space := .priv, scale := 2, kb := 2, sa := .n 1 } (.recd 4) (.n 5)),
    (words 0x40010073 0x0000C000 0x00002002, .ldpoll none { mem4 with kb := 2 } (.recd 1)),
    (words 0x00001074 0x00004002 0x00402305,
      .pref none true { off := 64, ord := false, size := 2, space := .dev, scale := 3, kb := 5, sa := .n 2 }),
    (words 0x00003076 0 0, .fence none .ar), (words 0x00001076 0 0, .fence none .acq), (words 0x00002076 0 0, .fence none .rel),
    (words 0x40049080 0x40084001 0x00002206,
      .atom none .cas { off := 0, ord := false, size := 2, space := .dev, scale := 2, kb := 6, sa := .n 1 } (.recd 4) (.n 8)),
    (words 0x40040081 0x0000400C 0x00004002, .ldlo none { mem4 with size := 4, kb := 2, sa := .n 12 } (.recd 4)),
    (words 0x00001082 0x4008400C 0x00004002, .stlo none true { mem4 with size := 4, kb := 2, sa := .n 12 } (.n 8)),
    (words 0x00000083 0 3, .pub none 3), (words 0x40030084 0x00008005 0x40, .pin none (.recd 3) 5 64),
    (words 0x40030085 0 7, .unpin none (.recd 3) 7),
    (words 0x40030086 0x00008006 0x10, .discard none (.recd 3) 6 16)] = true := by decide +kernel

/-- R437 to R441, and the ring words of R438. -/
theorem test_decode_tiles : decodes [
    (words 0x40020090 0x0000C000 0x01707C1F, .talloc none .plain (.recd 2) (.sel 0) 0x01707C1F),
    (words 0xC0002090 0x0000C000 0x00500C0F, .talloc none .frame .discard (.sel 0) 0x00500C0F),
    (words 0x00000091 0 3, .tfree none 3),
    (words 0xC0000092 0 0x00002002, .tring none .init .discard (.q 0 false) 2 2 0),
    (words 0xC0000092 0x00008005 0x00010302, .tring none .commit .discard (.k 5) 2 0 1),
    (words 0xC0870092 0 0x00000702, .tring none .state (.uni 7) (.q 0 false) 2 0 0),
    (words 0x40030093 0x09830000 4, .trd none { th := 3, ax := false, kie := true, ki := 9, idx := 4 } (.recd 3)),
    (words 0x00000094 0x00434005 2, .twr none { slice0 with th := 3, ax := true, idx := 2 } (.n 5)),
    (words 0x40040095 0x00034006 1, .txch none { slice0 with th := 3, idx := 1 } (.recd 4) (.n 6)),
    (words 0x00000096 0x0040C065 2, .tcolop none .add { slice0 with ax := true, idx := 2 } 0 0 (.sel 0x65)),
    (words 0x00000097 0x00034001 0x00020000, .tld none { slice0 with th := 3 } false false 2 (.n 1)),
    (words 0x00000098 0x00034001 0x00020000, .tst none { slice0 with th := 3 } false false 2 (.n 1))] = true := by
  decide +kernel

/-- R363. -/
theorem test_decode_barriers : decodes [
    (words 0x000000A0 0x00008004 0, .binit none 0 4), (words 0x000000A1 0x00008083 0, .barv none 1 3),
    (words 0xC0A000A2 0x0000801F 0, .bwait none (.uni 32) 0 31), (words 0x400700A3 0x00008100 0, .btest none (.recd 7) 2),
    (words 0x000000A4 0x00008004 0, .barm none 0 4)] = true := by decide +kernel

/-- R191, R214, R237, R369, R370, R415, R416, R445; CPSTAT by the fields of R214. -/
theorem test_decode_engines : decodes [
    (words 0xC01000B0 0x40410000 0x07200000, .mxlds none false 65 128 .bf16 { mx0 with pair := true }),
    (words 0xC01000B1 0x40000000 0, .mxswap none { mx0 with pair := true }),
    (words 0xC01000B2 0x24C08180 0x07080F00, .mxstr none false 64 73 32 15 false 0 .bf16 0 { mx0 with be := true, bar := 3 }),
    (words 0xC01009B3 0x21490000 0x08080F00, .mxdrain (some 1) false 73 66 32 15 false 0 .f32 0 mx0),
    (words 0xC01000B4 0x25000000 0, .mxzero none 74 mx0), (words 0xC01200C0 0x800B800A 0, .enq none 2 (.k 10) (.k 11)),
    (words 0xC09400C1 0x0000C013 0, .deq none (.uni 20) 3), (words 0xC01200C2 0x00000004 0x00000085, .cpstart none true 5 4),
    (words 0x400600C3 0 0, .cpstat none (.recd 6)), (words 0xC01400C4 0x00000001 0, .vdsub none 1),
    (words 0x400600C5 0 0, .vdstat none (.recd 6)), (words 0x000000C6 0 0x3100, .qtick none 3 256)] = true := by
  decide +kernel

/-- R250, R253, R367, R435. -/
theorem test_decode_frames : decodes [
    (words 0x000010D0 0x00000008 0, .susp none true 8), (words 0x400500D1 0x00030009 0, .wake none false (.recd 5) 3 9),
    (words 0x400500D1 0x00030000 0x10000000, .wake none true (.recd 5) 3 0),
    (words 0x400600D2 0x00030000 0, .binflush none (.recd 6) 3),
    (words 0xC09400D3 0x00030000 0x10000000, .binstat none true (.uni 20) 3)] = true := by decide +kernel

/-- R371, R373, R374, R385, R387, R391, R419, R420, R431, R432; HSTAT by the fields of R389. -/
theorem test_decode_history_and_system : decodes [
    (words 0x000000E0 0 0, .mark none), (words 0x000010E1 0 0, .commit none true), (words 0x000010E2 0 1, .rev .c (.imm 1)),
    (words 0x000050E2 0x00008005 0, .rev .c (.k 5)), (words 0x000010E3 0 10, .spec 1 10),
    (words 0x000000E4 0 0, .gset none .pend 0), (words 0x000010E4 0x00008022 0x00010000, .gset none (.set (.k 34)) 1),
    (words 0x000020E4 0 0x00020000, .gset none .clear 2), (words 0x400500E5 0 0x00030000, .gtest none (.recd 5) 3),
    (words 0x400500E6 0 0, .hstat none (.recd 5)), (words 0xC09E00F0 0 0x0B, .srd none (.uni 30) 0x0B),
    (words 0x000000F1 0x00008006 0x0A, .swr none 0x0A (.k 6)), (words 0x400200F2 0x0000800C 3, .launch none (.recd 2) 12 3),
    (words 0xC00000F3 0x00008063 0, .cancel none .discard (.k 99) 0), (words 0xC09500F4 0x0000C000 5, .ccnt none (.uni 21) (.sel 0) 5),
    (words 0x000000F5 0x00008009 0, .dbgmb none (.k 9))] = true := by decide +kernel

/-- R82, R95, R97: unassigned and reserved opcodes, an unlisted MD, a reserved bit, G = 0 with GS, and a guard on UIRET. -/
theorem test_decode_refuses : ([words 0x0000000A 0 0, words 0x00000075 0 0, words 0x0000F001 0 0, words 0x00000000 0 1,
    words 0x00000100 0 0, words 0x00000809 0 0, words 0x00000076 0 0].all fun w => (decode w).toOption.isNone) = true := by
  decide +kernel


/-! ### Witnesses: for every statement with hypotheses, a state and operands that meet all of them. -/

def wPath : Path := { ii := 5, mask := 0xFF }

def wGroup : Group :=
  { ctx := 0, launch := 0, unit := 0, gidx := 0, wcode := 0, priv := 0, pathA := some wPath, pathB := none, hlim := 4096
    live := (List.range 17).map fun a => (a, 0xFF), guards := [(1, .pending), (2, .true), (3, .false)]
    e1 := [{ bits := 1, ends := true }], e3 := [{ bits := 3, ends := true }], e5 := [{ bits := 5, ends := false }] }

def wUnit : Machine.Unit :=
  { ctx := 0, launch := 0, x := 0, y := 0, z := 0, ngrp := 1, nbar := 8, mxuse := true, pair := false, resOff := 0
    resBytes := 524288, tileBytes := 520192, started := 1 }

/-- Page tables at 64 GiB (R292, R293): pages of 1 GiB at the addresses 0, 4, 8 and 12 GiB, of device memory, of host memory, of
latest-only memory, and of device memory that cannot be written. -/
def wTables : List Host.Cell :=
  [(0x1000000000, 0x1000010001), (0x1000010000, 0x3B), (0x1000010020, 0x43B), (0x1000010040, 0x7B), (0x1000010060, 0x0B)].foldl
    (fun m x => memWrites m x.1 (bytesOf 8 x.2)) []

/-- A machine with the group `g` alone on core 0, its lines 0 to 2 cached and marked, every feature accepted, and the pages of
`wTables` mapped. -/
def wState (g : Group) : State :=
  { State.reset with
    cores := [(0, { groups := [(0, g)], units := [(0, wUnit)]
                    icache := (List.range 3).map fun i => { launch := 0, line := i, bits := 0x1F } })]
    ctxs := [(0, { root := 0x1000000000, cthii := 0, jobtab := 4096 })]
    launches := [(0, { ctx := 0, packet := [0, 0, 0x0001000100000001, 0, 0, 0, 0x0000001000000010], addr := 0, serial := 1, stamp := 0, nextUnit := 1 })]
    facc := [(0, 0x1FF)], faccDone := true
    mem := wTables }

def wCx (g : Group) : Cx := { core := 0, gslot := 0, slot := .a, g := g, p := wPath }


/-- The conditions of `Clears`, decided, for the path of `wPath` in slot A of the group `g`. -/
def clears (s : State) (g : Group) (gd : Guard) (f : Pre) : Bool :=
  let c := wCx g
  decide (s.cur = (0, 0, .a)) && decide (getGroup s 0 0 = some g) && decide (g.pathA = some wPath)
  && issueOpen g && !preHeld s c f && !f.illegal && (!(usePops f.srcs).contains 5 || feature s 3) && !busy g f.early
  && (preTarget s c f).isNone
  && (match gd with
      | none => true
      | some gs => guardSeen c gs.toNat == .true || (f.engine && guardSeen c gs.toNat != .free))
  && f.guardTrap.isNone && (!isHorizon f || f.specPass || g.spec.isNone) && !busy g (preUses f) && !f.badValue
  && (histFault s c (histNeed s c f)).isNone && !histBusy s c (histNeed s c f) && (firstDead c f.srcs).isNone
  && (emptyPop c f.srcs).isNone && (!preEng f || decide (g.e2.length < 16))

theorem clears_of {s : State} {g : Group} {gd : Guard} {f : Pre} (h : clears s g gd f = true) :
    Clears s (wCx g) gd f := by
  simp only [clears, Bool.and_eq_true, Bool.or_eq_true, Bool.not_eq_true', decide_eq_true_eq, Option.isNone_iff_eq_none]
    at h
  obtain ⟨⟨⟨⟨⟨⟨⟨⟨⟨⟨⟨⟨⟨⟨⟨⟨⟨⟨h1, h2⟩, h3⟩, h4⟩, hh⟩, h5⟩, h6⟩, h7⟩, h8⟩, h9⟩, h10⟩, h11⟩, h12⟩, hb⟩, h13⟩, h14⟩, h15⟩, h16⟩, h17⟩ := h
  refine ⟨?_, h4, hh, h5, ?_, h7, h8, ?_, h10, ?_, h12, hb, h13, h14, h15, h16, ?_⟩
  · simp [enter, h1, h2, Group.path, h3, wCx]
  · intro k; rw [k] at h6; exact h6.resolve_left (by decide)
  · rintro gs rfl
    simpa using h9
  · intro a b; simpa [a, b, wCx] using h11
  · intro k; rw [k] at h17; exact h17.resolve_left (by decide)

theorem ok_of {ε α : Type} {x : Except ε α} (h : x.toOption.isSome = true) : ∃ a, x = .ok a := by
  cases x with
  | ok a => exact ⟨a, rfl⟩
  | error e => cases h

theorem error_of {ε α : Type} {x : Except ε α} (h : x.toOption.isNone = true) : ∃ e, x = .error e := by
  cases x with
  | ok a => cases h
  | error e => exact ⟨e, rfl⟩

/-- The conditions of `Clears` for each of a list of issues. -/
def clearsAll (s : State) (g : Group) (gd : Guard) (fs : List Pre) : Bool := fs.all fun f => clears s g gd f

theorem clears_mem {s : State} {g : Group} {gd : Guard} {fs : List Pre} (h : clearsAll s g gd fs = true) :
    ∀ f ∈ fs, Clears s (wCx g) gd f := fun f k => clears_of (List.all_eq_true.mp h f k)

/-- The group under REC, with room for its records. -/
def wRec : Group := { wGroup with recb := true, ic := 7 }

/-- Lane instructions of one, two and three sources of each class, at the ends of the classes' ranges, to each class of
destination (IntegerResults, BitResults, FloatResults, ExchangeResults, ReductionResults, HistoryInstructions' GTEST). -/
def wLaneIssues : List Pre :=
  ([[], [.q 15 true], [.n 63, .k 127], [.sel 0x7F, .sel 0x05, .q 0 false]] : List (List Src)).flatMap fun us =>
    ([.push, .recd 63, .dead 0, .uni 127, .discard, .eng 2] : List Dst).map fun d =>
      { srcs := u32 us, dst := some (d, false) }

theorem witness_lane_results : ∀ f ∈ wLaneIssues, Clears (wState wGroup) (wCx wGroup) none f :=
  clears_mem (by decide +kernel)

theorem witness_lane_results_guarded : ∀ f ∈ wLaneIssues, Clears (wState wGroup) (wCx wGroup) (some 2) f :=
  clears_mem (by decide +kernel)

theorem witness_lane_results_recorded : ∀ f ∈ wLaneIssues, Clears (wState wRec) (wCx wRec) none f :=
  clears_mem (by decide +kernel)

/-- The 64-bit ballot, DEQ of each status queue (EngineQueues) and a popping source. -/
theorem witness_wide_results : ∀ f ∈ ([{ srcs := u32 [.n 1], dst := some (.recd 62, true) },
    { srcs := [(.sel 0x11, true)], dst := some (.uni 0, true) }, { srcs := [(.sel 0x13, true)], dst := some (.push, true) },
    { srcs := [(.sel 0x15, true)], dst := some (.discard, true) }, { srcs := u32 [.sel 0x11], dst := some (.discard, false) }]
      : List Pre), Clears (wState wGroup) (wCx wGroup) none f := clears_mem (by decide +kernel)

/-- OperandsAndTypes: a source of each class, and a lane; a type's result is defined for every integer. -/
theorem witness_operands : let us : List SrcUse := u32 [.q 15 true, .n 63, .k 127, .sel 0, .sel 1, .sel 2, .sel 3, .sel 4, .sel 5,
      .sel 0x40, .sel 0x7F]
    us[0]? = some (.q 15 true, false) ∧ us[1]? = some (.n 63, false) ∧ us[2]? = some (.k 127, false)
    ∧ (∀ v : Fin 6, us[3 + v.val]? = some (.sel (BitVec.ofNat 8 v.val), false)) ∧ us[9]? = some (.sel 0x40, false)
    ∧ us[10]? = some (.sel 0x7F, false) ∧ 63 < 64 := by decide

/-- FloatExact: a sum of opposite values that is zero, and one that is not. -/
theorem witness_float_exact : let x : Dy := { neg := false, m := 1, e := 0 }; let y : Dy := { neg := true, m := 1, e := 0 }
    (-1 : Int) ≤ x.e ∧ (-1 : Int) ≤ y.e ∧ dyScaled x (-1) + dyScaled y (-1) = 0 ∧ dyScaled x (-1) + dyScaled x (-1) ≠ 0 := by
  decide

/-- RoundToSelects: in every format and every mode a value that lies between two of the format's, and one at its smallest. -/
theorem witness_round_to : (∀ f ∈ [fp32, fp16, fpB16, fpE4, fpE5, fpA80], ∀ rm ∈ [Rm.rne, .rtz, .rdn, .rup],
    let d : Dy := { neg := true, m := 2 ^ 70 + 1, e := -70 }
    let r := roundFin f rm false false d
    d.m ≠ 0 ∧ d.sticky = false ∧ r.2.getLsbD 2 = false ∧ r.2.getLsbD 5 = false ∧ r.2.getLsbD 4 = true
    ∧ (match unpack f r.1 with | .fin _ => true | _ => false) = true) := by decide +kernel

/-- InPlaceResults: each shape of an update, without REC and under REC. -/
theorem witness_in_place (rc : Bool) : ∀ f ∈ ([{ srcs := u32 [.n 1], uses := [.n 0 1] }, { srcs := u32 [.n 63], uses := [.n 63 1], words := if rc then recWords 4 else 0 },
    { uses := [.n 5 1] }, { uses := [.n 0 1, .n 63 1] },
    { srcs := u32 [.n 2], uses := [.n 2 1, .n 3 1], words := if rc then 2 * recWords 4 else 0 }] : List Pre),
    Clears (wState (if rc then wRec else wGroup)) (wCx (if rc then wRec else wGroup)) none f := by
  cases rc <;> exact clears_mem (by decide +kernel)

/-! #### Transfers -/

/-- A group whose n1 holds 1 in lanes 0 to 3 and 2 in the others, and whose n2 holds 1 and n3 2 in every lane. -/
def wLanes : Group := { wGroup with
  n := ((List.range 8).map fun l => (64 + l, if l < 4 then (1 : Word) else 2)) ++ ((List.range 8).map fun l => (128 + l, 1))
    ++ (List.range 8).map fun l => (192 + l, 2)
  k := [(3, 7)] }

theorem witness_transfers : ∀ f ∈ ([{}, { target := some ((5 : II) + (0xFFFFFFFB : BitVec 32).signExtend 48) },
    { target := some ((7 : DWord).setWidth 48 + (2 : BitVec 32).signExtend 48), early := [.k 3] },
    { target := some 7, early := [.k 3] }, { target := some 14, dst := some (.uni 40, false) },
    { target := some 6, srcs := u32 [.n 1, .k 3], divides := true, join := some 9 },
    { target := some 6, srcs := u32 [], divides := false }, { target := some 6, uses := [.n 1 1], divides := true, join := some 6 }] : List Pre),
    Clears (wState wLanes) (wCx wLanes) none f := clears_mem (by decide +kernel)

theorem witness_transfer_ways : let c := wCx wLanes
    (∀ l, l ∈ lanes c.p.mask → condHolds (.nz (.n 2)) (opnd32 c (u32 [.n 2]) 0 l) (opnd32 c (u32 [.n 2]) 1 l) = true)
    ∧ (∀ l, l ∈ lanes c.p.mask → condHolds (.z (.n 2)) (opnd32 c (u32 [.n 2]) 0 l) (opnd32 c (u32 [.n 2]) 1 l) = false)
    ∧ c.p.mask ≠ 0 ∧ (∀ l, l ∈ lanes c.p.mask → c.g.nreg 3 l ≠ 1) ∧ (∀ l, l ∈ lanes c.p.mask → c.g.nreg 2 l = 1) := by
  decide +kernel

/-- A division: lanes that differ, with room on the stack, and in a handler. -/
theorem witness_divisions : let c := wCx wLanes
    let go (l : Nat) : Bool := condHolds (.eq (.n 1) (.n 2)) (opnd32 c (u32 [.n 1, .n 2]) 0 l) (opnd32 c (u32 [.n 1, .n 2]) 1 l)
    (∃ l, l ∈ lanes c.p.mask ∧ go l = true) ∧ (∃ l, l ∈ lanes c.p.mask ∧ go l = false) ∧ c.g.counting = true
    ∧ divideFault (wState wLanes) c = none ∧ (∃ l, l ∈ lanes c.p.mask ∧ c.g.nreg 1 l ≠ 1)
    ∧ (∃ l, l ∈ lanes c.p.mask ∧ c.g.nreg 1 l = 1) := by decide +kernel

def wHandler : Group := { wLanes with uih := true }

theorem witness_divisions_in_handler : ∀ g ∈ [wLanes, wHandler], clearsAll (wState g) g none
      [{ target := some 6, srcs := u32 [.n 1, .n 2], divides := true }, { target := some 6, srcs := u32 [.n 1, .n 2], divides := true, join := some 9 },
        { target := some 6, uses := [.n 1 1], divides := true, join := some 6 }] = true ∧ wHandler.counting = false := by
  decide +kernel

/-- SchedulerEvents: a path at its frame's marked join; two waiting paths of a frame; a parked path whose siblings have left; a
demoted path with a parked path behind a waiting one; a parked path with a free slot A or B. -/
theorem witness_scheduler :
    let a : Path := { ii := 9, mask := 1, wait := true, frame := some 4 }
    let b : Path := { ii := 9, mask := 2, wait := true, frame := some 4 }
    let go : Path := { a with wait := false }
    let f : StackEntry := .frame (some 9) 3 4 none
    let g : Group := { wGroup with pathA := some go, stack := [f] }
    g.moves = true ∧ joinOf g.stack go = some 9 ∧ isMarked (wState g) 0 g 9 = true
    ∧ findFrame [.path a, f] 4 = some (1, some 9, 3, none) ∧ a.frame = some 4 ∧ b.frame = some 4
    ∧ findFrame [.path a, .frame (some 9) 1 4 none] 4 = some (1, some 9, a.mask, none)
    ∧ topReady [.path go, f, .path b] = some (0, go) ∧ ({ go with exch := true } : Path).exch = true := by
  decide +kernel

/-! #### Ends, traps and handlers -/

theorem witness_ends :
    let f (g : Group) : Pre := { horizon := true, leaves := some [endLanes .a wPath.mask (endHandler g)] }
    Clears (wState wLanes) (wCx wLanes) none (f wLanes) ∧ wLanes.counting = true
    ∧ Clears (wState wHandler) (wCx wHandler) none (f wHandler) ∧ wHandler.counting = false
    ∧ Clears (wState wLanes) (wCx wLanes) none {} :=
  ⟨clears_of (by decide +kernel), rfl, clears_of (by decide +kernel), rfl, clears_of (by decide +kernel)⟩

def wTrap (code : BitVec 8) : TrapBlock :=
  { code := code, slot := .a, ret := .reissue, rii := 5, i0 := 0, i1 := 0, i2 := 0, i3 := 0 }

/-- A trap for the driver, a context trap without a context, without a handler, and inside one. -/
theorem witness_driver_traps : getGroup (wState wGroup) 0 0 = some wGroup ∧ trapIsC (wTrap 0x04).code = false
    ∧ mfind State.reset.ctxs 0 = none ∧ trapIsC (wTrap 0x08).code = true
    ∧ mfind (wState wGroup).ctxs 0 = some { root := 0x1000000000, cthii := 0, jobtab := 4096 } ∧ ({ wGroup with cth := true }).cth = true := by
  decide +kernel

def wRing : State := { wState wGroup with ctl := [(0x0900, 0x1000), (0x0908, 4)] }

/-- The fault ring with room for a record, without room for it but with room for a machine check, and without any. -/
theorem witness_fault_ring : wRing.frPending = [] ∧ wRing.rowsBad = [] ∧ (ctlR wRing 0x0900).toNat % 32 = 0
    ∧ (∀ h ∈ [0, 1, 2, 3], let s := ctlW wRing 0x0910 (dw h)
        let used := ((ctlR s 0x0910).toNat + 4 - (ctlR s 0x0918).toNat % 4) % 4
        (ctlR s 0x0908).toNat = 4 ∧ (ctlR s 0x0910).toNat < 4 ∧ (used + 2 < 4 ↔ h < 2) ∧ (used + 1 < 4 ↔ h < 3)) := by
  decide +kernel

def wCth : State := { wState wGroup with ctxs := [(0, { root := 0, cthii := 10, jobtab := 0 })] }

theorem witness_handler_trap : getGroup wCth 0 0 = some wGroup ∧ trapIsC 0x08 = true
    ∧ mfind wCth.ctxs wGroup.ctx = some { root := 0, cthii := 10, jobtab := 0 } ∧ (10 : II) ≠ 0 ∧ wGroup.cth = false
    ∧ wGroup.path .a = some wPath := by decide +kernel

/-- UIRET in a context trap handler, with room for its records and without, and of an UNCORR's load; in a user handler that returns on
slot A; and outside both. -/
theorem witness_handler_return :
    let ret (k : RetKind) : CtRet := { slot := .a, ii := 6, kind := k }
    let g1 : Group := { wGroup with cth := true, recCt := true, ctret := some (ret .next) }
    let g0 : Group := { g1 with hlim := 0 }
    let gl : Group := { wGroup with cth := true, ctret := some (ret .load), uncorr := some (3, 1) }
    let g2 : Group := { wGroup with uih := true, uiretpc := 6 }
    let back (g : Group) : Group := { g with cth := false, recb := g.recCt, ctret := none
                                             hist := if g.recCt then [dw 8] else [], hsp := if g.recCt then 8 else 0
                                             uncorr := none }.setPath .a (some { wPath with ii := 6 })
    let need (s : State) (g : Group) : Nat := (eventsAll s 0 260 g).hsp.toNat / 8
    (∀ g ∈ [g1, g0, gl, g2, wGroup], getGroup (wState g) 0 0 = some g ∧ g.path .a = some wPath ∧ issueOpen g = true)
    ∧ (∀ g ∈ [g1, gl], histFault (wState g) (wCx g) (need (wState g) (back g)) = none
        ∧ histBusy (wState g) (wCx g) (need (wState g) (back g)) = false)
    ∧ (need (wState g0) (back g0) ≠ 0 ∧ g0.hsp.toNat + 8 * need (wState g0) (back g0) > g0.hlim.toNat)
    ∧ g1.ctret = some (ret .next) ∧ (ret .next).kind ≠ .load ∧ gl.uncorr = some (3, 1)
    ∧ (histFault (wState g2) (wCx g2) (need (wState g2) { g2 with uih := false }) = none
        ∧ histBusy (wState g2) (wCx g2) (need (wState g2) { g2 with uih := false }) = false)
    ∧ g2.cth = false ∧ g2.uirw = false ∧ g2.uiretpc.getLsbD 48 = false ∧ wGroup.cth = false ∧ wGroup.uih = false := by
  decide +kernel

/-- GuardsDecide: a guard slot that is FREE, PENDING and FALSE, before an instruction that the checks until the guard pass. -/
theorem witness_guards : getGroup (wState wLanes) 0 0 = some wLanes ∧ wLanes.path .a = some wPath ∧ issueOpen wLanes = true
    ∧ wLanes.guard 0 = .free ∧ wLanes.guard 1 = .pending ∧ wLanes.guard 3 = .false
    ∧ (∀ f ∈ ([{ srcs := u32 [.n 1, .q 0 true], dst := some (.push, false) }, { target := some 7, srcs := u32 [.n 1] },
          { target := some 7, early := [.k 3] }, { horizon := true }, { illegal := !feature (wState wLanes) 0 },
          { srcs := [(.k 3, true)], illegal := (0x04 : BitVec 8) == 0x04 && wLanes.hsp != wLanes.hbase },
          { srcs := [(.sel 1, false), (.n 62, true)] }, { dst := some (.eng 2, false) },
          { illegal := !wLanes.counting || !feature (wState wLanes) 1 }] : List Pre),
        preHeld (wState wLanes) (wCx wLanes) f = false ∧ f.illegal = false ∧ (usePops f.srcs).contains 5 = false
        ∧ busy wLanes f.early = false
        ∧ preTarget (wState wLanes) (wCx wLanes) f = none)
    ∧ histFault (wState wLanes) (wCx wLanes) (histNeed (wState wLanes) (wCx wLanes) {}) = none
    ∧ histBusy (wState wLanes) (wCx wLanes) (histNeed (wState wLanes) (wCx wLanes) {}) = false := by decide +kernel

/-- IssueFaults: the scoreboard holds n1; no history room; a dead queue entry; an empty status queue. -/
theorem witness_issue_faults :
    let e : LEntry := { seq := 1, kind := .ld false, dst := .lanes (.recd 1), size := 2, mask := 0xFF, slot := .a, ii := 4
                        acq := false, lanes := [(0, 0)]
                        pieces := [{ lane := 0, off := 0, tgt := .dev, addr := 0, len := 4, va := 0, tol := false }] }
    let f : Pre := { srcs := u32 [.n 1, .k 0], dst := some (.recd 2, false) }
    let gq : Group := { wGroup with live := [] }
    let ge : Group := { wGroup with e1 := [] }
    let gh : Group := { wRec with hlim := 0 }
    let fq : Pre := { srcs := u32 [.q 0 false, .k 0], dst := some (.recd 2, false) }
    let fe : Pre := { srcs := u32 [.sel 0x11, .k 0], dst := some (.recd 2, false) }
    preHeld (wState wGroup) (wCx wGroup) f = false ∧ busy { wGroup with lq := [e] } (preUses f) = true
    ∧ (busy gh (preUses f) = false ∧ histNeed (wState gh) (wCx gh) f ≠ 0
        ∧ gh.hsp.toNat + 8 * histNeed (wState gh) (wCx gh) f > gh.hlim.toNat)
    ∧ (busy gq (preUses fq) = false ∧ histFault (wState gq) (wCx gq) (histNeed (wState gq) (wCx gq) fq) = none
        ∧ histBusy (wState gq) (wCx gq) (histNeed (wState gq) (wCx gq) fq) = false ∧ (firstDead (wCx gq) fq.srcs).isSome = true)
    ∧ (busy ge (preUses fe) = false ∧ firstDead (wCx ge) fe.srcs = none ∧ emptyPop (wCx ge) fe.srcs = some 1) := by
  decide +kernel

/-- HistoryRecords: a recording group whose oldest queue entry is live in an active lane, and one where it is not. -/
theorem witness_history_records : (wCx wRec).g.recording = true ∧ wRec.qlive 16 &&& (wCx wRec).p.mask ≠ 0
    ∧ ({ wRec with live := [] } : Group).qlive 16 &&& (wCx wRec).p.mask = 0 := by decide +kernel

/-! #### History, guards and special registers -/

def wNoHist : State := { wState wGroup with facc := [(0, 0x1FE)] }

theorem witness_history_instructions :
    (∀ g ∈ [wRec, wHandler], Clears (wState g) (wCx g) none { setsRec := true, flushes := true, words := 1 })
    ∧ feature (wState wRec) 0 = true ∧ wHandler.counting = false ∧ wRec.counting = true ∧ wRec.hist.length ≤ 128
    ∧ wRec.ptrace.length ≤ 58 ∧ wRec.stack = []
    ∧ Clears (wState wRec) (wCx wRec) none { commits := true } ∧ wRec.spec = none
    ∧ (let after (g : Group) (off : Bool) : Group := eventsAll (wState g) 0 260 (finishG (wState g) ((wCx g).commit off) .fall false (commitTo off g))
       let full : Group := { wRec with hlim := 0 }
       (after wRec true).hsp = wRec.hbase ∧ (after wRec false).hsp.toNat ≤ wRec.hlim.toNat
       ∧ (after full false).hsp ≠ full.hbase ∧ (after full false).hsp.toNat > full.hlim.toNat
       ∧ clears (wState full) full none { commits := true } = true)
    ∧ Clears (wState wRec) (wCx wRec) none { target := some 14, falls := true, setsRec := true, flushes := true, words := 2 }
    ∧ wRec.guard 1 = .pending
    ∧ Clears (wState wGroup) (wCx wGroup) none { dst := some (.uni 1, false), flushes := true } ∧ wGroup.recording = false
    ∧ feature wNoHist 0 = false ∧ enter wNoHist = some (wCx wGroup) ∧ (∀ l, lineHeld wNoHist 0 0 0 l = false) := by
  refine ⟨?_, ?_, ?_, ?_, ?_, ?_, ?_, clears_of ?_, ?_, ?_, clears_of ?_, ?_, clears_of ?_, ?_, ?_, ?_, ?_⟩
  case refine_1 => intro g hg; simp only [List.mem_cons, List.not_mem_nil, or_false] at hg; rcases hg with rfl | rfl <;> exact clears_of (by decide +kernel)
  case refine_16 => rfl
  case refine_17 =>
    intro l
    have hr : ∀ h, homeHeld wNoHist h = false := fun h => by simp [homeHeld, show wNoHist.retrain = [] from rfl, mfind]
    have hw : ∀ a, walkHeld wNoHist 0 a = false := fun a => by simp [walkHeld, show wNoHist.retrain = [] from rfl]
    unfold lineHeld
    split
    · rfl
    · show (walkHeld wNoHist 0 (l * 64) || _) = false
      rw [hw]; split <;> first | exact hr _ | rfl
  all_goals decide +kernel

/-- A group with an open speculation on slot 1 and two held stores. -/
def wSpec : Group := { wGroup with
  spec := some { guard := 1, pos := 0, ic := 0, oldRec := true, alt := 6 }, recb := true
  hold := [{ seq := 1, kind := .st, rel := false, size := 2, mask := 1, wait := 0
             pieces := [{ lane := 0, off := 0, tgt := .dev, addr := 0, data := [1, 2, 3, 4], va := 0 }] }] }

/-- Slots that become PENDING, FREE, TRUE or FALSE; a path that waits for a slot and one that does not; REV to an older target, to
one that is not older, and from a uniform register; the modes; and a speculation that resolves TRUE, with an old REC of 1 and of 0,
and FALSE. -/
theorem witness_guards_and_speculation :
    Clears (wState wGroup) (wCx wGroup) none { horizon := true } ∧ wGroup.spec = none
    ∧ ¬(wGroup.guard 1 ≠ .free ∧ slotQueued wGroup 1 = true)
    ∧ (let g : Group := { wGroup with e2 := [{ bits := 0, guard := some 1, enq := false, seq := 0 }] }
       g.guard 1 ≠ .free ∧ slotQueued g 1 = true ∧ clears (wState g) g none { horizon := true } = true)
    ∧ Clears (wState wGroup) (wCx wGroup) none { srcs := u32 [.k 3], horizon := true } ∧ wGroup.guard 1 ≠ .free
    ∧ (∀ v ∈ [some (5, 1, none), (none : Option (II × Nat × Option GState))],
        ({ wGroup with pathA := some { wPath with gwait := v } } : Group).path .a = some { wPath with gwait := v })
    ∧ (let g : Group := { wGroup with ic := 7, k := [(3, 7)] }
       (∀ us ∈ [[], [Use.k 3]], clears (wState g) g none { commits := true, uses := us } = true) ∧ g.counting = true
       ∧ histFault (wState g) (wCx g) (revNeed (wState g) (wCx g)) = none
       ∧ histBusy (wState g) (wCx g) (revNeed (wState g) (wCx g)) = false
       ∧ ((5 : BitVec 32).setWidth 48 : BitVec 48) < g.ic ∧ ¬((g.kreg 3).setWidth 48 : BitVec 48) < g.ic)
    ∧ getGroup (wState wGroup) 0 0 = some wGroup
    ∧ (∀ r ∈ [true, false], ∀ v ∈ [(0x61 : BitVec 8), 0x60],
        let sp : SpecState := { guard := 1, pos := 0, ic := 0, oldRec := r, alt := 6 }
        let g : Group := { wSpec with spec := some sp }
        clears (wState g) g none { srcs := u32 [.sel v], horizon := true, specPass := true, words := 1 } = true
        ∧ histFault (wState g) (wCx g) 0 = none ∧ histBusy (wState g) (wCx g) 0 = false ∧ g.ptrace = []
        ∧ g.guard 1 ≠ .free ∧ (opnd32 (wCx g) (u32 [.sel v]) 0 0 ≠ 0 ↔ v = 0x61)
        ∧ (let s1 := setGroup (wState g) 0 0 (specDrop sp g)
           specWalk 0 0 (g.ic - sp.ic).toNat s1 .a = (s1, .a, none) ∧ (getGroup s1 0 0).map (·.path .a) = some (some wPath))) := by
  refine ⟨clears_of ?_, ?_, ?_, ?_, clears_of ?_, ?_, ?_, ?_, ?_, ?_⟩ <;> decide +kernel

/-- SRD, of HSP with and without a pending trace; SWR of each register; HBASE of a stack in use; and a machine with a context. -/
theorem witness_special_registers :
    let pre (g : Group) (num : BitVec 8) : Pre :=
      { srcs := [(.k 3, true)], horizon := true, illegal := num == 0x04 && g.hsp != g.hbase
        badValue := num == 0x05 && (opnd (wCx g) [(.k 3, true)] 0 0 &&& ~~~7).ult g.hsp }
    let used : Group := { wLanes with hsp := 8 }
    clears (wState wLanes) wLanes none { dst := some (.uni 30, false) } = true
    ∧ (∀ t ∈ [[], [Slot.a]], let g : Group := { wRec with ptrace := t }
        clears (wState g) g none { dst := some (.recd 3, false), flushes := true } = true)
    ∧ ([0x04, 0x05, 0x08, 0x09, 0x0A, 0x0C, 0x14, 0x21, 0x22].all fun num =>
        clears (wState wLanes) wLanes none (pre wLanes num)) = true
    ∧ (preHeld (wState used) (wCx used) (pre used 0x04) = false ∧ used.hsp ≠ used.hbase ∧ issueOpen used = true)
    ∧ (preHeld (wState used) (wCx used) (pre used 0x05) = false ∧ used.spec = none ∧ busy used (preUses (pre used 0x05)) = false
        ∧ (opnd (wCx used) [(.k 3, true)] 0 0).toNat / 8 * 8 < used.hsp.toNat)
    ∧ (mfind (wState wLanes).ctxs wLanes.ctx).isSome = true ∧ parked wLanes.stack < 256 := by decide +kernel

/-! #### Memory instructions -/

/-- k1 to k4 hold a device, a host, a latest-only and an unmapped address; n63 and n62 hold data. -/
def wMem : Group := { wGroup with k := [(1, 0x4000), (2, 0x100000000), (3, 0x200000000), (4, 0x400000000)], privbase := 0x8000 }

def wOp (sp : Space) (kb : BitVec 7) (size : BitVec 3) (scale : BitVec 2) : MemOp :=
  { off := 0, ord := false, size := size, space := sp, scale := scale, kb := kb, sa := .sel 1 }

/-- The accesses of a memory operand, from the witness state. -/
def wAcc (g : Group) (m : MemOp) (size align : Nat) (nd : Need) : Except (BitVec 8 × Mask × Nat) (List LPiece) :=
  accesses (wState g) g m.space size align nd (wCx g).p.mask (memAddr (wCx g) [(m.sa, false)] m)

/-- A request of the entry 1 of group slot 0 for bytes of device memory. -/
def wReq (a : Nat) (k : ReqKind) (bs : List Byte) : Req :=
  { gslot := 0, seq := 1, tgt := .dev, addr := a, va := a, tol := false, kind := k
    parts := [{ lane := 0, off := 0, addr := a, len := bs.length, bytes := bs }] }

theorem witness_access_pieces : ∃ ps, wAcc wMem (wOp .dev 1 3 3) 8 8 .load = .ok ps := ok_of (by decide +kernel)

theorem witness_loads :
    (∀ d ∈ [Dst.recd 62, .dead 0, .push, .discard], ∀ sp ∈ [Space.dev, .priv, .host],
      clears (wState wMem) wMem none (loadPre (wCx wMem) [(.sel 1, false)] (if sp = .host then 2 else if sp = .dev then 1 else 0) d 3) = true
      ∧ (wAcc wMem (wOp sp (if sp = .host then 2 else if sp = .dev then 1 else 0) 3 3) 8 (accAlign sp 8) .load).toOption.isSome = true)
    ∧ clears (wState wMem) wMem none (loadPre (wCx wMem) [(.sel 0, false)] 1 (.uni 127) 3) = true
    ∧ (wAcc wMem (wOp .dev 1 3 0) 8 8 .load).toOption.isNone = true
    ∧ clears (wState wMem) wMem none (loadPre (wCx wMem) [(.sel 0, false)] 3 (.recd 60) 4) = true
    ∧ feature (wState wMem) 2 = true ∧ (wAcc wMem { wOp .dev 3 4 0 with sa := .sel 0 } 16 16 .loLoad).toOption.isSome = true
    ∧ (wAcc wMem (wOp .dev 4 2 2) 4 4 .load).toOption.isNone = true := by decide +kernel

/-- ST, private ST and STLO: outside a speculation, under one with room and with a full hold queue; under REC. -/
theorem witness_stores :
    let wMemRec : Group := { wMem with recb := true }
    let wMemSpec : Group := { wMem with spec := wSpec.spec }
    let full : Group := { wMemSpec with hold := (List.range 32).flatMap fun _ => wSpec.hold }
    let pre (sp : Bool) : Pre := { srcs := [(.sel 1, false), (.n 63, false)], uses := .k 1 :: storeUses (.n 63) 2, horizon := true, specPass := sp }
    let priv (n : Nat) : Pre := { srcs := [(.sel 1, false), (.n 62, true)], uses := .k 0 :: storeUses (.n 62) 3, words := n }
    let ps := (wAcc wMem (wOp .priv 0 3 3) 8 4 .store).toOption.getD []
    clears (wState wMem) wMem none (pre false) = true ∧ wMem.spec.isSome = false
    ∧ (clears (wState wMemSpec) wMemSpec none (pre true) = true ∧ wMemSpec.hold.length < 32)
    ∧ (clears (wState full) full none (pre true) = true ∧ 32 ≤ full.hold.length)
    ∧ (wAcc wMem (wOp .dev 1 2 2) 4 4 .store).toOption.isSome = true
    ∧ (wAcc wMem (wOp .host 2 2 2) 4 4 .store).toOption.isSome = true
    ∧ clears (wState wMem) wMem none (priv 0) = true ∧ wMem.recording = false
    ∧ (wAcc wMem (wOp .priv 0 3 3) 8 4 .store).toOption.isSome = true
    ∧ clears (wState wMemRec) wMemRec none (priv (recWords (memoldLen 8 8))) = true ∧ wMemRec.recording = true
    ∧ (peekAll (wState wMemRec) (wCx wMemRec) ps).isSome = true
    ∧ (let s : State := { wState wMemRec with paths := [(pathKey 0 (homeOf (wState wMemRec) .dev 0x8000), [wReq 0x8000 .store [1]])] }
       clears s wMemRec none (priv (recWords (memoldLen 8 8))) = true ∧ peekAll s (wCx wMemRec) ps = none)
    ∧ clears (wState wMem) wMem none { srcs := [(.sel 0, false), (.n 60, false)], uses := .k 3 :: storeUses (.n 60) 4, horizon := true } = true
    ∧ (wAcc wMem { wOp .dev 3 4 0 with sa := .sel 0 } 16 16 .loStore).toOption.isSome = true := by decide +kernel

theorem witness_exchanges :
    let pre (d : Dst) (more : List Use) : Pre :=
      { loadPre (wCx wMem) [(.sel 1, false), (.n 62, false)] 1 d 2 with
        uses := (loadPre (wCx wMem) [(.sel 1, false), (.n 62, false)] 1 d 2).uses ++ more, horizon := true }
    (∀ d ∈ [Dst.recd 0, .dead 63, .push, .discard], clears (wState wMem) wMem none (pre d (storeUses (.n 62) 2)) = true)
    ∧ (wAcc wMem (wOp .dev 1 2 2) 4 4 .rmw).toOption.isSome = true ∧ (wAcc wMem (wOp .priv 0 2 2) 4 4 .rmw).toOption.isSome = true
    ∧ clears (wState wMem) wMem none { loadPre (wCx wMem) [(.sel 1, false), (.n 62, false)] 0 (.recd 4) 2 with
        uses := [.k 0, .n 4 1] ++ storeUses (.n 62) 2 } = true
    ∧ (peekAll (wState wMem) (wCx wMem) ((wAcc wMem (wOp .priv 0 2 2) 4 4 .rmw).toOption.getD [])).isSome = true
    ∧ clears (wState wMem) wMem none (pre (.recd 4) [.n 8 2]) = true := by decide +kernel

/-- Fences with and without a live load; PUB of a window that is set up and of one that is not; hints that hit L1, that ask their
homes, that find 256 requests outstanding, that leave the address space, and one of whose lanes names a latest-only page. -/
theorem witness_ordering_instructions :
    let s : State := { wState wMem with ctl := mset State.reset.ctl 0x0460 1 }
    let full : State := { wState wMem with paths := [(pathKey 0 1, (List.range 256).map fun k => { wReq (0x8000 + 32 * k) (.read false) [1] with gslot := k })] }
    let uses (k : Nat) : Pre := { srcs := [(.sel 0, false)], uses := [.k k] }
    let edge : Group := { wMem with k := [(1, 0x1FFFFFFC8)] }
    let at_ := memAddr (wCx wMem) [(.sel 0, false)]
    clears (wState wMem) wMem none {} = true ∧ liveLq wMem = []
    ∧ (liveLq { wMem with lq := [{ seq := 1, kind := .ld false, dst := .lanes (.recd 1), size := 2, mask := 1, slot := .a, ii := 4, acq := false, lanes := [], pieces := [] }] } ≠ [])
    ∧ clears s wMem none { horizon := true } = true ∧ (winWord s 3).getLsbD 0 = true ∧ (winWord s 15).getLsbD 0 = false
    ∧ clears (wState wMem) wMem none (uses 1) = true ∧ clears full wMem none (uses 1) = true
    ∧ ((lanes (wCx wMem).p.mask).all fun l => decide (at_ (wOp .dev 1 6 0) l < 2 ^ 52)
        && (piecesOf 4096 (at_ (wOp .dev 1 6 0) l) (2 ^ 6)).all fun p =>
          match xlate (wState wMem) 0 (at_ (wOp .dev 1 6 0) l + p.1) .hint false with
          | .ok .. => true
          | _ => false) = true
    ∧ (let miss (t : State) : Nat := prefMiss t 0 (prefTargets t (wCx wMem) (wOp .dev 1 6 0) (at_ (wOp .dev 1 6 0)))
       0 < miss full ∧ 256 < outstanding full 0 + miss full ∧ outstanding (wState wMem) 0 + miss (wState wMem) ≤ 256)
    ∧ ((lanes (wCx wMem).p.mask).all fun l => decide (2 ^ 52 ≤ at_ { wOp .dev 0 0 0 with off := 0x8000 } l)) = true
    ∧ (wCx wMem).p.mask ≠ 0
    ∧ clears (wState edge) edge none { srcs := [(.sel 1, false)], uses := [.k 1] } = true
    ∧ prefLo (wState edge) (wCx edge) (wOp .dev 1 3 3) (memAddr (wCx edge) [(.sel 1, false)] (wOp .dev 1 3 3)) = [(7, 0x200000000)]
    ∧ (∀ r ∈ [([] : AMap Nat), (List.range 8).map fun k => (k, 1)],
        prefHeld { wState edge with retrain := r } (wCx edge) (prefTargets { wState edge with retrain := r } (wCx edge) (wOp .dev 1 3 3)
          (memAddr (wCx edge) [(.sel 1, false)] (wOp .dev 1 3 3))) = !r.isEmpty)
    ∧ clears { wState edge with retrain := (List.range 8).map fun k => (k, 1) } edge none { srcs := [(.sel 1, false)], uses := [.k 1] } = true
    ∧ walkHeld (wState wMem) 0 0x4000 = false := by
  decide +kernel

/-- PIN, UNPIN of a window of the context and of another, and DISCARD of a range, of an odd one and an empty one, of one that is
not mapped and of one that may not be written. -/
theorem witness_memory_windows :
    let s : State := { wState wMem with pins := [(7, { ctx := 0, base := 0, units := 1, fade := 1, count := 1, pages := [] })] }
    clears s wMem none { horizon := true, dst := some (.recd 3, false), uses := [.k 1] } = true
    ∧ ((7 : BitVec 32).toNat < 32 ∧ mfind s.pins 7 = some { ctx := 0, base := 0, units := 1, fade := 1, count := 1, pages := [] })
    ∧ mfind s.pins 31 = none ∧ ¬(32 : BitVec 32).toNat < 32
    ∧ rangeTrap s 0 0x10000 0x10000 .disc false = none
    ∧ rangeTrap s 0 0x400000000 0x10000 .disc false = some (true, 0x400000000)
    ∧ rangeTrap s 0 0x300000000 0x10000 .disc false = some (false, 0x300000000)
    ∧ (let h : State := { s with retrain := (List.range 8).map fun k => (k, 1) }
       clears h wMem none { horizon := true, dst := some (.recd 3, false), uses := [.k 1] } = true
       ∧ (pinCode h 0 0x10001 1).1 ≠ 5 ∧ rangeHeld h 0 0x10000 0x10000 .pin = true ∧ rangeHeld h 0 0x10000 0x10000 .disc = true)
    ∧ rangeHeld s 0 0x10000 0x10000 .pin = false ∧ rangeHeld s 0 0x10000 0x10000 .disc = false
    ∧ rangeHeld s 0 0x400000000 0x10000 .disc = false ∧ rangeHeld s 0 0x300000000 0x10000 .disc = false
    ∧ (pinCode s 0 0x10001 1).1 = 0 ∧ (pinCode s 0 0 0).1 = 5
    ∧ (wfld 0x10000 16 36 * 65536 = 0x10000 ∧ wfld 0x10000 0 16 = 0 ∧ wfld 0x10001 0 16 ≠ 0 ∧ 0x10000 + 0x10000 ≤ 2 ^ 52) := by
  decide +kernel

/-! #### The ordering machine -/

def wPiece : LPiece := { lane := 0, off := 0, tgt := .dev, addr := 0x40, len := 4, va := 0x40, tol := false }
def wLoad : LEntry :=
  { seq := 3, kind := .ld false, dst := .lanes (.recd 1), size := 2, mask := 1, slot := .a, ii := 4
    acq := false, lanes := [(0, 0x40)], pieces := [wPiece] }
def wStored (seq : Nat) (k : SKind) : SEntry :=
  { seq := seq, kind := k, rel := false, size := 2, mask := 1, wait := 1
    pieces := [{ lane := 0, off := 0, tgt := .dev, addr := 0x40, data := [1, 2, 3, 4], va := 0x40 }] }

/-- A load with a granule in L1, with a forwarded store, with neither, with 256 requests outstanding, and behind an older load of the
same granule; and bound loads of each width to a register, a uniform register and the result queue. -/
theorem witness_load_bind :
    let g : Group := { wGroup with lq := [wLoad] }
    let s (l1 : AMap L1Gran) : State := setCore (wState g) 0 { getCore (wState g) 0 with l1 := l1 }
    let l1 : AMap L1Gran := [(2, { owned := false, ver := 0, data := List.replicate 32 5 })]
    let g2 : Group := { g with sq := [wStored 1 .st] }
    let full : State := { s [] with paths := [(pathKey 0 1, (List.range 256).map fun k => { wReq (0x8000 + 32 * k) (.read false) [1] with gslot := k })] }
    let old : LEntry := { wLoad with seq := 2 }
    olderUnbound g wLoad wPiece = false ∧ olderUnbound { g with lq := [old, wLoad] } wLoad wPiece = true
    ∧ wPiece.val = none ∧ wPiece.sent = false ∧ wLoad.pieces[0]? = some wPiece
    ∧ (localBytes (s l1) 0 g 3 .dev 0x40 4 false).toOption.isSome = true
    ∧ (match localBytes (s []) 0 g 3 .dev 0x40 4 false with | .error b => !b | .ok _ => false) = true
    ∧ (match localBytes full 0 g 3 .dev 0x40 4 false with | .error b => !b | .ok _ => false) = true
    ∧ outstanding (s []) 0 < 256 ∧ 256 ≤ outstanding full 0
    ∧ fwdByte g2 3 .dev 0x43 = some (some 4) ∧ (localBytes (s []) 0 g2 3 .dev 0x40 4 false).toOption.isSome = true
    ∧ fwdByte g 3 .dev 0x43 = none
    ∧ (∀ d ∈ [Dst.recd 60, .dead 60, .uni 127, .push], ∀ z ∈ [0, 2, 3, 4],
        let e : LEntry := { wLoad with dst := .lanes d, size := z
                                       pieces := [{ wPiece with len := 2 ^ z, val := some (List.replicate (2 ^ z) 0x81) }] }
        [e].find? (fun x => x.seq == e.seq) = some e ∧ (e.pieces.all fun p => p.val.isSome && !p.bad) = true ∧ e.acq = false) := by
  decide +kernel

/-- The oldest store of SQ of each kind; a release behind an older load, and one that waits for an older store; and a PUB marker
that has drained. -/
theorem witness_drain :
    let g (k : SKind) : Group := { wGroup with sq := [wStored 1 k], lq := [wLoad] }
    (∀ k ∈ [SKind.st, .xst, .atom .add, .stlo true, .fenceRel, .fenceAr, .pub 3],
      ((g k).sq.find? fun e => !e.drained) = some (wStored 1 k) ∧ pubPending (g k) = false ∧ readsFirst (g k) (wStored 1 k) = false
      ∧ (relDrain (wStored 1 k) = true → (∀ e ∈ (g k).lq, ¬e.seq < 1) ∧ ((g k).sq.head?.map (·.seq)) = some 1))
    ∧ (relDrain (wStored 5 .fenceRel) = true ∧ ∃ e ∈ [wLoad], e.seq < 5)
    ∧ (let x := { wStored 2 .st with rel := true }
       relDrain x = true ∧ ∀ y, [{ wStored 1 .st with drained := true }, x].head? = some y → y.seq ≠ x.seq)
    ∧ (let g2 : Group := { wGroup with sq := [{ wStored 1 (.pub 3) with drained := true }, wStored 2 .st] }
       pubPending g2 = true ∧ (g2.sq.find? fun e => !e.drained) = some (wStored 2 .st)) := by
  refine ⟨by decide +kernel, by decide +kernel, ⟨by decide +kernel, ?_⟩, by decide +kernel⟩
  intro y h
  cases h
  decide

/-- Requests at dome 0: a store of two parts and a read of the last byte of a granule, with an owner, and under retraining; reads of a
sector with an uncorrectable byte, of that byte, of another and of both; and latest-only stores with a SEQ that is not higher and that
is. -/
theorem witness_homes :
    let st : Req := { wReq 0x1F .store [9] with parts := [{ lane := 0, off := 0, addr := 0x1F, len := 1, bytes := [9] }, { lane := 1, off := 0, addr := 0, len := 2, bytes := [7, 8] }] }
    let rd : Req := wReq 0x1F (.read false) [1]
    let lo (n : Byte) : Req := wReq 0x10 (.stlo false) (List.replicate 8 n ++ List.replicate 8 0)
    let s (r : Req) : State := { State.reset with paths := [(pathKey 3 0, [r])], gran := [(0, { ver := 1, owner := some 4 })] }
    pathReqs (s st) 3 0 = [st] ∧ pathReqs (s rd) 3 0 = [rd] ∧ pathReqs (s (lo 1)) 3 0 = [lo 1]
    ∧ (s st).rowsBad = [] ∧ (s st).dead = [] ∧ mfind (s st).retrain (0 / 10) = none ∧ (granOf (s st) 0x1F).owner = some 4
    ∧ rangeOf (s rd) (reqCtx (s rd) 3 rd) rd.va = none ∧ (mfind ([(0, 6)] : AMap Nat) (0 / 10)).isSome = true
    ∧ (let x : State := { s rd with uncorr := [(0, 0x80000000)] }
       let q (a : Nat) : RPart := { lane := 0, off := 0, addr := a, len := 1, bytes := [] }
       sectorBad x 0 = true ∧ ([q 0x1F].all fun k => bytesBad x k.addr k.len) = true ∧ bytesBad x (q 0).addr 1 = false)
    ∧ ((lo 1).parts.all fun k => k.addr % 16 == 0 && k.bytes.length == 16) = true
    ∧ loSeq (List.replicate 16 0) ≤ loSeq (memReads (s (lo 0)).mem 0x10 16)
    ∧ loSeq (memReads (s (lo 1)).mem 0x10 16) < loSeq (List.replicate 16 1) := by decide +kernel

theorem witness_atomics : 0 < 8 ∧ 8 ≤ 8 ∧ 2 ^ 64 - 1 < 2 ^ (8 * 8) ∧ (List.replicate 16 (0xFF : Byte)).length ≥ 8 := by decide

/-- Answers: a demotion of an owned granule; an acknowledgement of a store whose group has ended, over no granule, over an older and
over a newer one; one that ends an entry's last piece, one of an entry with two; one that waits for a demotion; and a publication. -/
theorem witness_responses :
    let l1 : AMap L1Gran := [(2, { owned := true, ver := 1, data := [] }), (6, { owned := true, ver := 2, data := [] })]
    let a1 (gr : Nat) : Resp := .ack 9 1 [(0, 0, [])] [] .dev gr 1 (some [1]) false []
    let a2 (seq : Nat) : Resp := .ack 0 seq [(0, 0, [])] [] .host 0 0 none false []
    let a3 : Resp := .ack 0 1 [] [] .dev 5 1 none false [8]
    let g : Group := { wGroup with sq := [wStored 1 .st, { wStored 2 .st with wait := 2 }] }
    let s : State := { State.reset with
      cores := [(0, { groups := [(0, g)], l1 := l1, resp := [.demote 8 2, a1 5, a2 1, a3, a2 2, a1 2, a1 6] })] }
    (getCore s 0).resp[0]? = some (.demote 8 2) ∧ respFirst (getCore s 0).resp 0 = true
    ∧ mfind (getCore s 0).l1 2 = some { owned := true, ver := 1, data := [] }
    ∧ (getCore s 0).resp[1]? = some (a1 5) ∧ respFirst (getCore s 0).resp 1 = true
    ∧ (getCore s 0).resp[5]? = some (a1 2) ∧ (getCore s 0).resp[6]? = some (a1 6) ∧ respFirst (getCore s 0).resp 6 = true
    ∧ ([] : List Nat).any (demPending s) = false
    ∧ mfind (getCore s 0).l1 5 = none ∧ mfind (getCore s 0).l1 6 = some { owned := true, ver := 2, data := [] }
    ∧ getGroup s 0 9 = none
    ∧ (getCore s 0).resp[2]? = some (a2 1) ∧ getGroup s 0 0 = some g ∧ g.lq = [] ∧ g.sq.find? (fun x => x.seq == 1) = some (wStored 1 .st)
    ∧ (let d (seq gr : Nat) : Resp := .ack 0 seq [(0, 0, [])] [] .dev gr 1 (some [1]) false []
       let u : State := { s with cores := [(0, { groups := [(0, g)], l1 := l1, resp := [d 1 5, d 2 6] })] }
       (getCore u 0).resp = [d 1 5, d 2 6] ∧ respFirst (getCore u 0).resp 0 = true ∧ respFirst (getCore u 0).resp 1 = true)
    ∧ (wStored 1 .st).wait ≤ 1 ∧ (getCore s 0).resp[4]? = some (a2 2) ∧ (g.sq.find? (fun x => x.seq == 2)).map (·.wait) = some 2
    ∧ (getCore s 0).resp[3]? = some a3 ∧ ([8] : List Nat).any (demPending s) = true
    ∧ (let p : PubWrite := { addr := 64, bytes := [1], ctx := 0 }
       let x : SEntry := { wStored 1 (.pub 3) with drained := true, pieces := [] }
       let s2 : State := { wState { wGroup with sq := [x] } with pubs := [(3, [p])] }
       s2.hostDown = false ∧ mget [] s2.pubs 3 = [p] ∧ getGroup s2 0 0 = some { wGroup with sq := [x] } ∧ x.kind = .pub 3) := by
  decide +kernel

/-- OutsideAccesses: a read, a write and an ATOM at the last byte of a granule of 8, with an owner; of the host and of a peer; on a
stack that retrains; of an address that is not mapped, with room in the ring and with none; without the link, the feature, the route or
the port; of no byte and beyond 8 bytes; and walks with a leaf, without one, and without a context. -/
theorem witness_outside :
    let s : State := { wState wGroup with ctl := mset (mset State.reset.ctl 0x0688 8) 0x0908 4, gran := [(0x200, { ver := 1, owner := some 0 })] }
    let x (op : OutOp) : OutAccess := { ctx := 0, va := 0x4007, len := 1, op := op }
    let held : State := { s with retrain := (List.range 8).map fun k => (k, 1) }
    let w : Walker := { core := 0, ctx := 0 }
    s.hostDown = false ∧ (feature s 8 = true ∧ routeLive s 1 = true ∧ linkLost s (.peer 1) = false)
    ∧ 0 < (x .read).len ∧ (x .read).va % 8 + (x .read).len ≤ 8 ∧ s.rowsBad = [] ∧ sectorBad s 0x4007 = false
    ∧ (∀ nd ∈ [Need.load, .store, .rmw], xlate s 0 0x4007 nd false = .ok .dev 0x4007 false)
    ∧ (∀ op ∈ [OutOp.read, .write [5], .atom .add [5]], outNeed op ∈ [Need.load, .store, .rmw])
    ∧ homeHeld s (domeOf s 0x4007) = false ∧ (granOf s 0x4007).owner = some 0
    ∧ homeHeld held (domeOf held 0x4007) = true ∧ xlate held 0 0x4007 .load false = .ok .dev 0x4007 false
    ∧ xlate s 0 0x400000000 .load false = .page ∧ frFull s = false
    ∧ walkHeld s 0 0x4007 = false ∧ walkHeld s 0 0x400000000 = false ∧ walkHeld held 0 0x4007 = true ∧ bytesBad s 0x4007 1 = false
    ∧ ((walkAddrs s 0 4 3 0x1000000000).all fun a => !homeHeld s (domeOf s a)) = true
    ∧ ((walkAddrs held 0 4 3 0x1000000000).any fun a => homeHeld held (domeOf held a)) = true
    ∧ frFull { s with ctl := mset s.ctl 0x0908 2 } = true
    ∧ ({ s with hostDown := true } : State).hostDown = true
    ∧ feature State.reset 8 = false ∧ routeLive s 2 = false ∧ linkLost { s with portsDown := [0, 1, 2, 3, 4, 5, 6, 7] } (.peer 1) = true
    ∧ ¬(0x4007 % 8 + 2 ≤ 8)
    ∧ (mfind s.ctxs 5 = none ∧ (mfind s.ctxs w.ctx).map (·.root) = some 0x1000000000 ∧ w.core < 192)
    ∧ (match walk s 0 4 3 0x1000000000 with | .ok (e, l) => e == 0x3B && l == 2 | .error _ => false) = true
    ∧ (match walk s 0x400000000 4 3 0x1000000000 with | .ok _ => false | .error p => p) = true := by decide +kernel

/-! #### Tiles -/

/-- Handle 3 is a plain tile of eight rows of eight .s32 elements, 2 a ring tile of four slots, and 5 a frame tile of eight
rows of 8 bytes. -/
def wTiles : AMap Tile :=
  [(0, { kind := .plain, unit := 0, th := 3, fmt := .s32, rows := 8, rowBytes := 32, base := 0 }),
   (1, { kind := .ring, unit := 0, th := 2, fmt := .b8, rows := 4, rowBytes := 4, base := 256
         ring := { inited := true, logs := 2, preg := 1, res := 2, cmt := 1 } }),
   (2, { kind := .frame, unit := 0, th := 5, fmt := .s32, rows := 8, rowBytes := 8, base := 384 })]

def wTileState (g : Group) : State := setCore (wState g) 0 { getCore (wState g) 0 with tiles := wTiles }

def wTile (i : Nat) : Option Tile := mfind wTiles i

theorem witness_tile_allocation :
    clears (wTileState wGroup) wGroup none { srcs := [(.sel 0, true)], dst := some (.recd 2, false), horizon := true, uses := [.tile (shapeTh 0x00400407)] } = true
    ∧ (feature (wTileState wGroup) 1 = true ∧ shapeRows 0x00400407 % (wCx wGroup).w = 0)
    ∧ (tallocStatus (wTileState wGroup) (wCx wGroup) .frame 0 0x00400407).1 = 0
    ∧ (tallocStatus (wTileState wGroup) (wCx wGroup) .plain 0 0x0041FFFF).1 ≠ 0
    ∧ (getUnit (wTileState wGroup) 0 0 = some wUnit
       ∧ (∀ x ∈ [(TileKind.frame, (1 : DWord), (0x00400407 : BitVec 32), 3), (.plain, 0, 0x03400407, 2), (.plain, 0, 0x0041FFFF, 1), (.plain, 0, 0x00400407, 0)],
          (tallocStatus (wTileState wGroup) (wCx wGroup) x.1 x.2.1 x.2.2.1).1 = x.2.2.2
          ∧ ((findTile (wTileState wGroup) 0 0 (shapeTh x.2.2.1)).isSome ↔ x.2.2.2 = 2))
       ∧ wfld (1 : DWord) 0 12 ≠ 0
       ∧ (∀ kv ∈ (getCore (wTileState wGroup) 0).tiles, kv.2.unit = 0 → kv.2.base % 128 = 0 ∧ wUnit.resOff ≤ kv.2.base))
    ∧ (∀ h ∈ [63, 3, 5], clears (wTileState wGroup) wGroup none { horizon := true, uses := [.tile h] } = true) ∧ findTile (wTileState wGroup) 0 0 63 = none
    ∧ (findTile (wTileState wGroup) 0 0 3).map (·.1) = some 0 ∧ tileNamed (wTileState wGroup) 0 0 3 = false
    ∧ (let g : Group := { wGroup with e0 := [{ bits := BitVec.ofNat 128 (0xB2 + 3 * 2 ^ 25), guard := none, enq := false, seq := 0 }] }
       tileNamed (wTileState g) 0 0 3 = true)
    ∧ (wTile 2).map (fun t => (filledRows (wTileState wGroup) 0 t, t.bin.held)) = some ([], 0) := by decide +kernel

theorem witness_rings :
    clears (wTileState wGroup) wGroup none { srcs := [(.k 5, true)], dst := some (.discard, true), horizon := true, uses := [.tile 2] } = true
    ∧ clears (wTileState wGroup) wGroup none { dst := some (.uni 5, true), horizon := true, uses := [.tile 2] } = true
    ∧ (findTile (wTileState wGroup) 0 0 2).map (fun x => (x.1, x.2.kind)) = some (1, .ring) ∧ released wGroup = true
    ∧ (match wTile 1 with
       | some t => [(RingOp.init, 0), (.reg, 0), (.reserve, 0), (.commit, 1), (.acquire, 0), (.release, 0), (.eos, 0), (.state, 0)].map
           fun x => match ringStep { t with ring := { t.ring with acq := if x.1 = .release then 1 else 0 } } x.1 x.2 2 0 with
             | .done .. => true
             | _ => false
       | none => []) = List.replicate 8 true
    ∧ ([63, 3].all fun h => clears (wTileState wGroup) wGroup none { dst := some (.uni 5, true), horizon := true, uses := [.tile h] }) = true
    ∧ (findTile (wTileState wGroup) 0 0 3).map (fun x => x.2.kind) = some .plain
    ∧ released { wGroup with sq := [wStored 1 .st] } = false
    ∧ (let g : Group := { wGroup with sq := [wStored 1 .st] }
       clears (wTileState g) g none { dst := some (.uni 5, true), horizon := true, uses := [.tile 2] } = true)
    ∧ (match wTile 1 with
       | some t => decide (ringStep t .reserve 0 2 7 = .bounds)
           && decide (ringStep { t with ring := { t.ring with res := 4 } } .reserve 0 2 0 = .wait)
           && t.ring.inited && decide (ringStep { t with ring := {} } .state 0 2 0 = .bounds)
       | none => false) = true := by decide +kernel

/-- TilesAndRings: a core whose tiles lie aligned in the unit's region, with room for a tile; and a sound ring. -/
theorem witness_tile_places :
    (∀ kv ∈ (getCore (wTileState wGroup) 0).tiles, kv.2.unit = 0 → kv.2.base % 128 = 0 ∧ wUnit.resOff ≤ kv.2.base)
    ∧ tilePlace (wTileState wGroup) 0 0 wUnit 128 = some 512
    ∧ (match wTile 1 with
       | some t => decide (t.ring.logs ≤ 6 ∧ (t.ring.acq - t.ring.rls).toNat ≤ (t.ring.cmt - t.ring.rls).toNat
           ∧ (t.ring.cmt - t.ring.rls).toNat ≤ (t.ring.res - t.ring.rls).toNat ∧ (t.ring.res - t.ring.rls).toNat ≤ 2 ^ t.ring.logs
           ∧ t.ring.inited = true ∧ 0 < t.ring.filled)
       | none => false) = true := by decide +kernel

def wSlice (i : BitVec 10) : Slice := { slice0 with th := 3, idx := i }

theorem witness_tile_moves :
    let sw := sliceWords (wCx wRec)
    clears (wTileState wRec) wRec none { dst := some (.recd 3, false), uses := sliceUses (wSlice 7) } = true
    ∧ clears (wTileState wRec) wRec none { srcs := u32 [.n 5], uses := sliceUses (wSlice 7), words := sw } = true
    ∧ clears (wTileState wRec) wRec none { srcs := u32 [.n 5], dst := some (.push, false), uses := sliceUses (wSlice 7) } = true
    ∧ clears (wTileState wRec) wRec none { srcs := u32 [.n 5], dst := some (.dead 3, false), uses := sliceUses (wSlice 7), words := sw } = true
    ∧ (sliceOffs (wTileState wRec) (wCx wRec) (wSlice 7)).isSome = true
    ∧ (sliceOffs (wTileState wRec) (wCx wRec) { wSlice 7 with ax := true }).isSome = true
    ∧ sliceOffs (wTileState wRec) (wCx wRec) (wSlice 8) = none
    ∧ sliceOffs (wTileState wRec) (wCx wRec) { wSlice 0 with th := 63 } = none := by decide +kernel

theorem witness_tile_columns :
    let sl : Slice := { wSlice 7 with ax := true }
    let g : Group := { wMem with colop := some { slot := .a, th := 3, row := 7, col := 7, b := 1 } }
    clears (wTileState wMem) wMem none { srcs := [(.k 1, true)], uses := sliceUses sl, horizon := true } = true ∧ wMem.colop = none
    ∧ (wTile 0).map (fun t => (t.fmt, t.cols, t.rows)) = some (.s32, 8, 8) ∧ sliceIdx (wCx wMem) sl + (0 + 1) ≤ 8
    ∧ ((wTile 2).map (fun t => (t.kind, hdrFilled (rowHdr (wTileState g) 0 t 0))) = some (.frame, false))
    ∧ ((wTileState g).cur = (0, 0, .a) ∧ getGroup (wTileState g) 0 0 = some g ∧ g.pathA = some wPath ∧ g.colop.map (·.slot) = some .a ∧ 8 ≤ 7 + 1)
    ∧ clears (wTileState wMem) wMem none { srcs := u32 [.sel 0], uses := .k 1 :: sliceUses (wSlice 0), horizon := true } = true
    ∧ (∀ host ∈ [false, true], ∀ nd ∈ [Need.plainLoad, .store],
        (accesses (wTileState wMem) wMem (if host then .host else .dev) 4 4 nd (wCx wMem).p.mask
          (tileAddr (wCx wMem) (u32 [.sel 0]) (if host then 2 else 1))).toOption.isSome = true) := by decide +kernel

/-! #### Barriers and engine commands -/

def wBar : Barrier := { reload := 2, pending := 2 }
/-- Barrier 7 is set up in a unit of one group. -/
def wBarState (g : Group) (b : Barrier) : State := setUnit (wState g) 0 0 (wUnit.setBar 7 b)
def wArgs : Group := { wGroup with k := [(1, 1), (2, 0x0000010100000002), (3, 0)] }

theorem witness_barriers :
    let s := wBarState wArgs wBar
    clears s wArgs none { horizon := true, uses := [.k 2] } = true
    ∧ findBar s (wCx wArgs) 7 = some (wUnit.setBar 7 wBar, wBar) ∧ findBar s (wCx wArgs) 8 = none
    ∧ (wfld (wArgs.kreg 2) 0 24 ≠ 0 ∧ wfld (wArgs.kreg 2) 24 8 < wUnit.ngrp ∧ barNamed s 0 0 7 = false ∧ barWaited s 0 0 7 = false)
    ∧ wBar.reload ≠ 0 ∧ released wArgs = true
    ∧ (arrive s 0 0 7 ((wArgs.kreg 1).setWidth 32) 1 false).isSome = true
    ∧ clears s wArgs none { dst := some (.recd 7, false), uses := [.k 3] } = true
    ∧ (wBar.phase ≠ wfld (wArgs.kreg 1) 0 4 ∧ wBar.phase = wfld (wArgs.kreg 3) 0 4)
    ∧ clears s wArgs none { dst := some (.recd 7, false) } = true := by decide +kernel

/-- BarrierPhases: not set up; no room for an arrival; an arrival that is not the last; a last one without UIE, and with UIE,
where the queue of causes has room and where it is full. -/
theorem witness_barrier_phases :
    let last : Barrier := { wBar with pending := 1, sectors := 3 }
    let s (b : Barrier) (g : Group) : State := wBarState g b
    (getUnit (s wBar wGroup) 0 0).map (fun u => u.bar 7) = some wBar ∧ ((wUnit.setBar 7 wBar).bar 6).reload = 0
    ∧ ({ wBar with pending := 0 } : Barrier).pending = 0
    ∧ ¬(wBar.pending - 1 = 0 ∧ wBar.sectors + 0 = 0)
    ∧ (last.pending - 1 = 0 ∧ last.sectors + 0xFFFFFFFD = 0) ∧ last.uie = false
    ∧ (armTarget (s { last with uie := true } wGroup) 0 0 0).map (·.1) = some 0 ∧ wGroup.causes.length < 16
    ∧ 16 ≤ ({ wGroup with causes := List.replicate 16 0 } : Group).causes.length := by decide +kernel

/-- MatrixCommands: a command that may enter, whose subqueue is full, whose barrier and whose pair are bad, and whose range is. -/
theorem witness_matrix_commands :
    let s := wState wGroup
    let full : Group := { wGroup with e0 := List.replicate 16 { bits := 0, guard := none, enq := false, seq := 0 } }
    mxUses s 0 0 = true ∧ feature s 6 = true ∧ feature s 5 = true
    ∧ (∀ us ∈ [[Use.k 0], [.k 1], [.k 1, .k 2]], clears s wGroup none (enginePre (wCx wGroup) none { uses := us }) = true)
    ∧ pairOk s 0 0 = false ∧ mxBarBad s 0 0 { mx0 with be := true, bar := 8 } = true
    ∧ mxBarBad s 0 0 { mx0 with be := true, bar := 7 } = false ∧ mxBarBad s 0 0 mx0 = false
    ∧ ldsRoom s 0 0 false false 64 0 = true ∧ ldsRoom s 0 0 false false 64 1023 = false
    ∧ selUnbound s 0 0 3 = true ∧ selUnbound s 0 0 64 = false
    ∧ drainRoom s 0 0 false .f32 64 0 1 0 = true ∧ drainRoom s 0 0 false .f32 71 1023 64 0 = false
    ∧ wGroup.e0.length < 16 ∧ 16 ≤ full.e0.length
    ∧ clears (wState full) full none (enginePre (wCx full) none { uses := [.k 0] }) = true := by decide +kernel

theorem witness_engine_queues :
    let s := wState wGroup
    let full : Group := { wGroup with e2 := List.replicate 16 { bits := 0, guard := none, enq := false, seq := 0 }
                                      e4 := List.replicate 16 { bits := 0, guard := none, enq := false, seq := 0 } }
    (∀ us ∈ [[Use.k 4], [.k 4, .k 5]], clears s wGroup none (enginePre (wCx wGroup) none { uses := us }) = true)
    ∧ clears s wGroup (some 1) (enginePre (wCx wGroup) (some 1) { uses := [.k 4] }) = true
    ∧ clears (wState full) full none (enginePre (wCx full) none { uses := [.k 4] }) = true ∧ 16 ≤ full.e2.length ∧ 16 ≤ full.e4.length
    ∧ wGroup.e2.length < 16 ∧ wGroup.e4.length < 16 ∧ wGroup.e0.length < 16
    ∧ feature s 3 = true ∧ mxUses s 0 0 = true
    ∧ clears s wGroup none (enginePre (wCx wGroup) none { srcs := [(.k 10, true), (.sel 0, true)]
                                                          early := ([(.k 10, true), (.sel 0, true)].map srcUses).flatten }) = true
    ∧ clears s wGroup none { dst := some (.recd 6, false) } = true ∧ clears s wGroup none { horizon := true } = true := by
  decide +kernel

/-! #### Jobs -/

/-- Queue 3 of context 0 is set up with four places at 0x9000; k12 names a packet there and k13 an odd address. -/
def wJobs : State := { wState { wGroup with k := [(12, 0x4000), (13, 0x4020), (14, 0xA000)] } with
  lqs := [(3, { base := 9, v := true, logn := 2, append := 5, packets := [] })] }
def wJobGroup : Group := { wGroup with k := [(12, 0x4000), (13, 0x4020), (14, 0xA000)] }

/-- The first half of a packet, the second half with the first one kept, a bad address, and one read of a granule. -/
theorem witness_launch : clears wJobs wJobGroup none { uses := [.k 12], dst := some (.recd 2, false), horizon := true } = true
    ∧ (wJobGroup.kreg 12).toNat % 64 = 0 ∧ (wJobGroup.kreg 13).toNat % 64 ≠ 0
    ∧ clears wJobs wJobGroup none { uses := [.k 13], dst := some (.recd 2, false), horizon := true } = true
    ∧ xlate wJobs 0 0x4000 .load false = .ok .dev 0x4000 false ∧ (mget {} wJobs.lqs 3).v = true ∧ released wJobGroup = true
    ∧ (mget {} wJobs.lqs 3).packets.length < 2 ^ 2 ∧ wPath.half = none
    ∧ (coreRead wJobs 0 0 0x4000 32).toOption.isSome = true ∧ (coreRead wJobs 0 0 (0x4000 + 32) 32).toOption.isSome = true
    ∧ (List.replicate 32 (0 : Byte)).length = 32 ∧ 0x4020 % 32 = 0
    ∧ walkHeld wJobs 0 0x4000 = false ∧ ringHeld wJobs (mget {} wJobs.lqs 3) = false
    ∧ (let h : State := { wJobs with retrain := [(domeOf wJobs 0x9040 / 10, 1)] }
       clears h wJobGroup none { uses := [.k 14], dst := some (.recd 2, false), horizon := true } = true
       ∧ ringHeld h (mget {} h.lqs 3) = true ∧ walkHeld h 0 0xA000 = false ∧ (wJobGroup.kreg 14).toNat = 0xA000
       ∧ xlate h 0 0xA000 .load false = .ok .dev 0xA000 false ∧ (coreRead h 0 0 (0xA000 + 32) 32).toOption.isSome = true)
    ∧ pathClear wJobs 0 (homeOf wJobs .dev 0x4020) = true ∧ sectorBad wJobs 0x4020 = false
    ∧ wJobs.rowsBad = [] := by decide +kernel

/-- CCNT and CANCEL of a free entry, of a live one, and of a DONE one; DBGMB with room and without. -/
theorem witness_jobs :
    let s (v : Nat) : State := { wState wGroup with mem := memWrites wTables (4096 + 16 * 5) (bytesOf 16 v) }
    clears (s 0) wGroup none { srcs := [(.sel 0, true)], dst := some (.uni 21, true), horizon := true } = true
    ∧ jobKind (s 0) 0 5 = 0 ∧ (jobKind (s (2 ^ 112)) 0 5 ≠ 0 ∧ (jobRead (s (2 ^ 112)) 0 5 0).getLsbD 63 = false)
    ∧ (jobRead (s (2 ^ 63)) 0 5 0).getLsbD 63 = true
    ∧ clears (s 0) wGroup none { srcs := [(.k 9, true)], horizon := true } = true
    ∧ jobHeld (s 0) 0 5 = false ∧ jobsHeld (s 0) 0 = false
    ∧ (let h : State := { s (2 ^ 112) with retrain := (List.range 8).map fun k => (k, 1) }
       clears h wGroup none { srcs := [(.sel 0, true)], dst := some (.uni 21, true), horizon := true } = true
       ∧ jobHeld h 0 5 = true ∧ jobsHeld h 0 = true)
    ∧ stFull (s 0) = false ∧ (s 0).stPending = [] ∧ ({ s 0 with stPending := [[]] } : State).stPending ≠ [] := by decide +kernel

/-! #### Frame tiles -/

/-- A descriptor of resume point 10, handle 5 and the one carry n4, at 0x5000, which k8 names. -/
def wDesc : List Byte := bytesOf 8 (10 + 5 * 2 ^ 48) ++ [4] ++ List.replicate 55 0
def wCo : Group := { wGroup with k := [(8, 0x5000)] }
/-- The frame tile's rows hold the header `h`, and its descriptor is bound when `b`. -/
def wFrames (g : Group) (h : Nat) (b : Bool) (head : Nat) : State :=
  let s := wTileState g
  setCore { s with mem := memWrites wTables 0x5000 wDesc } 0 { getCore s 0 with
    scr := if h = 0 then [] else (List.range 8).map fun r => (384 + 8 * r, BitVec.ofNat 8 h)
    tiles := wTiles.map fun kv => if kv.1 = 2 then (2, { kv.2 with bin := { desc := if b then some wDesc else none, descAddr := if b then 0x5000 else 0, head := head, scap := 1, sbase := 16 } }) else kv }

def wFrame (b : Bool) (head : Nat) : Tile :=
  { kind := .frame, unit := 0, th := 5, fmt := .s32, rows := 8, rowBytes := 8, base := 384
    bin := { desc := if b then some wDesc else none, descAddr := if b then 0x5000 else 0, head := head, scap := 1, sbase := 16 } }

/-- SUSP with free rows, at the first use of a descriptor and later; with no row free and places in the silo; and with neither. -/
theorem witness_susp :
    let s := wFrames wCo 0 false 0
    let u := wFrames wCo 1 true 0
    let f : Pre := { uses := [.k 8], horizon := true, commits := true }
    let m := lanes (wCx wCo).p.mask
    clears s wCo none f = true ∧ wCo.counting = true ∧ feature s 1 = true ∧ released wCo = true ∧ busy wCo [.n 0 64] = false
    ∧ (suspNeed s (wCx wCo) = 0 ∨ wCo.hbase.toNat + 8 * suspNeed s (wCx wCo) ≤ wCo.hlim.toNat)
    ∧ (match suspTile s (wCx wCo) 0x5000 with | .ok _ 2 t d => t == wFrame true 0 && d == wDesc | _ => false) = true
    ∧ (match suspTile (wFrames wCo 0 true 0) (wCx wCo) 0x5000 with | .ok _ 2 t _ => t == wFrame true 0 | _ => false) = true
    ∧ (wFrame true 0).bin.held = 0 ∧ m.length - min (freeRows s 0 (wFrame true 0)).length m.length ≤ siloCap (wFrame true 0) - 0
    ∧ spBytes wDesc ≤ (wFrame true 0).rowBytes ∧ (wFrame true 0).bin.head < 2 ^ 32 ∧ (wFrame true 0).bin.tail < 2 ^ 32
    ∧ (clears u wCo none f = true ∧ freeRows u 0 (wFrame true 0) = [] ∧ m.length ≤ siloCap (wFrame true 0)
       ∧ siloFault u 0 (wFrame true 0) ((List.range m.length).map fun i => (0 + i) % 2 ^ 32) (spBytes wDesc) .store = none
       ∧ ((List.range m.length).all fun j => !rangeBusy u 0 0 (siloAt (wFrame true 0) j) (spBytes wDesc) .store) = true)
    ∧ (let u := wFrames wCo 1 true 256
       (freeRows u 0 (wFrame true 256)).length + (siloCap (wFrame true 256) - (wFrame true 256).bin.held) < m.length
       ∧ clears u wCo none f = true) := by decide +kernel

/-- WAKE, BINFLUSH and BINSTAT of a tile with asleep rows and an asleep frame in its silo. -/
theorem witness_frame_instructions :
    let s : State := { wFrames wCo 1 true 1 with mem := memWrites (wFrames wCo 1 true 1).mem 0x10000 [1] }
    let t := wFrame true 1
    clears s wCo none { uses := [.k 8], dst := some (.recd 5, false), horizon := true } = true
    ∧ clears s wCo none { dst := some (.recd 5, false), horizon := true, uses := [.tile 5] } = true
    ∧ (∀ h ∈ [5, 63], clears s wCo none { dst := some (.recd 5, false), uses := [.tile h] } = true)
    ∧ wCo.counting = true ∧ feature s 1 = true ∧ released wCo = true ∧ (findTile s 0 0 5) = some (2, t)
    ∧ t.kind = .frame ∧ siloHeld t = [0] ∧ 4 ≤ t.rowBytes ∧ siloFault s 0 t (siloHeld t) 4 .load = none
    ∧ siloFault s 0 t (siloHeld t) 4 .store = none
    ∧ (match siloHdrs s 0 0 t with | .ok (_, hs, _) => hs == [(0, 1)] | .error _ => false) = true
    ∧ findTile s 0 0 63 = none := by decide +kernel

/-- A bin that is ready by its awake rows, and one by a flush; a silo frame that moves; a unit with no group left, with
asleep frames alone. -/
theorem witness_frame_steps :
    let s := wFrames wCo 3 true 0
    let lc : Launch := { ctx := 0, packet := [0, 0, 0x0001000100000001, 0, 0, 0, 0x0000001000000010], addr := 0, serial := 1, stamp := 0, nextUnit := 1 }
    getUnit s 0 0 = some wUnit ∧ findTile s 0 0 5 = some (2, wFrame true 0) ∧ mfind s.launches 0 = some lc
    ∧ (wFrame true 0).kind = .frame ∧ (getCore s 0).quiesced = false ∧ ctxLive s 0 = true
    ∧ pkW lc.packet ≤ (awakeRows s 0 (wFrame true 0)).length ∧ (wFrame true 0).bin.desc = some wDesc
    ∧ (freeSlots s 0).head? = some 1 ∧ (privFree s 0 lc 1).map (·.head?) = some (some 1) ∧ lanesUsed s 0 + 8 ≤ 2048
    ∧ (unitGroups s 0 0).length < 32 ∧ tileNamed s 0 0 5 = false
    ∧ ((getCore s 0).groups.all fun kv => (kv.2.colop.map fun r => decide (r.th ≠ 5)).getD true) = true
    ∧ (spCarries wDesc).Nodup ∧ awakeRows s 0 (wFrame true 0) ≠ [] := by decide +kernel

theorem witness_silo_and_discard :
    let s := wFrames wCo 0 true 1
    let t := setCore (wFrames wCo 1 true 0) 0 { getCore (wFrames wCo 1 true 0) 0 with groups := [] }
    (freeRows s 0 (wFrame true 1)).head? = some 0 ∧ (wFrame true 1).bin.held ≠ 0 ∧ (wFrame true 1).bin.paged = false
    ∧ (coreRead s 0 0 (siloAt (wFrame true 1) (wFrame true 1).bin.tail) (spBytes wDesc)).toOption.isSome = true
    ∧ (wFrame true 1).bin.desc = some wDesc ∧ jobsHeld t 0 = false
    ∧ findTile s 0 0 5 = some (2, wFrame true 1)
    ∧ unitQuiet t 0 0 = true ∧ (getCore t 0).quiesced = false ∧ getUnit t 0 0 = some wUnit ∧ mrising (getCore t 0).tiles = true
    ∧ mfind (getCore t 0).tiles 2 = some (wFrame true 0) ∧ frameCount t 0 0 ≠ 0
    ∧ (∀ kv ∈ unitFrames t 0 0, awakeCount t 0 0 kv.2 = some 0) ∧ (mfind t.launches wUnit.launch).isSome = true
    ∧ frFull { t with ctl := mset t.ctl 0x0908 4 } = false := by decide +kernel

/-! #### A group's own events, and reverse steps -/

/-- At a path's boundary: a line that is cached, one that fails its check, one that lies in no page and one that may not be fetched, a
line on a stack that retrains; a breakpoint not passed and passed; and a trap of each kind that is due. -/
theorem witness_boundary :
    let s := wState wGroup
    let at_ (ii : II) (t : State) : State :=
      setGroup (setCore t 0 { getCore t 0 with icache := [] }) 0 0 { wGroup with pathA := some { wPath with ii := ii } }
    let g (x : Group) : Bool := pathReady (wState x) 0 0 .a == some (x, wPath)
    let passed : Path := { wPath with bp := [5] }
    let busy : Group := { wGroup with wpPend := [(0, 0)], pend := some (wTrap 0x08) }
    let pg : Group := { wGroup with pathA := some passed }
    pathReady s 0 0 .a = some (wGroup, wPath) ∧ lineHeld s 0 0 0 1 = false
    ∧ lineHeld (at_ 5 { s with retrain := (List.range 8).map fun k => (k, 1) }) 0 0 0 1 = true
    ∧ (match readLine s 0 0 0 1 with | .ok _ => true | _ => false) = true
    ∧ (match readLine (at_ 5 { s with mem := memWrites wTables 64 [1, 0, 0, 0, 1] }) 0 0 0 1 with | .par => true | _ => false) = true
    ∧ (match readLine (at_ 0x50000000 s) 0 0 0 0x10000000 with | .page => true | _ => false) = true
    ∧ (match readLine (at_ 0x3C000000 s) 0 0 0 0xC000000 with | .prot => true | _ => false) = true
    ∧ (tidied s 0 0 wGroup = true ∧ dueTrap wGroup .a wPath = none ∧ uiDue wGroup = false ∧ atBoundary wGroup = true
       ∧ atBoundary busy = false ∧ pathReady (wState busy) 0 0 .a = some (busy, wPath))
    ∧ (∀ x ∈ [({ wGroup with mxnan := some (1, 2) } : Group), { wGroup with engPend := [(1, 2)] }], tidied (wState x) 0 0 x = true)
    ∧ (let x : Group := { wGroup with pathA := some { wPath with ii := 0x50000000 }, pend := some (wTrap 0x08) }
       pathReady (wState x) 0 0 .a = some (x, { wPath with ii := 0x50000000 }) ∧ lineHeld (wState x) 0 0 0 0x10000000 = false
       ∧ dueTrap x .a { wPath with ii := 0x50000000 } ≠ none
       ∧ (match readLine (wState x) 0 0 0 0x10000000 with | .page => true | _ => false) = true)
    ∧ wPath.ii ∉ wPath.bp ∧ atBreakpoint { s with ctl := [(0x10040, 0x8000000000000005)] } wGroup wPath = true
    ∧ (passed.ii ∈ passed.bp ∧ pathReady (wState pg) 0 0 .a = some (pg, passed)) ∧ wGroup.step = none
    ∧ g { wGroup with pend := some (wTrap 0x08) } ∧ g { wGroup with mxnan := some (1, 2) } ∧ g { wGroup with engPend := [(1, 2)] } := by
  decide +kernel

/-- An entry that is read, one that lies in no page, and a history with no room for the HORIZON. -/
theorem witness_user_interrupt :
    let g : Group := { wRec with causes := [0x0000000000000701], uvec := 0x6000 }
    let s := wState g
    let lost : Group := { g with uvec := 0x400000000 }
    let full : Group := { g with hlim := 0 }
    ([g, lost, full].all fun g => pathReady (wState g) 0 0 .a == some (g, wPath) && getUnit (wState g) 0 0 == some wUnit && !g.dir
      && g.spec.isNone && !g.uih && !g.cth && !g.halted && g.uvec != 0 && g.sq.isEmpty
      && tidied (wState g) 0 0 g && (dueTrap g .a wPath).isNone && !guardCleared wPath) = true
    ∧ (wUnit.bar (wfld 0x0701 8 8)).uiv = 0 ∧ (coreRead s 0 0 0x6000 8).toOption.isSome = true
    ∧ (match coreRead (wState lost) 0 0 0x400000000 8 with | .error (.trap ..) => true | _ => false) = true
    ∧ (g.recording = true ∧ g.ptrace = [] ∧ g.hsp.toNat + 8 * 1 ≤ g.hlim.toNat)
    ∧ (full.hlim.toNat < full.hsp.toNat + 8 * 1 ∧ full.hsp.toNat + 8 * 1 < 2 ^ 64) := by decide +kernel

/-- Merges and reloads of a group: two waiting paths of a frame, and a parked path beside a free slot. -/
theorem witness_merge_and_reload :
    let a : Path := { ii := 9, mask := 1, wait := true, frame := some 4 }
    let b : Path := { ii := 9, mask := 2, wait := true, frame := some 4 }
    let g : Group := { wGroup with pathA := some a, pathB := some b, stack := [.frame (some 9) 3 4 none] }
    let h : Group := { wGroup with stack := [.path { a with wait := false }] }
    g.moves = true ∧ ((mergeOnce g).map fun x => decide (x.hsp = g.hsp)) = some true
    ∧ h.moves = true ∧ ((reloadOnce h).map fun x => decide (x.hsp = h.hsp)) = some true := by decide +kernel

/-- A line with the words `w0`, `w1` in slots 0 and 1, and slot 0 alone marked. -/
def wLine (w0 w1 : IWord) : BitVec 512 := (w1.setWidth 512 <<< 128) ||| (w0.setWidth 512 <<< 32) ||| 1

def wRevGroup (ic : BitVec 48) (hist : List DWord) (r : RevState) : Group :=
  { wGroup with
    pathA := some { wPath with ii := 6 }, ic := ic, dir := true, rev := some r, hist := hist
    hsp := dw (8 * hist.length) }

def wRevState (g : Group) (w0 : IWord) : State :=
  setCore (wState g) 0 { getCore (wState g) 0 with icache := [{ launch := 0, line := 1, bits := wLine w0 0 }] }

/-- A reverse step over an ADDIN without a record, over a recorded ADD, from a line with a reserved bit set, to the target of a
REV.x, and at IC 0. -/
theorem witness_reverse_steps :
    let r : RevState := { target := 0, mode := .h, slot := .a }
    let g1 := wRevGroup 3 [] r
    let s1 := wRevState g1 (words 0x40010010 0x00004002 0)
    let hs : List DWord := histHeader 2 4 0x01 false :: [4, 3, 2, 1]
    let g2 := wRevGroup 3 hs r
    let s2 := wRevState g2 (words 0x40035021 0x40024001 0)
    let bad : State := setCore s1 0 { getCore s1 0 with icache := [{ launch := 0, line := 1, bits := wLine (words 0x40010010 0x00004002 0) 0 ||| 0x200 }] }
    let g3 := wRevGroup 1 [] { r with mode := .x }
    let g4 := wRevGroup 0 [] r
    (∀ x ∈ [(g1, s1), (g2, s2), (g1, bad)],
      revReady x.2 0 0 = some (x.1, r) ∧ revBusy x.1 = false ∧ granaryStop x.2 0 x.1 = none ∧ x.1.spec = none ∧ x.1.ic ≠ 0
      ∧ x.1.pathB = none ∧ x.1.ic - 1 ≠ r.target ∧ x.1.hist.length ≤ 256 ∧ lineHeld x.2 0 0 0 (iiLine 6) = false
      ∧ lineHeld x.2 0 0 0 (iiLine 5) = false
      ∧ (match readLine x.2 0 0 0 (iiLine 6) with | .ok b => !lineMark b (iiSlot 6) && (lineRsvdOk b || x.2 == bad) | _ => false) = true)
    ∧ (match readLine s1 0 0 0 (iiLine 5) with
       | .ok b => (decode (lineSlot b (iiSlot 5))).toOption == some (.addin none 1 (.n 2)) | _ => false) = true
    ∧ (match readLine bad 0 0 0 (iiLine 5) with | .ok b => !lineRsvdOk b | _ => false) = true
    ∧ histTop s1 g1 = none
    ∧ (match readLine s2 0 0 0 (iiLine 5) with
       | .ok b => (decode (lineSlot b (iiSlot 5))).toOption == some (.add none .b32 false (.recd 3) (.n 1) (.n 2)) | _ => false) = true
    ∧ ([1, 2, 3, 4] : List DWord).length = g2.w / 2 ∧ g2.hbase.toNat < g2.hsp.toNat
    ∧ g2.hist = histHeader (g2.ic - 1) (g2.w / 2) 0x01 false :: (([1, 2, 3, 4] : List DWord).reverse ++ [])
    ∧ (match revTry (wRevState g3 (words 0x40010010 0x00004002 0)) 0 0 with
       | .ok (u, _) => (getGroup u 0 0).map (·.ic) == some 0 | .error _ => false) = true
    ∧ (revReady (wRevState g4 0) 0 0 = some (g4, r) ∧ revBusy g4 = false ∧ granaryStop (wRevState g4 0) 0 g4 = none ∧ g4.ic = 0) := by
  decide +kernel

theorem witness_step :
    let s := State.withFetchWord State.reset 96 0x40010001
    (∃ ms, s.agenda = .issue 0 0 .a :: ms)
    ∧ (let u : State := { s with tick := s.tick + 1, clk := s.clk + 1, agenda := s.agenda.drop 1 }
       match getGroup u 0 0 with
       | some g => (match g.pathA with
         | some p => decide (pathReady u 0 0 .a = some (g, p)) && (watchHalt u 0 0 g .a p).isNone && (dueTrap g .a p).isNone
             && !uiDue g && !atBreakpoint u g p && g.step.isNone && g.pend.isNone && g.colop.isNone && !yields u 0 0 .a
             && (lateSlot g).isNone && (eventOnce u 0 g).isNone && (match backOnce u 0 0 g with | .none => true | _ => false) && !guardCleared p
             && !lineHeld u 0 g.ctx g.launch (iiLine p.ii)
             && (match readLine u 0 g.ctx g.launch (iiLine p.ii) with
                 | .ok b => lineRsvdOk b && lineMark b (iiSlot p.ii) && (decode (lineSlot b (iiSlot p.ii))).toOption.isSome
                 | _ => false)
         | none => false)
       | none => false) = true
    ∧ { State.reset with agenda := [.event .clockNotLimited] }.agenda = .event .clockNotLimited :: [] :=
  ⟨⟨[], by rfl⟩, by decide +kernel, rfl⟩

theorem witness_memories :
    MemoriesOk State.reset ∧ ∃ t, step { State.reset with agenda := [.event .clockNotLimited] } = .next t :=
  ⟨⟨by decide +kernel, by decide +kernel, fun _ => by rfl⟩, _, rfl⟩

theorem witness_decode_and_encode :
    let i : Instr := .addin none 1 (.n 2)
    i.wf = true ∧ encode i = some (words 0x40010010 0x00004002 0)
    ∧ (decode (words 0x40010010 0x00004002 0)).toOption = some i := by decide +kernel

/-- A valid launch packet of one unit with one group of 8 lanes, of priority `p`. -/
def wPk (p : Nat) : List DWord := [0, 0, 0x0001000100000001, dw (p * 256 + 0x400000), 0, 0, 0x0000000100010010, 1]

def wQueued (ws : List DWord) : State :=
  { wState wGroup with
    lqs := [(0, { base := 5, v := true, logn := 4, append := 1, packets := [{ idx := 0, held := none, stamp := 1 }] })]
    mem := (ws.zipIdx).foldl (fun m w => memWrites m (20480 + 8 * w.2) (bytesOf 8 w.1.toNat)) wTables }

theorem witness_packets :
    (match queueHead (wQueued (wPk 0)) (.dev 0 0) with
     | some h => (match peekPacket (wQueued (wPk 0)) h with
        | .ok (_, ws) => depsDone (wQueued (wPk 0)) h.ctx ws && !goesFirst (wQueued (wPk 0)) h (pkPrio ws)
            && !pkBad (wQueued (wPk 0)) ws && !jobCanc (wQueued (wPk 0)) h.ctx (pkCnt ws)
            && ((pkDeps ws).all fun i => !jobCanc (wQueued (wPk 0)) h.ctx i) && !jobsHeld (wQueued (wPk 0)) h.ctx
        | .error _ => false)
     | none => false) = true
    ∧ (let q : State := { wQueued [5] with ctl := mset State.reset.ctl 0x0908 4 }
       match queueHead q (.dev 0 0) with
       | some h => (match peekPacket q h with
          | .ok (_, ws) => depsDone q h.ctx ws && !goesFirst q h (pkPrio ws) && pkBad q ws && !jobsHeld q h.ctx && !frFull q
          | .error _ => false)
       | none => false) = true
    ∧ ((mfind (wQueued [5]).lqs (0 * 16 + 0)).map (·.packets.length)) = some 1 := by decide +kernel

def wPlacing : State :=
  { State.reset with
    ctxs := [(0, { root := 0, cthii := 0, jobtab := 4096 })]
    launches := [(0, { ctx := 0, packet := wPk 3, addr := 0, serial := 1, stamp := 0 })] }

/-- A launch whose argument block is the three words at address 0x800. -/
def wStarting (held : Bool) : State :=
  let g : Group := { wGroup with argWait := true }
  { wState g with
    launches := [(0, { ctx := 0, packet := (wPk 0).set 1 (dw (3 * 2 ^ 52 + 0x800)), addr := 0, serial := 1, stamp := 0 })]
    cores := [(0, { groups := [(0, g)], units := [(0, { wUnit with started := 0, argHeld := held })] })] }

theorem witness_units :
    ((placeOrder wPlacing).map (·.1) = [0] ∧ pkCor (wPk 3) = false ∧ (placeUnit wPlacing 0 0).isSome = true)
    ∧ (let s := wStarting false
       let g : Group := { wGroup with argWait := true }
       getGroup s 0 0 = some g ∧ getUnit s 0 0 = some { wUnit with started := 0 } ∧ (mfind s.launches 0).isSome = true
       ∧ g.gidx = 0 ∧ ctxLive s 0 = true ∧ rangeBusy s 0 0 0x800 (8 * 3) .load = false
       ∧ (∀ p ∈ piecesOf 32 0x800 (8 * 3), xlate s 0 (0x800 + p.1) .load false = .ok .dev (0x800 + p.1) false
         ∧ bytesBad s (0x800 + p.1) p.2 = false ∧ walkHeld s 0 (0x800 + p.1) = false
         ∧ pathClear s 0 (homeOf s .dev (0x800 + p.1)) = true)
       ∧ (coreRead s 0 0 0x800 (8 * 3)).toOption.isSome = true ∧ wUnit.argHeld = false
       ∧ (let h : State := { s with retrain := (List.range 8).map fun k => (k, 1) }
          match coreRead h 0 0 0x800 (8 * 3) with | .error .wait => true | _ => false) = true
       ∧ ([2, 4].all fun n =>
            let l : State := { s with
              launches := [(0, { ctx := 0, packet := (wPk 0).set 1 (dw (3 * 2 ^ 52 + 0x400000000)), addr := 0, serial := 1, stamp := 0 })]
              ctl := mset State.reset.ctl 0x0908 n }
            (match coreRead l 0 0 0x400000000 (8 * 3) with | .error (.trap ..) => true | _ => false) && frFull l == decide (n = 2)) = true)
    ∧ (let s := wState { wGroup with ended := true, e1 := [], e3 := [], e5 := [] }
       getUnit s 0 0 = some wUnit ∧ unitQuiet s 0 0 = true ∧ frameCount s 0 0 = 0 ∧ (getCore s 0).quiesced = false
       ∧ jobsHeld s 0 = false)
    ∧ (let s : State := { wState wGroup with
         ctl := [(0x3000, 0x7000)]
         launches := [(0, { ctx := 0, packet := wPk 0, addr := 0, serial := 1, stamp := 0, nextUnit := 1 }),
                      (1, { ctx := 0, packet := (wPk 5).set 3 0x40000500, addr := 0, serial := 2, stamp := 0 })] }
       areaReg s 0 ≠ 0 ∧ (waitingLaunch s 0).map (pkPrio ·.packet) = some 5 ∧ lowerUnits s 0 5 = [0]
       ∧ getUnit s 0 0 = some wUnit ∧ wUnit.pair = false) := by decide +kernel

def wEnt (b : BitVec 128) : QEntry := { bits := b, guard := none, enq := false, seq := 1, eval := some .run }
def wShare : Tickets := { t := 4, backlogged := true }
def wRun (b : BitVec 128) : MxRun := { gslot := 0, unit := 0, ent := wEnt b, seq := 5 }

/-- The machine of `wState` whose matrix engine has taken an entry. -/
def wRunning (b : BitVec 128) : State := setMx (wState wGroup) 0 { run := [wRun b] }

/-- Taking an MXSWAP that runs, that is discarded, that finds its slot FREE, and that faults; heads of each guard; a subqueue that
joins one that is backlogged; and retiring an MXSWAP, MXZERO, MXLDS, MXSTR and MXDRAIN with operands in buffer 0 and tile 0. -/
theorem witness_matrix_engine :
    (∀ x ∈ [(some Verdict.run, (0xB1 : BitVec 128)), (some .drop, 0xB1), (some .free, 0xB1), (some .run, 0xFF)],
      let e : QEntry := { wEnt x.2 with eval := x.1 }
      let g : Group := { wGroup with e0 := [e], tmx := wShare }
      let s := wState g
      (getMx s 0).run = [] ∧ nanWaits (getCore s 0) = false ∧ takeOff s 0 = false
      ∧ choose (mxCands s 0) = some { gslot := 0, core := 0, tk := wShare } ∧ getGroup s 0 0 = some g ∧ forkReady g e = true
      ∧ ((mxFault s 0 g.unit e.bits).isNone = true ↔ x.2 = 0xB1))
    ∧ (wShare.backlogged = true ∧ ({ wShare with backlogged := false } : Tickets).backlogged = false)
    ∧ (∀ b ∈ ([0xB1, 0xB4 + 72 * 2 ^ 32, 0xB0 + 64 * 2 ^ 25, 0xB2 + 64 * 2 ^ 25 + 72 * 2 ^ 32 + 2 ^ 64,
          0xB3 + 72 * 2 ^ 25 + 64 * 2 ^ 32 + 2 ^ 64] : List Nat),
        let s := wRunning (BitVec.ofNat 128 b)
        let r := wRun (BitVec.ofNat 128 b)
        (getMx s 0).run = [r] ∧ mxStopped s 0 r = false ∧ r.rowsDone = 0 ∧ r.sat = false ∧ r.psn = false ∧ r.flg = false
        ∧ r.nan = none ∧ getGroup s 0 0 = some wGroup ∧ wGroup.ended = false ∧ (mxCmd r.ent.bits).pair = false
        ∧ (mxCmd r.ent.bits).be = false ∧ (getMx s 0).active.sparse = false
        ∧ (mxCmd r.ent.bits).op ∈ [0xB0, 0xB1, 0xB2, 0xB3, 0xB4] ∧ (mxCmd r.ent.bits).md0 = false
        ∧ ((mxCmd r.ent.bits).op = 0xB0 ∨ (mxCmd r.ent.bits).op = 0xB2 → 64 ≤ (mxCmd r.ent.bits).src)
        ∧ ((mxCmd r.ent.bits).op = 0xB3 → 64 ≤ (mxCmd r.ent.bits).dsel)) := by decide +kernel

/-- A transfer record of one sector, eight 4-byte elements from address 0x800 on, its destination at the address `dst`. -/
def wCpRec (w0 next dst : Nat) : List Byte :=
  bytesOf 8 w0 ++ bytesOf 8 next ++ bytesOf 8 0x800 ++ bytesOf 8 dst ++ bytesOf 4 8 ++ bytesOf 4 4 ++ bytesOf 4 4
    ++ List.replicate 84 0

/-- The machine of `wState` with the channel `c` at place 0, one ring tile at handle 9, operand buffers of context 0, and the
record `bs` in memory at address 4096. -/
def wCopying (c : Chan) (bs : List Byte) (free : Bool) : State :=
  let t : Tile := { kind := .ring, unit := 0, th := 9, fmt := .bf16, rows := 8, rowBytes := 128, base := 0
                    ring := { inited := true, logs := 1, preg := 1, res := if free then 0 else 2 } }
  let s := wState wGroup
  { setMx (setCore s 0 { getCore s 0 with chans := [(0, c)], tiles := [(0, t)] }) 0 { owner := some 0 } with
    mem := memWrites wTables 4096 bs }

/-- The answers of engines' reads stand at core 0. -/
def answered (s : State) (rs : List Resp) : State := setCore s 0 { getCore s 0 with resp := rs }

def wChan : Chan :=
  { gslot := 0, unit := 0, entry := wEnt (4096 + 8 * 2 ^ 64), valid := 8, next := some 4096 }

/-- A chain that runs, one that is discarded, one that finds its slot FREE, and one with a reserved bit set. -/
theorem witness_chain_take : ∀ x ∈ [(some Verdict.run, (4096 + 8 * 2 ^ 64 : BitVec 128)), (some .drop, 4096), (some .free, 4096), (some .run, 2 ^ 96)],
    let e : QEntry := { wEnt x.2 with eval := x.1 }
    let g : Group := { wGroup with e2 := [e], tcp := wShare }
    let s := wState g
    mfind (getCore s 0).chans 0 = none ∧ takeOff s 0 = false
    ∧ choose (cpCands s 0) = some { gslot := 0, core := 0, tk := wShare } ∧ getGroup s 0 0 = some g ∧ forkReady g e = true
    ∧ ((x.2.toNat / 2 ^ 52 % 2 ^ 12 = 0 ∧ x.2.toNat / 2 ^ 96 = 0) ↔ x.2 ≠ 2 ^ 96) := by decide +kernel

/-- A record without a fault, and one whose OWN is 0. -/
theorem witness_copy_record : ∀ x ∈ [(wCpRec 0x0000000000220001 0 0, none), (wCpRec 0x0000000000220000 0 0, some 1)],
    let s := answered (wCopying wChan x.1 true) ((List.range 4).map fun i => .got 1 i ((x.1.drop (32 * i)).take 32) false false)
    chanReady s 0 0 = some (wChan, 0, wUnit) ∧ wChan.recs = [] ∧ wChan.fault = none ∧ wChan.fstep = 0 ∧ wChan.tuple = none
    ∧ (match engReads s 0 (chanEng 0) 0 0 4096 128 with
       | .ok (s1, bs, sub) => bs == x.1 && !sub && cpReason (countSub s1 0 sub) 0 0 0 wUnit.nbar 8 x.1 true == x.2
       | _ => false) = true := by decide +kernel

theorem witness_ring_slot :
    let r : CRec := { addr := 4096, bytes := wCpRec 0x0000000009420001 0 0 }
    let c : Chan := { wChan with recs := [r], next := none }
    ∀ free ∈ [true, false],
      let s := wCopying c r.bytes free
      chanReady s 0 0 = some (c, 0, wUnit) ∧ chanHead c = some r ∧ (cpDst r.bytes).kind = 4 ∧ c.ringIdx = none
      ∧ (findTile s 0 0 (cpDst r.bytes).th).map (fun x => decide (x.2.ring.free = 0)) = some (!free) := by decide +kernel

/-- The record of `wCpRec` is moved by one read into the operand buffer, every element to a place of its own; before its answer; and
with every element masked. -/
theorem witness_copy_sector :
    let r : CRec := { addr := 4096, bytes := wCpRec 0x0000000200220001 0 0 }
    let c : Chan := { wChan with recs := [r], next := none, valid := 0xFF }
    let s := answered (wCopying c r.bytes true) [.got 1 8 (List.replicate 32 9) false false]
    let u := cpUnit s 0 0 r.bytes 0xFF 0 0
    let x := cpReads s 0 0 0 c r.bytes u.1
    let at_ (e : Nat) : Int := cpBase (cpDst r.bytes) 128 + cpOff r.bytes true e
    chanReady s 0 0 = some (c, 0, wUnit) ∧ chanHead c = some r ∧ (cpDst r.bytes).kind = 2 ∧ (cpSrc r.bytes).kind = 0
    ∧ cpLost s 0 0 r.bytes = false ∧ cpLsz r.bytes ≤ 3 ∧ c.index < cpCount r.bytes
    ∧ (match cpMove 0 0 0 r.bytes (max 1 1) s c with
       | (s', c', _) => decide (c'.index ≠ c.index) && (cpSubtract s' 0 0 r.bytes c').isSome) = true
    ∧ u = ([0, 1, 2, 3, 4, 5, 6, 7], 8) ∧ x.waits = false ∧ x.stop = none ∧ x.bytes.length = cpE r.bytes * u.1.length
    ∧ (cpReads (wCopying c r.bytes true) 0 0 0 c r.bytes u.1).waits = true
    ∧ (∀ e ∈ u.1, 0 ≤ at_ e)
    ∧ (∀ e ∈ u.1, ∀ k ∈ u.1, e ≠ k → at_ e + (cpE r.bytes : Int) ≤ at_ k ∨ at_ k + (cpE r.bytes : Int) ≤ at_ e)
    ∧ (cpUnit s 0 0 r.bytes 0 0 0).1 = []
    ∧ (cpSectors r.bytes = 1 ∧ cpCount r.bytes ≤ 8 ∧ engWaits s 0 (chanEng 0) = false ∧ (arrive s 0 0 (cpBar r.bytes) (-1) 0 false).isSome = true) := by
  decide +kernel

/-- A record that is complete, before OWN is cleared and behind it, the last of its chain or not; and one whose arrival waited
(DEFERRED_ARRIVE). -/
theorem witness_copy_finish : ∀ next ∈ [0, 8192], ∀ k ∈ [0, 2],
    let r : CRec := { addr := 4096, bytes := wCpRec 0x0000000200220003 next 0 }
    let c : Chan := { wChan with recs := [r], next := none, index := 8, subtracted := 1, fstep := k }
    let s := wCopying c r.bytes true
    chanReady s 0 0 = some (c, 0, wUnit) ∧ c.fault = none ∧ r.fault = none ∧ c.fstep = k ∧ cpCount r.bytes ≤ c.index
    ∧ cpSectors r.bytes ≤ c.subtracted ∧ (cpDst r.bytes).kind ≠ 4 ∧ c.ringIdx = none ∧ cpArr r.bytes = false
    ∧ cpNext r.bytes = next ∧ engWaits s 0 (chanEng 0) = false
    ∧ (match engStore s 0 (chanEng 0) 0 r.addr (bytesOf 8 (cpW0 r.bytes &&& ~~~(1 : DWord)).toNat) false with
       | .ok s1 => engWaits s1 0 (chanEng 0) | .error _ => false) = true := by decide +kernel

theorem witness_deferred_arrive :
    let r : CRec := { addr := 4096, bytes := wCpRec 0x0000000200220005 0 0 }
    let c : Chan := { wChan with recs := [r], next := none, index := 8, subtracted := 1, fstep := 3 }
    let s := wCopying c r.bytes true
    chanReady s 0 0 = some (c, 0, wUnit) ∧ c.fault = none ∧ r.fault = none ∧ c.fstep = 3 ∧ cpArr r.bytes = true
    ∧ cpCount r.bytes ≤ c.index ∧ (cpDst r.bytes).kind ≠ 4 ∧ cpNext r.bytes = 0 ∧ engWaits s 0 (chanEng 0) = false
    ∧ (arrive s 0 c.unit (cpBar r.bytes) 0 1 false).isSome = true := by decide +kernel

theorem witness_decode_take : ∀ v ∈ [Verdict.run, .drop],
    let e : QEntry := { wEnt 4096 with eval := some v }
    let g : Group := { wGroup with e4 := [e], tvd := wShare }
    let s := wState g
    mfind s.decs 0 = none ∧ takeOff s 0 = false ∧ vdWaiting s 0 = none ∧ g.ended = false
    ∧ choose (vdCands s 0) = some { gslot := 0, core := 0, tk := wShare } ∧ getGroup s 0 0 = some g ∧ forkReady g e = true := by
  decide +kernel

/-- A frame with a bitstream of `n` bytes at 0x2000 and a window of `w` by `w` samples. -/
def wVd (n w : Nat) (fin : Option FrameEnd) : Frame :=
  { core := 0, gslot := 0, unit := 0, entry := wEnt 4096, ctl := [0], fin := fin
    record := bytesOf 8 0x2000 ++ bytesOf 8 n ++ bytesOf 8 0x7000 ++ bytesOf 8 0 ++ bytesOf 8 0x11000000
      ++ bytesOf 8 (w * 2 ^ 32 + w * 2 ^ 48) ++ List.replicate 16 0 }

/-- The machine with a decoder at that frame; the bitstream's first byte has the forbidden bit set. -/
def wDecoding (f : Frame) : State :=
  { setMx (wBarState wGroup wBar) 0 { owner := some 0 } with decs := [(0, f)], mem := memWrites wTables 0x2000 [0x80] }

/-- Every slot of the frame's control block is empty, whatever its sequence header. -/
theorem wVd_slots (n w : Nat) (bits : List Byte) (i : Nat) : vdSlot (vdUnder (wVd n w none) bits) i = none := by
  have hc : (vdCtl (wVd n w none)).slots = List.replicate 8 none := by
    show ((ctlOpen [(0 : Byte)]).getD ctlFresh).slots = List.replicate 8 none
    decide +kernel
  simp only [vdSlot, vdUnder, hc, List.getD_eq_getElem?_getD, List.getElem?_replicate]
  split <;> rfl

theorem wVd_mem {n w : Nat} {bits : List Byte} {r : List Byte} {s v : State}
    (h : vdBytes s 0 (decEng 0) 0 0 (wfld (recWord (wVd n w none).record 0) 0 52)
      (wfld (recWord (wVd n w none).record 1) 0 32) = .got v bits r false) :
    vdMem s 0 (wVd n w none) 0 = .got v bits [] false := by
  have hr : (wVd n w none).core = 0 := rfl
  simp only [vdMem, hr, h]
  generalize (vdRefs (wVd n w none) bits).zipIdx = l
  have hs := wVd_slots n w bits
  induction l with
  | nil => rfl
  | cons a l ih => simp only [List.foldl_cons, hs] at ih ⊢; exact ih

/-- The frame's memory is read: no byte, and one with the forbidden bit. -/
theorem witness_decoder_bits :
    vdMem (wDecoding (wVd 0 0 none)) 0 (wVd 0 0 none) 0 = .got (wDecoding (wVd 0 0 none)) [] [] false
    ∧ vdMem (wDecoding (wVd 0 0x4000 none)) 0 (wVd 0 0x4000 none) 0 = .got (wDecoding (wVd 0 0x4000 none)) [] [] false
    ∧ (let s := answered (wDecoding (wVd 1 0 none)) [.got 16 0 [0x80] false false]
       vdMem s 0 (wVd 1 0 none) 0 = .got s [0x80] [] false ∧ vdReady s 0 = some (wVd 1 0 none, 0, wUnit.setBar 7 wBar))
    ∧ (0x80 : Byte).getLsbD 7 = true :=
  ⟨wVd_mem rfl, wVd_mem rfl, ⟨wVd_mem (r := []) (by decide +kernel), by decide +kernel⟩, by decide⟩

/-- The frame ends by the one event, with code 1, and a frame whose output is too large by the other, with code 3. -/
theorem witness_decoder :
    vdReady (wDecoding (wVd 0 0 none)) 0 = some (wVd 0 0 none, 0, wUnit.setBar 7 wBar) ∧ (wVd 0 0 none).fin = none ∧ (wVd 0 0 none).ctl ≠ []
    ∧ (∃ t e, vdRun (wDecoding (wVd 0 0 none)) 0 (wVd 0 0 none) 0 true = .ended t e)
    ∧ ∃ t e, vdRun (wDecoding (wVd 0 0x4000 none)) 0 (wVd 0 0x4000 none) 0 false = .ended t e := by
  refine ⟨by decide +kernel, rfl, by decide, ?_, ?_⟩
  · have hc : (vdOutcome (wDecoding (wVd 0 0 none)) (wVd 0 0 none) [] [] false).code = 1 := by decide +kernel
    have hb : vdBufLen (wVd 0 0 none).record = 0 := by decide +kernel
    have hs : ∀ s a, engStores s (wVd 0 0 none).core (decEng 0) 0 a [] = .ok s := fun _ _ => rfl
    have ho : vdOwned (wDecoding (wVd 0 0 none)) (wVd 0 0 none) 0 = true := by decide +kernel
    simp only [vdRun, ho, witness_decoder_bits.1, hc, hb, List.take_zero, hs]
    exact ⟨_, _, rfl⟩
  · have hc : (vdOutcome (wDecoding (wVd 0 0x4000 none)) (wVd 0 0x4000 none) [] [] false).code = 3 := by decide +kernel
    have ho : vdOwned (wDecoding (wVd 0 0x4000 none)) (wVd 0 0x4000 none) 0 = true := by decide +kernel
    simp only [vdRun, ho, witness_decoder_bits.2.1, hc]
    exact ⟨_, _, rfl⟩

/-- The end of a frame with a cause and an arrival, with a control block to write and with none, while a write is on its way, and with
a sector left; and a control block. -/
theorem witness_decoder_end : ∀ b ∈ [[], [(1 : Byte)]],
    let e : FrameEnd := { be := true, bar := 7, sirq := true, block := b }
    let f := wVd 0 0 (some e)
    let s := wDecoding f
    let busy : State := { s with paths := [(0, [{ wReq 0x40 (.eng 16 0) [1] with seq := 0 }])] }
    let more := wVd 0 0 (some { e with sectors := 1 })
    vdReady s 0 = some (f, 0, wUnit.setBar 7 wBar) ∧ e.sectors ≤ f.subtracted ∧ engWaits s 0 (decEng 0) = false ∧ f.ending = false
    ∧ (match uiCause s 0 0 7 4 with
       | some s2 => (arrive (postFrame s2 0 0 e) 0 0 7 0 1 true).isSome
       | none => false) = true
    ∧ (match engStores s 0 (decEng 0) 0 (vdScratch f.record) b with | .ok _ => true | .error _ => false) = true
    ∧ (engWaits busy 0 (decEng 0) = true ∧ vdReady busy 0 = some (f, 0, wUnit.setBar 7 wBar))
    ∧ (vdReady (wDecoding more) 0 = some (more, 0, wUnit.setBar 7 wBar) ∧ more.subtracted < 1
        ∧ e.bar < (wUnit.setBar 7 wBar).nbar) := by decide +kernel

theorem witness_control_block : let c : Config.Av1Ctl := { seq := [], slots := List.replicate 8 (some 8), taint := 0 }
    c.slots.length = 8 ∧ (∀ x, some x ∈ c.slots → x < 9) ∧ c.seq.length ≤ 3053 := by
  refine ⟨by decide, ?_, by decide⟩
  intro x hx
  simp at hx
  omega

theorem witness_device_service :
    let pin (n : Nat) : AMap Pin := [(3, { ctx := 0, base := 0, units := 1, fade := 1, count := n, pages := [(0, 1)] })]
    (∀ n ∈ [0, 1], (mfind { State.reset with pins := pin n }.pins 3).isSome ∧ mrising (pin n) = true)
    ∧ (let s : State := { State.reset with domes := [(12, { retq := true })] }
       retireDue s 12 = true ∧ liveOthers s 12 ≠ [] ∧ mfind s.retrain 1 = none
       ∧ (List.range 192).all (fun core => (pathReqs s core 12).isEmpty) = true)
    ∧ (let s : State := { State.reset with
         domes := (12, { retq := true }) :: [10, 11, 13, 14, 15, 16, 17, 18, 19].map fun d => (d, { ret := true }) }
       retireDue s 12 = true ∧ liveOthers s 12 = [])
    ∧ (let s : State := { wState wGroup with tlbBusy := some 0 }
       s.tlbBusy = some 0 ∧ (s.cores.all fun kc => (kc.2.groups.all fun kv => !groupOld 0 kv.2) && !coreWrites s kc.1) = true
       ∧ (s.paths.all fun kv => kv.2.all fun r => !pathOld 0 r) = true)
    ∧ (let s : State := { State.reset with ctl := [(0x0C08, 0x5001)] }
       (ctlR s (0x0C00 + 8 * 1)).getLsbD 0 = true ∧ quadIdle s 1 = true)
    ∧ (mfind { State.reset with retrain := [(2, 8)] }.retrain 2 = some 8)
    ∧ (coreIdle State.reset 5 = true)
    ∧ State.reset.thermalStop = false := by decide +kernel

/-- A save of the only core's unit into the area at `a`, with `n` writes done. -/
def wSaving (a n : Nat) : Save := { parts := [{ core := 0, area := a, units := [0] }], cause := .cmd, done := n }

theorem witness_contexts_and_saves :
    (mfind { State.reset with faccDone := true }.ctxs 5 = none ∧ (1 : DWord).getLsbD 0 = true)
    ∧ (mfind State.reset.ctxs 5 = none ∧ State.reset.faccDone = false)
    ∧ (∀ h ∈ [Hold.driver true none, .driver false none, .none],
        let s := wState { wGroup with held := h }
        getGroup s 0 0 = some { wGroup with held := h } ∧ mrising (getCore s 0).groups = true ∧ mrising s.cores = true)
    ∧ (let s := wState wGroup
       (mfind s.ctxs (wfld 0 0 6)).isSome = true ∧ (ctlR s 0x0820).getLsbD 0 = false
       ∧ (s.cores.all fun kc => kc.2.mx.run.isEmpty && kc.2.saving.isNone) = true)
    ∧ (let s : State := { State.reset with ctxs := [(3, { root := 0, cthii := 0, jobtab := 0, killing := true })] }
       killing s = some 3 ∧ killReady s 3 = true ∧ frFull { s with ctl := mset s.ctl 0x0908 4 } = false
       ∧ killing { s with ctl := mset s.ctl 0x0908 4 } = some 3 ∧ killReady { s with ctl := mset s.ctl 0x0908 4 } 3 = true
       ∧ jobsHeld { s with ctl := mset s.ctl 0x0908 4 } 3 = false)
    ∧ (let s := wState wGroup
       wfld 0x100000 8 2 = 0 ∧ wfld 0x100000 0 8 = 0 ∧ savestBusy s = false ∧ inSave s 0 = false ∧ pairOther s 0 = none)
    ∧ savestBusy { State.reset with ctl := [(0x0808, 1)] } = true
    ∧ wfld 0x100100 8 2 = 1 ∧ savestBusy State.reset = false
    ∧ areaHeld State.reset 0x100000 4096 = false ∧ areaHeld State.reset 0 4096 = false
    ∧ (match restorePlan State.reset (wfld 0x100100 0 8) (wfld 0x100100 12 40 * 4096)
          (wfld (ctlR State.reset 0x0810) 12 40 * 4096) with | .error r => r == 4 | .ok _ => false) = true
    ∧ (∀ s ∈ [State.reset, { State.reset with ctl := [(0x3028, 0x100000)] }, { wState wGroup with ctl := [(0x3028, 0x100000)] }],
        (getCore s 5).isolated = false ∧ pairOther s 5 = none ∧ inSave s 5 = false ∧ (areaReg s 5 = 0 ↔ s = State.reset)
        ∧ (s.ctxs = [] ∨ s.cores ≠ [])) := by decide +kernel

theorem witness_host_writes :
    State.reset.faccDone = false ∧ { State.reset with faccDone := true }.faccDone = true
    ∧ (let s : State := { State.reset with facc := [(0, 0x1FF)], faccDone := true, ctl := [(0x1008, 0x10000)]
                                           ranges := [(5, [0x20071, 0x10000, 0, 0, 0])] }
       feature s 4 = true ∧ wfld (0x70001 : DWord) 4 4 = 0 ∧ wfld (0x70071 : DWord) 4 4 = 7 ∧ wfld (ctlR s 0x1008) 16 36 ≠ 0
       ∧ (∀ kv ∈ s.ranges, ¬(wfld (0x70071 : DWord) 16 36 * 65536 < wfld (kv.2.getD 0 0) 16 36 * 65536 + 65536))
       ∧ ∃ kv ∈ s.ranges, kv.1 ≠ 0 ∧ wfld (0x20071 : DWord) 16 36 * 65536 < wfld (kv.2.getD 0 0) 16 36 * 65536 + 65536
           ∧ wfld (kv.2.getD 0 0) 16 36 * 65536 < wfld (0x20071 : DWord) 16 36 * 65536 + 65536)
    ∧ State.reset.tlbBusy = none ∧ wfld (0 : DWord) 0 2 ≠ 3
    ∧ (regionsBad { State.reset with ctl := mput 0 State.reset.ctl 0x0610 0 } = false)
    ∧ (regionsBad { State.reset with ctl := mput 0 State.reset.ctl 0x0610 1 } = false)
    ∧ (regionsBad { State.reset with ctl := mput 0 (mput 0 State.reset.ctl 0x0618 1) 0x0610 1 } = true)
    ∧ (wState wGroup).ctxs ≠ []
    ∧ (mget {} State.reset.lqs (3 * 16 + 2)).packets = [] ∧ (mget {} State.reset.lqs (3 * 16 + 2)).logn ≤ 16
    ∧ wfld (0x5001 : DWord) 52 12 = 0 ∧ wfld (0x5001 : DWord) 1 11 = 0 ∧ (7 : DWord).toNat ≤ 16
    ∧ (getDome State.reset 7).ret = false ∧ liveOthers State.reset 7 ≠ []
    ∧ (ctlR State.reset (0x0C00 + 8 * 7)).getLsbD 0 = false
    ∧ (ctlR State.reset (0x0B00 + 8 * 7)).getLsbD 0 = false ∧ wfld (0x81 : DWord) 4 4 = 8 ∧ mfind State.reset.retrain 7 = none
    ∧ (State.reset.cores.all fun kc => kc.2.saving.isNone) = true
    ∧ plainMask State.reset 0x0810 ≠ 0 ∧ 0x0810 < 0x3000 ∧ plainMask State.reset 0x0218 = 0 := by decide +kernel

/-- A core in that save, its groups drained, and room in the fault ring; and one with a store in SQ, one that a PAGE holds, and one
without room in the ring. -/
theorem witness_save :
    let sv := wSaving 0x100000 0
    let s : State := { setCore (wState wGroup) 0 { getCore (wState wGroup) 0 with saving := some sv, quiesced := true } with
                       ctl := mset State.reset.ctl 0x0908 4 }
    let x (g : Group) (v : Save) : State := setCore (wState g) 0 { getCore (wState g) 0 with saving := some v, quiesced := true }
    (getCore s 0).saving = some sv ∧ sv.held = none ∧ sv.parts.all (partDrained s) = true ∧ frHas s sv.parts.length = true ∧ sv.parts ≠ []
    ∧ ((getCore (x wGroup sv) 0).saving = some sv
        ∧ frHas { x wGroup sv with ctl := mset State.reset.ctl 0x0908 2 } sv.parts.length = false)
    ∧ sv.parts.all (partDrained (x { wGroup with sq := [wStored 1 .st] } sv)) = false
    ∧ ({ sv with held := some 0 } : Save).held ≠ none := by
  decide +kernel

/-- A saved image of an empty core at 0x100000. -/
def wImage : State :=
  { wState wGroup with
    mem := memWrites (memWrites wTables 0x100000 (bytesOf 4 saMagic ++ [1])) 0x100020 ([1] ++ List.replicate 15 0 ++ [0, 1]) }

theorem witness_restore :
    wfld 0x100105 8 2 = 1 ∧ wfld 0x100105 0 8 = 5 ∧ savestBusy wImage = false
    ∧ areaHeld wImage 0x100000 4096 = false ∧ areaHeld wImage 0 4096 = false
    ∧ frFull { wImage with ctl := mset State.reset.ctl 0x0908 4 } = false ∧ rangeHeld wImage 0 0x100000 0x2000 .load = false
    ∧ (match restorePlan wImage 5 (wfld 0x100105 12 40 * 4096) (wfld (ctlR wImage 0x0810) 12 40 * 4096) with
       | .ok [(core, ctx, _)] => core == 5 && ctx == 0 | _ => false) = true := by decide +kernel

/-- The machine of `wState` with a mailbox command of given words in the ring. -/
def wMail (g : Group) (w0 w1 : DWord) : State :=
  { wState g with ctl := [(0x10000, 1), (0x11000, w0), (0x11008, w1)] }

theorem witness_mailbox :
    (∀ op ∈ ([1, 2, 3, 4, 5, 6, 7, 8] : List Nat), ∀ h ∈ [true, false],
      let g : Group := { wGroup with halted := h }
      let s := wMail g (dw (op + 9 * 2 ^ 32)) 0x500
      cmdNext s = some ((List.range 8).map fun i => if i = 0 then dw (op + 9 * 2 ^ 32) else if i = 1 then 0x500 else 0)
      ∧ (match cmdNext s with
         | some c => !cmdBad c && c.op == op && decide (c.core < 192) && c.cls == 0 && c.idx == 5 && c.lane == 0
             && cmdGroup (setCore s c.core { getCore s c.core with gated := false }) c == some g
             && (cmdUnit (setCore s c.core { getCore s c.core with gated := false }) c).isSome
             && stepOk g .a == h && g.step.isNone && g.wpPend.isEmpty
         | none => false) = true)
    ∧ (let s := wMail { wGroup with halted := true } 7 0x502
       match cmdNext s with | some c => c.cls == 2 && c.idx == 5 | none => false) = true
    ∧ (let g : Group := { wRec with halted := true, ptrace := [.a] }
       (match cmdNext (wMail g 7 0x603) with | some c => c.cls == 3 && c.idx == 6 | none => false) = true
       ∧ g.recording = true ∧ g.hsp.toNat + 16 ≤ g.hlim.toNat)
    ∧ (match cmdNext (wMail { wGroup with halted := true } 8 4) with | some c => c.cls == 4 && c.op == 8 | none => false) = true
    ∧ (let s := wMail { wGroup with halted := true } 7 0x4000
       match cmdNext s with | some c => c.cls == 0 && c.idx == 64 | none => false) = true
    ∧ (let s := wMail wGroup (dw (1 + 4 * 2 ^ 22)) 0
       match cmdNext s with
       | some c => !cmdBad c && cmdGroup (setCore s c.core { getCore s c.core with gated := false }) c == none
       | none => false) = true
    ∧ (match cmdNext (wMail wGroup 0 0) with | some c => cmdBad c | none => false) = true := by decide +kernel

/-- A back-step over an ADDIN: the command, the group that it names, and the step that it tries. -/
theorem witness_back_step :
    let g : Group := { wGroup with pathA := some { wPath with ii := 6 }, ic := 3, halted := true }
    let s : State := { wRevState g (words 0x40010010 0x00004002 0) with ctl := [(0x10000, 1), (0x11000, 6)] }
    feature s 0 = true ∧ g.spec = none ∧ g.rev = none ∧ g.held = .none ∧ g.colop = none ∧ g.counting = true
    ∧ (getCore s 0).quiesced = false
    ∧ (match cmdNext s with
       | some c => c.op == 6 && !cmdBad c && cmdGroup (setCore s 0 { getCore s 0 with gated := false }) c == some g
       | none => false) = true
    ∧ g.recb = false
    ∧ (match revTry (setCore s 0 { getCore s 0 with gated := false }) 0 0 with
       | .ok (x, _) => (getGroup (revEnd x 0 0) 0 0).isSome | .error _ => false) = true := by decide +kernel

end Sys2Proof.Tests
end

/-! Arrivals at a transaction barrier (R105, R177, R179, R182): one equation per branch of `arrive`, and what a phase's end files. -/

namespace Sys2Proof.Machine

/-! ### PHIST -/

/-- PHIST keeps the statuses of the other phases and takes the new one (R177). -/
theorem getLsbD_phistSet (h : BitVec 16) (st : Bool) {phase k : Nat} (hp : phase < 16) (hk : k < 16) :
    (phistSet h phase st).getLsbD k = if k = phase then st else h.getLsbD k := by
  have hbit : ((1 : BitVec 16) <<< phase).getLsbD k = decide (k = phase) := by
    change (BitVec.twoPow 16 phase).getLsbD k = _
    simp [BitVec.getLsbD_twoPow, hp, eq_comm]
  cases st with
  | true => by_cases hkp : k = phase <;> simp only [phistSet, if_true, BitVec.getLsbD_or, hbit] <;> simp [hkp]
  | false =>
    by_cases hkp : k = phase <;>
      simp only [phistSet, Bool.false_eq_true, if_false, BitVec.getLsbD_and, BitVec.getLsbD_not, hbit] <;> simp [hkp, hk]

/-! ### The cause that a completion appends -/

/-- No cause is appended without UIE, and one for a group that has ended is discarded (R182). -/
theorem appendCause_none_due {s : State} {core unit : Nat} {b : Barrier} (bar kind : Nat)
    (h : b.uie = false ∨ armTarget s core unit b.armgrp = none) : appendCause s core unit bar kind b = some s := by
  unfold appendCause
  obtain hu | ht := h
  · simp [hu]
  · simp [ht]

theorem appendCause_full {s : State} {core unit gs : Nat} {b : Barrier} {g : Group} (bar kind : Nat) (hu : b.uie = true)
    (ht : armTarget s core unit b.armgrp = some (gs, g)) (hg : 16 ≤ g.causes.length) :
    appendCause s core unit bar kind b = none := by
  simp [appendCause, hu, ht, hg]

theorem appendCause_room {s : State} {core unit gs : Nat} {b : Barrier} {g : Group} (bar kind : Nat) (hu : b.uie = true)
    (ht : armTarget s core unit b.armgrp = some (gs, g)) (hg : g.causes.length < 16) :
    appendCause s core unit bar kind b
      = some (setGroup s core gs { g with causes := g.causes ++ [dw (kind + bar * 2 ^ 8 + b.phase * 2 ^ 16)] }) := by
  simp [appendCause, hu, ht, Nat.not_le.mpr hg]

/-! ### Arrive -/

/-- A barrier that is set up after Arrive(b, ds, n, p), before the end of a phase is looked for (R105). -/
def Barrier.arrived (b : Barrier) (ds : BitVec 32) (n : Nat) (p : Bool) : Barrier :=
  { b with sectors := b.sectors + ds, pending := b.pending - n, poison := b.poison || p }

/-- A unit whose barrier `bar`, standing at `b`, ends its phase (R105, R177). -/
def Unit.phaseDone (u : Unit) (bar : Nat) (b : Barrier) : Unit :=
  { u.setBar bar b.next with phist := mput 0 u.phist bar (phistSet (mget 0 u.phist bar) b.phase b.poison) }

section
variable {s : State} {core unit bar n : Nat} {u : Unit} {b : Barrier} {ds : BitVec 32} {p : Bool}

/-- A barrier that is not set up only adds sectors (R179). -/
theorem arrive_unset (hu : getUnit s core unit = some u) (hb : u.bar bar = b) (hr : b.reload = 0) :
    arrive s core unit bar ds n p
      = some (setUnit s core unit (u.setBar bar { b with sectors := b.sectors + ds })) := by
  simp [arrive, hu, hb, hr]

theorem arrive_waits (hu : getUnit s core unit = some u) (hb : u.bar bar = b) (hr : b.reload ≠ 0) (hp : b.pending = 0) :
    arrive s core unit bar ds 1 p = none := by
  simp [arrive, hu, hb, hr, hp]

theorem arrive_goesOn (hu : getUnit s core unit = some u) (hb : u.bar bar = b) (hr : b.reload ≠ 0)
    (hw : ¬(n = 1 ∧ b.pending = 0)) (he : ¬(b.pending - n = 0 ∧ b.sectors + ds = 0)) :
    arrive s core unit bar ds n p = some (setUnit s core unit (u.setBar bar (b.arrived ds n p))) := by
  simp only [arrive, hu, hb, if_neg hr, if_neg hw, if_neg he, Barrier.arrived]

/-- The end of a phase waits for the cause that it appends (R105, R182). -/
theorem arrive_ends (hu : getUnit s core unit = some u) (hb : u.bar bar = b) (hr : b.reload ≠ 0)
    (hw : ¬(n = 1 ∧ b.pending = 0)) (he : b.pending - n = 0 ∧ b.sectors + ds = 0) :
    arrive s core unit bar ds n p
      = (appendCause s core unit bar (if b.poison || p then 2 else 1) (b.arrived ds n p)).map
          fun s => setUnit s core unit (u.phaseDone bar (b.arrived ds n p)) := by
  simp only [arrive, hu, hb, if_neg hr, if_neg hw]
  exact if_pos he

end

/-- Settles O45: each clause is the branch of Arrive that its hypotheses select; what a phase's end files is `getLsbD_phistSet`. -/
theorem barrierPhases : Obligations.BarrierPhases := by
  intro s core unit bar ds n p u hu b
  have hwait (hn : n = 0 ∨ b.pending ≠ 0) : ¬(n = 1 ∧ b.pending = 0) := by omega
  refine ⟨fun hr => arrive_unset hu rfl hr, fun hr hn hp => ?waits, fun hr hn _ he => arrive_goesOn hu rfl hr (hwait hn) he,
    fun hr hn _ he => ?ends⟩
  case waits => exact hn ▸ arrive_waits hu rfl hr hp
  case ends =>
    intro done files
    let h := phistSet (mget 0 u.phist bar) b.phase (b.poison || p)
    have hfiles : files h := fun hph _ hk => getLsbD_phistSet _ _ hph hk
    have hdone : u.phaseDone bar (b.arrived ds n p) = done h := by
      simp only [Unit.phaseDone, Barrier.arrived, Barrier.next, he.2, done, h]
    have harr := arrive_ends (b := b) (p := p) hu rfl hr (hwait hn) he
    rw [hdone] at harr
    refine ⟨fun hnone => ⟨h, ?_, hfiles⟩, fun gs g huie ht => ⟨fun hfull => ?_, fun hroom => ⟨h, hfiles, ?_⟩⟩⟩
    · rw [harr, appendCause_none_due (b := b.arrived ds n p) _ _ hnone]; rfl
    · rw [harr, appendCause_full (b := b.arrived ds n p) _ _ huie ht hfull]; rfl
    · rw [harr, appendCause_room (b := b.arrived ds n p) _ _ huie ht hroom]; rfl

end Sys2Proof.Machine

/-! A latest-only store at its home (R265, R273) and the result of an ATOM (R357): numbers as bytes, reads of memory that was just
written, what the steps of a store at a home change and leave, and the two outcomes of a latest-only store. -/

namespace Sys2Proof.Machine

/-! ### Numbers and their bytes -/

theorem natOf_div (bs : List Byte) (i : Nat) : natOf bs / 256 ^ i = natOf (bs.drop i) := by
  induction bs generalizing i with
  | nil => simp [natOf]
  | cons b bs ih =>
    cases i with
    | zero => simp
    | succ i =>
      have hb : (b.toNat + 256 * natOf bs) / 256 = natOf bs := by omega
      rw [List.drop_succ_cons, ← ih, natOf, Nat.pow_succ', ← Nat.div_div_eq_div_mul, hb]

theorem bytesOf_natOf {n : Nat} {bs : List Byte} (h : n ≤ bs.length) : bytesOf n (natOf bs) = bs.take n := by
  induction n generalizing bs with
  | zero => simp [bytesOf]
  | succ n ih =>
    cases bs with
    | nil => simp at h
    | cons b bs =>
      have hdiv : natOf (b :: bs) / 256 = natOf bs := by simpa using natOf_div (b :: bs) 1
      have hlow : BitVec.ofNat 8 (natOf (b :: bs)) = b := by
        apply BitVec.eq_of_toNat_eq
        rw [BitVec.toNat_ofNat, natOf]
        omega
      rw [bytesOf, hdiv, hlow, ih (by simpa using h), List.take_succ_cons]

theorem bytesOf_mod (n v : Nat) : bytesOf n (v % 256 ^ n) = bytesOf n v := by
  induction n generalizing v with
  | zero => rfl
  | succ n ih =>
    have hlow : BitVec.ofNat 8 (v % 256 ^ (n + 1)) = BitVec.ofNat 8 v := by
      apply BitVec.eq_of_toNat_eq
      simp only [BitVec.toNat_ofNat]
      exact Nat.mod_mod_of_dvd v (Nat.pow_succ 256 n ▸ Nat.dvd_mul_left 256 (256 ^ n))
    rw [bytesOf, hlow, Nat.pow_succ', Nat.mod_mul_right_div_self, ih, bytesOf]

/-- A field of whole bytes of a number holds the bytes of the list at its place. -/
theorem bytesOf_fld {n i : Nat} {bs : List Byte} (h : i + n ≤ bs.length) :
    bytesOf n (fld (natOf bs) (8 * i) (8 * n)) = (bs.drop i).take n := by
  rw [fld, Nat.pow_mul, Nat.pow_mul, show 2 ^ 8 = 256 from rfl, natOf_div, bytesOf_mod]
  exact bytesOf_natOf (by rw [List.length_drop]; omega)

/-! ### The result of an ATOM -/

theorem sInt_atomNew_minS (n old : Nat) (d : List Byte) :
    sInt (8 * n) (atomNew .minS n old d) = min (sInt (8 * n) old) (sInt (8 * n) (natOf (d.take n))) :=
  (apply_ite (sInt (8 * n)) _ _ _).trans (Int.min_def _ _).symm

theorem sInt_atomNew_maxS (n old : Nat) (d : List Byte) :
    sInt (8 * n) (atomNew .maxS n old d) = max (sInt (8 * n) old) (sInt (8 * n) (natOf (d.take n))) :=
  (apply_ite (sInt (8 * n)) _ _ _).trans (Int.max_def _ _).symm

/-! ### What a latest-only store leaves in its cell -/

/-- SEQ and VALUE are the store's, and RST the cell's, counted up under .md (R272, R273). -/
def stloLeft (md : Bool) (cell bs : List Byte) : List Byte := bs.take 15 ++ [cell.getD 15 0 + if md then 1 else 0]

theorem length_stloLeft {bs : List Byte} (h : bs.length = 16) (md : Bool) (cell : List Byte) :
    (stloLeft md cell bs).length = 16 := by
  simp [stloLeft, h]

theorem take_stloLeft {bs : List Byte} (h : bs.length = 16) (md : Bool) (cell : List Byte) :
    (stloLeft md cell bs).take 15 = bs.take 15 := by
  simp [stloLeft, h]

theorem getD_stloLeft {bs : List Byte} (h : bs.length = 16) (md : Bool) (cell : List Byte) :
    (stloLeft md cell bs).getD 15 0 = cell.getD 15 0 + if md then 1 else 0 := by
  simp [stloLeft, h]

theorem stloCell_dropped {cell bs : List Byte} (h : loSeq bs ≤ loSeq cell) : stloCell false cell bs = none := by
  simp [stloCell, Nat.not_lt.mpr h]

theorem stloCell_applied {md : Bool} {cell bs : List Byte} (hc : cell.length = 16) (hb : bs.length = 16)
    (h : md = true ∨ loSeq cell < loSeq bs) : stloCell md cell bs = some (stloLeft md cell bs) := by
  have hseq : bs.take 8 ++ bytesOf 7 (loSeq bs) = bs.take 15 := by
    rw [loSeq, bytesOf_fld (i := 8) (by omega), ← List.take_add]
  have hrst : bytesOf 1 (fld (natOf cell) 120 8) = [cell.getD 15 0] := by
    have hlast : 15 < cell.length := by omega
    rw [bytesOf_fld (n := 1) (i := 15) (by omega), List.drop_eq_getElem_cons hlast, List.take_succ_cons, List.take_zero,
      List.getElem_eq_getD 0]
  cases md with
  | false =>
    have hgt : loSeq bs > loSeq cell := by simpa using h
    have hsame : cell.getD 15 0 + 0 = cell.getD 15 0 := BitVec.add_zero _
    simp only [stloCell, stloLeft, hgt, hseq, hrst, hsame, if_true, Bool.false_eq_true, if_false]
  | true =>
    have hup : bytesOf 1 ((fld (natOf cell) 120 8 + 1) % 256) = [cell.getD 15 0 + 1] := by
      rw [← List.singleton_inj.mp hrst]
      apply congrArg (· :: [])
      apply BitVec.eq_of_toNat_eq
      simp
    simp only [stloCell, stloLeft, hseq, hup, if_true]

/-! ### Reads of memory -/

theorem length_memReads (m : List Host.Cell) (a n : Nat) : (memReads m a n).length = n := by
  simp [memReads, mgets]

theorem getD_memReads (m : List Host.Cell) (a : Nat) {n i : Nat} (h : i < n) : (memReads m a n).getD i 0 = memRead m (a + i) := by
  simp [memReads, mgets, memRead, h]

theorem memReads_memWrites (m : List Host.Cell) (a : Nat) (bs : List Byte) :
    memReads (memWrites m a bs) a bs.length = bs := by
  apply List.ext_getElem (length_memReads _ _ _)
  intro i _ hi
  rw [List.getElem_eq_getD 0, getD_memReads _ _ hi, memRead_memWrites, if_pos (by omega), Nat.add_sub_cancel_left,
    List.getElem_eq_getD 0]

theorem memRead_memWrites_outside {m : List Host.Cell} {a b : Nat} {bs : List Byte} (h : b < a ∨ a + bs.length ≤ b) :
    memRead (memWrites m a bs) b = memRead m b := by
  rw [memRead_memWrites, if_neg (by omega)]

/-- Without a dead granule the home reads the memory as it stands (R308). -/
theorem devRead_alive {s : State} (h : s.dead = []) (a n : Nat) : devRead s a n = memReads s.mem a n := by
  simp [devRead, h, memReads, mgets, memRead]

theorem withWrites_nil (a : Nat) (bs : List Byte) : withWrites [] a bs = bs := by
  simp [withWrites, List.zipIdx_map_fst]

/-! ### The steps of a store at the home of a device granule -/

@[simp] theorem getCore_pushResp_resp (s : State) (c c' : Nat) (m : Resp) :
    (getCore (pushResp s c m) c').resp = (getCore s c').resp ++ if c = c' then [m] else [] := by
  rw [pushResp, getCore_setCore]
  split
  · subst_vars; rfl
  · simp

theorem granOf_setGran (s : State) (a b : Nat) (g : HomeGran) :
    granOf (setGran s a g) b = if b / 32 = a / 32 then g else granOf s b := by
  simp only [granOf, setGran, mget_mput, eq_comm (a := a / 32)]

/-- A demotion that is sent changes the owner's answers and the count of demotions alone. -/
theorem sendDemote_frame (s : State) (w : Option Nat) (a : Nat) :
    ∃ cores n, (sendDemote s w a).1 = { s with cores := cores, demId := n } := by
  unfold sendDemote
  split
  · split
    · exact ⟨_, _, rfl⟩
    · exact ⟨_, _, rfl⟩
  · exact ⟨_, _, rfl⟩

/-- A demotion is sent to the owner, unless it is the writer (R265). -/
theorem sendDemote_ids (s : State) (c a : Nat) :
    (sendDemote s (some c) a).2 = match (granOf s a).owner with
      | some o => if o = c then [] else [s.demId]
      | none => [] := by
  cases ho : (granOf s a).owner with
  | none => simp only [sendDemote, ho]
  | some o =>
    simp only [sendDemote, ho, Option.some.injEq, eq_comm (a := c)]
    split <;> rfl

theorem getCore_sendDemote_writer (s : State) (c a : Nat) : getCore (sendDemote s (some c) a).1 c = getCore s c := by
  unfold sendDemote
  split
  case h_1 o _ =>
    split
    · rfl
    case isFalse hne =>
      have hoc : o ≠ c := fun h => hne (congrArg some h.symm)
      rw [pushResp, getCore_setCore, if_neg hoc]
      rfl
  · rfl

theorem resp_sendDemote_owner {s : State} {c a o : Nat} (ho : (granOf s a).owner = some o) (hne : o ≠ c) :
    (getCore (sendDemote s (some c) a).1 o).resp = (getCore s o).resp ++ [.demote s.demId (a / 32)] := by
  have hw : ¬ some c = some o := fun h => hne (Option.some.inj h).symm
  simp only [sendDemote, ho, if_neg hw, getCore_pushResp_resp, if_true]
  rfl

/-- A device store of a core before its acknowledgement: the demotion, the bytes, and the new version and owner (R265). -/
def devStored (s : State) (core addr : Nat) (ws : List (Nat × List Byte)) : State :=
  let t := devWrites (sendDemote s (some core) addr).1 addr ws
  setGran t addr { ver := (granOf t addr).ver + 1, owner := some core }

theorem serveDevStore_ack {r : Req} (h : ∀ e x, r.kind ≠ .eng e x) (s : State) (core : Nat) (ws : List (Nat × List Byte))
    (olds : List (Nat × Nat × List Byte)) :
    let t := devStored s core r.addr ws
    serveDevStore s core r ws olds
      = pushResp t core (.ack r.gslot r.seq olds r.gone .dev (r.addr / 32) (granOf t r.addr).ver (granVal t r.addr) false
          (sendDemote s (some core) r.addr).2) := by
  simp only [serveDevStore]
  rfl

theorem plainAck_ack {r : Req} (h : ∀ e x, r.kind ≠ .eng e x) (s : State) (core : Nat) (olds : List (Nat × Nat × List Byte))
    (bad : Bool) :
    plainAck s core r olds bad = pushResp s core (.ack r.gslot r.seq olds r.gone .host 0 0 none bad []) := by
  simp only [plainAck]

/-- The writes themselves change the memory and what is known of its errors alone. -/
theorem devWrites_frame (s : State) (a : Nat) (ws : List (Nat × List Byte)) :
    ∃ mem dead uncorr, devWrites s a ws = { s with mem := mem, dead := dead, uncorr := uncorr } := by
  unfold devWrites
  split
  · exact ⟨_, _, _, rfl⟩
  · exact ⟨_, _, _, rfl⟩

theorem devWrites_mem {s : State} (h : s.rowsBad = []) (a : Nat) (ws : List (Nat × List Byte)) :
    (devWrites s a ws).mem = ws.foldl (fun m w => memWrites m w.1 w.2) s.mem := by
  have hgone : ¬ rowsGone s a = true := by simp [rowsGone, h]
  rw [devWrites, if_neg hgone]

section
variable (s : State) (core addr : Nat) (ws : List (Nat × List Byte))

theorem getCore_devStored (c : Nat) : getCore (devStored s core addr ws) c = getCore (sendDemote s (some core) addr).1 c := by
  obtain ⟨_, _, _, h⟩ := devWrites_frame (sendDemote s (some core) addr).1 addr ws
  rw [getCore, devStored, setGran_cores, h]
  rfl

theorem pathReqs_devStored (c home : Nat) : pathReqs (devStored s core addr ws) c home = pathReqs s c home := by
  obtain ⟨_, _, _, h⟩ := devWrites_frame (sendDemote s (some core) addr).1 addr ws
  obtain ⟨_, _, h'⟩ := sendDemote_frame s (some core) addr
  rw [pathReqs, devStored, setGran_paths, h, h']
  rfl

theorem granOf_devStored (a : Nat) :
    granOf (devStored s core addr ws) a
      = if a / 32 = addr / 32 then { ver := (granOf s a).ver + 1, owner := some core } else granOf s a := by
  obtain ⟨_, _, _, h⟩ := devWrites_frame (sendDemote s (some core) addr).1 addr ws
  obtain ⟨_, _, h'⟩ := sendDemote_frame s (some core) addr
  have hgran (b : Nat) : granOf (devWrites (sendDemote s (some core) addr).1 addr ws) b = granOf s b := by rw [h, h']; rfl
  rw [devStored, granOf_setGran, hgran, hgran]
  split
  case isTrue hsame => simp only [granOf, hsame]
  · rfl

theorem devStored_mem (h : s.rowsBad = []) :
    (devStored s core addr ws).mem = ws.foldl (fun m w => memWrites m w.1 w.2) s.mem := by
  obtain ⟨_, _, h'⟩ := sendDemote_frame s (some core) addr
  have hrows : (sendDemote s (some core) addr).1.rowsBad = [] := by rw [h']; exact h
  rw [devStored, setGran_mem, devWrites_mem hrows, h']

end

/-! ### HOME_DELIVER of a latest-only store -/

/-- The state in which a home serves a request that it has taken off its path (R265, R303). -/
def takenReq (s : State) (core home : Nat) (rs : List Req) (addr : Nat) : State :=
  pinHit { s with paths := mput [] s.paths (pathKey core home) rs } addr

theorem homeDeliver_stlo {s : State} {core home : Nat} {r : Req} {rs : List Req} {md : Bool}
    (hp : pathReqs s core home = r :: rs) (ht : r.tgt = .dev) (hk : r.kind = .stlo md)
    (hh : home < 80 → mfind s.retrain (home / 10) = none) :
    exec (.homeDeliver core home .none) s = .next (serveStlo (takenReq s core home rs r.addr) core r md) := by
  have hheld : homeHeld s home = false := by
    by_cases h : home < 80
    · simp [homeHeld, hh h]
    · simp [homeHeld, h]
  change execHomeDeliver core home .none s = _
  simp [execHomeDeliver, hheld, bitError, hp, ht, hk, linkLost, serve, takenReq]

theorem pathReqs_takenReq (s : State) (core home : Nat) (rs : List Req) (addr : Nat) :
    pathReqs (takenReq s core home rs addr) core home = rs := by
  rw [pathReqs, takenReq, pinHit, mget_mput, if_pos rfl]

theorem serveStlo_dropped {s : State} {r : Req} {k : RPart} {md : Bool} (hparts : r.parts = [k]) (hdead : s.dead = [])
    (h : stloCell md (memReads s.mem k.addr 16) k.bytes = none) (core : Nat) :
    serveStlo s core r md = plainAck s core r r.olds false := by
  simp [serveStlo, hparts, withWrites_nil, devRead_alive hdead, h]

theorem serveStlo_applied {s : State} {r : Req} {k : RPart} {md : Bool} {bs : List Byte} (hparts : r.parts = [k])
    (hdead : s.dead = []) (h : stloCell md (memReads s.mem k.addr 16) k.bytes = some bs) (core : Nat) :
    serveStlo s core r md = serveDevStore s core r [(k.addr, bs)] r.olds := by
  simp [serveStlo, hparts, withWrites_nil, devRead_alive hdead, h]

section
variable {s : State} {core home : Nat} {r : Req} {rs : List Req} {k : RPart} {md : Bool}

/-- What the answer of a latest-only store of one lane names. -/
theorem olds_gone_single (hparts : r.parts = [k]) : r.olds = [(k.lane, k.off, [])] ∧ r.gone = k.removed := by
  simp [Req.olds, Req.gone, hparts]

/-- A store whose SEQ is not higher than the cell's is acknowledged and does nothing else (R273). -/
theorem serveStlo_notHigher (hk : r.kind = .stlo false) (hparts : r.parts = [k]) (hdead : s.dead = [])
    (h : loSeq k.bytes ≤ loSeq (memReads s.mem k.addr 16)) :
    serveStlo s core r false
      = pushResp s core (.ack r.gslot r.seq [(k.lane, k.off, [])] k.removed .host 0 0 none false []) := by
  obtain ⟨holds, hgone⟩ := olds_gone_single hparts
  rw [serveStlo_dropped hparts hdead (stloCell_dropped h), plainAck_ack (by simp [hk]), holds, hgone]

/-- A store of a higher SEQ, or under .md, is a device store of what it leaves in the cell (R273). -/
theorem serveStlo_higher (hk : r.kind = .stlo md) (hparts : r.parts = [k]) (hdead : s.dead = []) (hlen : k.bytes.length = 16)
    (h : md = true ∨ loSeq (memReads s.mem k.addr 16) < loSeq k.bytes) :
    let t := devStored s core r.addr [(k.addr, stloLeft md (memReads s.mem k.addr 16) k.bytes)]
    serveStlo s core r md
      = pushResp t core (.ack r.gslot r.seq [(k.lane, k.off, [])] k.removed .dev (r.addr / 32) ((granOf s r.addr).ver + 1)
          (granVal t r.addr) false (sendDemote s (some core) r.addr).2) := by
  intro t
  obtain ⟨holds, hgone⟩ := olds_gone_single hparts
  have hver : (granOf t r.addr).ver = (granOf s r.addr).ver + 1 := by rw [granOf_devStored, if_pos rfl]
  rw [serveStlo_applied hparts hdead (stloCell_applied (length_memReads _ _ _) hlen h), serveDevStore_ack (by simp [hk]),
    holds, hgone, hver]

end

/-- Settles O37: an ATOM by its operations; a latest-only store by its two outcomes, `serveStlo_notHigher` and
`serveStlo_higher`. -/
theorem atomicResults : Obligations.AtomicResults := by
  refine ⟨fun n old d _ _ _ _ =>
    ⟨rfl, rfl, rfl, rfl, rfl, rfl, rfl, sInt_atomNew_minS n old d, sInt_atomNew_maxS n old d, rfl⟩, ?_⟩
  intro s core home r rs k md hp ht hk hparts hrows hdead _ hlen hh cell
  let s' := takenReq s core home rs r.addr
  by_cases h : md = true ∨ loSeq cell < loSeq k.bytes
  case neg =>
    obtain ⟨hmd, hle⟩ : md = false ∧ loSeq k.bytes ≤ loSeq cell := by simpa using h
    subst hmd
    refine ⟨_, homeDeliver_stlo hp ht hk hh, ?_⟩
    rw [serveStlo_notHigher (s := s') hk hparts hdead hle]
    refine ⟨pathReqs_takenReq s core home rs r.addr, fun _ _ => rfl, fun _ _ => ⟨rfl, rfl, ?ack, fun c hc => ?others⟩,
      fun h' => absurd h' h⟩
    case ack => rw [getCore_pushResp_resp, if_pos rfl]; rfl
    case others => rw [getCore_pushResp_resp, if_neg hc.symm, List.append_nil]; rfl
  case pos =>
    let left := stloLeft md cell k.bytes
    let t := devStored s' core r.addr [(k.addr, left)]
    have hleft : left.length = 16 := length_stloLeft hlen md cell
    have hmem : t.mem = memWrites s.mem k.addr left := devStored_mem s' core r.addr [(k.addr, left)] hrows
    refine ⟨_, homeDeliver_stlo hp ht hk hh, ?_⟩
    rw [serveStlo_higher (s := s') hk hparts hdead hlen h]
    refine ⟨?path, fun a ha => ?outside, fun hmd hle => ?dropped,
      fun _ => ⟨?cell, ?rst, fun a => ?gran, ?ack, fun o ho hne => ?demote⟩⟩
    case path => exact (pathReqs_devStored s' core r.addr _ core home).trans (pathReqs_takenReq s core home rs r.addr)
    case outside =>
      change memRead t.mem a = _
      rw [hmem, memRead_memWrites_outside (by omega)]
    case dropped => exact absurd h (by simp [hmd, hle])
    case cell =>
      change (memReads t.mem k.addr 16).take 15 = _
      rw [hmem, ← hleft, memReads_memWrites, take_stloLeft hlen]
    case rst =>
      change memRead t.mem (k.addr + 15) = _
      rw [hmem, memRead_memWrites, if_pos (by omega), Nat.add_sub_cancel_left, getD_stloLeft hlen, getD_memReads _ _ (by omega)]
    case gran => exact granOf_devStored s' core r.addr _ a
    case ack =>
      rw [getCore_pushResp_resp, if_pos rfl, getCore_devStored, getCore_sendDemote_writer, sendDemote_ids]
      rfl
    case demote =>
      rw [getCore_pushResp_resp, if_neg (Ne.symm hne), List.append_nil, getCore_devStored]
      exact resp_sendDemote_owner (s := s') ho hne

end Sys2Proof.Machine
